-- ==== Sys2Proof/Word.lean ====
section
/-! DEFINITION. The words of CORE (00_scope.md rule R12).
Bit 0 is the least significant bit of every integer shown with bit numbers. -/

namespace Sys2Proof

/-- A command word `CW` (R102). -/
abbrev Word := BitVec 32

/-- An 8-bit quantity: a command-word byte, a dead-time code, a pin number, a callback id. -/
abbrev Byte := BitVec 8

/-- A 4-bit quantity: an interrupt priority, a status code. -/
abbrev Nibble := BitVec 4

/-- A 16-bit register-file field address (R70). -/
abbrev FieldAddr := BitVec 16

/-- The width at which output-enable masks are held. `NPWM` is at most 255 (R6). -/
abbrev PinMask := BitVec 255

/-- The two directions (R37): code 0 is `FORWARD`, code 1 is `REVERSE`. -/
inductive Direction where
  | forward
  | reverse
deriving DecidableEq, Repr, Inhabited

end Sys2Proof
end

