-- ==== Sys2Proof/Syntax.lean ====
section
/-! DEFINITION. The 21 commands of CORE, one constructor per row of spec/opcode_table.json
(30_encoding.md rule R104). -/

namespace Sys2Proof

/-- A command as its 32-bit word names it. Operand lanes are not part of the word: they are
delivered beside it (R102) and stand in the machine's state. -/
inductive Instr where
  /-- `WRF addr, value`: register write (R292). -/
  | wrf (addr : FieldAddr)
  /-- `RDF addr`: register read (R293). -/
  | rdf (addr : FieldAddr)
  /-- `DTENC ns, clockHz, fsw`: dead-time encoder (R138). -/
  | dtenc
  /-- `TINIT t, s`: timer initialisation from a slot (R151). -/
  | tinit (t sl : Nat)
  /-- `CFGPAIR n, s`: configure an inverted pair (R155). -/
  | cfgpair (n sl : Nat)
  /-- `CFGCH n, s`: configure a single channel (R156). -/
  | cfgch (n sl : Nat)
  /-- `UPDPAIR n, s, duty`: duty update of a pair (R161). -/
  | updpair (n sl : Nat)
  /-- `UPDCH n, s, duty`: duty update of a single channel (R162). -/
  | updch (n sl : Nat)
  /-- `CFGIRQ t, enable, cb, priority`: reset-interrupt callback (R170). -/
  | cfgirq (t : Nat) (cb : Byte) (priority : Nibble) (enable : Bool)
  /-- `CFGLEG l`: configure a power-module leg (R201). -/
  | cfgleg (l : Nat)
  /-- `ENLEG l, enable`: output enable of a leg (R207). -/
  | enleg (l : Nat) (enable : Bool)
  /-- `CAPUPD l, duty`: a leg's cached duty-update capability (R204). -/
  | capupd (l : Nat)
  /-- `INVINIT i`: inverter initialisation (R220). -/
  | invinit (i : Nat)
  /-- `INVUPD i, d0, d1, d2`: inverter duty update (R222). -/
  | invupd (i : Nat)
  /-- `INVSPWM i, dir, theta, mi`: sinusoidal duty update (R223). -/
  | invspwm (i : Nat) (direction : Direction)
  /-- `INVACT i, enable`: inverter activation (R226). -/
  | invact (i : Nat) (enable : Bool)
  /-- `PSFBINIT j`: full-bridge initialisation (R230). -/
  | psfbinit (j : Nat)
  /-- `PSFBUPD j, duty`: full-bridge phase shift (R231). -/
  | psfbupd (j : Nat)
  /-- `PSFBACT j, enable`: full-bridge activation (R233). -/
  | psfbact (j : Nat) (enable : Bool)
  /-- `VFINIT k`: ramp-controller creation (R261). -/
  | vfinit (k : Nat)
  /-- `VFSTEP k`: one ramp-controller cycle (R262). -/
  | vfstep (k : Nat)
deriving DecidableEq, Repr, Inhabited

end Sys2Proof
end

