-- ==== Sys2Proof/WellFormed.lean ====
section
/-! DEFINITION. Which `Instr` terms a command word can carry: every index operand fits its 8-bit
field of the word (30_encoding.md rules R102, R103). Range checks against the record counts are not
well-formedness: they belong to the operation (R105). -/

namespace Sys2Proof

/-- An index operand fits one byte of the command word (R102). -/
def fitsByte (n : Nat) : Bool := n < 256

/-- Every operand of the command fits its field of the command word (R102). The fields `addr`, `cb`,
`priority`, `enable` and `direction` fit by their types. -/
def Instr.wellFormed : Instr → Bool
  | .wrf _ => true
  | .rdf _ => true
  | .dtenc => true
  | .tinit t sl => fitsByte t && fitsByte sl
  | .cfgpair n sl => fitsByte n && fitsByte sl
  | .cfgch n sl => fitsByte n && fitsByte sl
  | .updpair n sl => fitsByte n && fitsByte sl
  | .updch n sl => fitsByte n && fitsByte sl
  | .cfgirq t _ _ _ => fitsByte t
  | .cfgleg l => fitsByte l
  | .enleg l _ => fitsByte l
  | .capupd l => fitsByte l
  | .invinit i => fitsByte i
  | .invupd i => fitsByte i
  | .invspwm i _ => fitsByte i
  | .invact i _ => fitsByte i
  | .psfbinit j => fitsByte j
  | .psfbupd j => fitsByte j
  | .psfbact j _ => fitsByte j
  | .vfinit k => fitsByte k
  | .vfstep k => fitsByte k

end Sys2Proof
end

