-- ==== Sys2Proof/Decode.lean ====
section
/-! DEFINITION. Decoding and encoding of command words (30_encoding.md rules R102 to R106).
Decoding is total, needs `CW` alone, and rejects by name. -/

namespace Sys2Proof

/-- Why a word is no command (R106). Both end the command with `ERR_ILLEGAL_OP`. -/
inductive DecodeError where
  /-- `CW[31:24]` is not in the operation map. -/
  | unlistedOp
  /-- A must-be-zero bit of the operation's format is set. -/
  | mustBeZero
deriving DecidableEq, Repr, Inhabited

/-- `CW[31:24]`, the operation number (R102). -/
def opField (cw : Word) : Byte := cw.extractLsb' 24 8

/-- `CW[23:16]` (R102). -/
def aField (cw : Word) : Byte := cw.extractLsb' 16 8

/-- `CW[15:8]` (R102). -/
def bField (cw : Word) : Byte := cw.extractLsb' 8 8

/-- `CW[7:0]` (R102). -/
def cField (cw : Word) : Byte := cw.extractLsb' 0 8

/-- `CW[23:8]`, the field address of format `A`: `a ‖ b` (R103). -/
def addrField (cw : Word) : FieldAddr := cw.extractLsb' 8 16

/-- `CW[7:4]`, the priority of format `IRQ` (R102). -/
def priorityField (cw : Word) : Nibble := cw.extractLsb' 4 4

/-- `CW[0]`, the flag of formats `UF` and `IRQ` (R102). -/
def flagField (cw : Word) : Bool := cw.getLsbD 0

/-- The direction a flag bit names (R223). -/
def flagDirection (b : Bool) : Direction := if b then .reverse else .forward

/-- The flag bit of a direction (R223). -/
def directionFlag : Direction → Bool
  | .forward => false
  | .reverse => true

/-- Formats `A`, `TS`, `NS`: `CW[7:0]` must be zero (R102). -/
def needZeroC (cw : Word) (i : Instr) : Except DecodeError Instr :=
  if cField cw = 0 then .ok i else .error .mustBeZero

/-- Format `IRQ`: `CW[3:1]` must be zero (R102). -/
def needZeroIrq (cw : Word) (i : Instr) : Except DecodeError Instr :=
  if cw.extractLsb' 1 3 = 0 then .ok i else .error .mustBeZero

/-- Format `U`: `CW[15:0]` must be zero (R102). -/
def needZeroU (cw : Word) (i : Instr) : Except DecodeError Instr :=
  if cw.extractLsb' 0 16 = 0 then .ok i else .error .mustBeZero

/-- Format `UF`: `CW[15:1]` must be zero (R102). -/
def needZeroUF (cw : Word) (i : Instr) : Except DecodeError Instr :=
  if cw.extractLsb' 1 15 = 0 then .ok i else .error .mustBeZero

/-- Format `Z`: `CW[23:0]` must be zero (R102). -/
def needZeroZ (cw : Word) (i : Instr) : Except DecodeError Instr :=
  if cw.extractLsb' 0 24 = 0 then .ok i else .error .mustBeZero

/-- The operation map (R104, R105): the row of `CW[31:24]`, if its must-be-zero bits are zero. -/
def decode (cw : Word) : Except DecodeError Instr :=
  let a := (aField cw).toNat
  let b := (bField cw).toNat
  let f := flagField cw
  match (opField cw).toNat with
  | 0x01 => needZeroC cw (.wrf (addrField cw))
  | 0x02 => needZeroC cw (.rdf (addrField cw))
  | 0x10 => needZeroZ cw .dtenc
  | 0x20 => needZeroC cw (.tinit a b)
  | 0x21 => needZeroC cw (.cfgpair a b)
  | 0x22 => needZeroC cw (.cfgch a b)
  | 0x23 => needZeroC cw (.updpair a b)
  | 0x24 => needZeroC cw (.updch a b)
  | 0x25 => needZeroIrq cw (.cfgirq a (bField cw) (priorityField cw) f)
  | 0x30 => needZeroU cw (.cfgleg a)
  | 0x31 => needZeroUF cw (.enleg a f)
  | 0x32 => needZeroU cw (.capupd a)
  | 0x40 => needZeroU cw (.invinit a)
  | 0x41 => needZeroU cw (.invupd a)
  | 0x42 => needZeroUF cw (.invspwm a (flagDirection f))
  | 0x43 => needZeroUF cw (.invact a f)
  | 0x50 => needZeroU cw (.psfbinit a)
  | 0x51 => needZeroU cw (.psfbupd a)
  | 0x52 => needZeroUF cw (.psfbact a f)
  | 0x60 => needZeroU cw (.vfinit a)
  | 0x61 => needZeroU cw (.vfstep a)
  | _ => .error .unlistedOp

/-- The command whose table bits are `w` (bit 0 the least significant bit of the one 32-bit word),
or none where the decoder rejects it. Bits above `nbits` are zero. -/
def decodeTableWord (nbits w : Nat) : Option Instr :=
  match decode (BitVec.ofNat 32 (w % 2 ^ nbits)) with
  | .ok i => some i
  | .error _ => none

/-- A command word from its four bytes, `op ‖ a ‖ b ‖ c` (R102). -/
def wordOf (op a b c : Byte) : Word := op ++ a ++ b ++ c

/-- A format `A` word: `op ‖ addr ‖ 0` (R102, R109). -/
def wordOfAddr (op : Byte) (addr : FieldAddr) : Word := op ++ addr ++ (0 : Byte)

/-- A format `UF` word: `op ‖ unit ‖ 0 ‖ (0b0000000 ‖ flag)` (R102, R109). -/
def wordOfFlag (op : Byte) (unit : Nat) (flag : Bool) : Word :=
  wordOf op (BitVec.ofNat 8 unit) 0 ((BitVec.ofBool flag).zeroExtend 8)

/-- A format `U` word: `op ‖ unit ‖ 0x0000` (R102, R109). -/
def wordOfUnit (op : Byte) (unit : Nat) : Word := wordOf op (BitVec.ofNat 8 unit) 0 0

/-- A format `TS` or `NS` word: `op ‖ x ‖ s ‖ 0x00` (R102, R109). -/
def wordOfSlot (op : Byte) (x sl : Nat) : Word :=
  wordOf op (BitVec.ofNat 8 x) (BitVec.ofNat 8 sl) 0

/-- The format `IRQ` word: `0x25 ‖ t ‖ cb ‖ (priority ‖ 0b000 ‖ enable)` (R102, R109). -/
def wordOfIrq (t : Nat) (cb : Byte) (priority : Nibble) (enable : Bool) : Word :=
  wordOf 0x25 (BitVec.ofNat 8 t) cb (priority ++ (0 : BitVec 3) ++ BitVec.ofBool enable)

/-- The command word of a well-formed command (R104, R109). -/
def encode : Instr → Word
  | .wrf addr => wordOfAddr 0x01 addr
  | .rdf addr => wordOfAddr 0x02 addr
  | .dtenc => wordOf 0x10 0 0 0
  | .tinit t sl => wordOfSlot 0x20 t sl
  | .cfgpair n sl => wordOfSlot 0x21 n sl
  | .cfgch n sl => wordOfSlot 0x22 n sl
  | .updpair n sl => wordOfSlot 0x23 n sl
  | .updch n sl => wordOfSlot 0x24 n sl
  | .cfgirq t cb priority enable => wordOfIrq t cb priority enable
  | .cfgleg l => wordOfUnit 0x30 l
  | .enleg l enable => wordOfFlag 0x31 l enable
  | .capupd l => wordOfUnit 0x32 l
  | .invinit i => wordOfUnit 0x40 i
  | .invupd i => wordOfUnit 0x41 i
  | .invspwm i direction => wordOfFlag 0x42 i (directionFlag direction)
  | .invact i enable => wordOfFlag 0x43 i enable
  | .psfbinit j => wordOfUnit 0x50 j
  | .psfbupd j => wordOfUnit 0x51 j
  | .psfbact j enable => wordOfFlag 0x52 j enable
  | .vfinit k => wordOfUnit 0x60 k
  | .vfstep k => wordOfUnit 0x61 k

end Sys2Proof
end

