-- ==== Sys2Proof/Laws/PiTranscendence.lean ====
section
/-! SUPPORT. π is transcendental. It follows Lindemann's proof, with the analytic part of the
Lindemann–Weierstrass theorem from Mathlib. The numeric domain `NUM` rests on it: a polynomial in `TWO_PI`
is 0 only where all its coefficients are. -/

open Polynomial
namespace Sys2Proof.Laws

section
variable {K : Type} [Field K]

/-- Scaling by a power of the leading coefficient of `f` clears the denominators of a polynomial in a
root of `f`. -/
theorem isIntegral_pow_mul_aeval {f g : ℤ[X]} {y : K} {N : ℕ} (hf : aeval y f = 0)
    (hg : g.natDegree ≤ N) :
    IsIntegral ℤ ((f.leadingCoeff : K) ^ N * aeval y g) := by
  have hy : IsIntegral ℤ ((f.leadingCoeff : K) * y) := by
    have := isIntegral_leadingCoeff_smul (R := ℤ) f y hf
    rwa [zsmul_eq_mul] at this
  rw [aeval_eq_sum_range' (Nat.lt_succ_of_le hg), Finset.mul_sum]
  refine IsIntegral.sum _ fun i hi => ?_
  have hi' : i ≤ N := Nat.lt_succ_iff.1 (Finset.mem_range.1 hi)
  have e : (f.leadingCoeff : K) ^ N * (g.coeff i • y ^ i) =
      ((f.leadingCoeff ^ (N - i) * g.coeff i : ℤ) : K) * ((f.leadingCoeff : K) * y) ^ i := by
    rw [zsmul_eq_mul, mul_pow]
    push_cast
    rw [show (f.leadingCoeff : K) ^ N = (f.leadingCoeff : K) ^ (N - i) * (f.leadingCoeff : K) ^ i by
      rw [← pow_add, Nat.sub_add_cancel hi']]
    ring
  rw [e]
  have h1 : IsIntegral ℤ ((f.leadingCoeff ^ (N - i) * g.coeff i : ℤ) : K) := by
    simpa using isIntegral_algebraMap (R := ℤ) (A := K) (x := f.leadingCoeff ^ (N - i) * g.coeff i)
  exact h1.mul (hy.pow i)

/-- An algebraic integer that every automorphism fixes is an integer. -/
theorem exists_int_of_fixed [Algebra ℚ K] [IsGalois ℚ K] {z : K} (hz : IsIntegral ℤ z)
    (h : ∀ σ : K ≃ₐ[ℚ] K, σ z = z) : ∃ n : ℤ, z = n := by
  obtain ⟨q, rfl⟩ := (InfiniteGalois.mem_range_algebraMap_iff_fixed (k := ℚ) z).2 h
  have hq : IsIntegral ℤ q := by
    refine (isIntegral_algHom_iff ((Algebra.ofId ℚ K).restrictScalars ℤ) ?_).1 hz
    exact (algebraMap ℚ K).injective
  obtain ⟨n, rfl⟩ := IsIntegrallyClosed.isIntegral_iff.1 hq
  exact ⟨n, by simp⟩

open Classical in
/-- The sums over the nonempty-sum subsets of a set closed under automorphisms. -/
theorem fixed_sum_subsets [Algebra ℚ K] {s : Finset K} (hs : ∀ σ : K ≃ₐ[ℚ] K, ∀ x ∈ s, σ x ∈ s)
    (g : ℤ[X]) (σ : K ≃ₐ[ℚ] K) :
    σ (∑ S ∈ s.powerset with ∑ x ∈ S, x ≠ 0, aeval (∑ x ∈ S, x) g) =
      ∑ S ∈ s.powerset with ∑ x ∈ S, x ≠ 0, aeval (∑ x ∈ S, x) g := by
  have key : ∀ (τ : K ≃ₐ[ℚ] K) (S : Finset K), ∑ x ∈ S.image τ, x = τ (∑ x ∈ S, x) := fun τ S => by
    rw [Finset.sum_image (τ.injective.injOn), map_sum]
  have mem : ∀ (τ : K ≃ₐ[ℚ] K) (S : Finset K), S ∈ s.powerset.filter (fun S => ∑ x ∈ S, x ≠ 0) →
      S.image τ ∈ s.powerset.filter (fun S => ∑ x ∈ S, x ≠ 0) := by
    intro τ S hS
    rw [Finset.mem_filter, Finset.mem_powerset] at hS ⊢
    refine ⟨fun y hy => ?_, ?_⟩
    · obtain ⟨x, hx, rfl⟩ := Finset.mem_image.1 hy
      exact hs τ x (hS.1 hx)
    · rw [key]; exact fun h => hS.2 (τ.injective (h.trans (map_zero τ).symm))
  rw [map_sum]
  refine Finset.sum_bij' (fun S _ => S.image σ) (fun S _ => S.image σ.symm) (fun S h => mem σ S h)
    (fun S h => mem σ.symm S h) ?_ ?_ ?_
  · intro S _
    rw [Finset.image_image, show (⇑σ.symm ∘ ⇑σ) = id from funext σ.symm_apply_apply, Finset.image_id]
  · intro S _
    rw [Finset.image_image, show (⇑σ ∘ ⇑σ.symm) = id from funext σ.apply_symm_apply, Finset.image_id]
  · intro S _
    rw [key]
    exact (aeval_algHom_apply ((σ : K →ₐ[ℚ] K).restrictScalars ℤ) _ g).symm

/-- A polynomial with integer coefficients that has every nonzero member of a finite set of algebraic
numbers as a root, but not 0. -/
theorem exists_common_poly [Algebra ℚ K] [Algebra.IsAlgebraic ℚ K] (t : Finset K) (ht : ∀ y ∈ t, y ≠ 0) :
    ∃ f : ℤ[X], f.eval 0 ≠ 0 ∧ ∀ y ∈ t, aeval y f = 0 := by
  classical
  induction t using Finset.induction_on with
  | empty => exact ⟨1, by simp, by simp⟩
  | insert y t _ ih =>
    obtain ⟨f, hf, hr⟩ := ih fun z hz => ht z (Finset.mem_insert_of_mem hz)
    have hy : IsAlgebraic ℤ y :=
      (IsFractionRing.isAlgebraic_iff ℤ ℚ K).2 (Algebra.IsAlgebraic.isAlgebraic y)
    obtain ⟨q, hq, hqy⟩ := hy.exists_nonzero_coeff_and_aeval_eq_zero
      (mem_nonZeroDivisors_of_ne_zero (ht y (Finset.mem_insert_self y t)))
    refine ⟨q * f, ?_, fun z hz => ?_⟩
    · rw [eval_mul, ← coeff_zero_eq_eval_zero q]; exact mul_ne_zero hq hf
    · rw [map_mul]
      rcases Finset.mem_insert.1 hz with rfl | hz
      · rw [hqy, zero_mul]
      · rw [hr z hz, mul_zero]

open Classical in
/-- No zero of `1 + exp` is algebraic: an algebraic exponent `θ` with `exp θ = -1` does not exist. -/
theorem exp_ne_neg_one [Algebra ℚ K] [IsGalois ℚ K] (φ : K →+* ℂ) (θ : K) :
    Complex.exp (φ θ) ≠ -1 := by
  intro hθ
  set m := minpoly ℚ θ with hm
  have hθi : IsIntegral ℚ θ := Algebra.IsIntegral.isIntegral θ
  have hm0 : m ≠ 0 := minpoly.ne_zero hθi
  set s : Finset K := (m.aroots K).toFinset with hs
  have mem_s : ∀ x, x ∈ s ↔ aeval x m = 0 := fun x => by
    rw [hs, Multiset.mem_toFinset, mem_aroots]; exact ⟨fun h => h.2, fun h => ⟨hm0, h⟩⟩
  have hσ : ∀ σ : K ≃ₐ[ℚ] K, ∀ x ∈ s, σ x ∈ s := fun σ x hx => by
    rw [mem_s] at hx ⊢
    exact (aeval_algHom_apply (σ : K →ₐ[ℚ] K) x m).trans (by rw [hx, map_zero])
  have h0 : ∏ x ∈ s, (1 + Complex.exp (φ x)) = 0 :=
    Finset.prod_eq_zero ((mem_s θ).2 (minpoly.aeval ℚ θ)) (by rw [hθ]; ring)
  rw [Finset.prod_one_add] at h0
  have h1 : ∑ S ∈ s.powerset, Complex.exp (φ (∑ x ∈ S, x)) = 0 := by
    rw [← h0]
    refine Finset.sum_congr rfl fun S _ => ?_
    rw [map_sum, Complex.exp_sum]
  rw [← Finset.sum_filter_add_sum_filter_not _ (fun S => ∑ x ∈ S, x ≠ 0)] at h1
  set M := s.powerset.filter (fun S => ∑ x ∈ S, x ≠ 0) with hM
  set k := (s.powerset.filter (fun S => ¬ ∑ x ∈ S, x ≠ 0)).card with hk
  have hkpos : 0 < k := Finset.card_pos.2 ⟨∅, by simp⟩
  have h2 : ∑ S ∈ M, Complex.exp (φ (∑ x ∈ S, x)) + k = 0 := by
    rw [← h1]
    congr 1
    rw [hk, Finset.card_eq_sum_ones, Nat.cast_sum]
    refine Finset.sum_congr rfl fun S hS => ?_
    rw [not_not.1 (Finset.mem_filter.1 hS).2]; simp
  obtain ⟨f, hf0, hfr⟩ := exists_common_poly (M.image fun S => ∑ x ∈ S, x) (by
    intro y hy
    obtain ⟨S, hS, rfl⟩ := Finset.mem_image.1 hy
    exact (Finset.mem_filter.1 hS).2)
  have hfr : ∀ S ∈ M, aeval (∑ x ∈ S, x) f = 0 := fun S hS => hfr _ (Finset.mem_image_of_mem _ hS)
  have hfne : f ≠ 0 := by rintro rfl; simp at hf0
  obtain ⟨c, hc⟩ := LindemannWeierstrass.exp_polynomial_approx f hf0
  set a := f.leadingCoeff with ha
  have ha0 : a ≠ 0 := leadingCoeff_ne_zero.2 hfne
  set d := f.natDegree
  -- the bound tends to 0
  set C : ℝ := |(a : ℝ)| ^ d * |c| with hC
  have hlim : Filter.Tendsto (fun n : ℕ => (M.card : ℝ) * (C * (C ^ n / n.factorial)))
      Filter.atTop (nhds 0) := by
    have := (FloorSemiring.tendsto_pow_div_factorial_atTop C).const_mul C |>.const_mul (M.card : ℝ)
    simpa using this
  obtain ⟨n0, hn0⟩ := Filter.eventually_atTop.1 (hlim.eventually (gt_mem_nhds one_pos))
  obtain ⟨p, hpge, hp⟩ := Nat.exists_infinite_primes
    (n0 + 1 + ((eval 0 f).natAbs + 1) + (a.natAbs + 1) + (k + 1))
  obtain ⟨n, hn, gp, hgp, happ⟩ := hc p (by omega) hp
  set Z := ∑ S ∈ M, aeval (∑ x ∈ S, x) gp with hZ
  have hZfix : ∀ σ : K ≃ₐ[ℚ] K, σ Z = Z := fun σ => fixed_sum_subsets hσ gp σ
  have hint : IsIntegral ℤ ((a : K) ^ (p * d) * Z) := by
    rw [hZ, Finset.mul_sum]
    exact IsIntegral.sum _ fun S hS => isIntegral_pow_mul_aeval (hfr S hS) (by omega)
  obtain ⟨z, hz⟩ := exists_int_of_fixed hint fun σ => by
    rw [map_mul, map_pow, hZfix σ, map_intCast]
  have hzC : ((a : ℂ)) ^ (p * d) * ∑ S ∈ M, aeval (φ (∑ x ∈ S, x)) gp = z := by
    have := congrArg φ hz
    rw [map_mul, map_pow, map_intCast, map_intCast, hZ, map_sum] at this
    rw [← this]
    congr 1
    refine Finset.sum_congr rfl fun S _ => ?_
    exact (aeval_algHom_apply φ.toIntAlgHom _ gp)
  have hroot : ∀ S ∈ M, φ (∑ x ∈ S, x) ∈ f.aroots ℂ := fun S hS => by
    rw [mem_aroots]
    refine ⟨hfne, (aeval_algHom_apply φ.toIntAlgHom _ f).trans ?_⟩
    rw [hfr S hS, map_zero]
  have hsum : ‖∑ S ∈ M, (n • Complex.exp (φ (∑ x ∈ S, x)) - p • aeval (φ (∑ x ∈ S, x)) gp)‖ ≤
      M.card * (c ^ p / (p - 1).factorial) := by
    refine (norm_sum_le _ _).trans ((Finset.sum_le_card_nsmul _ _ _ fun S hS => happ (hroot S hS)).trans ?_)
    rw [nsmul_eq_mul]
  have hval : (a : ℂ) ^ (p * d) *
      ∑ S ∈ M, (n • Complex.exp (φ (∑ x ∈ S, x)) - p • aeval (φ (∑ x ∈ S, x)) gp) =
      ((-(a ^ (p * d) * n * k) - p * z : ℤ) : ℂ) := by
    rw [Finset.sum_sub_distrib, ← Finset.smul_sum, ← Finset.smul_sum, eq_neg_of_add_eq_zero_left h2,
      mul_sub, nsmul_eq_mul, mul_left_comm, hzC]
    push_cast [zsmul_eq_mul]; ring
  have hlt : ‖((-(a ^ (p * d) * n * k) - p * z : ℤ) : ℂ)‖ < 1 := by
    rw [← hval, norm_mul, norm_pow, Complex.norm_intCast]
    refine lt_of_le_of_lt (mul_le_mul_of_nonneg_left hsum (by positivity)) ?_
    refine lt_of_le_of_lt ?_ (hn0 (p - 1) (by omega))
    have hcp : c ^ p ≤ |c| ^ p := by rw [← abs_pow]; exact le_abs_self _
    have e : C * (C ^ (p - 1) / (p - 1).factorial) = |(a : ℝ)| ^ (p * d) * (|c| ^ p / (p - 1).factorial) := by
      rw [← mul_div_assoc, ← pow_succ', Nat.sub_add_cancel hp.one_le, hC, mul_pow, ← pow_mul,
        mul_comm d p, mul_div_assoc]
    rw [e, mul_left_comm]
    gcongr
  have hzero : -(a ^ (p * d) * n * k) - p * z = 0 := by
    rw [Complex.norm_intCast] at hlt
    exact Int.abs_lt_one_iff.1 (by exact_mod_cast hlt)
  have hdvd : (p : ℤ) ∣ a ^ (p * d) * n * k := ⟨-z, by linarith⟩
  have hpp : Prime (p : ℤ) := Nat.prime_iff_prime_int.1 hp
  rcases hpp.dvd_or_dvd hdvd with h | h
  · rcases hpp.dvd_or_dvd h with h | h
    · have := Int.natAbs_dvd_natAbs.2 (hpp.dvd_of_dvd_pow h)
      have := Nat.le_of_dvd (Int.natAbs_pos.2 ha0) this
      simp only [Int.natAbs_natCast] at this
      omega
    · exact hn h
  · have := Nat.le_of_dvd hkpos (Int.natCast_dvd_natCast.1 h)
    omega

end

/-- π is transcendental (Lindemann, 1882). -/
theorem transcendental_pi : Transcendental ℚ Real.pi := by
  intro hπ
  have hI : IsAlgebraic ℚ Complex.I := ⟨X ^ 2 + 1, by
    refine ⟨fun h => ?_, by simp⟩
    have := congrArg (eval 0) h
    simp at this⟩
  have hπC : IsAlgebraic ℚ (Real.pi : ℂ) := hπ.algebraMap (A := ℂ)
  have hθ : (Real.pi : ℂ) * Complex.I ∈ algebraicClosure ℚ ℂ := mem_algebraicClosure_iff.2 (hπC.mul hI)
  let _ : Algebra ℚ (algebraicClosure ℚ ℂ) := IntermediateField.algebra' _
  have : IsAlgClosure ℚ (algebraicClosure ℚ ℂ) := algebraicClosure.isAlgClosure ℚ ℂ
  have : IsGalois ℚ (algebraicClosure ℚ ℂ) := IsAlgClosure.isGalois ..
  refine exp_ne_neg_one (algebraMap (algebraicClosure ℚ ℂ) ℂ) ⟨_, hθ⟩ ?_
  exact Complex.exp_pi_mul_I

end Sys2Proof.Laws
end

