-- ==== Sys2Proof/Machine/Poly.lean ====
section
/-! DEFINITION. Polynomials in `TWO_PI` with rational coefficients, and how a real value of one is
compared with 0. They carry the exact arithmetic of the numeric domain `NUM` (00_scope.md rule R10, D3). -/

namespace Sys2Proof

/-- An exact rational number (R10: "all values that occur are rational except those that involve
`TWO_PI`"). -/
abbrev Ratio := Rat

/-- A polynomial in `TWO_PI`: its coefficients, the constant one first. -/
abbrev Poly := List Ratio

/-- The polynomial without its leading zeros. -/
def polyTrim : Poly → Poly
  | [] => []
  | c :: p => if polyTrim p = [] then (if c = 0 then [] else [c]) else c :: polyTrim p

/-- The leading coefficient of a trimmed polynomial. -/
def polyLead (p : Poly) : Ratio := p.getLastD 0

/-- Sum. -/
def polyAdd : Poly → Poly → Poly
  | [], q => q
  | a :: p, [] => a :: p
  | a :: p, b :: q => (a + b) :: polyAdd p q

/-- Product with a rational. -/
def polyScale (c : Ratio) (p : Poly) : Poly := p.map (c * ·)

/-- Product. -/
def polyMul : Poly → Poly → Poly
  | [], _ => []
  | a :: p, q => polyAdd (polyScale a q) (0 :: polyMul p q)

/-- Long division by a trimmed polynomial other than `[]`: quotient and remainder. -/
def polyDivMod : Poly → Poly → Poly × Poly
  | [], _ => ([], [])
  | c :: p, b =>
    let d := polyDivMod p b
    let r := polyTrim (c :: d.2)
    if r.length < b.length then (0 :: d.1, r)
    else
      let t := polyLead r / polyLead b
      (t :: d.1, polyTrim (polyAdd r (polyScale (-t) b)))

/-- Euclid's algorithm; the first argument bounds the number of divisions. -/
def polyGcd : Nat → Poly → Poly → Poly
  | 0, a, _ => a
  | n + 1, a, b => if b = [] then a else polyGcd n b (polyDivMod a b).2

/-- A common divisor of greatest degree of two trimmed polynomials. -/
def polyGcdOf (a b : Poly) : Poly := polyGcd (b.length + 1) a b

/-- The value of a polynomial at a rational. -/
def polyEval (x : Ratio) : Poly → Ratio
  | [] => 0
  | c :: p => c + x * polyEval x p

/-- The value of a polynomial at a real number. Statements speak of it; no meaning computes it. -/
noncomputable def polyValue (x : ℝ) : Poly → ℝ
  | [] => 0
  | c :: p => c + x * polyValue x p

/-- A bound of |p(x)| over |x| ≤ 8. -/
def polyBound : Poly → Ratio
  | [] => 0
  | c :: p => |c| + 8 * polyBound p

/-- A bound of |p(x) − p(y)| / |x − y| over |x| ≤ 8 and |y| ≤ 8. -/
def polySlope : Poly → Ratio
  | [] => 0
  | _ :: p => 8 * polySlope p + polyBound p

/-- The first n terms of the series of arctan(1/m). -/
def atanTerms (m : Nat) : Nat → Ratio
  | 0 => 0
  | k + 1 => atanTerms m k +
      (if k % 2 = 0 then 1 else -1) / (((2 * k + 1) * m ^ (2 * k + 1) : Nat) : Ratio)

/-- A rational approximation of 2π, by Machin's formula: within `tauError n` of it. -/
def tauApprox (n : Nat) : Ratio := 32 * atanTerms 5 (n + 2) - 8 * atanTerms 239 (n + 2)

/-- How far `tauApprox n` can be from 2π. -/
def tauError (n : Nat) : Ratio := 40 / ((25 ^ (n + 2) : Nat) : Ratio)

/-- The sign of a polynomial's value at 2π where approximation n decides it; 0 where it does not. -/
def polySignAt (n : Nat) (p : Poly) : Int :=
  let v := polyEval (tauApprox n) p
  let e := tauError n * polySlope p
  if e < v then 1 else if v < -e then -1 else 0

end Sys2Proof
end

