-- ==== Sys2Proof/Laws/PiBounds.lean ====
section
/-! SUPPORT. The rational approximations of 2π converge to it with the bound stated, so they decide the
sign of every polynomial's value at 2π. -/

namespace Sys2Proof.Laws
open Polynomial

theorem polyEval_cast (x : Ratio) (p : Poly) : (polyEval x p : ℝ) = polyValue x p := by
  induction p with
  | nil => simp [polyEval, polyValue]
  | cons c p ih => simp [polyEval, polyValue, ih]

theorem abs_polyValue_le {x : ℝ} (hx : |x| ≤ 8) (p : Poly) : |polyValue x p| ≤ polyBound p := by
  induction p with
  | nil => simp [polyValue, polyBound]
  | cons c p ih =>
    simp only [polyValue, polyBound]
    push_cast
    refine (abs_add_le _ _).trans (add_le_add_right ?_ _)
    rw [abs_mul]
    exact mul_le_mul hx ih (abs_nonneg _) (by norm_num)

theorem abs_polyValue_sub_le {x y : ℝ} (hx : |x| ≤ 8) (hy : |y| ≤ 8) (p : Poly) :
    |polyValue x p - polyValue y p| ≤ |x - y| * polySlope p := by
  induction p with
  | nil => simp [polyValue, polySlope]
  | cons c p ih =>
    simp only [polyValue, polySlope]
    have e : (c : ℝ) + x * polyValue x p - (c + y * polyValue y p) =
        x * (polyValue x p - polyValue y p) + (x - y) * polyValue y p := by ring
    rw [e]
    push_cast
    refine (abs_add_le _ _).trans ?_
    rw [abs_mul, abs_mul, mul_add]
    refine add_le_add ?_ (mul_le_mul_of_nonneg_left (abs_polyValue_le hy p) (abs_nonneg _))
    calc |x| * |polyValue x p - polyValue y p| ≤ 8 * (|x - y| * polySlope p) :=
          mul_le_mul hx ih (abs_nonneg _) (by norm_num)
      _ = |x - y| * (8 * polySlope p) := by ring

theorem polySlope_nonneg (p : Poly) : 0 ≤ polySlope p := by
  have hb : ∀ p, 0 ≤ polyBound p := by
    intro p
    induction p with
    | nil => simp [polyBound]
    | cons c p ih => simp only [polyBound]; positivity
  induction p with
  | nil => simp [polySlope]
  | cons c p ih => simp only [polySlope]; have := hb p; positivity

theorem atanTerms_eq (m n : Nat) : (atanTerms m n : ℝ) =
    ∑ k ∈ Finset.range n, (-1 : ℝ) ^ k * ((m : ℝ)⁻¹) ^ (2 * k + 1) / ((2 * k + 1 : ℕ) : ℝ) := by
  induction n with
  | zero => simp [atanTerms]
  | succ n ih =>
    rw [Finset.sum_range_succ, ← ih, atanTerms]
    have : ((if n % 2 = 0 then 1 else -1 : Ratio) : ℝ) = (-1) ^ n := by
      split
      · rw [Even.neg_one_pow (Nat.even_iff.2 ‹_›)]; simp
      · rw [Odd.neg_one_pow (Nat.odd_iff.2 (by omega))]; simp
    rw [← this, inv_pow]
    push_cast
    field_simp

/-- The tail of the arctangent series. -/
theorem abs_arctan_sub_atanTerms_le {m : Nat} (hm : 5 ≤ m) (n : Nat) :
    |Real.arctan ((m : ℝ)⁻¹) - atanTerms m n| ≤ 1 / 25 ^ n := by
  have hm0 : (0 : ℝ) < m := by exact_mod_cast (by omega : 0 < m)
  set x : ℝ := (m : ℝ)⁻¹ with hx
  have hx0 : 0 < x := inv_pos.2 hm0
  have hx5 : x ≤ 1 / 5 := by
    rw [hx, inv_eq_one_div]; exact one_div_le_one_div_of_le (by norm_num) (by exact_mod_cast hm)
  have hs := Real.hasSum_arctan (x := x) (by rw [Real.norm_of_nonneg hx0.le]; linarith)
  have ht := (hasSum_nat_add_iff' n).2 hs
  rw [← atanTerms_eq] at ht
  have hb : ∀ k : ℕ, ‖(-1 : ℝ) ^ (k + n) * x ^ (2 * (k + n) + 1) / ((2 * (k + n) + 1 : ℕ) : ℝ)‖ ≤
      (1 / 5) * (1 / 25) ^ n * (1 / 25) ^ k := by
    intro k
    rw [norm_div, norm_mul, norm_pow, norm_neg, norm_one, one_pow, one_mul, norm_pow,
      Real.norm_of_nonneg hx0.le, Real.norm_of_nonneg (by positivity)]
    have h1 : x ^ (2 * (k + n) + 1) ≤ (1 / 5) ^ (2 * (k + n) + 1) := pow_le_pow_left₀ hx0.le hx5 _
    have h2 : (1 : ℝ) ≤ ((2 * (k + n) + 1 : ℕ) : ℝ) := by exact_mod_cast (by omega)
    refine (div_le_self (by positivity) h2).trans (h1.trans (le_of_eq ?_))
    rw [pow_succ, pow_mul, pow_add]; norm_num; ring
  have hg : HasSum (fun k : ℕ => (1 / 5 : ℝ) * (1 / 25) ^ n * (1 / 25) ^ k)
      ((1 / 5) * (1 / 25) ^ n * (1 - 1 / 25)⁻¹) :=
    (hasSum_geometric_of_lt_one (by norm_num) (by norm_num)).mul_left _
  have := tsum_of_norm_bounded hg hb
  rw [ht.tsum_eq, Real.norm_eq_abs] at this
  refine this.trans ?_
  rw [one_div_pow]
  have : (0 : ℝ) ≤ 1 / 25 ^ n := by positivity
  linarith

theorem abs_two_pi_sub_tauApprox_le (n : Nat) : |2 * Real.pi - tauApprox n| ≤ tauError n := by
  have h5 := abs_arctan_sub_atanTerms_le (m := 5) (by norm_num) (n + 2)
  have h239 := abs_arctan_sub_atanTerms_le (m := 239) (by norm_num) (n + 2)
  have hM := Real.four_mul_arctan_inv_5_sub_arctan_inv_239
  simp only [tauApprox, tauError]
  push_cast at h5 h239 ⊢
  rw [abs_le] at h5 h239 ⊢
  rw [show (40 : ℝ) / 25 ^ (n + 2) = 40 * (1 / 25 ^ (n + 2)) by ring]
  constructor <;> linarith [h5.1, h5.2, h239.1, h239.2]

theorem tauError_le (n : Nat) : (tauError n : ℝ) ≤ 1 / 10 := by
  simp only [tauError]
  push_cast
  rw [pow_add]
  have : (1 : ℝ) ≤ 25 ^ n := one_le_pow₀ (by norm_num)
  rw [div_le_div_iff₀ (by positivity) (by norm_num)]
  nlinarith

theorem abs_two_pi_le : |2 * Real.pi| ≤ 8 := by
  rw [abs_of_pos Real.two_pi_pos]; linarith [Real.pi_lt_d2]

theorem abs_tauApprox_le (n : Nat) : |(tauApprox n : ℝ)| ≤ 8 := by
  have h := abs_le.1 (abs_two_pi_sub_tauApprox_le n)
  have := tauError_le n
  rw [abs_le]
  constructor <;> linarith [h.1, h.2, Real.pi_lt_d2, Real.pi_gt_d2]

/-- How far the value computed at an approximation is from the value at 2π. -/
theorem abs_polyValue_sub_eval_le (n : Nat) (p : Poly) :
    |polyValue (2 * Real.pi) p - polyEval (tauApprox n) p| ≤ tauError n * polySlope p := by
  rw [polyEval_cast]
  refine (abs_polyValue_sub_le abs_two_pi_le (abs_tauApprox_le n) p).trans ?_
  exact mul_le_mul_of_nonneg_right (abs_two_pi_sub_tauApprox_le n)
    (by exact_mod_cast polySlope_nonneg p)

/-- A sign that an approximation decides is the sign of the value at 2π. -/
theorem polySignAt_sound {n : Nat} {p : Poly} (h : polySignAt n p ≠ 0) :
    polySignAt n p = SignType.sign (polyValue (2 * Real.pi) p) := by
  have hb := abs_le.1 (abs_polyValue_sub_eval_le n p)
  simp only [polySignAt] at h ⊢
  split
  · rename_i h1
    have h1' : (tauError n * polySlope p : ℝ) < polyEval (tauApprox n) p := by exact_mod_cast h1
    rw [sign_pos (by linarith [hb.1])]; rfl
  · split
    · rename_i h1
      have h1' : (polyEval (tauApprox n) p : ℝ) < -(tauError n * polySlope p) := by exact_mod_cast h1
      rw [sign_neg (by linarith [hb.2])]; rfl
    · rename_i h1 h2
      rw [if_neg h1, if_neg h2] at h
      exact absurd rfl h

theorem tendsto_tauError : Filter.Tendsto (fun n => (tauError n : ℝ)) Filter.atTop (nhds 0) := by
  have h : Filter.Tendsto (fun n : ℕ => (40 / 625 : ℝ) * (1 / 25) ^ n) Filter.atTop (nhds ((40 / 625) * 0)) :=
    (tendsto_pow_atTop_nhds_zero_of_lt_one (by norm_num) (by norm_num)).const_mul _
  rw [mul_zero] at h
  refine h.congr fun n => ?_
  simp only [tauError]
  push_cast
  rw [one_div_pow, pow_add]; ring

/-- A value other than 0 gets its sign from some approximation. -/
theorem exists_polySignAt_ne_zero {p : Poly} (h : polyValue (2 * Real.pi) p ≠ 0) :
    ∃ n, polySignAt n p ≠ 0 := by
  have hlim : Filter.Tendsto (fun n => (2 * (tauError n * polySlope p) : ℝ)) Filter.atTop (nhds 0) := by
    simpa using (tendsto_tauError.mul_const (polySlope p : ℝ)).const_mul 2
  obtain ⟨n, hn⟩ := (hlim.eventually (gt_mem_nhds (abs_pos.2 h))).exists
  refine ⟨n, ?_⟩
  have hb := abs_le.1 (abs_polyValue_sub_eval_le n p)
  simp only [polySignAt]
  split
  · decide
  · split
    · decide
    · rename_i h1 h2
      have h1' : (polyEval (tauApprox n) p : ℝ) ≤ tauError n * polySlope p := by
        exact_mod_cast not_lt.1 h1
      have h2' : -(tauError n * polySlope p : ℝ) ≤ polyEval (tauApprox n) p := by
        exact_mod_cast not_lt.1 h2
      exfalso
      rcases abs_cases (polyValue (2 * Real.pi) p) with ⟨e, _⟩ | ⟨e, _⟩ <;> linarith [hb.1, hb.2]

/-- The polynomial a coefficient list stands for. -/
noncomputable def toPoly : Poly → ℚ[X]
  | [] => 0
  | c :: p => C c + X * toPoly p

theorem polyValue_eq_aeval (x : ℝ) (p : Poly) : polyValue x p = aeval x (toPoly p) := by
  induction p with
  | nil => simp [polyValue, toPoly]
  | cons c p ih => simp [polyValue, toPoly, ih]

@[simp] theorem toPoly_trim (p : Poly) : toPoly (polyTrim p) = toPoly p := by
  induction p with
  | nil => rfl
  | cons c p ih =>
    simp only [polyTrim]
    split
    · rename_i h
      rw [h] at ih
      have h0 : toPoly p = 0 := ih.symm
      split
      · simp_all [toPoly]
      · simp [toPoly, h0]
    · simp [toPoly, ih]

theorem coeff_toPoly (p : Poly) (k : Nat) : (toPoly p).coeff k = p.getD k 0 := by
  induction p generalizing k with
  | nil => simp [toPoly]
  | cons c p ih => cases k <;> simp [toPoly, ih, coeff_X_mul, coeff_C_succ]

theorem polyTrim_eq_nil_iff (p : Poly) : polyTrim p = [] ↔ toPoly p = 0 := by
  constructor
  · intro h; rw [← toPoly_trim, h]; rfl
  · induction p with
    | nil => intro _; rfl
    | cons c p ih =>
      intro h
      have hc : c = 0 := by have := congrArg (coeff · 0) h; simpa [toPoly] using this
      have hp : toPoly p = 0 := by
        ext k
        have := congrArg (coeff · (k + 1)) h
        simpa [toPoly, coeff_C_succ] using this
      simp [polyTrim, ih hp, hc]

/-- 2π is transcendental. -/
theorem transcendental_two_pi : Transcendental ℚ (2 * Real.pi) := by
  intro h
  have h2 : IsAlgebraic ℚ (2⁻¹ : ℝ) := by
    simpa using isAlgebraic_algebraMap (R := ℚ) (A := ℝ) (2⁻¹ : ℚ)
  refine transcendental_pi ?_
  have := h2.mul h
  rwa [← mul_assoc, inv_mul_cancel₀ (by norm_num), one_mul] at this

/-- Only the zero polynomial is 0 at 2π. -/
theorem polyValue_eq_zero_iff (p : Poly) : polyValue (2 * Real.pi) p = 0 ↔ polyTrim p = [] := by
  rw [polyTrim_eq_nil_iff, polyValue_eq_aeval]
  constructor
  · exact fun h => by_contra fun hp => transcendental_two_pi ⟨_, hp, h⟩
  · intro h; rw [h, map_zero]

theorem exists_polySignAt {p : Poly} (h : polyTrim p ≠ []) : ∃ n, polySignAt n p ≠ 0 :=
  exists_polySignAt_ne_zero fun h0 => h ((polyValue_eq_zero_iff p).1 h0)

end Sys2Proof.Laws
end

