-- ==== Sys2Proof/Machine/Num.lean ====
section
/-! DEFINITION. The numeric domain `NUM` (00_scope.md rule R10, D3): exact numbers, "rationals plus the
constant `TWO_PI`", closed under the arithmetic of the spec. A number is a rational or a fraction of two
polynomials in `TWO_PI` in lowest terms. 2π is transcendental (Laws/PiTranscendence.lean), so each real
number of the domain is held in exactly one way, and comparing numbers is comparing reals. -/

namespace Sys2Proof

/-- Lowest terms: both polynomials trimmed, the denominator monic, no common factor, and not a rational. -/
def polyCanon (num den : Poly) : Bool :=
  decide (polyTrim num = num ∧ polyTrim den = den ∧ polyLead den = 1 ∧
    (polyGcdOf num den).length = 1 ∧ (1 < num.length ∨ 1 < den.length))

/-- A number that involves `TWO_PI`: num / den at 2π. -/
structure TauFrac where
  num : Poly
  den : Poly
  canon : polyCanon num den = true
deriving DecidableEq, Repr

/-- The numeric domain `NUM` (R10): a rational, or a number that involves `TWO_PI`. -/
inductive NUM where
  | rat (q : Ratio)
  | tau (f : TauFrac)
deriving DecidableEq, Repr, Inhabited

/-- The numerator of a number. -/
def NUM.num : NUM → Poly
  | .rat q => polyTrim [q]
  | .tau f => f.num

/-- The denominator of a number. -/
def NUM.den : NUM → Poly
  | .rat _ => [1]
  | .tau f => f.den

/-- The real number that a number is. Statements speak of it; no meaning computes it. -/
noncomputable def NUM.real (x : NUM) : ℝ :=
  polyValue (2 * Real.pi) x.num / polyValue (2 * Real.pi) x.den

/-- The numerator of a fraction of two trimmed polynomials in lowest terms. -/
def polyLowNum (a b : Poly) : Poly :=
  polyTrim (polyScale (polyLead (polyTrim (polyDivMod b (polyGcdOf a b)).1))⁻¹
    (polyDivMod a (polyGcdOf a b)).1)

/-- The denominator of a fraction of two trimmed polynomials in lowest terms. -/
def polyLowDen (a b : Poly) : Poly :=
  polyTrim (polyScale (polyLead (polyTrim (polyDivMod b (polyGcdOf a b)).1))⁻¹
    (polyDivMod b (polyGcdOf a b)).1)

/-- A number from a numerator and a denominator in lowest terms. -/
def NUM.ofLow (a b : Poly) : NUM :=
  if h : polyCanon a b = true then .tau ⟨a, b, h⟩ else .rat (a.getD 0 0)

/-- The quotient of two polynomials at 2π; 0 where the divisor is 0. -/
def NUM.ofFrac (p q : Poly) : NUM :=
  if polyTrim q = [] then .rat 0
  else NUM.ofLow (polyLowNum (polyTrim p) (polyTrim q)) (polyLowDen (polyTrim p) (polyTrim q))

/-- `TWO_PI`, the constant 2π in `NUM` (R6). -/
def TWO_PI : NUM := .tau ⟨[0, 1], [1], by decide +kernel⟩

/-- Sum. -/
def NUM.add : NUM → NUM → NUM
  | .rat a, .rat b => .rat (a + b)
  | x, y => .ofFrac (polyAdd (polyMul x.num y.den) (polyMul y.num x.den)) (polyMul x.den y.den)

/-- Difference. -/
def NUM.sub : NUM → NUM → NUM
  | .rat a, .rat b => .rat (a - b)
  | x, y => .ofFrac (polyAdd (polyMul x.num y.den) (polyScale (-1) (polyMul y.num x.den)))
      (polyMul x.den y.den)

/-- Product. -/
def NUM.mul : NUM → NUM → NUM
  | .rat a, .rat b => .rat (a * b)
  | x, y => .ofFrac (polyMul x.num y.num) (polyMul x.den y.den)

/-- Quotient. The spec divides by no number that can be 0 (R326); the quotient by 0 is 0. -/
def NUM.div : NUM → NUM → NUM
  | .rat a, .rat b => .rat (a / b)
  | x, y => .ofFrac (polyMul x.num y.den) (polyMul x.den y.num)

/-- The sign of a polynomial's value at 2π: -1, 0 or 1. The first approximation of 2π decides it but for
values closer to 0 than some 10⁻³⁰; then the first one that does is looked for. -/
def polySign (p : Poly) : Int :=
  if h : polyTrim p = [] then 0
  else if polySignAt 22 p ≠ 0 then polySignAt 22 p
  else polySignAt (Nat.find (Laws.exists_polySignAt h)) p

/-- The sign of a number: -1, 0 or 1. -/
def NUM.sign (x : NUM) : Int := polySign x.num * polySign x.den

/-- x < y. -/
def NUM.lt : NUM → NUM → Bool
  | .rat a, .rat b => decide (a < b)
  | x, y => decide (0 < (y.sub x).sign)

/-- x ≤ y. -/
def NUM.le (x y : NUM) : Bool := !y.lt x

/-- n is the floor of a number: n ≤ x < n + 1. -/
def NUM.isFloor (x : NUM) (n : Int) : Bool := (NUM.rat n).le x && x.lt (.rat (n + 1))

/-- The integers in the order 0, -1, 1, -2, 2, … -/
def intOfIndex (n : Nat) : Int := if n % 2 = 0 then (n / 2 : Nat) else -((n / 2 + 1 : Nat) : Int)

/-- The floor that the first approximation of 2π suggests. -/
def TauFrac.floorGuess (f : TauFrac) : Int :=
  (polyEval (tauApprox 22) f.num / polyEval (tauApprox 22) f.den).floor

/-- Half of a number. -/
def NUM.half (x : NUM) : NUM := x.div (.rat 2)

end Sys2Proof
end

