-- ==== Sys2Proof/Laws/Poly.lean ====
section
/-! SUPPORT. The arithmetic of `Machine/Poly.lean` is that of the polynomials over ℚ: sums, products, long
division and the greatest common divisor. -/

namespace Sys2Proof.Laws
open Polynomial

@[simp] theorem toPoly_nil : toPoly [] = 0 := rfl

@[simp] theorem toPoly_cons (c : Ratio) (p : Poly) : toPoly (c :: p) = C c + X * toPoly p := rfl

@[simp] theorem toPoly_add (p q : Poly) : toPoly (polyAdd p q) = toPoly p + toPoly q := by
  induction p generalizing q with
  | nil => simp [polyAdd]
  | cons a p ih =>
    cases q with
    | nil => simp [polyAdd]
    | cons b q => simp [polyAdd, ih]; ring

@[simp] theorem toPoly_scale (c : Ratio) (p : Poly) : toPoly (polyScale c p) = C c * toPoly p := by
  induction p with
  | nil => simp [polyScale]
  | cons a p ih => simp only [polyScale, List.map_cons, toPoly_cons] at *; rw [ih]; simp; ring

@[simp] theorem toPoly_mul (p q : Poly) : toPoly (polyMul p q) = toPoly p * toPoly q := by
  induction p with
  | nil => simp [polyMul]
  | cons a p ih => simp [polyMul, ih]; ring

theorem polyTrim_eq_of_toPoly_eq {p q : Poly} (h : toPoly p = toPoly q) : polyTrim p = polyTrim q := by
  induction p generalizing q with
  | nil => exact ((polyTrim_eq_nil_iff q).2 h.symm).symm
  | cons c p ih =>
    cases q with
    | nil => exact (polyTrim_eq_nil_iff _).2 h
    | cons d q =>
      have hc : c = d := by have := congrArg (coeff · 0) h; simpa using this
      have hp : toPoly p = toPoly q := by
        ext k
        have := congrArg (coeff · (k + 1)) h
        simpa [coeff_C_succ] using this
      simp only [polyTrim, ih hp, hc]

theorem polyTrim_idem (p : Poly) : polyTrim (polyTrim p) = polyTrim p :=
  polyTrim_eq_of_toPoly_eq (toPoly_trim p)

theorem toPoly_injective {p q : Poly} (hp : polyTrim p = p) (hq : polyTrim q = q)
    (h : toPoly p = toPoly q) : p = q := by
  rw [← hp, ← hq]; exact polyTrim_eq_of_toPoly_eq h

/-- A trimmed polynomial is no longer than its degree says. -/
theorem length_polyTrim_le {p : Poly} {n : Nat} (h : ∀ k, n ≤ k → (toPoly p).coeff k = 0) :
    (polyTrim p).length ≤ n := by
  induction p generalizing n with
  | nil => simp [polyTrim]
  | cons c p ih =>
    cases n with
    | zero =>
      rw [(polyTrim_eq_nil_iff (c :: p)).2 (by ext k; simpa using h k (Nat.zero_le _))]
      simp
    | succ n =>
      have := ih (n := n) fun k hk => by simpa [coeff_C_succ] using h (k + 1) (by omega)
      simp only [polyTrim]
      split
      · split <;> simp
      · simpa using this

theorem length_polyTrim_le_length (p : Poly) : (polyTrim p).length ≤ p.length :=
  length_polyTrim_le fun k hk => by rw [coeff_toPoly, List.getD_eq_default _ _ hk]

theorem polyLead_eq (p : Poly) : polyLead p = (toPoly p).coeff (p.length - 1) := by
  rw [coeff_toPoly]
  induction p with
  | nil => rfl
  | cons c p ih =>
    cases p with
    | nil => rfl
    | cons d p => simpa [polyLead] using ih

theorem coeff_of_length_le {p : Poly} {k : Nat} (h : p.length ≤ k) : (toPoly p).coeff k = 0 := by
  rw [coeff_toPoly, List.getD_eq_default _ _ h]

theorem polyLead_ne_zero {p : Poly} (hp : polyTrim p = p) (h : p ≠ []) : polyLead p ≠ 0 := by
  intro h0
  rw [polyLead_eq] at h0
  have hl := List.length_pos_iff.2 h
  have := length_polyTrim_le (p := p) (n := p.length - 1) fun k hk => by
    rcases Nat.lt_or_ge k p.length with h1 | h1
    · rw [show k = p.length - 1 by omega, h0]
    · exact coeff_of_length_le h1
  rw [hp] at this
  omega

theorem toPoly_ne_zero {p : Poly} (hp : polyTrim p = p) (h : p ≠ []) : toPoly p ≠ 0 := fun h0 =>
  h (hp.symm.trans ((polyTrim_eq_nil_iff p).2 h0))

theorem natDegree_toPoly {p : Poly} (hp : polyTrim p = p) : (toPoly p).natDegree = p.length - 1 := by
  by_cases h : p = []
  · subst h; simp
  · have hl := List.length_pos_iff.2 h
    refine le_antisymm ?_ (le_natDegree_of_ne_zero ?_)
    · exact natDegree_le_iff_coeff_eq_zero.2 fun k hk => coeff_of_length_le (by omega)
    · rw [← polyLead_eq]; exact polyLead_ne_zero hp h

theorem leadingCoeff_toPoly {p : Poly} (hp : polyTrim p = p) : (toPoly p).leadingCoeff = polyLead p := by
  rw [leadingCoeff, natDegree_toPoly hp, polyLead_eq]

/-- Long division: the quotient and the remainder are those of the polynomials. -/
theorem polyDivMod_spec {b : Poly} (hb : polyTrim b = b) (hb0 : b ≠ []) (a : Poly) :
    toPoly a = toPoly (polyDivMod a b).1 * toPoly b + toPoly (polyDivMod a b).2 ∧
      polyTrim (polyDivMod a b).2 = (polyDivMod a b).2 ∧ (polyDivMod a b).2.length < b.length := by
  induction a with
  | nil => simpa [polyDivMod, polyTrim] using List.length_pos_iff.2 hb0
  | cons c p ih =>
    obtain ⟨ih1, ih2, ih3⟩ := ih
    have hlen : (polyTrim (c :: (polyDivMod p b).2)).length ≤ b.length :=
      (length_polyTrim_le_length _).trans (by simpa using ih3)
    simp only [polyDivMod]
    split
    · rename_i h
      refine ⟨?_, polyTrim_idem _, h⟩
      rw [toPoly_trim, toPoly_cons, toPoly_cons, toPoly_cons, ih1, C_0]; ring
    · rename_i h
      have hl : (polyTrim (c :: (polyDivMod p b).2)).length = b.length := by omega
      refine ⟨?_, polyTrim_idem _, ?_⟩
      · rw [toPoly_trim, toPoly_add, toPoly_trim, toPoly_scale, toPoly_cons, toPoly_cons, toPoly_cons,
          ih1, C_neg]
        ring
      · have hbl := List.length_pos_iff.2 hb0
        refine lt_of_le_of_lt (length_polyTrim_le (n := b.length - 1) fun k hk => ?_) (by omega)
        rw [toPoly_add, toPoly_scale, coeff_add, coeff_C_mul]
        rcases Nat.lt_or_ge k b.length with h1 | h1
        · have hk' : k = b.length - 1 := by omega
          have e1 : (toPoly (polyTrim (c :: (polyDivMod p b).2))).coeff k =
              polyLead (polyTrim (c :: (polyDivMod p b).2)) := by rw [polyLead_eq, hl, hk']
          have e2 : (toPoly b).coeff k = polyLead b := by rw [polyLead_eq, hk']
          rw [e1, e2, neg_mul, div_mul_cancel₀ _ (polyLead_ne_zero hb hb0), add_neg_cancel]
        · rw [coeff_of_length_le (by omega), coeff_of_length_le h1]; ring

/-- Euclid's algorithm finds a greatest common divisor. -/
theorem dvd_polyGcd_iff {n : Nat} {a b : Poly} (hb : polyTrim b = b) (hn : b.length < n) (d : ℚ[X]) :
    d ∣ toPoly (polyGcd n a b) ↔ d ∣ toPoly a ∧ d ∣ toPoly b := by
  induction n generalizing a b with
  | zero => omega
  | succ n ih =>
    simp only [polyGcd]
    split
    · rename_i h; subst h; simp
    · rename_i h
      obtain ⟨h1, h2, h3⟩ := polyDivMod_spec hb h a
      rw [ih h2 (by omega)]
      constructor
      · rintro ⟨hd1, hd2⟩
        exact ⟨h1 ▸ dvd_add (Dvd.dvd.mul_left hd1 _) hd2, hd1⟩
      · rintro ⟨hd1, hd2⟩
        refine ⟨hd2, ?_⟩
        rw [h1] at hd1
        exact (dvd_add_right (Dvd.dvd.mul_left hd2 _)).1 hd1

theorem polyTrim_polyGcd {n : Nat} {a b : Poly} (ha : polyTrim a = a) (hb : polyTrim b = b) :
    polyTrim (polyGcd n a b) = polyGcd n a b := by
  induction n generalizing a b with
  | zero => exact ha
  | succ n ih =>
    simp only [polyGcd]
    split
    · exact ha
    · rename_i h; exact ih hb (polyDivMod_spec hb h a).2.1

theorem dvd_polyGcdOf_iff {a b : Poly} (hb : polyTrim b = b) (d : ℚ[X]) :
    d ∣ toPoly (polyGcdOf a b) ↔ d ∣ toPoly a ∧ d ∣ toPoly b :=
  dvd_polyGcd_iff hb (Nat.lt_succ_self _) d

theorem polyTrim_polyGcdOf {a b : Poly} (ha : polyTrim a = a) (hb : polyTrim b = b) :
    polyTrim (polyGcdOf a b) = polyGcdOf a b := polyTrim_polyGcd ha hb

theorem isUnit_toPoly_iff {p : Poly} (hp : polyTrim p = p) : IsUnit (toPoly p) ↔ p.length = 1 := by
  rw [isUnit_iff_degree_eq_zero]
  by_cases h : p = []
  · subst h; simp
  · have := List.length_pos_iff.2 h
    rw [degree_eq_natDegree (toPoly_ne_zero hp h), natDegree_toPoly hp]
    norm_cast
    omega

/-- A greatest common divisor of length 1 says that there is no common factor. -/
theorem isCoprime_iff_length {a b : Poly} (ha : polyTrim a = a) (hb : polyTrim b = b) :
    (polyGcdOf a b).length = 1 ↔ IsCoprime (toPoly a) (toPoly b) := by
  rw [← isUnit_toPoly_iff (polyTrim_polyGcdOf ha hb), ← isRelPrime_iff_isCoprime]
  constructor
  · intro h d hd1 hd2
    exact isUnit_of_dvd_unit ((dvd_polyGcdOf_iff hb d).2 ⟨hd1, hd2⟩) h
  · intro h
    obtain ⟨h1, h2⟩ := (dvd_polyGcdOf_iff (a := a) hb _).1 dvd_rfl
    exact h h1 h2

/-- Division by a divisor leaves no remainder. -/
theorem toPoly_divMod_of_dvd {a b : Poly} (hb : polyTrim b = b) (hb0 : b ≠ [])
    (h : toPoly b ∣ toPoly a) : toPoly a = toPoly (polyDivMod a b).1 * toPoly b := by
  obtain ⟨h1, h2, h3⟩ := polyDivMod_spec hb hb0 a
  have hd : toPoly b ∣ toPoly (polyDivMod a b).2 := by
    rw [h1] at h
    exact (dvd_add_right (dvd_mul_left _ _)).1 h
  have : toPoly (polyDivMod a b).2 = 0 := by
    by_contra hne
    have hle := natDegree_le_of_dvd hd hne
    rw [natDegree_toPoly hb, natDegree_toPoly h2] at hle
    have : (polyDivMod a b).2 ≠ [] := by rintro h0; rw [h0] at hne; exact hne rfl
    have := List.length_pos_iff.2 this
    omega
  rw [h1, this, add_zero]

end Sys2Proof.Laws
end

