-- ==== Sys2Proof/Laws/NumReal.lean ====
section
/-! SUPPORT. The numbers of `NUM` are exact reals (R10, D3): each holds one real, no real is held twice, and
sums, differences, products, quotients and comparisons are those of the reals. -/

namespace Sys2Proof.Laws
open Polynomial

/-- The value at 2π. -/
theorem polyValue_two_pi (p : Poly) : polyValue (2 * Real.pi) p = aeval (2 * Real.pi) (toPoly p) :=
  polyValue_eq_aeval _ p

theorem polyValue_add (x : ℝ) (p q : Poly) :
    polyValue x (polyAdd p q) = polyValue x p + polyValue x q := by
  simp [polyValue_eq_aeval]

theorem polyValue_scale (x : ℝ) (c : Ratio) (p : Poly) :
    polyValue x (polyScale c p) = c * polyValue x p := by
  simp [polyValue_eq_aeval]

theorem polyValue_mul (x : ℝ) (p q : Poly) :
    polyValue x (polyMul p q) = polyValue x p * polyValue x q := by
  simp [polyValue_eq_aeval]

theorem polyValue_trim (x : ℝ) (p : Poly) : polyValue x (polyTrim p) = polyValue x p := by
  simp [polyValue_eq_aeval]

/-- Equal values at 2π come from equal polynomials only: 2π is transcendental. -/
theorem aeval_two_pi_injective {P Q : ℚ[X]} (h : aeval (2 * Real.pi) P = aeval (2 * Real.pi) Q) : P = Q := by
  by_contra hne
  exact transcendental_two_pi ⟨P - Q, sub_ne_zero.2 hne, by rw [map_sub, h, sub_self]⟩

theorem tauFrac_canon (f : TauFrac) : polyTrim f.num = f.num ∧ polyTrim f.den = f.den ∧
    polyLead f.den = 1 ∧ (polyGcdOf f.num f.den).length = 1 ∧ (1 < f.num.length ∨ 1 < f.den.length) :=
  of_decide_eq_true f.canon

theorem polyTrim_num (x : NUM) : polyTrim x.num = x.num := by
  cases x with
  | rat q => exact polyTrim_idem _
  | tau f => exact (tauFrac_canon f).1

theorem polyTrim_den (x : NUM) : polyTrim x.den = x.den := by
  cases x with
  | rat q => exact (by decide +kernel : polyTrim [1] = [1])
  | tau f => exact (tauFrac_canon f).2.1

theorem monic_den (x : NUM) : (toPoly x.den).Monic := by
  rw [Monic, leadingCoeff_toPoly (polyTrim_den x)]
  cases x with
  | rat q => rfl
  | tau f => exact (tauFrac_canon f).2.2.1

theorem isCoprime_num_den (x : NUM) : IsCoprime (toPoly x.num) (toPoly x.den) := by
  cases x with
  | rat q => simpa [NUM.den] using isCoprime_one_right
  | tau f => exact (isCoprime_iff_length (tauFrac_canon f).1 (tauFrac_canon f).2.1).1 (tauFrac_canon f).2.2.2.1

theorem den_ne_nil (x : NUM) : x.den ≠ [] := fun h => (monic_den x).ne_zero (by rw [h]; rfl)

theorem value_den_ne_zero (x : NUM) : polyValue (2 * Real.pi) x.den ≠ 0 := fun h =>
  den_ne_nil x ((polyTrim_den x).symm.trans ((polyValue_eq_zero_iff _).1 h))

@[simp] theorem real_rat (q : Ratio) : (NUM.rat q).real = q := by
  simp [NUM.real, NUM.num, NUM.den, polyValue_trim, polyValue]

/-- No real number is held in two ways. -/
theorem real_injective {x y : NUM} (h : x.real = y.real) : x = y := by
  simp only [NUM.real] at h
  rw [div_eq_div_iff (value_den_ne_zero x) (value_den_ne_zero y), polyValue_two_pi, polyValue_two_pi,
    polyValue_two_pi, polyValue_two_pi, ← map_mul, ← map_mul] at h
  have h := aeval_two_pi_injective h
  have h1 : toPoly x.den ∣ toPoly y.den :=
    (isCoprime_num_den x).symm.dvd_of_dvd_mul_left ⟨_, h.trans (mul_comm _ _)⟩
  have h2 : toPoly y.den ∣ toPoly x.den :=
    (isCoprime_num_den y).symm.dvd_of_dvd_mul_left ⟨_, h.symm.trans (mul_comm _ _)⟩
  have hd := eq_of_monic_of_associated (monic_den x) (monic_den y) (associated_of_dvd_dvd h1 h2)
  rw [hd] at h
  have hn := mul_right_cancel₀ (monic_den y).ne_zero h
  have hden := toPoly_injective (polyTrim_den x) (polyTrim_den y) hd
  have hnum := toPoly_injective (polyTrim_num x) (polyTrim_num y) hn
  have short : ∀ q : Ratio, ¬ 1 < (NUM.rat q).num.length := fun q => by
    have := length_polyTrim_le_length [q]
    simpa [NUM.num] using this
  cases x with
  | rat q =>
    cases y with
    | rat r =>
      have h' : toPoly [q] = toPoly [r] := by
        rw [← toPoly_trim [q], ← toPoly_trim [r]]; exact congrArg toPoly hnum
      have := congrArg (coeff · 0) h'
      simp at this
      rw [this]
    | tau g =>
      rcases (tauFrac_canon g).2.2.2.2 with h | h
      · exact absurd (by rw [hnum]; exact h) (short q)
      · have e : [1] = g.den := hden
        rw [← e] at h; simp at h
  | tau f =>
    cases y with
    | rat r =>
      rcases (tauFrac_canon f).2.2.2.2 with h | h
      · exact absurd (by rw [← hnum]; exact h) (short r)
      · have e : f.den = [1] := hden
        rw [e] at h; simp at h
    | tau g =>
      cases f; cases g
      simp only [NUM.num, NUM.den] at hnum hden
      subst hnum hden
      rfl

theorem real_inj {x y : NUM} : x.real = y.real ↔ x = y := ⟨real_injective, fun h => h ▸ rfl⟩

/-- Lowest terms of a fraction: the same value, no common factor, a monic denominator. -/
theorem polyLow_spec {a b : Poly} (ha : polyTrim a = a) (hb : polyTrim b = b) (hb0 : b ≠ []) :
    toPoly (polyLowNum a b) * toPoly b = toPoly a * toPoly (polyLowDen a b) ∧
      IsCoprime (toPoly (polyLowNum a b)) (toPoly (polyLowDen a b)) ∧
      (toPoly (polyLowDen a b)).Monic := by
  have hg := polyTrim_polyGcdOf ha hb
  obtain ⟨hga, hgb⟩ := (dvd_polyGcdOf_iff (a := a) hb _).1 dvd_rfl
  have hb' := toPoly_ne_zero hb hb0
  have hg0 : polyGcdOf a b ≠ [] := fun h => by
    rw [h] at hgb; exact hb' (zero_dvd_iff.1 hgb)
  have hG0 := toPoly_ne_zero hg hg0
  have eA := toPoly_divMod_of_dvd hg hg0 hga
  have eB := toPoly_divMod_of_dvd hg hg0 hgb
  set g := polyGcdOf a b with hgdef
  set A := (polyDivMod a g).1
  set B := (polyDivMod b g).1
  have hB0 : toPoly B ≠ 0 := fun h => hb' (by rw [eB, h, zero_mul])
  have hl : polyLead (polyTrim B) ≠ 0 := polyLead_ne_zero (polyTrim_idem B) fun h =>
    hB0 ((polyTrim_eq_nil_iff B).1 h)
  have eN : toPoly (polyLowNum a b) = C (polyLead (polyTrim B))⁻¹ * toPoly A := by
    simp only [polyLowNum, toPoly_trim, toPoly_scale]; rfl
  have eD : toPoly (polyLowDen a b) = C (polyLead (polyTrim B))⁻¹ * toPoly B := by
    simp only [polyLowDen, toPoly_trim, toPoly_scale]; rfl
  have hu : IsUnit (C (polyLead (polyTrim B))⁻¹ : ℚ[X]) := isUnit_C.2 (inv_ne_zero hl).isUnit
  refine ⟨?_, ?_, ?_⟩
  · rw [eN, eD, eA, eB]; ring
  · rw [eN, eD]
    refine (isCoprime_mul_unit_left_left hu _ _).2 ((isCoprime_mul_unit_left_right hu _ _).2 ?_)
    rw [← isRelPrime_iff_isCoprime]
    intro d hd1 hd2
    have h1 : d * toPoly g ∣ toPoly g := (dvd_polyGcdOf_iff (a := a) hb _).2
      ⟨by rw [eA]; exact mul_dvd_mul_right hd1 _, by
        conv_rhs => rw [eB]
        exact mul_dvd_mul_right hd2 _⟩
    obtain ⟨k, hk⟩ := h1
    have : toPoly g * (d * k) = toPoly g * 1 := by
      rw [mul_one]; conv_rhs => rw [hk]
      ring
    exact IsUnit.of_mul_eq_one k (mul_left_cancel₀ hG0 this)
  · have e : (toPoly B).leadingCoeff = polyLead (polyTrim B) := by
      rw [← toPoly_trim B, leadingCoeff_toPoly (polyTrim_idem B)]
    rw [eD, Monic, leadingCoeff_mul, leadingCoeff_C, e, inv_mul_cancel₀ hl]

/-- A quotient of polynomials is the quotient of their values. -/
@[simp] theorem real_ofFrac (p q : Poly) : (NUM.ofFrac p q).real =
    polyValue (2 * Real.pi) p / polyValue (2 * Real.pi) q := by
  unfold NUM.ofFrac
  split
  · rename_i h
    rw [(polyValue_eq_zero_iff q).2 h]; simp
  · rename_i hq
    have hp' := polyTrim_idem p
    have hq' := polyTrim_idem q
    obtain ⟨h1, h2, h3⟩ := polyLow_spec hp' hq' hq
    set N := polyLowNum (polyTrim p) (polyTrim q)
    set D := polyLowDen (polyTrim p) (polyTrim q)
    have hN : polyTrim N = N := polyTrim_idem _
    have hD : polyTrim D = D := polyTrim_idem _
    have hq0 : polyValue (2 * Real.pi) q ≠ 0 := fun h => hq ((polyValue_eq_zero_iff q).1 h)
    have hD0 : polyValue (2 * Real.pi) D ≠ 0 := fun h => by
      have := (polyValue_eq_zero_iff D).1 h
      exact h3.ne_zero ((polyTrim_eq_nil_iff D).1 this)
    have e : polyValue (2 * Real.pi) N / polyValue (2 * Real.pi) D =
        polyValue (2 * Real.pi) p / polyValue (2 * Real.pi) q := by
      rw [div_eq_div_iff hD0 hq0]
      have := congrArg (aeval (2 * Real.pi)) h1
      rw [map_mul, map_mul, toPoly_trim, toPoly_trim] at this
      simpa only [polyValue_two_pi] using this
    rw [← e]
    unfold NUM.ofLow
    split
    · rfl
    · rename_i hc
      have hl : polyLead D = 1 := by rw [← leadingCoeff_toPoly hD]; exact h3
      have hg : (polyGcdOf N D).length = 1 := (isCoprime_iff_length hN hD).2 h2
      have hlen : N.length ≤ 1 ∧ D.length ≤ 1 := by
        by_contra hlen
        exact hc (decide_eq_true ⟨hN, hD, hl, hg, by omega⟩)
      have eD : D = [1] := by
        cases hDD : D with
        | nil => rw [hDD] at hl; simp [polyLead] at hl
        | cons d t =>
          rw [hDD] at hl hlen
          have ht : t = [] := List.length_eq_zero_iff.1 (by simpa using hlen.2)
          subst ht
          simp [polyLead] at hl
          rw [hl]
      rw [eD, real_rat]
      cases hNN : N with
      | nil => simp [polyValue]
      | cons c t =>
        rw [hNN] at hlen
        have ht : t = [] := List.length_eq_zero_iff.1 (by simpa using hlen.1)
        subst ht
        simp [polyValue]

@[simp] theorem real_add (x y : NUM) : (x.add y).real = x.real + y.real := by
  have key : (NUM.ofFrac (polyAdd (polyMul x.num y.den) (polyMul y.num x.den)) (polyMul x.den y.den)).real =
      x.real + y.real := by
    rw [real_ofFrac, polyValue_add, polyValue_mul, polyValue_mul, polyValue_mul, NUM.real, NUM.real]
    field_simp [value_den_ne_zero x, value_den_ne_zero y]
  cases x <;> cases y <;> first | exact key | (rw [NUM.add]; simp)

@[simp] theorem real_sub (x y : NUM) : (x.sub y).real = x.real - y.real := by
  have key : (NUM.ofFrac (polyAdd (polyMul x.num y.den) (polyScale (-1) (polyMul y.num x.den)))
      (polyMul x.den y.den)).real = x.real - y.real := by
    rw [real_ofFrac, polyValue_add, polyValue_scale, polyValue_mul, polyValue_mul, polyValue_mul,
      NUM.real, NUM.real]
    have := value_den_ne_zero x
    have := value_den_ne_zero y
    field_simp
    push_cast
    ring
  cases x <;> cases y <;> first | exact key | (rw [NUM.sub]; simp)

@[simp] theorem real_mul (x y : NUM) : (x.mul y).real = x.real * y.real := by
  have key : (NUM.ofFrac (polyMul x.num y.num) (polyMul x.den y.den)).real = x.real * y.real := by
    rw [real_ofFrac, polyValue_mul, polyValue_mul, NUM.real, NUM.real, div_mul_div_comm]
  cases x <;> cases y <;> first | exact key | (rw [NUM.mul]; simp)

@[simp] theorem real_div (x y : NUM) : (x.div y).real = x.real / y.real := by
  have key : (NUM.ofFrac (polyMul x.num y.den) (polyMul x.den y.num)).real = x.real / y.real := by
    rw [real_ofFrac, polyValue_mul, polyValue_mul, NUM.real, NUM.real, div_div_div_eq]
  cases x <;> cases y <;> first | exact key | (rw [NUM.div]; simp)

@[simp] theorem real_half (x : NUM) : x.half.real = x.real / 2 := by simp [NUM.half]

/-- `TWO_PI` is 2π. -/
@[simp] theorem real_two_pi : TWO_PI.real = 2 * Real.pi := by
  simp [TWO_PI, NUM.real, NUM.num, NUM.den, polyValue]

/-- The sign of a polynomial at 2π. -/
theorem polySign_eq (p : Poly) : polySign p = SignType.sign (polyValue (2 * Real.pi) p) := by
  unfold polySign
  split
  · rename_i h; rw [(polyValue_eq_zero_iff p).2 h]; simp
  · rename_i h
    split
    · rename_i h1; exact polySignAt_sound h1
    · exact polySignAt_sound (Nat.find_spec (exists_polySignAt h))

theorem sign_inv_real (b : ℝ) : SignType.sign b⁻¹ = SignType.sign b := by
  rcases lt_trichotomy b 0 with h | rfl | h
  · rw [sign_neg h, sign_neg (inv_lt_zero.2 h)]
  · rw [inv_zero]
  · rw [sign_pos h, sign_pos (inv_pos.2 h)]

theorem sign_eq (x : NUM) : x.sign = SignType.sign x.real := by
  rw [NUM.sign, polySign_eq, polySign_eq, NUM.real, div_eq_mul_inv, sign_mul, sign_inv_real]
  simp

/-- `≤` is the denial of `<` the other way round. -/
theorem le_eq (x y : NUM) : x.le y = !y.lt x := rfl

theorem le_iff_not_lt {x y : NUM} : x.le y = true ↔ ¬ y.lt x = true := by
  rw [le_eq]; cases y.lt x <;> decide

theorem lt_iff_not_le {x y : NUM} : x.lt y = true ↔ ¬ y.le x = true := by
  rw [le_eq]; cases x.lt y <;> decide

/-- Comparing numbers is comparing reals. -/
@[simp] theorem lt_iff (x y : NUM) : x.lt y = true ↔ x.real < y.real := by
  have key : decide (0 < (y.sub x).sign) = true ↔ x.real < y.real := by
    rw [decide_eq_true_eq, sign_eq, real_sub, ← sub_pos (a := y.real)]
    rcases lt_trichotomy (y.real - x.real) 0 with h | h | h
    · rw [sign_neg h]; constructor
      · intro h'; exact absurd h' (by decide)
      · intro h'; linarith
    · rw [h]; simp
    · rw [sign_pos h]; simpa using h
  cases x <;> cases y <;> first | exact key | (rw [NUM.lt]; simp)

@[simp] theorem le_iff (x y : NUM) : x.le y = true ↔ x.real ≤ y.real := by
  rw [NUM.le, Bool.not_eq_true', ← not_lt, ← lt_iff, Bool.not_eq_true]

theorem isFloor_iff (x : NUM) (n : Int) : x.isFloor n = true ↔ ⌊x.real⌋ = n := by
  rw [NUM.isFloor, Bool.and_eq_true, le_iff, lt_iff, real_rat, real_rat, Int.floor_eq_iff]
  push_cast
  rfl

theorem exists_intOfIndex (z : Int) : ∃ n, intOfIndex n = z := by
  rcases z with k | k
  · exact ⟨2 * k, by rw [intOfIndex, if_pos (by omega)]; simp⟩
  · exact ⟨2 * k + 1, by rw [intOfIndex, if_neg (by omega)]; omega⟩

/-- Every number has a floor. -/
theorem exists_isFloor (x : NUM) : ∃ n, x.isFloor (intOfIndex n) = true :=
  (exists_intOfIndex ⌊x.real⌋).imp fun _ h => (isFloor_iff x _).2 h.symm

end Sys2Proof.Laws
end

