-- ==== Sys2Proof/Machine/NumFloor.lean ====
section
/-! DEFINITION. `floor` of the numeric domain (00_scope.md rules R10, R11, R13), exact on every number of
`NUM`. -/

namespace Sys2Proof

/-- `floor` (R13). A number that involves `TWO_PI` gets the floor its approximation suggests where that is
the floor, and otherwise the first integer that is. -/
def NUM.floor : NUM → Int
  | .rat q => q.floor
  | .tau f =>
    if (NUM.tau f).isFloor f.floorGuess then f.floorGuess
    else intOfIndex (Nat.find (Laws.exists_isFloor (.tau f)))

end Sys2Proof
end

