-- ==== Sys2Proof/Config.lean ====
section
/-! DEFINITION. What an implementation of CORE fixes and what its environment supplies
(00_scope.md rule R6, 92_eei_decisions.md "OPEN parameters collected"). The spec leaves every value
here OPEN, so State holds a parameter record and no statement may assume one; the constants without
a body below are what `State.reset` uses (log 2). -/

namespace Sys2Proof

/-- The parameters of one timer instance (R6). The four timer-base arguments are passed through
unread (R153). -/
structure TimerParams where
  /-- `CLK_HZ[t]`, hertz. -/
  clkHz : NUM
  /-- `NCH[t]`, channel count. -/
  nch : Nat
  /-- `W[t]`, width in bits of the period and compare registers. -/
  width : Nat
  /-- `REP_COUNT[t]`. -/
  repCount : Nat
  /-- `TRIG_IN[t]`, the source (log 17). -/
  trigInSource : Nat
  /-- `TRIG_IN[t]`, the edge type. -/
  trigInEdge : Nat
  /-- `TRIG_OUT[t]`. -/
  trigOut : Nat
  /-- `AOE[t]`. -/
  aoe : Nat
deriving DecidableEq, Repr, Inhabited

/-- The implementation parameters (R6). `NT = 2` is fixed by the source. -/
structure Params where
  timer0 : TimerParams
  timer1 : TimerParams
  /-- `NINV`, inverter records. -/
  ninv : Nat
  /-- `NPSFB`, full-bridge records. -/
  npsfb : Nat
  /-- `NVF`, ramp-controller records. -/
  nvf : Nat
  /-- `NLEG`, leg records. -/
  nleg : Nat
  /-- `NCFG`, configuration slots. -/
  ncfg : Nat
deriving DecidableEq, Repr, Inhabited

/-- The parameters of timer instance t. -/
def Params.timer (p : Params) (t : Nat) : TimerParams := if t = 0 then p.timer0 else p.timer1

/-- `NPWM = NCH[0] + NCH[1]` (R6). -/
def Params.npwm (p : Params) : Nat := p.timer0.nch + p.timer1.nch

/-- The constraint column of R6. -/
def Params.valid (p : Params) : Bool :=
  decide (
    (NUM.rat 0).lt p.timer0.clkHz ∧ (NUM.rat 0).lt p.timer1.clkHz ∧
    p.timer0.nch % 2 = 0 ∧ p.timer1.nch % 2 = 0 ∧
    2 ≤ p.timer0.nch ∧ 2 ≤ p.timer1.nch ∧
    1 ≤ p.timer0.width ∧ 1 ≤ p.timer1.width ∧
    p.npwm ≤ 255 ∧ p.nvf ≤ 127 ∧
    4 * p.ninv + 2 * p.npsfb ≤ p.nleg ∧ p.nleg ≤ 256 ∧
    p.nleg ≤ p.ncfg ∧ p.ncfg ≤ 256)

/-- One known value of the sinusoidal generator: `SPWM(theta, mi, dir) = (dutyA, dutyB, dutyC)`. -/
structure SpwmEntry where
  theta : NUM
  mi : NUM
  direction : Direction
  dutyA : NUM
  dutyB : NUM
  dutyC : NUM
deriving DecidableEq, Repr, Inhabited

/-- What the environment answers (R21, R320, R322), as plain data. External calls are numbered from
0 in the order CORE makes them; a call's number decides its answer (log 3). -/
structure Env where
  /-- Numbers of the timer-base calls that the environment answers `fail`. -/
  timerFails : List Nat
  /-- Numbers of the `callback` calls that never return (R346, U6). -/
  callbackHangs : List Nat
  /-- Known values of `SPWM`; at every other argument it is `Config.spwm` (R224). -/
  spwmTable : List SpwmEntry
deriving DecidableEq, Repr, Inhabited

/-- Raw numbers from which `Params.ofFree` builds a parameter set that meets R6. -/
structure FreeParams where
  clk0 : NUM
  clk1 : NUM
  half0 : Nat
  half1 : Nat
  width0 : Nat
  width1 : Nat
  pass0 : TimerParams
  pass1 : TimerParams
  ninv : Nat
  npsfb : Nat
  nvf : Nat
  extraLegs : Nat
  extraSlots : Nat
deriving Inhabited

/-- `SPWM`, the sinusoidal reference generator: OPEN and external (R6, R224, U8). A free value. -/
opaque Config.spwm : NUM → NUM → Direction → NUM × NUM × NUM

/-- The implementation's parameter choices: OPEN (R6, R7). A free value. -/
opaque Config.freeParams : FreeParams

/-- The environment's answers: OPEN (R21, R322). A free value. -/
opaque Config.env : Env

/-- A clock frequency, brought above 0. -/
def positiveOr1 (x : NUM) : NUM := if (NUM.rat 0).lt x then x else .rat 1

/-- Half the channel count of instance 0, brought into 1..126. -/
def FreeParams.pairs0 (f : FreeParams) : Nat := 1 + f.half0 % 126

/-- Half the channel count of instance 1, brought into 1..127 − pairs0. -/
def FreeParams.pairs1 (f : FreeParams) : Nat := 1 + f.half1 % (127 - f.pairs0)

/-- The inverter count, brought into 0..64. -/
def FreeParams.inverters (f : FreeParams) : Nat := f.ninv % 65

/-- The full-bridge count, brought into 0..128 − 2·NINV. -/
def FreeParams.bridges (f : FreeParams) : Nat := f.npsfb % (129 - 2 * f.inverters)

/-- The legs that the inverters and full bridges own. -/
def FreeParams.ownedLegs (f : FreeParams) : Nat := 4 * f.inverters + 2 * f.bridges

/-- The leg count, brought into ownedLegs..256. -/
def FreeParams.legs (f : FreeParams) : Nat := f.ownedLegs + f.extraLegs % (257 - f.ownedLegs)

/-- Every parameter set that meets R6 arises from some raw record, and only such sets do. -/
def Params.ofFree (f : FreeParams) : Params where
  timer0 := { f.pass0 with
    clkHz := positiveOr1 f.clk0
    nch := 2 * f.pairs0
    width := f.width0 + 1 }
  timer1 := { f.pass1 with
    clkHz := positiveOr1 f.clk1
    nch := 2 * f.pairs1
    width := f.width1 + 1 }
  ninv := f.inverters
  npsfb := f.bridges
  nvf := f.nvf % 128
  nleg := f.legs
  ncfg := f.legs + f.extraSlots % (257 - f.legs)

/-- The parameters of the machine `State.reset` describes: any set that meets R6. -/
def Config.params : Params := Params.ofFree Config.freeParams

/-- `EX`, the example parameter set of R6. A test fixture of the spec, not a statement about any
board; no definition of the model uses it. -/
def Params.ex : Params where
  timer0 := ⟨.rat 200000000, 10, 16, 0, 0, 0, 0, 0⟩
  timer1 := ⟨.rat 100000000, 6, 16, 0, 0, 0, 0, 0⟩
  ninv := 1
  npsfb := 1
  nvf := 1
  nleg := 8
  ncfg := 12

end Sys2Proof
end

