-- ==== Sys2Proof/Machine/State.lean ====
section
/-! DEFINITION. The state of CORE (10_state.md rules R20 to R40) as plain data, the reasons a step
can stop, and the state after reset (R40, R340). -/

namespace Sys2Proof.Machine

/-- Counting mode of a timer instance: code 0 `EDGE`, 1 `CENTER` (R27, R30). -/
inductive Align where
  | edge
  | center
deriving DecidableEq, Repr, Inhabited

/-- How a channel was last configured: codes 0 to 3 (R29). -/
inductive Role where
  | none
  | single
  | pairRef
  | pairInv
deriving DecidableEq, Repr, Inhabited

/-- Whether dead-time compensation is folded into a duty: code 0 `NO_COMP`, 1 `COMP` (R30). -/
inductive DutyMode where
  | noComp
  | comp
deriving DecidableEq, Repr, Inhabited

/-- Activation state of a leg, inverter, full bridge or controller: 0 `INACTIVE`, 1 `ACTIVE`. -/
inductive Activity where
  | inactive
  | active
deriving DecidableEq, Repr, Inhabited

/-- Leg type: code 0 `DEFAULT` (two-level), 1 `TNPC` (three-level) (R33). -/
inductive LegType where
  | default
  | tnpc
deriving DecidableEq, Repr, Inhabited

/-- Capability tag (R200): codes 0 to 3. `phaseShift` names the full bridge's variant and is never
stored in a leg (R108). -/
inductive Capability where
  | none
  | singlePair
  | tnpcSplit
  | phaseShift
deriving DecidableEq, Repr, Inhabited

/-- The outcome of a command (R300). Codes 11 to 14 are never produced, so they have no name. -/
inductive Status where
  | ok
  | errIllegalOp
  | errPinParity
  | errPinRange
  | errLegType
  | errDtRange
  | errNotInit
  | errValue
  | errAddr
  | errRo
  | errIndex
  | fatalHwinit
deriving DecidableEq, Repr, Inhabited

/-- `TIM[t]`, bank 0x1 (R27). `PERIOD` is `W[t]` bits wide; `W[t]` is OPEN, so it is held as a
natural number, which `TINIT` keeps below `2^W[t]` (R325; DEDUCED, safe; log 11). -/
structure Tim where
  init : Bool
  align : Align
  fsw : NUM
  period : Nat
  dtEn : Bool
  dtNs : NUM
  dtCode : Byte
  dutyDt : NUM
  cb : Byte
  cbPrio : Nibble
deriving DecidableEq, Repr

/-- `CH[n]`, bank 0x2 (R29): role, polarity select, shadow and active compare values. -/
structure Chan where
  role : Role
  ocsel : Bool
  cmps : Nat
  cmpa : Nat
deriving DecidableEq, Repr

/-- `CFG[s]`, bank 0x3 (R30): a configuration slot. -/
structure Slot where
  align : Align
  fsw : NUM
  dtEn : Bool
  dtNs : NUM
  min : NUM
  max : NUM
  bal : Bool
  dutyMode : DutyMode
deriving DecidableEq, Repr

/-- `LEG[l]`, bank 0x4 (R33): a power-module leg. -/
structure Leg where
  state : Activity
  kind : LegType
  pin : Byte
  cap : Capability
  disFirst : Byte
  disCount : Byte
deriving DecidableEq, Repr

/-- `INV[i]`, bank 0x5 (R34): a three-phase inverter. -/
structure Inv where
  state : Activity
  init : Bool
  dupEn : Bool
  dup : Bool
  disFirst : Byte
  disCount : Byte
deriving DecidableEq, Repr

/-- `PSFB[j]`, bank 0x6 (R35): a phase-shifted full bridge. -/
structure Psfb where
  state : Activity
  init : Bool
deriving DecidableEq, Repr

/-- `VF[k]`, bank 0x7 (R36): an open-loop V/F ramp controller. -/
structure Vf where
  init : Bool
  curFreq : NUM
  outFreq : NUM
  curState : Activity
  reqState : Activity
  curDir : Direction
  reqDir : Direction
  theta : NUM
  nomMi : NUM
  nomFreq : NUM
  accel : NUM
  pwmFreq : NUM
  inv : Byte
deriving DecidableEq, Repr

/-- Reset column of R27. -/
def Tim.reset : Tim := ⟨false, .edge, .rat 0, 0, false, .rat 0, 0, .rat 0, 0, 0⟩

/-- Reset column of R29. -/
def Chan.reset : Chan := ⟨.none, false, 0, 0⟩

/-- Reset column of R30. -/
def Slot.reset : Slot := ⟨.edge, .rat 0, false, .rat 0, .rat 0, .rat 0, false, .noComp⟩

/-- Reset column of R33. -/
def Leg.reset : Leg := ⟨.inactive, .default, 0, .none, 0, 0⟩

/-- Reset column of R34. -/
def Inv.reset : Inv := ⟨.inactive, false, false, false, 0, 0⟩

/-- Reset column of R35. -/
def Psfb.reset : Psfb := ⟨.inactive, false⟩

/-- Reset column of R36. -/
def Vf.reset : Vf :=
  ⟨false, .rat 0, .rat 0, .inactive, .inactive, .forward, .forward, .rat 0, .rat 0, .rat 0, .rat 0, .rat 0, 0⟩

/-- A register bank: the records that differ from their reset value, by rising index (R70, R81).
An unlisted index reads as the reset record (DESIGN CHOICE, safe; log 6). -/
abbrev Bank (α : Type) := List (Nat × α)

/-- An operand lane as delivered (R103): a `NUM` value, an unsigned integer, or an implementation's
NaN or infinity. -/
inductive Lane where
  | num (v : NUM)
  | uint (n : Nat)
  | notFinite
deriving DecidableEq, Repr

/-- The three operand lanes delivered with a command (R8, R22). -/
structure Lanes where
  arg0 : Lane
  arg1 : Lane
  arg2 : Lane
deriving DecidableEq, Repr

/-- What the environment presents to CORE, one at a time (R8, R9, R15). -/
inductive Event where
  /-- A command word with its operand lanes. -/
  | command (cw : Word) (lanes : Lanes)
  /-- `PER_ELAPSED[t]` (R172). -/
  | perElapsed (t : Fin 2)
  /-- `RESET` (R340). -/
  | reset
deriving DecidableEq, Repr

/-- An external call and its arguments (R321). -/
inductive ExtCall where
  | configureBase (t periodTicks : Nat) (counterMode : Align) (repetitionCount : Nat)
  | configureTriggerIn (t source edgeType : Nat)
  | configureTriggerOut (t triggerType : Nat)
  | configureBreakDeadtime (t : Nat) (code : Byte) (autoOutputEnable : Nat)
  | setPinAsPwmRole (pin : Nat)
  | setPinAsDigitalOutput (pin level : Nat)
  | setPhaseShift (referencePin : Nat) (fraction : NUM)
  | spwm (theta mi : NUM) (direction : Direction)
  | setOutputsEnabled (bitmask : PinMask) (enable : Bool)
  | irqConfig (t : Nat) (enable : Bool) (priority : Nibble)
  | callback (t : Nat) (cb : Byte)
deriving DecidableEq, Repr

/-- The environment's answer to an external call (R322). -/
inductive ExtAnswer where
  | ok
  | fail
  | duties (a b c : NUM)
deriving DecidableEq, Repr

/-- One entry of the trace `EXT` (R320). -/
structure ExtEntry where
  call : ExtCall
  answer : ExtAnswer
deriving DecidableEq, Repr

/-- The machine: CORE's eight banks and result port (R20), and the model's own fields `params`,
`env`, `inbox`, `lanes`, `ext`, `callNo`, which hold the parameters and the environment (R21) as
plain data (log 2, 3, 4). -/
structure State where
  /-- The model's own: the implementation parameters (R6). No step changes them. -/
  params : Params
  /-- The model's own: the environment's answers (R21). No step changes them. -/
  env : Env
  /-- The model's own: the commands and events still to be presented, in order (R15). -/
  inbox : List Event
  /-- The model's own: the operand lanes of the command at the port (R22). -/
  lanes : Lanes
  /-- The model's own: the trace `EXT` of external calls, oldest first; no rule reads it (R320). -/
  ext : List ExtEntry
  /-- The model's own: how many external calls have been made; it numbers the next one. -/
  callNo : Nat
  /-- `GLB.HALTED` (R26). -/
  halted : Bool
  /-- `GLB.OEN` (R26): bit n−1 mirrors the output enable of logical PWM number n. -/
  oen : PinMask
  /-- Bank 0x1, `TIM` (R27). -/
  tim : Bank Tim
  /-- Bank 0x2, `CH` (R29). -/
  ch : Bank Chan
  /-- Bank 0x3, `CFG` (R30). -/
  cfg : Bank Slot
  /-- Bank 0x4, `LEG` (R33). -/
  leg : Bank Leg
  /-- Bank 0x5, `INV` (R34). -/
  inv : Bank Inv
  /-- Bank 0x6, `PSFB` (R35). -/
  psfb : Bank Psfb
  /-- Bank 0x7, `VF` (R36). -/
  vf : Bank Vf
  /-- `STATUS` of the result port (R22). -/
  status : Status
  /-- `RESCODE` of the result port (R22). -/
  rescode : Byte
  /-- `RES0` of the result port (R22). -/
  res0 : NUM
  /-- `RES1` of the result port (R22). -/
  res1 : NUM
  /-- `RES2` of the result port (R22). -/
  res2 : NUM
  /-- `RES3` of the result port (R22). -/
  res3 : NUM
deriving DecidableEq, Repr

/-- Why a step stops the machine. No command does: a command always ends with a status (R300). -/
inductive Fault where
  /-- Raised by `PER_ELAPSED[t]` when the external callback it runs never returns: "leaves the model
  with no further transition" (U6, R346). Safe: nothing is claimed of what follows. -/
  | callbackNeverReturned (t : Nat) (cb : Byte)
deriving DecidableEq, Repr

/-- Why a command has no meaning. No arm of `exec` raises it: every command is modelled. -/
inductive Refusal where
  /-- An instruction not modelled yet. Safe. No command of this model raises it. -/
  | notModelled (mnemonic : String)
deriving DecidableEq, Repr

/-- The state after `RESET` (R40, R340) for given parameters and environment: every field 0, nothing
presented, no external call made (the model's own fields: DESIGN CHOICE, unsafe; log 7). -/
def State.resetWith (p : Params) (e : Env) : State where
  params := p
  env := e
  inbox := []
  lanes := ⟨.num (.rat 0), .num (.rat 0), .num (.rat 0)⟩
  ext := []
  callNo := 0
  halted := false
  oen := 0
  tim := []
  ch := []
  cfg := []
  leg := []
  inv := []
  psfb := []
  vf := []
  status := .ok
  rescode := 0
  res0 := .rat 0
  res1 := .rat 0
  res2 := .rat 0
  res3 := .rat 0

/-- The machine right after reset (R40, R340). The parameters and the environment are OPEN in the
spec; here they are constants without a body (log 2, 3). -/
def State.reset : State := State.resetWith Config.params Config.env

end Sys2Proof.Machine
end

