-- ==== Sys2Proof/Machine/Ops.lean ====
section
/-! DEFINITION. The named operations over CORE's state: register banks, the external-call port, and
how a command ends, in success, in a refusal or in the fatal state (R20, R22, R300 to R309, R320). -/

namespace Sys2Proof.Machine

/-! ### Register banks -/

/-- The record at an index; an unlisted index reads as the reset record `d` (R40). -/
def Bank.read {α : Type} (d : α) : Bank α → Nat → α
  | [], _ => d
  | (k, v) :: b, n => if n = k then v else Bank.read d b n

/-- The bank without an entry for an index. -/
def Bank.erase {α : Type} (b : Bank α) (n : Nat) : Bank α := b.filter fun e => e.1 != n

/-- The bank with an entry put in by rising index. -/
def Bank.insert {α : Type} : Bank α → Nat → α → Bank α
  | [], n, v => [(n, v)]
  | (k, w) :: b, n, v => if n < k then (n, v) :: (k, w) :: b else (k, w) :: Bank.insert b n v

/-- Replace the record at an index, keeping the canonical form: a reset record is not listed. -/
def Bank.write {α : Type} [DecidableEq α] (d : α) (b : Bank α) (n : Nat) (v : α) : Bank α :=
  if v = d then b.erase n else (b.erase n).insert n v

/-- The canonical form: indices strictly rising, no reset record listed. -/
def Bank.wf {α : Type} [DecidableEq α] (d : α) : Bank α → Bool
  | [] => true
  | (k, v) :: b => decide (v ≠ d) && b.all (fun e => decide (k < e.1)) && Bank.wf d b

/-- `TIM[t]`. -/
def State.timAt (s : State) (t : Nat) : Tim := Bank.read Tim.reset s.tim t
/-- `CH[n]`. -/
def State.chAt (s : State) (n : Nat) : Chan := Bank.read Chan.reset s.ch n
/-- `CFG[s]`. -/
def State.cfgAt (s : State) (sl : Nat) : Slot := Bank.read Slot.reset s.cfg sl
/-- `LEG[l]`. -/
def State.legAt (s : State) (l : Nat) : Leg := Bank.read Leg.reset s.leg l
/-- `INV[i]`. -/
def State.invAt (s : State) (i : Nat) : Inv := Bank.read Inv.reset s.inv i
/-- `PSFB[j]`. -/
def State.psfbAt (s : State) (j : Nat) : Psfb := Bank.read Psfb.reset s.psfb j
/-- `VF[k]`. -/
def State.vfAt (s : State) (k : Nat) : Vf := Bank.read Vf.reset s.vf k

/-- `TIM[t] <- v`. -/
def State.setTim (s : State) (t : Nat) (v : Tim) : State :=
  { s with tim := Bank.write Tim.reset s.tim t v }
/-- `CH[n] <- v`. -/
def State.setCh (s : State) (n : Nat) (v : Chan) : State :=
  { s with ch := Bank.write Chan.reset s.ch n v }
/-- `CFG[s] <- v`. -/
def State.setCfg (s : State) (sl : Nat) (v : Slot) : State :=
  { s with cfg := Bank.write Slot.reset s.cfg sl v }
/-- `LEG[l] <- v`. -/
def State.setLeg (s : State) (l : Nat) (v : Leg) : State :=
  { s with leg := Bank.write Leg.reset s.leg l v }
/-- `INV[i] <- v`. -/
def State.setInv (s : State) (i : Nat) (v : Inv) : State :=
  { s with inv := Bank.write Inv.reset s.inv i v }
/-- `PSFB[j] <- v`. -/
def State.setPsfb (s : State) (j : Nat) (v : Psfb) : State :=
  { s with psfb := Bank.write Psfb.reset s.psfb j v }
/-- `VF[k] <- v`. -/
def State.setVf (s : State) (k : Nat) (v : Vf) : State :=
  { s with vf := Bank.write Vf.reset s.vf k v }

/-- `GLB.OEN <- v`. -/
def State.setOen (s : State) (v : PinMask) : State := { s with oen := v }

/-- Every bank is in its canonical form. -/
def State.banksWf (s : State) : Bool :=
  Bank.wf Tim.reset s.tim && Bank.wf Chan.reset s.ch && Bank.wf Slot.reset s.cfg &&
  Bank.wf Leg.reset s.leg && Bank.wf Inv.reset s.inv && Bank.wf Psfb.reset s.psfb &&
  Bank.wf Vf.reset s.vf

/-! ### Operations and their ends -/

/-- How an operation ends: it completes with a result, or it ends at a status, in either case with
the state it has reached. "State changes made so far are kept or discarded as the raising rule
says" (R13): an operation that raises gives the state that remains. -/
inductive Done (α : Type) where
  | ok (a : α) (s : State)
  | err (e : Status) (s : State)

/-- The state an operation leaves. -/
def Done.state {α : Type} : Done α → State
  | .ok _ s => s
  | .err _ s => s

/-- `r = do OP(args) ; if r ≠ OK then raise r` (R13): go on from an operation that completed. -/
def Done.andThen {α β : Type} (r : Done α) (k : α → State → Done β) : Done β :=
  match r with
  | .ok a s => k a s
  | .err e s => .err e s

/-- An operation performed for each unit of a list in order, ending at the first that raises. -/
def forUnits (f : Nat → State → Done Unit) : List Nat → State → Done Unit
  | [], s => .ok () s
  | l :: ls, s => (f l s).andThen fun _ s' => forUnits f ls s'

/-- What a command that completes puts on the result port; lanes its rule does not name are 0
(R22). -/
structure Results where
  rescode : Byte
  res0 : NUM
  res1 : NUM
  res2 : NUM
  res3 : NUM
deriving DecidableEq, Repr

/-- No named results: every lane 0 (R22). -/
def Results.none : Results := ⟨0, .rat 0, .rat 0, .rat 0, .rat 0⟩

/-- One named result, on `RES0`. -/
def Results.lane0 (v : NUM) : Results := { Results.none with res0 := v }

/-- One named result, on `RESCODE`. -/
def Results.code (c : Byte) : Results := { Results.none with rescode := c }

/-- Drive the result port (R22). -/
def State.drive (s : State) (e : Status) (r : Results) : State :=
  { s with
    status := e
    rescode := r.rescode
    res0 := r.res0
    res1 := r.res1
    res2 := r.res2
    res3 := r.res3 }

/-- The end of a command (R22, R309): `OK` with its results, or the status raised with `RESCODE` and
all four lanes 0. It is the one place where an error is recorded: there is no other cause
register. -/
def Done.finish : Done Results → State
  | .ok r s => s.drive .ok r
  | .err e s => s.drive e Results.none

/-- A command (R9, R300, R305): refused with `FATAL_HWINIT` and no effect while `GLB.HALTED`, else
performed to its end. The operations below test `HALTED` nowhere else: it is set only where the
whole command ends at once, and only `RESET` clears it (DEDUCED, safe; log 12). -/
def command (op : State → Done Results) (s : State) : Host.Outcome State Fault Refusal :=
  .next (if s.halted then s.drive .fatalHwinit Results.none else (op s).finish)

/-- A command that raises a status and does nothing else. -/
def refuseWith (e : Status) (s : State) : Done Results := .err e s

/-! ### The external-call port (R320) -/

/-- Append an entry to the trace `EXT`. -/
def State.record (s : State) (call : ExtCall) (answer : ExtAnswer) : State :=
  { s with ext := s.ext ++ [⟨call, answer⟩], callNo := s.callNo + 1 }

/-- `emit call(args)` for a call that answers `ok` (R322). -/
def State.emit (s : State) (call : ExtCall) : State := s.record call .ok

/-- The fatal state (R305): `GLB.HALTED <- 1`; every register output keeps its value. -/
def State.halt (s : State) : State := { s with halted := true }

/-- A timer-base call, the only kind that can answer `fail` (R322). On `fail` CORE halts and every
command around the call ends with `FATAL_HWINIT` (R305). -/
def timerCall (call : ExtCall) (s : State) : Done Unit :=
  if s.callNo ∈ s.env.timerFails then .err .fatalHwinit (s.record call .fail).halt
  else .ok () (s.emit call)

/-- The value of `SPWM` that the environment answers (R224): pure, so a function of its
arguments. -/
def spwmLookup : List SpwmEntry → NUM → NUM → Direction → NUM × NUM × NUM
  | [], theta, mi, dir => Config.spwm theta mi dir
  | e :: es, theta, mi, dir =>
    if theta = e.theta ∧ mi = e.mi ∧ dir = e.direction then (e.dutyA, e.dutyB, e.dutyC)
    else spwmLookup es theta mi dir

/-- The environment's answer to `spwm(theta, mi, dir)` (R224). -/
def State.spwm (s : State) (theta mi : NUM) (dir : Direction) : NUM × NUM × NUM :=
  spwmLookup s.env.spwmTable theta mi dir

/-- `emit spwm(theta, mi, dir)`: the answer is recorded beside the call (R320). -/
def State.emitSpwm (s : State) (theta mi : NUM) (dir : Direction) : State :=
  let a := s.spwm theta mi dir
  s.record (.spwm theta mi dir) (.duties a.1 a.2.1 a.2.2)

end Sys2Proof.Machine
end

