-- ==== Sys2Proof/Machine/Operands.lean ====
section
/-! DEFINITION. Operands of CORE: lanes, number forms, the binding of logical PWM numbers, pin masks,
enumeration codes and register-file addresses (00_scope.md R11, R13; 20_memory.md R70 to R74;
30_encoding.md R103; 42_power_module_leg.md R208; 45_register_access.md R290, R291). -/

namespace Sys2Proof.Machine

/-! ### Numbers -/

/-- `floor` of a non-negative real as an integer register value (R11). -/
def floorNat (x : NUM) : Nat := x.floor.toNat

/-- `min(a, b)` (R13). -/
def numMin (a b : NUM) : NUM := if a.le b then a else b

/-- `max(a, b)` (R13). -/
def numMax (a b : NUM) : NUM := if a.le b then b else a

/-- `abs(x)` (R13). -/
def numAbs (x : NUM) : NUM := if x.lt (.rat 0) then (NUM.rat 0).sub x else x

/-- `clampHi(d, hi)` (R13). -/
def clampHi (d hi : NUM) : NUM := if hi.lt d then hi else d

/-- `clamp(d, lo, hi)`: the upper test is first (R13, R165). -/
def clamp (d lo hi : NUM) : NUM := if hi.lt d then hi else if d.lt lo then lo else d

/-- `x rmod m`: the real remainder, in `[0, m)` for `m > 0` (R13). -/
def rmod (x m : NUM) : NUM := x.sub (m.mul (.rat (x.div m).floor))

/-! ### Operand lanes -/

/-- The number a lane carries, exactly as delivered (R10, R13, R103); none for a value that is not a
finite real (R103; DEDUCED, safe; log 10). -/
def Lane.value : Lane → Option NUM
  | .num v => some v
  | .uint n => some (.rat n)
  | .notFinite => none

/-- A command that reads `ARG0`. A lane that is not a finite real ends it with `ERR_VALUE` before
anything else the operation does (R103, R304, R308; DEDUCED, unsafe; log 9). -/
def withArg0 (op : NUM → State → Done Results) (s : State) : Done Results :=
  match s.lanes.arg0.value with
  | some a => op a s
  | none => .err .errValue s

/-- A command that reads `ARG0` and `ARG1`. -/
def withArg01 (op : NUM → NUM → State → Done Results) (s : State) : Done Results :=
  match s.lanes.arg0.value, s.lanes.arg1.value with
  | some a, some b => op a b s
  | _, _ => .err .errValue s

/-- A command that reads all three lanes. -/
def withArgs (op : NUM → NUM → NUM → State → Done Results) (s : State) : Done Results :=
  match s.lanes.arg0.value, s.lanes.arg1.value, s.lanes.arg2.value with
  | some a, some b, some c => op a b c s
  | _, _, _ => .err .errValue s

/-! ### Logical PWM numbers and pins -/

/-- `BASE[t]`, the first logical PWM number of instance t (R6). -/
def base (p : Params) (t : Nat) : Nat := if t = 0 then 1 else 1 + p.timer0.nch

/-- `inst(n)`, the timer instance of a logical PWM number (R73). -/
def instOf (p : Params) (n : Nat) : Nat := if n ≤ p.timer0.nch then 0 else 1

/-- `chan(n)`, the zero-based channel index within the instance (R73). -/
def chanOf (p : Params) (n : Nat) : Nat := n - base p (instOf p n)

/-- `isSecond(n)`: the role is `INVERTED` exactly for even numbers (R73). -/
def isSecond (n : Nat) : Bool := n % 2 == 0

/-- The logical PWM numbers of instance t: every n with `inst(n) = t` (R73). -/
def channelsOf (p : Params) (t : Nat) : List Nat :=
  (List.range (p.timer t).nch).map fun c => base p t + c

/-- A number binds to a channel only in 1..NPWM (R73). -/
def bound (p : Params) (n : Nat) : Bool := decide (1 ≤ n) && decide (n ≤ p.npwm)

/-- `LegMask(p, w) = (2^w − 1) << (p − 1)`: pin q owns bit q−1 (R74, R208). -/
def legMask (pin width : Nat) : PinMask := BitVec.ofNat 255 ((2 ^ width - 1) <<< (pin - 1))

/-- `LegWidth`: 2 pins for a Default leg, 4 for a TNPC leg (R208). -/
def legWidth : LegType → Nat
  | .default => 2
  | .tnpc => 4

/-! ### Enumeration codes (10_state.md tables) -/

/-- A flag as the number it denotes. -/
def flagCode (b : Bool) : Nat := if b then 1 else 0

/-- The code of an alignment (R27). -/
def Align.code : Align → Nat
  | .edge => 0
  | .center => 1

/-- The alignment of a one-bit code (R30). -/
def Align.ofFlag (b : Bool) : Align := if b then .center else .edge

/-- The code of a channel role (R29). -/
def Role.code : Role → Nat
  | .none => 0
  | .single => 1
  | .pairRef => 2
  | .pairInv => 3

/-- The code of a duty mode (R30). -/
def DutyMode.code : DutyMode → Nat
  | .noComp => 0
  | .comp => 1

/-- The duty mode of a one-bit code (R30). -/
def DutyMode.ofFlag (b : Bool) : DutyMode := if b then .comp else .noComp

/-- The code of an activation state (R33). -/
def Activity.code : Activity → Nat
  | .inactive => 0
  | .active => 1

/-- The activation state of an enable bit: "1 = ACTIVE, 0 = INACTIVE" (R207). -/
def Activity.ofFlag (b : Bool) : Activity := if b then .active else .inactive

/-- The enable bit of an activation state (R262). -/
def Activity.flag : Activity → Bool
  | .inactive => false
  | .active => true

/-- The code of a leg type (R33). -/
def LegType.code : LegType → Nat
  | .default => 0
  | .tnpc => 1

/-- The leg type of a one-bit code (R33). -/
def LegType.ofFlag (b : Bool) : LegType := if b then .tnpc else .default

/-- The code of a capability tag (R200). -/
def Capability.code : Capability → Nat
  | .none => 0
  | .singlePair => 1
  | .tnpcSplit => 2
  | .phaseShift => 3

/-- The code of a direction (R37). -/
def directionCode : Direction → Nat
  | .forward => 0
  | .reverse => 1

/-- The direction of a one-bit code (R37). -/
def directionOfFlag (b : Bool) : Direction := if b then .reverse else .forward

/-- The 4-bit code of a status (R300). -/
def Status.code : Status → Nibble
  | .ok => 0
  | .errIllegalOp => 1
  | .errPinParity => 2
  | .errPinRange => 3
  | .errLegType => 4
  | .errDtRange => 5
  | .errNotInit => 6
  | .errValue => 7
  | .errAddr => 8
  | .errRo => 9
  | .errIndex => 10
  | .fatalHwinit => 15

/-! ### Values a register write accepts (R291) -/

/-- A one-bit flag or two-valued enumeration accepts the integers 0 and 1 (R291). -/
def flagValue (v : NUM) : Option Bool :=
  if v = .rat 0 then some false else if v = .rat 1 then some true else none

/-- A `b8` field accepts the integers 0..255 (R291). -/
def byteValue : NUM → Option Byte
  | .rat q =>
    if q.den = 1 ∧ 0 ≤ q.num ∧ q.num < 256 then some (BitVec.ofNat 8 q.num.toNat) else none
  | .tau _ => none

/-! ### Register-file addresses (R70, R81, R290) -/

/-- The fields of `GLB`, by field number (R26). -/
inductive GlbField where
  | halted | oen
deriving DecidableEq, Repr

/-- The fields of `TIM[t]`, by field number (R27). -/
inductive TimField where
  | init | align | fsw | period | dtEn | dtNs | dtCode | dutyDt | cb | cbPrio
deriving DecidableEq, Repr

/-- The fields of `CH[n]`, by field number (R29). -/
inductive ChField where
  | role | ocsel | cmps | cmpa
deriving DecidableEq, Repr

/-- The fields of `CFG[s]`, by field number (R30). -/
inductive CfgField where
  | align | fsw | dtEn | dtNs | min | max | bal | dutyMode
deriving DecidableEq, Repr

/-- The fields of `LEG[l]`, by field number (R33). -/
inductive LegField where
  | state | kind | pin | cap | disFirst | disCount
deriving DecidableEq, Repr

/-- The fields of `INV[i]`, by field number (R34). -/
inductive InvField where
  | state | init | dupEn | dup | disFirst | disCount
deriving DecidableEq, Repr

/-- The fields of `PSFB[j]`, by field number (R35). -/
inductive PsfbField where
  | state | init
deriving DecidableEq, Repr

/-- The fields of `VF[k]`, by field number (R36). -/
inductive VfField where
  | init | curFreq | outFreq | curState | reqState | curDir | reqDir | theta
  | nomMi | nomFreq | accel | pwmFreq | inv
deriving DecidableEq, Repr

/-- One cell of the register file (R70): a field of a record. -/
inductive Cell where
  | glb (f : GlbField)
  | tim (t : Nat) (f : TimField)
  | ch (n : Nat) (f : ChField)
  | cfg (sl : Nat) (f : CfgField)
  | leg (l : Nat) (f : LegField)
  | inv (i : Nat) (f : InvField)
  | psfb (j : Nat) (f : PsfbField)
  | vf (k : Nat) (f : VfField)
deriving DecidableEq, Repr

/-- The field of `GLB` with a field number (R26). -/
def glbField : Nat → Option GlbField
  | 0 => some .halted
  | 1 => some .oen
  | _ => none

/-- The field of `TIM[t]` with a field number (R27). -/
def timField : Nat → Option TimField
  | 0 => some .init
  | 1 => some .align
  | 2 => some .fsw
  | 3 => some .period
  | 4 => some .dtEn
  | 5 => some .dtNs
  | 6 => some .dtCode
  | 7 => some .dutyDt
  | 8 => some .cb
  | 9 => some .cbPrio
  | _ => none

/-- The field of `CH[n]` with a field number (R29). -/
def chField : Nat → Option ChField
  | 0 => some .role
  | 1 => some .ocsel
  | 2 => some .cmps
  | 3 => some .cmpa
  | _ => none

/-- The field of `CFG[s]` with a field number (R30). -/
def cfgField : Nat → Option CfgField
  | 0 => some .align
  | 1 => some .fsw
  | 2 => some .dtEn
  | 3 => some .dtNs
  | 4 => some .min
  | 5 => some .max
  | 6 => some .bal
  | 7 => some .dutyMode
  | _ => none

/-- The field of `LEG[l]` with a field number (R33). -/
def legField : Nat → Option LegField
  | 0 => some .state
  | 1 => some .kind
  | 2 => some .pin
  | 3 => some .cap
  | 4 => some .disFirst
  | 5 => some .disCount
  | _ => none

/-- The field of `INV[i]` with a field number (R34). -/
def invField : Nat → Option InvField
  | 0 => some .state
  | 1 => some .init
  | 2 => some .dupEn
  | 3 => some .dup
  | 4 => some .disFirst
  | 5 => some .disCount
  | _ => none

/-- The field of `PSFB[j]` with a field number (R35). -/
def psfbField : Nat → Option PsfbField
  | 0 => some .state
  | 1 => some .init
  | _ => none

/-- The field of `VF[k]` with a field number (R36). -/
def vfField : Nat → Option VfField
  | 0 => some .init
  | 1 => some .curFreq
  | 2 => some .outFreq
  | 3 => some .curState
  | 4 => some .reqState
  | 5 => some .curDir
  | 6 => some .reqDir
  | 7 => some .theta
  | 8 => some .nomMi
  | 9 => some .nomFreq
  | 10 => some .accel
  | 11 => some .pwmFreq
  | 12 => some .inv
  | _ => none

/-- `bank = addr[15:12]` (R70). -/
def bankNumber (addr : FieldAddr) : Nat := (addr.extractLsb' 12 4).toNat

/-- `idx = addr[11:4]` (R70). -/
def recordIndex (addr : FieldAddr) : Nat := (addr.extractLsb' 4 8).toNat

/-- `field = addr[3:0]` (R70). -/
def fieldNumber (addr : FieldAddr) : Nat := (addr.extractLsb' 0 4).toNat

/-- `Resolve(addr)`: the cell an address names, or none (`ERR_ADDR`) (R81, R290). -/
def resolve (p : Params) (addr : FieldAddr) : Option Cell :=
  let idx := recordIndex addr
  let field := fieldNumber addr
  match bankNumber addr with
  | 0 => if idx = 0 then (glbField field).map .glb else none
  | 1 => if idx ≤ 1 then (timField field).map (.tim idx) else none
  | 2 => if 1 ≤ idx ∧ idx ≤ p.npwm then (chField field).map (.ch idx) else none
  | 3 => if idx < p.ncfg then (cfgField field).map (.cfg idx) else none
  | 4 => if idx < p.nleg then (legField field).map (.leg idx) else none
  | 5 => if idx < p.ninv then (invField field).map (.inv idx) else none
  | 6 => if idx < p.npsfb then (psfbField field).map (.psfb idx) else none
  | 7 => if idx < p.nvf then (vfField field).map (.vf idx) else none
  | _ => none

end Sys2Proof.Machine
end

