-- ==== Sys2Proof/Machine/Flags.lean ====
section
/-! DEFINITION. CORE has no condition codes (R25). What stands here is what sets the one-bit polarity
select of a channel and the duty limits a flag selects (41_pwm_driver.md rules R157 to R159, R163). -/

namespace Sys2Proof.Machine

/-- `isEdgeAligned` (R157). -/
def isEdge : Align → Bool
  | .edge => true
  | .center => false

/-- `OCSEL = isSecondMember ^ isEdgeAligned` (R157). -/
def ocselOf (second : Bool) (al : Align) : Bool := second ^^ isEdge al

/-- `Limits`, first part: the new upper limit. A limit of 0 is "unset"; a negative one is kept (R158).
R158 adds that every update is then refused by R168; the pseudocode of R161 and R162 accepts some, and
the model follows the pseudocode (DEDUCED, unsafe; log 20). -/
def limitMax (tm : Tim) (mx : NUM) : NUM :=
  if tm.dtEn then
    if mx = .rat 0 then (NUM.rat 1).sub tm.dutyDt else numMin mx ((NUM.rat 1).sub tm.dutyDt)
  else
    if mx = .rat 0 then .rat 1 else mx

/-- `Limits`, second part: balancing, on the new upper limit; the comparison is strict (R159). -/
def limitMin (pair : Bool) (bal : Bool) (mx mn : NUM) : NUM :=
  if pair && bal && (NUM.rat (1 / 2)).lt mx then (NUM.rat 1).sub mx else mn

/-- A slot after `Limits(t, s, pair)` (R158, R159). -/
def limitSlot (tm : Tim) (pair : Bool) (c : Slot) : Slot :=
  let mx := limitMax tm c.max
  { c with max := mx, min := limitMin pair c.bal mx c.min }

/-- `Comp(t, s)`: the compensation added to a duty (R163). -/
def compOf (tm : Tim) (c : Slot) : NUM :=
  if tm.dtEn && decide (c.dutyMode = .comp) then tm.dutyDt else .rat 0

end Sys2Proof.Machine
end

