-- ==== Sys2Proof/Machine/DeadTime.lean ====
section
/-! DEFINITION. The dead-time encoder (40_deadtime_encoder.md rules R130 to R138, 30_encoding.md rules
R100, R101). -/

namespace Sys2Proof.Machine

/-- `raw = ns × clockHz / 1e9`: dead-time in clock ticks, real (R131). -/
def rawTicks (ns clockHz : NUM) : NUM := (ns.mul clockHz).div (.rat 1000000000)

/-- The code of a whole number of ticks, or none for 1024 ticks or more (R131). The source's
parenthetical maxima of tiers 3 and 4 are wrong; the formulas win (conflict C1). -/
def tickCode (ticks : Nat) : Option Byte :=
  if ticks < 128 then some (BitVec.ofNat 8 ticks)
  else
    let v := ticks / 2 - 64
    if v < 64 then some (BitVec.ofNat 8 v ||| 0x80)
    else
      let v := ticks / 8 - 32
      if v < 32 then some (BitVec.ofNat 8 v ||| 0xC0)
      else
        let v := ticks / 16 - 32
        if v < 32 then some (BitVec.ofNat 8 v ||| 0xE0)
        else none

/-- `DtEncode(ns, clockHz)`; none is `ERR_DT_RANGE` (R131). -/
def dtEncode (ns clockHz : NUM) : Option Byte := tickCode (floorNat (rawTicks ns clockHz))

/-- `DtDecode(code)`: the ticks a code stands for (R132). CORE itself never decodes a code. -/
def dtDecode (code : Byte) : Nat :=
  if code.getLsbD 7 = false then (code.extractLsb' 0 7).toNat
  else if code.extractLsb' 6 2 = 0b10 then ((code.extractLsb' 0 6).toNat + 64) * 2
  else if code.extractLsb' 5 3 = 0b110 then ((code.extractLsb' 0 5).toNat + 32) * 8
  else ((code.extractLsb' 0 5).toNat + 32) * 16

/-- `DtStep(code)`: the quantisation step of the code's tier (R132). -/
def dtStep (code : Byte) : Nat :=
  if code.getLsbD 7 = false then 1
  else if code.extractLsb' 6 2 = 0b10 then 2
  else if code.extractLsb' 5 3 = 0b110 then 8
  else 16

/-- `DtComp(ns, fsw)`: the fraction of one switching period that dead-time consumes (R133; conflict
C4). -/
def dtComp (ns fsw : NUM) : NUM := (ns.mul fsw).div (.rat 1000000000)

/-- `DTENC` (R138). -/
def encodeDeadTime (ns clockHz fsw : NUM) (s : State) : Done Results :=
  if ns.lt (.rat 0) || clockHz.le (.rat 0) then .err .errValue s
  else
    match dtEncode ns clockHz with
    | none => .err .errDtRange s
    | some code => .ok { Results.lane0 (dtComp ns fsw) with rescode := code } s

/-- `DTENC ns, clockHz, fsw` (R138). -/
def execDtenc (s : State) : Host.Outcome State Fault Refusal :=
  command (withArgs encodeDeadTime) s

end Sys2Proof.Machine
end

