-- ==== Sys2Proof/Machine/PwmDriver.lean ====
section
/-! DEFINITION. The PWM pair and channel driver: `TINIT`, `CFGPAIR`, `CFGCH`, `UPDPAIR`, `UPDCH`,
`CFGIRQ` (41_pwm_driver.md rules R150 to R171). -/

namespace Sys2Proof.Machine

/-! ### Timer initialisation -/

/-- `Period(t, align, f)` as an integer, which may be −1 before it is checked (R152). -/
def periodOf (clkHz : NUM) (al : Align) (f : NUM) : Int :=
  match al with
  | .center => (clkHz.div ((NUM.rat 2).mul f)).floor
  | .edge => (clkHz.div f).floor - 1

/-- What the first `TINIT` computes from a slot: period, dead-time code, compensation fraction. -/
structure Timing where
  period : Nat
  code : Byte
  comp : NUM
deriving DecidableEq, Repr

/-- The dead-time part of `TINIT`'s checks (R151): the code and the fraction, both 0 when dead-time
is not requested. -/
def dtOfSlot (clkHz : NUM) (c : Slot) : Except Status (Byte × NUM) :=
  if c.dtEn then
    if c.dtNs.lt (.rat 0) then .error .errValue
    else
      match dtEncode c.dtNs clkHz with
      | none => .error .errDtRange
      | some code =>
        if (NUM.rat 1).le (dtComp c.dtNs c.fsw) then .error .errValue else .ok (code, dtComp c.dtNs c.fsw)
  else .ok (0, .rat 0)

/-- The checks and computations of `TINIT` on a slot, before anything is written (R151, R154). -/
def timingOf (tp : TimerParams) (c : Slot) : Except Status Timing :=
  if ¬ (NUM.rat 0).lt c.fsw then .error .errValue
  else
    let p := periodOf tp.clkHz c.align c.fsw
    if p < 1 ∨ 2 ^ tp.width - 1 < p then .error .errValue
    else
      match dtOfSlot tp.clkHz c with
      | .error e => .error e
      | .ok (code, comp) => .ok ⟨p.toNat, code, comp⟩

/-- The four timer-base calls, in the order of the source's list (R153). -/
def timerBaseCalls (t : Nat) (tp : TimerParams) (al : Align) (tm : Timing) (s : State) : Done Unit :=
  (timerCall (.configureBase t tm.period al tp.repCount) s).andThen fun _ s =>
  (timerCall (.configureTriggerIn t tp.trigInSource tp.trigInEdge) s).andThen fun _ s =>
  (timerCall (.configureTriggerOut t tp.trigOut) s).andThen fun _ s =>
  timerCall (.configureBreakDeadtime t tm.code tp.aoe) s

/-- `TIM[t]` after its first `TINIT` (R151). The callback slot is kept. -/
def initTim (r : Tim) (c : Slot) (tm : Timing) : Tim :=
  { r with
    init := true
    align := c.align
    fsw := c.fsw
    period := tm.period
    dtEn := c.dtEn
    dtNs := c.dtNs
    dtCode := tm.code
    dutyDt := tm.comp }

/-- `TINIT(t, s)`: the first call that succeeds configures the instance, later calls are no-ops
(R151). -/
def timerInit (t sl : Nat) (s : State) : Done Unit :=
  if 1 < t ∨ s.params.ncfg ≤ sl then .err .errIndex s
  else if (s.timAt t).init then .ok () s
  else
    let tp := s.params.timer t
    let c := s.cfgAt sl
    match timingOf tp c with
    | .error e => .err e s
    | .ok tm =>
      (timerBaseCalls t tp c.align tm s).andThen fun _ s' =>
        .ok () (s'.setTim t (initTim (s'.timAt t) c tm))

/-! ### Channel and pair configuration -/

/-- `OCSEL` and `ROLE` of a channel written; `CMPS` and `CMPA` kept (R155, R156). -/
def State.setRole (s : State) (n : Nat) (role : Role) (ocsel : Bool) : State :=
  s.setCh n { s.chAt n with role := role, ocsel := ocsel }

/-- `do Limits(t, s, pair)` (R158, R159). -/
def State.applyLimits (s : State) (t sl : Nat) (pair : Bool) : State :=
  s.setCfg sl (limitSlot (s.timAt t) pair (s.cfgAt sl))

/-- `CFGPAIR(n, s)` (R155). -/
def configPair (n sl : Nat) (s : State) : Done Unit :=
  if s.params.ncfg ≤ sl then .err .errIndex s
  else if ¬ bound s.params n then .err .errPinRange s
  else if n % 2 = 0 then .err .errPinParity s
  else
    let t := instOf s.params n
    (timerInit t sl s).andThen fun _ s1 =>
      let al := (s1.timAt t).align
      let s2 := s1.setRole n .pairRef (ocselOf false al)
      let s3 := s2.setRole (n + 1) .pairInv (ocselOf true al)
      .ok () (s3.applyLimits t sl true)

/-- `CFGCH(n, s)` (R156). -/
def configChannel (n sl : Nat) (s : State) : Done Unit :=
  if s.params.ncfg ≤ sl then .err .errIndex s
  else if ¬ bound s.params n then .err .errPinRange s
  else
    let t := instOf s.params n
    (timerInit t sl s).andThen fun _ s1 =>
      let al := (s1.timAt t).align
      let s2 := s1.setRole n .single (ocselOf (isSecond n) al)
      .ok () (s2.applyLimits t sl false)

/-! ### Duty update -/

/-- `Compare(t, du)` for `0 ≤ du ≤ 1` (R164). -/
def compareOf (tm : Tim) (du : NUM) : Nat :=
  match tm.align with
  | .edge => floorNat (du.mul (.rat tm.period))
  | .center => floorNat (((NUM.rat 1).sub du).mul (.rat tm.period))

/-- The compare value of a fully-off output: the zero bypass (R167). -/
def bypassOf (tm : Tim) : Nat :=
  match tm.align with
  | .edge => 0
  | .center => tm.period

/-- The compare value of a clamped duty, or none where the compensated duty lies outside [0, 1]
(R161, R162, R167, R168). -/
def dutyCompare (tm : Tim) (c : Slot) (d : NUM) : Option Nat :=
  if d = .rat 0 then some (bypassOf tm)
  else
    let du := d.add (compOf tm c)
    if du.lt (.rat 0) || (NUM.rat 1).lt du then none else some (compareOf tm du)

/-- `CMPS` of a channel written (R161, R162). -/
def State.setShadow (s : State) (n cmp : Nat) : State :=
  s.setCh n { s.chAt n with cmps := cmp }

/-- `UPDPAIR(n, s, duty)`; the result is the applied duty (R161, R166, R169). It refuses with `ERR_VALUE`
exactly what the pseudocode refuses; where `MAX` is negative that is not every duty, as the remark in
R158 has it: a clamped duty that the compensation lifts to 0 or more, and a request at most `MAX` that
`MIN` raises, are accepted (DEDUCED, unsafe; log 20). -/
def updatePair (n sl : Nat) (duty : NUM) (s : State) : Done NUM :=
  if s.params.ncfg ≤ sl then .err .errIndex s
  else if ¬ bound s.params n then .err .errPinRange s
  else if n % 2 = 0 then .err .errPinParity s
  else
    let tm := s.timAt (instOf s.params n)
    let c := s.cfgAt sl
    if tm.init = false ∨ (s.chAt n).role ≠ .pairRef then .err .errNotInit s
    else
      let d := clamp duty c.min c.max
      match dutyCompare tm c d with
      | none => .err .errValue s
      | some cmp => .ok d ((s.setShadow n cmp).setShadow (n + 1) cmp)

/-- `UPDCH(n, s, duty)`; the result is the applied duty, with no floor (R162). A negative duty that the
compensation lifts to 0 or more is accepted, as the pseudocode has it and the remarks in R158 and R162
have not (DEDUCED, unsafe; log 20). -/
def updateChannel (n sl : Nat) (duty : NUM) (s : State) : Done NUM :=
  if s.params.ncfg ≤ sl then .err .errIndex s
  else if ¬ bound s.params n then .err .errPinRange s
  else
    let tm := s.timAt (instOf s.params n)
    let c := s.cfgAt sl
    if tm.init = false ∨ (s.chAt n).role ≠ .single then .err .errNotInit s
    else
      let d := clampHi duty c.max
      match dutyCompare tm c d with
      | none => .err .errValue s
      | some cmp => .ok d (s.setShadow n cmp)

/-! ### The reset-interrupt callback -/

/-- The callback ids an enabling `CFGIRQ` accepts besides the null one (R170): a ramp controller
1..NVF or an external callback 0x80..0xFF. -/
def callbackLegal (p : Params) (cb : Byte) : Bool :=
  (decide (1 ≤ cb.toNat) && decide (cb.toNat ≤ p.nvf)) || decide (0x80 ≤ cb.toNat)

/-- `CFGIRQ(t, enable, cb, priority)` (R170). -/
def configIrq (t : Nat) (cb : Byte) (priority : Nibble) (enable : Bool) (s : State) : Done Unit :=
  if 1 < t then .err .errIndex s
  else if enable then
    if cb = 0 then .ok () s
    else if ¬ callbackLegal s.params cb then .err .errValue s
    else
      .ok () ((s.setTim t { s.timAt t with cb := cb, cbPrio := priority }).emit
        (.irqConfig t true priority))
  else
    .ok () ((s.setTim t { s.timAt t with cb := 0 }).emit (.irqConfig t false 0))

/-! ### The commands -/

/-- An operation without results, as a command. -/
def noResults (r : Done Unit) : Done Results := r.andThen fun _ s => .ok Results.none s

/-- An operation whose result is an applied duty on `RES0`, as a command. -/
def dutyResult (r : Done NUM) : Done Results := r.andThen fun d s => .ok (Results.lane0 d) s

/-- `TINIT t, s` (R151). -/
def execTinit (t sl : Nat) (s : State) : Host.Outcome State Fault Refusal :=
  command (fun s => noResults (timerInit t sl s)) s

/-- `CFGPAIR n, s` (R155). -/
def execCfgpair (n sl : Nat) (s : State) : Host.Outcome State Fault Refusal :=
  command (fun s => noResults (configPair n sl s)) s

/-- `CFGCH n, s` (R156). -/
def execCfgch (n sl : Nat) (s : State) : Host.Outcome State Fault Refusal :=
  command (fun s => noResults (configChannel n sl s)) s

/-- `UPDPAIR n, s, duty` (R161). -/
def execUpdpair (n sl : Nat) (s : State) : Host.Outcome State Fault Refusal :=
  command (withArg0 fun d s => dutyResult (updatePair n sl d s)) s

/-- `UPDCH n, s, duty` (R162). -/
def execUpdch (n sl : Nat) (s : State) : Host.Outcome State Fault Refusal :=
  command (withArg0 fun d s => dutyResult (updateChannel n sl d s)) s

/-- `CFGIRQ t, enable, cb, priority` (R170). -/
def execCfgirq (t : Nat) (cb : Byte) (priority : Nibble) (enable : Bool) (s : State) :
    Host.Outcome State Fault Refusal :=
  command (fun s => noResults (configIrq t cb priority enable s)) s

end Sys2Proof.Machine
end

