-- ==== Sys2Proof/Machine/Legs.lean ====
section
/-! DEFINITION. Power-module legs and the TNPC split: `CFGLEG`, `CAPUPD`, `ENLEG`
(42_power_module_leg.md rules R200 to R211). -/

namespace Sys2Proof.Machine

/-- Store the capability that `CFGLEG` resolved (R201). -/
def State.setCap (s : State) (l : Nat) (cap : Capability) : State :=
  s.setLeg l { s.legAt l with cap := cap }

/-- One `setPinAsPwmRole` call for each pin of a list, in order (R201). -/
def State.emitPwmRoles (s : State) : List Nat → State
  | [] => s
  | q :: qs => (s.emit (.setPinAsPwmRole q)).emitPwmRoles qs

/-- The four pins of a TNPC leg (R201). -/
def tnpcPins (p : Nat) : List Nat := [p, p + 1, p + 2, p + 3]

/-- `CFGLEG(l)`; the result is the capability tag (R201). -/
def configLeg (l : Nat) (s : State) : Done Capability :=
  if s.params.nleg ≤ l then .err .errIndex s
  else
    let p := (s.legAt l).pin.toNat
    match (s.legAt l).kind with
    | .default =>
      (configPair p l s).andThen fun _ s1 => .ok .singlePair (s1.setCap l .singlePair)
    | .tnpc =>
      if p < 1 ∨ s.params.npwm < p + 3 then .err .errPinRange s
      else if p % 2 = 0 then .err .errPinParity s
      else
        (configPair p l s).andThen fun _ s1 =>
        (configPair (p + 2) l s1).andThen fun _ s2 =>
          .ok .tnpcSplit ((s2.emitPwmRoles (tnpcPins p)).setCap l .tnpcSplit)

/-- `m = |d − 0.5| × 2` (R202). -/
def tnpcDistance (d : NUM) : NUM := (numAbs (d.sub (.rat (1 / 2)))).mul (.rat 2)

/-- `TnpcSplit(d)`: the duties of pair A and pair B (R202; conflict C2). -/
def tnpcSplit (d : NUM) : NUM × NUM :=
  if d.lt (.rat (1 / 2)) then (.rat 0, (NUM.rat 1).sub (tnpcDistance d)) else (tnpcDistance d, .rat 1)

/-- `SinglePairUpdate(l, d)` (R205). -/
def singlePairUpdate (l : Nat) (d : NUM) (s : State) : Done NUM :=
  updatePair (s.legAt l).pin.toNat l d s

/-- `TnpcSplitUpdate(l, d)`: pair A first, then pair B; the result is the pre-split d (R206). -/
def tnpcSplitUpdate (l : Nat) (d : NUM) (s : State) : Done NUM :=
  let p := (s.legAt l).pin.toNat
  (updatePair p l (tnpcSplit d).1 s).andThen fun _ s1 =>
  (updatePair (p + 2) l (tnpcSplit d).2 s1).andThen fun _ s2 => .ok d s2

/-- `CAPUPD(l, duty)`: dispatch on the cached tag, not on `TYPE` (R204). The tag `PHASE_SHIFT` is
never stored in a leg (R108), and is no leg capability: like `NONE` it is "not configured" (DESIGN CHOICE,
safe; log 15). -/
def capabilityUpdate (l : Nat) (d : NUM) (s : State) : Done NUM :=
  if s.params.nleg ≤ l then .err .errIndex s
  else
    match (s.legAt l).cap with
    | .none => .err .errNotInit s
    | .singlePair => singlePairUpdate l d s
    | .tnpcSplit => tnpcSplitUpdate l d s
    | .phaseShift => .err .errNotInit s

/-- `GLB.OEN` after a masked write (R207): the bits of the mask take the enable value, the others
keep theirs. -/
def maskedEnable (oen mask : PinMask) (enable : Bool) : PinMask :=
  if enable then oen ||| mask else oen &&& ~~~ mask

/-- `ENLEG(l, enable)`: one masked write for all pins of the leg (R79, R207). `NOT_INIT` is tested
before the pin range (conflict C10). -/
def enableLeg (l : Nat) (enable : Bool) (s : State) : Done Unit :=
  if s.params.nleg ≤ l then .err .errIndex s
  else if (s.legAt l).cap = .none then .err .errNotInit s
  else
    let p := (s.legAt l).pin.toNat
    let w := legWidth (s.legAt l).kind
    if p < 1 ∨ s.params.npwm < p + w - 1 then .err .errPinRange s
    else
      let mask := legMask p w
      let s1 := s.emit (.setOutputsEnabled mask enable)
      let s2 := s1.setOen (maskedEnable s1.oen mask enable)
      .ok () (s2.setLeg l { s2.legAt l with state := Activity.ofFlag enable })

/-- `CFGLEG l`: `RESCODE` is the capability tag (R201). -/
def execCfgleg (l : Nat) (s : State) : Host.Outcome State Fault Refusal :=
  command (fun s => (configLeg l s).andThen fun cap s' =>
    .ok (Results.code (BitVec.ofNat 8 cap.code)) s') s

/-- `ENLEG l, enable` (R207). -/
def execEnleg (l : Nat) (enable : Bool) (s : State) : Host.Outcome State Fault Refusal :=
  command (fun s => noResults (enableLeg l enable s)) s

/-- `CAPUPD l, duty` (R204). -/
def execCapupd (l : Nat) (s : State) : Host.Outcome State Fault Refusal :=
  command (withArg0 fun d s => dutyResult (capabilityUpdate l d s)) s

end Sys2Proof.Machine
end

