-- ==== Sys2Proof/Machine/Inverter.lean ====
section
/-! DEFINITION. The three-phase inverter: `INVINIT`, `INVUPD`, `INVSPWM`, `INVACT`
(43_inverter_psfb.md rules R220 to R227). -/

namespace Sys2Proof.Machine

/-- `InvLegs(i, dup)`: legs 0, 1, 2 and the duplicate (R34, R221; conflict C7). -/
def invLegs (i : Nat) (dup : Bool) : List Nat :=
  if dup then [4 * i, 4 * i + 1, 4 * i + 2, 4 * i + 3] else [4 * i, 4 * i + 1, 4 * i + 2]

/-- The first failing leg's status in `Validate` (R221). -/
def validateLegs (s : State) : List Nat → Option Status
  | [] => none
  | l :: ls =>
    let p := (s.legAt l).pin.toNat
    if p < 1 ∨ s.params.npwm < p + legWidth (s.legAt l).kind - 1 then some .errPinRange
    else if p % 2 = 0 then some .errPinParity
    else validateLegs s ls

/-- `Validate(i, L)`: raises before any effect (R221). -/
def validateInv (i : Nat) (ls : List Nat) (s : State) : Option Status :=
  match validateLegs s ls with
  | some e => some e
  | none =>
    let r := s.invAt i
    if 0 < r.disCount.toNat ∧ 255 < r.disFirst.toNat + r.disCount.toNat - 1 then some .errValue
    else none

/-- Configure a leg and give it its 50% duty (R220, R230). -/
def startLeg (l : Nat) (s : State) : Done Unit :=
  (configLeg l s).andThen fun _ s1 =>
  (capabilityUpdate l (.rat (1 / 2)) s1).andThen fun _ s2 => .ok () s2

/-- The disable pins of an inverter, ascending (R225). -/
def disablePins (r : Inv) : List Nat :=
  (List.range r.disCount.toNat).map fun c => r.disFirst.toNat + c

/-- One `setPinAsDigitalOutput(q, 0)` call for each disable pin (R225). -/
def State.emitDisablePins (s : State) : List Nat → State
  | [] => s
  | q :: qs => (s.emit (.setPinAsDigitalOutput q 0)).emitDisablePins qs

/-- `InvEnable(i, e)`: one masked write per leg, in order, then the aggregate state (R226). -/
def inverterEnable (i : Nat) (enable : Bool) (s : State) : Done Unit :=
  (forUnits (fun l s => enableLeg l enable s) (invLegs i (s.invAt i).dup) s).andThen fun _ s1 =>
    .ok () (s1.setInv i { s1.invAt i with state := Activity.ofFlag enable })

/-- `INVINIT(i)` (R220). -/
def inverterInit (i : Nat) (s : State) : Done Unit :=
  if s.params.ninv ≤ i then .err .errIndex s
  else
    let ls := invLegs i (s.invAt i).dupEn
    match validateInv i ls s with
    | some e => .err e s
    | none =>
      (forUnits startLeg ls s).andThen fun _ s1 =>
        let s2 := s1.emitDisablePins (disablePins (s1.invAt i))
        let s3 := s2.setInv i { s2.invAt i with dup := (s2.invAt i).dupEn }
        (inverterEnable i false s3).andThen fun _ s4 =>
          .ok () (s4.setInv i { s4.invAt i with init := true })

/-- The four applied duties an inverter update returns (R222). -/
structure Duties where
  d0 : NUM
  d1 : NUM
  d2 : NUM
  d3 : NUM
deriving DecidableEq, Repr

/-- The duplicate's part of `INVUPD`: it receives the requested duty of the third leg; without a
duplicate the lane is 0 (R222). -/
def duplicateUpdate (i : Nat) (d2 : NUM) (s : State) : Done NUM :=
  if (s.invAt i).dup then capabilityUpdate (4 * i + 3) d2 s else .ok (.rat 0) s

/-- `INVUPD(i, d0, d1, d2)`: leg order 0, 1, 2, duplicate (R84, R222). -/
def inverterUpdate (i : Nat) (d0 d1 d2 : NUM) (s : State) : Done Duties :=
  if s.params.ninv ≤ i then .err .errIndex s
  else if (s.invAt i).init = false then .err .errNotInit s
  else
    (capabilityUpdate (4 * i) d0 s).andThen fun a0 s1 =>
    (capabilityUpdate (4 * i + 1) d1 s1).andThen fun a1 s2 =>
    (capabilityUpdate (4 * i + 2) d2 s2).andThen fun a2 s3 =>
    (duplicateUpdate i d2 s3).andThen fun a3 s4 => .ok ⟨a0, a1, a2, a3⟩ s4

/-- `INVSPWM(i, dir, theta, mi)`: the checks come before the call; the generator's answer is not
tested (R223, R224). -/
def inverterSpwm (i : Nat) (dir : Direction) (theta mi : NUM) (s : State) : Done Duties :=
  if s.params.ninv ≤ i then .err .errIndex s
  else if (s.invAt i).init = false then .err .errNotInit s
  else
    let a := s.spwm theta mi dir
    inverterUpdate i a.1 a.2.1 a.2.2 (s.emitSpwm theta mi dir)

/-- `INVACT(i, enable)` (R226). -/
def inverterActivate (i : Nat) (enable : Bool) (s : State) : Done Unit :=
  if s.params.ninv ≤ i then .err .errIndex s
  else if (s.invAt i).init = false then .err .errNotInit s
  else inverterEnable i enable s

/-- The applied duties on `RES0..RES3` (R222). -/
def dutiesResult (r : Done Duties) : Done Results :=
  r.andThen fun d s => .ok ⟨0, d.d0, d.d1, d.d2, d.d3⟩ s

/-- `INVINIT i` (R220). -/
def execInvinit (i : Nat) (s : State) : Host.Outcome State Fault Refusal :=
  command (fun s => noResults (inverterInit i s)) s

/-- `INVUPD i, d0, d1, d2` (R222). -/
def execInvupd (i : Nat) (s : State) : Host.Outcome State Fault Refusal :=
  command (withArgs fun d0 d1 d2 s => dutiesResult (inverterUpdate i d0 d1 d2 s)) s

/-- `INVSPWM i, dir, theta, mi` (R223). -/
def execInvspwm (i : Nat) (direction : Direction) (s : State) : Host.Outcome State Fault Refusal :=
  command (withArg01 fun theta mi s => dutiesResult (inverterSpwm i direction theta mi s)) s

/-- `INVACT i, enable` (R226). -/
def execInvact (i : Nat) (enable : Bool) (s : State) : Host.Outcome State Fault Refusal :=
  command (fun s => noResults (inverterActivate i enable s)) s

end Sys2Proof.Machine
end

