-- ==== Sys2Proof/Machine/FullBridge.lean ====
section
/-! DEFINITION. The phase-shifted full bridge: `PSFBINIT`, `PSFBUPD`, `PSFBACT`
(43_inverter_psfb.md rules R230 to R234). -/

namespace Sys2Proof.Machine

/-- `PsfbLegs(j)`: first leg, then second leg (R35, R230). -/
def psfbLegs (p : Params) (j : Nat) : List Nat := [4 * p.ninv + 2 * j, 4 * p.ninv + 2 * j + 1]

/-- The pin checks of `PSFBINIT`: the first failing leg's status (R230). -/
def psfbPinCheck (s : State) : List Nat → Option Status
  | [] => none
  | l :: ls =>
    let p := (s.legAt l).pin.toNat
    if p < 1 ∨ s.params.npwm < p + 1 then some .errPinRange
    else if p % 2 = 0 then some .errPinParity
    else psfbPinCheck s ls

/-- The leg-type check of `PSFBINIT`, after the pin checks (R230): both legs are Default legs. -/
def psfbTypesOk (s : State) (ls : List Nat) : Bool :=
  ls.all fun l => decide ((s.legAt l).kind = .default)

/-- `PsfbEnable(j, e)` (R233). -/
def psfbEnable (j : Nat) (enable : Bool) (s : State) : Done Unit :=
  (forUnits (fun l s => enableLeg l enable s) (psfbLegs s.params j) s).andThen fun _ s1 =>
    .ok () (s1.setPsfb j { s1.psfbAt j with state := Activity.ofFlag enable })

/-- `PSFBINIT(j)` (R230). -/
def psfbInit (j : Nat) (s : State) : Done Unit :=
  if s.params.npsfb ≤ j then .err .errIndex s
  else
    let ls := psfbLegs s.params j
    match psfbPinCheck s ls with
    | some e => .err e s
    | none =>
      if ¬ psfbTypesOk s ls then .err .errLegType s
      else
        (forUnits startLeg ls s).andThen fun _ s1 =>
        (psfbEnable j false s1).andThen fun _ s2 =>
          .ok () (s2.setPsfb j { s2.psfbAt j with init := true })

/-- `PhaseShiftUpdate(j, d)`: half the duty, not clamped, forwarded to the second leg's reference
pin; the result is the fraction forwarded (R232). -/
def phaseShiftUpdate (j : Nat) (d : NUM) (s : State) : Done NUM :=
  .ok d.half (s.emit (.setPhaseShift (s.legAt (4 * s.params.ninv + 2 * j + 1)).pin.toNat d.half))

/-- `PSFBUPD(j, duty)` (R231). -/
def psfbUpdate (j : Nat) (d : NUM) (s : State) : Done NUM :=
  if s.params.npsfb ≤ j then .err .errIndex s
  else if (s.psfbAt j).init = false then .err .errNotInit s
  else phaseShiftUpdate j d s

/-- `PSFBACT(j, enable)` (R233). -/
def psfbActivate (j : Nat) (enable : Bool) (s : State) : Done Unit :=
  if s.params.npsfb ≤ j then .err .errIndex s
  else if (s.psfbAt j).init = false then .err .errNotInit s
  else psfbEnable j enable s

/-- `PSFBINIT j` (R230). -/
def execPsfbinit (j : Nat) (s : State) : Host.Outcome State Fault Refusal :=
  command (fun s => noResults (psfbInit j s)) s

/-- `PSFBUPD j, duty` (R231). -/
def execPsfbupd (j : Nat) (s : State) : Host.Outcome State Fault Refusal :=
  command (withArg0 fun d s => dutyResult (psfbUpdate j d s)) s

/-- `PSFBACT j, enable` (R233). -/
def execPsfbact (j : Nat) (enable : Bool) (s : State) : Host.Outcome State Fault Refusal :=
  command (fun s => noResults (psfbActivate j enable s)) s

end Sys2Proof.Machine
end

