-- ==== Sys2Proof/Machine/Ramp.lean ====
section
/-! DEFINITION. The open-loop V/F ramp controller: `VFINIT`, `VFSTEP` (44_vf_ramp_controller.md rules
R260 to R276). -/

namespace Sys2Proof.Machine

/-- The static configuration a controller can run on (R261, R262). -/
def rampConfigOk (v : Vf) : Bool :=
  (NUM.rat 0).lt v.nomFreq && (NUM.rat 0).lt v.pwmFreq && (NUM.rat 0).le v.accel

/-- `VFINIT(k)` (R261). -/
def rampInit (k : Nat) (s : State) : Done Unit :=
  if s.params.nvf ≤ k then .err .errIndex s
  else
    let v := s.vfAt k
    if s.params.ninv ≤ v.inv.toNat then .err .errIndex s
    else if ¬ rampConfigOk v then .err .errValue s
    else
      .ok () (s.setVf k
        { v with
          curFreq := .rat 0
          theta := .rat 0
          curState := .inactive
          reqState := .inactive
          curDir := v.reqDir
          init := true })

/-- `Toward(f, g, a)`: ramp by at most a, never past the target (R266). -/
def toward (f g a : NUM) : NUM :=
  if f.lt g then numMin (f.add a) g else if g.lt f then numMax (f.sub a) g else f

/-- `Toward0(f, a)` (R266). -/
def toward0 (f a : NUM) : NUM := toward f (.rat 0) a

/-- Branch 1, activation arbitration (R264): ramp to 0; at 0 commit by `INVACT`, then `CUR_STATE`. -/
def rampActivation (k i : Nat) (a : NUM) (s : State) : Done Unit :=
  let v := s.vfAt k
  let f := toward0 v.curFreq a
  let s1 := s.setVf k { v with curFreq := f }
  if f = .rat 0 then
    (inverterActivate i v.reqState.flag s1).andThen fun _ s2 =>
      .ok () (s2.setVf k { s2.vfAt k with curState := v.reqState })
  else .ok () s1

/-- Branch 2, direction arbitration (R265): ramp to 0; at 0 commit the direction. -/
def rampDirection (k : Nat) (a : NUM) (s : State) : State :=
  let v := s.vfAt k
  let f := toward0 v.curFreq a
  s.setVf k { v with curFreq := f, curDir := if f = .rat 0 then v.reqDir else v.curDir }

/-- Branch 3, frequency tracking (R266). -/
def rampTracking (k : Nat) (a : NUM) (s : State) : State :=
  let v := s.vfAt k
  s.setVf k { v with curFreq := toward v.curFreq v.outFreq a }

/-- Exactly one of the three branches, chosen on the fields at the start of the step (R263). -/
def rampArbitrate (k i : Nat) (a : NUM) (s : State) : Done Unit :=
  let v := s.vfAt k
  if v.reqState ≠ v.curState then rampActivation k i a s
  else if v.reqDir ≠ v.curDir then .ok () (rampDirection k a s)
  else .ok () (rampTracking k a s)

/-- `mi = NOM_MI × f / NOM_FREQ` (R267). -/
def modulationIndex (v : Vf) : NUM := (v.nomMi.mul v.curFreq).div v.nomFreq

/-- `THETA` after the waveform advance (R267): `(THETA + TWO_PI × f / PWM_FREQ) rmod TWO_PI`. -/
def nextTheta (v : Vf) : NUM := rmod (v.theta.add ((TWO_PI.mul v.curFreq).div v.pwmFreq)) TWO_PI

/-- The waveform advance and the emission (R267, R268): the new `THETA`, then one `INVSPWM` with it,
the new modulation index and the new direction. -/
def rampEmit (k i : Nat) (s : State) : Done Results :=
  let v := s.vfAt k
  let mi := modulationIndex v
  let theta := nextTheta v
  let s1 := s.setVf k { v with theta := theta }
  (inverterSpwm i v.curDir theta mi s1).andThen fun _ s2 =>
    .ok ⟨0, v.curFreq, mi, theta, .rat 0⟩ s2

/-- `VFSTEP(k)` (R262). -/
def rampStep (k : Nat) (s : State) : Done Results :=
  if s.params.nvf ≤ k then .err .errIndex s
  else
    let v := s.vfAt k
    let i := v.inv.toNat
    if v.init = false then .err .errNotInit s
    else if s.params.ninv ≤ i then .err .errIndex s
    else if (s.invAt i).init = false then .err .errNotInit s
    else if ¬ rampConfigOk v then .err .errValue s
    else (rampArbitrate k i (v.accel.div v.pwmFreq) s).andThen fun _ s1 => rampEmit k i s1

/-- `VFINIT k` (R261). -/
def execVfinit (k : Nat) (s : State) : Host.Outcome State Fault Refusal :=
  command (fun s => noResults (rampInit k s)) s

/-- `VFSTEP k`: `RES0` frequency, `RES1` modulation index, `RES2` theta (R262). -/
def execVfstep (k : Nat) (s : State) : Host.Outcome State Fault Refusal :=
  command (rampStep k) s

end Sys2Proof.Machine
end

