-- ==== Sys2Proof/Machine/RegAccess.lean ====
section
/-! DEFINITION. Register access commands `WRF` and `RDF` (45_register_access.md rules R290 to R295). -/

namespace Sys2Proof.Machine

/-- What a cell holds (R70): a NUM, or an integer, flag or enumeration code. -/
inductive CellValue where
  | num (v : NUM)
  | int (n : Nat)
deriving DecidableEq, Repr

/-- A field of `TIM[t]` as `RDF` returns it (R27, R293). -/
def timValue (r : Tim) : TimField → CellValue
  | .init => .int (flagCode r.init)
  | .align => .int r.align.code
  | .fsw => .num r.fsw
  | .period => .int r.period
  | .dtEn => .int (flagCode r.dtEn)
  | .dtNs => .num r.dtNs
  | .dtCode => .int r.dtCode.toNat
  | .dutyDt => .num r.dutyDt
  | .cb => .int r.cb.toNat
  | .cbPrio => .int r.cbPrio.toNat

/-- A field of `CH[n]` as `RDF` returns it (R29, R293). -/
def chValue (r : Chan) : ChField → CellValue
  | .role => .int r.role.code
  | .ocsel => .int (flagCode r.ocsel)
  | .cmps => .int r.cmps
  | .cmpa => .int r.cmpa

/-- A field of `CFG[s]` as `RDF` returns it (R30, R293). -/
def cfgValue (r : Slot) : CfgField → CellValue
  | .align => .int r.align.code
  | .fsw => .num r.fsw
  | .dtEn => .int (flagCode r.dtEn)
  | .dtNs => .num r.dtNs
  | .min => .num r.min
  | .max => .num r.max
  | .bal => .int (flagCode r.bal)
  | .dutyMode => .int r.dutyMode.code

/-- A field of `LEG[l]` as `RDF` returns it (R33, R293). -/
def legValue (r : Leg) : LegField → CellValue
  | .state => .int r.state.code
  | .kind => .int r.kind.code
  | .pin => .int r.pin.toNat
  | .cap => .int r.cap.code
  | .disFirst => .int r.disFirst.toNat
  | .disCount => .int r.disCount.toNat

/-- A field of `INV[i]` as `RDF` returns it (R34, R293). -/
def invValue (r : Inv) : InvField → CellValue
  | .state => .int r.state.code
  | .init => .int (flagCode r.init)
  | .dupEn => .int (flagCode r.dupEn)
  | .dup => .int (flagCode r.dup)
  | .disFirst => .int r.disFirst.toNat
  | .disCount => .int r.disCount.toNat

/-- A field of `PSFB[j]` as `RDF` returns it (R35, R293). -/
def psfbValue (r : Psfb) : PsfbField → CellValue
  | .state => .int r.state.code
  | .init => .int (flagCode r.init)

/-- A field of `VF[k]` as `RDF` returns it (R36, R293). -/
def vfValue (r : Vf) : VfField → CellValue
  | .init => .int (flagCode r.init)
  | .curFreq => .num r.curFreq
  | .outFreq => .num r.outFreq
  | .curState => .int r.curState.code
  | .reqState => .int r.reqState.code
  | .curDir => .int (directionCode r.curDir)
  | .reqDir => .int (directionCode r.reqDir)
  | .theta => .num r.theta
  | .nomMi => .num r.nomMi
  | .nomFreq => .num r.nomFreq
  | .accel => .num r.accel
  | .pwmFreq => .num r.pwmFreq
  | .inv => .int r.inv.toNat

/-- `MemRead(addr, 1)` of a resolved address (R70). -/
def memRead (s : State) : Cell → CellValue
  | .glb .halted => .int (flagCode s.halted)
  | .glb .oen => .int s.oen.toNat
  | .tim t f => timValue (s.timAt t) f
  | .ch n f => chValue (s.chAt n) f
  | .cfg sl f => cfgValue (s.cfgAt sl) f
  | .leg l f => legValue (s.legAt l) f
  | .inv i f => invValue (s.invAt i) f
  | .psfb j f => psfbValue (s.psfbAt j) f
  | .vf k f => vfValue (s.vfAt k) f

/-- A checked write to a read-write field: `ERR_VALUE` where the value has not the field's form
(R291). -/
def putIf {α β : Type} (v : Option β) (f : β → α) : Except Status α :=
  match v with
  | some x => .ok (f x)
  | none => .error .errValue

/-- A slot with one field written; all eight are read-write (R30, R291). -/
def cfgWith (r : Slot) (v : NUM) : CfgField → Except Status Slot
  | .align => putIf (flagValue v) fun b => { r with align := Align.ofFlag b }
  | .fsw => .ok { r with fsw := v }
  | .dtEn => putIf (flagValue v) fun b => { r with dtEn := b }
  | .dtNs => .ok { r with dtNs := v }
  | .min => .ok { r with min := v }
  | .max => .ok { r with max := v }
  | .bal => putIf (flagValue v) fun b => { r with bal := b }
  | .dutyMode => putIf (flagValue v) fun b => { r with dutyMode := DutyMode.ofFlag b }

/-- A leg with one field written; `STATE` and `CAP` are read-only (R33, R291). -/
def legWith (r : Leg) (v : NUM) : LegField → Except Status Leg
  | .state => .error .errRo
  | .kind => putIf (flagValue v) fun b => { r with kind := LegType.ofFlag b }
  | .pin => putIf (byteValue v) fun b => { r with pin := b }
  | .cap => .error .errRo
  | .disFirst => putIf (byteValue v) fun b => { r with disFirst := b }
  | .disCount => putIf (byteValue v) fun b => { r with disCount := b }

/-- An inverter with one field written; `STATE`, `INIT` and `DUP` are read-only (R34, R291). -/
def invWith (r : Inv) (v : NUM) : InvField → Except Status Inv
  | .state => .error .errRo
  | .init => .error .errRo
  | .dupEn => putIf (flagValue v) fun b => { r with dupEn := b }
  | .dup => .error .errRo
  | .disFirst => putIf (byteValue v) fun b => { r with disFirst := b }
  | .disCount => putIf (byteValue v) fun b => { r with disCount := b }

/-- A controller with one field written; `INIT`, `CUR_FREQ`, `CUR_STATE`, `CUR_DIR` and `THETA` are
read-only (R36, R291). -/
def vfWith (r : Vf) (v : NUM) : VfField → Except Status Vf
  | .init => .error .errRo
  | .curFreq => .error .errRo
  | .outFreq => .ok { r with outFreq := v }
  | .curState => .error .errRo
  | .reqState => putIf (flagValue v) fun b => { r with reqState := Activity.ofFlag b }
  | .curDir => .error .errRo
  | .reqDir => putIf (flagValue v) fun b => { r with reqDir := directionOfFlag b }
  | .theta => .error .errRo
  | .nomMi => .ok { r with nomMi := v }
  | .nomFreq => .ok { r with nomFreq := v }
  | .accel => .ok { r with accel := v }
  | .pwmFreq => .ok { r with pwmFreq := v }
  | .inv => putIf (byteValue v) fun b => { r with inv := b }

/-- The state with a record replaced, where the record could be written. -/
def landIn {α : Type} (s : State) (put : α → State) : Except Status α → Done Unit
  | .ok r => .ok () (put r)
  | .error e => .err e s

/-- `Legal(field, v)` then `MemWrite(addr, 1, v)` (R291, R292): `ERR_RO` for a read-only field, then
`ERR_VALUE` for a value of the wrong form, else the one cell is replaced. -/
def memWrite (v : NUM) (s : State) : Cell → Done Unit
  | .glb _ => .err .errRo s
  | .tim _ _ => .err .errRo s
  | .ch _ _ => .err .errRo s
  | .cfg sl f => landIn s (s.setCfg sl) (cfgWith (s.cfgAt sl) v f)
  | .leg l f => landIn s (s.setLeg l) (legWith (s.legAt l) v f)
  | .inv i f => landIn s (s.setInv i) (invWith (s.invAt i) v f)
  | .psfb _ _ => .err .errRo s
  | .vf k f => landIn s (s.setVf k) (vfWith (s.vfAt k) v f)

/-- `WRF` (R292). -/
def writeField (addr : FieldAddr) (v : NUM) (s : State) : Done Results :=
  match resolve s.params addr with
  | none => .err .errAddr s
  | some cell => (memWrite v s cell).andThen fun _ s' => .ok Results.none s'

/-- What `RDF` puts on the result port: the value as a number on `RES0`, and the low 8 bits of an
integer on `RESCODE` (R293). -/
def readResults : CellValue → Results
  | .num v => Results.lane0 v
  | .int n => { Results.lane0 (.rat n) with rescode := BitVec.ofNat 8 n }

/-- `RDF` (R293). -/
def readField (addr : FieldAddr) (s : State) : Done Results :=
  match resolve s.params addr with
  | none => .err .errAddr s
  | some cell => .ok (readResults (memRead s cell)) s

/-- `WRF addr, value` (R292). -/
def execWrf (addr : FieldAddr) (s : State) : Host.Outcome State Fault Refusal :=
  command (withArg0 (writeField addr)) s

/-- `RDF addr` (R293). -/
def execRdf (addr : FieldAddr) (s : State) : Host.Outcome State Fault Refusal :=
  command (readField addr) s

end Sys2Proof.Machine
end

