-- ==== Sys2Proof/Machine/Dispatch.lean ====
section
/-! DEFINITION. The meaning of each command (30_encoding.md rule R104), one arm per constructor. -/

namespace Sys2Proof.Machine

def exec (i : Instr) (s : State) : Host.Outcome State Fault Refusal :=
  match i with
  | .wrf addr => Sys2Proof.Machine.execWrf addr s
  | .rdf addr => Sys2Proof.Machine.execRdf addr s
  | .dtenc => Sys2Proof.Machine.execDtenc s
  | .tinit t sl => Sys2Proof.Machine.execTinit t sl s
  | .cfgpair n sl => Sys2Proof.Machine.execCfgpair n sl s
  | .cfgch n sl => Sys2Proof.Machine.execCfgch n sl s
  | .updpair n sl => Sys2Proof.Machine.execUpdpair n sl s
  | .updch n sl => Sys2Proof.Machine.execUpdch n sl s
  | .cfgirq t cb priority enable => Sys2Proof.Machine.execCfgirq t cb priority enable s
  | .cfgleg l => Sys2Proof.Machine.execCfgleg l s
  | .enleg l enable => Sys2Proof.Machine.execEnleg l enable s
  | .capupd l => Sys2Proof.Machine.execCapupd l s
  | .invinit u => Sys2Proof.Machine.execInvinit u s
  | .invupd u => Sys2Proof.Machine.execInvupd u s
  | .invspwm u direction => Sys2Proof.Machine.execInvspwm u direction s
  | .invact u enable => Sys2Proof.Machine.execInvact u enable s
  | .psfbinit j => Sys2Proof.Machine.execPsfbinit j s
  | .psfbupd j => Sys2Proof.Machine.execPsfbupd j s
  | .psfbact j enable => Sys2Proof.Machine.execPsfbact j enable s
  | .vfinit k => Sys2Proof.Machine.execVfinit k s
  | .vfstep k => Sys2Proof.Machine.execVfstep k s

end Sys2Proof.Machine
end

