-- ==== Sys2Proof/Machine/Events.lean ====
section
/-! DEFINITION. The two event inputs: `RESET` (70_reset_and_hazards.md rules R340, R341) and
`PER_ELAPSED[t]` with its callback (41_pwm_driver.md rule R172, 60_exceptions.md rules R310 to R316). -/

namespace Sys2Proof.Machine

/-- `RESET`: every field of every bank and the result port at its reset value, in every state
(R340). The parameters, the environment, the events still to come and the trace are not CORE's
state; they are kept (R21, R341; DESIGN CHOICE, safe; log 8). -/
def doReset (s : State) : State :=
  { State.resetWith s.params s.env with
    inbox := s.inbox
    lanes := s.lanes
    ext := s.ext
    callNo := s.callNo }

/-- `CH[n].CMPA <- CH[n].CMPS` (R172). -/
def State.commitChannel (s : State) (n : Nat) : State :=
  s.setCh n { s.chAt n with cmpa := (s.chAt n).cmps }

/-- The shadow commit of a list of channels. -/
def State.commitAll (s : State) : List Nat → State
  | [] => s
  | n :: ns => (s.commitChannel n).commitAll ns

/-- The shadow commit of instance t: all its channels (R84, R172). -/
def State.commit (s : State) (t : Nat) : State := s.commitAll (channelsOf s.params t)

/-- The external call `callback(t, cb)` (R171, R321). One that never returns leaves no further
transition (U6, R346; log 13, 14). -/
def externalCallback (t : Nat) (cb : Byte) (s : State) : Host.Outcome State Fault Refusal :=
  if s.callNo ∈ s.env.callbackHangs then .fault (.callbackNeverReturned t cb)
  else .next (s.emit (.callback t cb))

/-- The callback slot dispatched (R172, R313): nowhere, an internal ramp controller whose status is
discarded (R315), or an external callback. Ids `NVF`+1 to 0x7F are never stored (DEDUCED, safe; log
16). -/
def runCallback (t : Nat) (s : State) : Host.Outcome State Fault Refusal :=
  let cb := (s.timAt t).cb
  if cb = 0 then .next s
  else if cb.toNat ≤ s.params.nvf then .next (rampStep (cb.toNat - 1) s).state
  else externalCallback t cb s

/-- `PER_ELAPSED[t]` (R172): no effect while halted or un-initialised, else the commit, then the
callback. The result port is not touched (R313). -/
def perElapsed (t : Nat) (s : State) : Host.Outcome State Fault Refusal :=
  if s.halted = true ∨ (s.timAt t).init = false then .next s
  else runCallback t (s.commit t)

end Sys2Proof.Machine
end

