-- ==== Sys2Proof/Machine/Port.lean ====
section
/-! DEFINITION. The command port and the event inputs: what CORE does with the one thing the
environment presents to it (00_scope.md rules R8, R9; 30_encoding.md rules R105, R106). -/

namespace Sys2Proof.Machine

/-- A command word at the port with its lanes latched (R102, R105): the decoded command, or
`ERR_ILLEGAL_OP` with no effect (R106). `command` tests `HALTED` first in both cases (R305). -/
def runWord (cw : Word) (s : State) : Host.Outcome State Fault Refusal :=
  match decode cw with
  | .ok i => exec i s
  | .error _ => command (refuseWith .errIllegalOp) s

/-- One command or one event, performed to completion (R9). -/
def take (s : State) : Event → Host.Outcome State Fault Refusal
  | .command cw lanes => runWord cw { s with lanes := lanes }
  | .perElapsed t => perElapsed t.val s
  | .reset => .next (doReset s)

end Sys2Proof.Machine
end

