-- ==== Sys2Proof/Machine/Step.lean ====
section
/-! DEFINITION. One step: one command or one event (00_scope.md rules R9, R15; 10_state.md rule R24).
CORE fetches nothing; what it performs next is what the environment presents, the head of `inbox`. -/

namespace Sys2Proof.Machine

/-- One step (R9, R83). With nothing presented CORE waits, its state unchanged (R324; log 4). -/
def step (s : State) : Host.Outcome State Fault Refusal :=
  match s.inbox with
  | [] => .next s
  | event :: rest => take { s with inbox := rest } event

/-- The state with a command word presented next, its operand lanes those already at the port. Bits
of `w` from `nbits` up are zero. CORE loads no program (R24): this stands for the issuer of
commands presenting one (log 5). -/
def State.withFetchWord (s : State) (nbits w : Nat) : State :=
  { s with inbox := .command (BitVec.ofNat 32 (w % 2 ^ nbits)) s.lanes :: s.inbox }

end Sys2Proof.Machine
end

