-- ==== Sys2Proof/Safety.lean ====
section
/-! DEFINITION. The terms in which claims speak of CORE: what a step leaves unchanged, when a sub-
operation of a composite command can complete, and the properties a good state has. -/

namespace Sys2Proof

/-! ### The operation map (R105) -/

/-- The `match` column of a command's row of spec/opcode_table.json (R105). -/
def Instr.tableMatch : Instr → Word
  | .wrf _ => 0x01000000
  | .rdf _ => 0x02000000
  | .dtenc => 0x10000000
  | .tinit _ _ => 0x20000000
  | .cfgpair _ _ => 0x21000000
  | .cfgch _ _ => 0x22000000
  | .updpair _ _ => 0x23000000
  | .updch _ _ => 0x24000000
  | .cfgirq _ _ _ _ => 0x25000000
  | .cfgleg _ => 0x30000000
  | .enleg _ _ => 0x31000000
  | .capupd _ => 0x32000000
  | .invinit _ => 0x40000000
  | .invupd _ => 0x41000000
  | .invspwm _ _ => 0x42000000
  | .invact _ _ => 0x43000000
  | .psfbinit _ => 0x50000000
  | .psfbupd _ => 0x51000000
  | .psfbact _ _ => 0x52000000
  | .vfinit _ => 0x60000000
  | .vfstep _ => 0x61000000

/-- The `mask` column of a command's row of spec/opcode_table.json (R105). -/
def Instr.tableMask : Instr → Word
  | .wrf _ => 0xFF0000FF
  | .rdf _ => 0xFF0000FF
  | .dtenc => 0xFFFFFFFF
  | .tinit _ _ => 0xFF0000FF
  | .cfgpair _ _ => 0xFF0000FF
  | .cfgch _ _ => 0xFF0000FF
  | .updpair _ _ => 0xFF0000FF
  | .updch _ _ => 0xFF0000FF
  | .cfgirq _ _ _ _ => 0xFF00000E
  | .cfgleg _ => 0xFF00FFFF
  | .enleg _ _ => 0xFF00FFFE
  | .capupd _ => 0xFF00FFFF
  | .invinit _ => 0xFF00FFFF
  | .invupd _ => 0xFF00FFFF
  | .invspwm _ _ => 0xFF00FFFE
  | .invact _ _ => 0xFF00FFFE
  | .psfbinit _ => 0xFF00FFFF
  | .psfbupd _ => 0xFF00FFFF
  | .psfbact _ _ => 0xFF00FFFE
  | .vfinit _ => 0xFF00FFFF
  | .vfstep _ => 0xFF00FFFF

/-- The 21 operation numbers of the operation map (R104). -/
def listedOps : List Byte :=
  [0x01, 0x02, 0x10, 0x20, 0x21, 0x22, 0x23, 0x24, 0x25, 0x30, 0x31, 0x32, 0x40, 0x41, 0x42, 0x43,
   0x50, 0x51, 0x52, 0x60, 0x61]

/-- A word is illegal (R106): its operation number is not listed, or it has the operation number of
a row and a must-be-zero bit of that row set. -/
def illegalWord (cw : Word) : Prop :=
  opField cw ∉ listedOps ∨
  ∃ i : Instr, opField cw = opField i.tableMatch ∧ cw &&& i.tableMask ≠ i.tableMatch

/-- The commands whose errors are precise (R314): the simple ones, and `CFGPAIR`. -/
def Instr.precise : Instr → Bool
  | .wrf _ | .rdf _ | .dtenc | .tinit _ _ | .cfgpair _ _ | .cfgch _ _ | .updpair _ _ | .updch _ _
  | .cfgirq _ _ _ _ | .enleg _ _ | .vfinit _ | .psfbupd _ => true
  | .cfgleg _ | .capupd _ | .invinit _ | .invupd _ | .invspwm _ _ | .invact _ _ | .psfbinit _
  | .psfbact _ _ | .vfstep _ => false

/-- The operand lanes a command reads (R104, "Lanes read"). -/
def Instr.lanesRead (i : Instr) (x : Machine.Lanes) : List Machine.Lane :=
  match i with
  | .wrf _ | .updpair _ _ | .updch _ _ | .capupd _ | .psfbupd _ => [x.arg0]
  | .invspwm _ _ => [x.arg0, x.arg1]
  | .dtenc | .invupd _ => [x.arg0, x.arg1, x.arg2]
  | .rdf _ | .tinit _ _ | .cfgpair _ _ | .cfgch _ _ | .cfgirq _ _ _ _ | .cfgleg _ | .enleg _ _
  | .invinit _ | .invact _ _ | .psfbinit _ | .psfbact _ _ | .vfinit _ | .vfstep _ => []

/-- The index operands of a command name existing records (R303): timer instance, slot, leg,
inverter, full bridge, controller, and the inverter of a controller. -/
def Instr.indexesExist (i : Instr) (s : Machine.State) : Prop :=
  match i with
  | .wrf _ | .rdf _ | .dtenc => True
  | .tinit t sl => t ≤ 1 ∧ sl < s.params.ncfg
  | .cfgpair _ sl | .cfgch _ sl | .updpair _ sl | .updch _ sl => sl < s.params.ncfg
  | .cfgirq t _ _ _ => t ≤ 1
  | .cfgleg l | .enleg l _ | .capupd l => l < s.params.nleg
  | .invinit i | .invupd i | .invspwm i _ | .invact i _ => i < s.params.ninv
  | .psfbinit j | .psfbupd j | .psfbact j _ => j < s.params.npsfb
  | .vfinit k => k < s.params.nvf ∧ (s.vfAt k).inv.toNat < s.params.ninv
  | .vfstep k =>
    k < s.params.nvf ∧ ((s.vfAt k).init = true → (s.vfAt k).inv.toNat < s.params.ninv)

/-- The record a command uses exists but has not been configured (R303): timer, channel, pair, leg,
inverter, full bridge or controller. -/
def Instr.unconfigured (i : Instr) (s : Machine.State) : Prop :=
  match i with
  | .updpair n _ =>
    1 ≤ n ∧ n ≤ s.params.npwm ∧ n % 2 = 1 ∧
    ((s.timAt (Machine.instOf s.params n)).init = false ∨ (s.chAt n).role ≠ .pairRef)
  | .updch n _ =>
    1 ≤ n ∧ n ≤ s.params.npwm ∧
    ((s.timAt (Machine.instOf s.params n)).init = false ∨ (s.chAt n).role ≠ .single)
  | .enleg l _ | .capupd l => (s.legAt l).cap = .none
  | .invupd u | .invspwm u _ | .invact u _ => (s.invAt u).init = false
  | .psfbupd j | .psfbact j _ => (s.psfbAt j).init = false
  | .vfstep k => (s.vfAt k).init = false ∨ (s.invAt (s.vfAt k).inv.toNat).init = false
  | .wrf _ | .rdf _ | .dtenc | .tinit _ _ | .cfgpair _ _ | .cfgch _ _ | .cfgirq _ _ _ _ | .cfgleg _
  | .invinit _ | .psfbinit _ | .vfinit _ => False

end Sys2Proof

namespace Sys2Proof.Machine

/-! ### Frames: what is the same in two states -/

/-- The model's own inputs are unchanged: parameters, environment, events to come, operand lanes. -/
def sameInputs (s t : State) : Prop :=
  t.params = s.params ∧ t.env = s.env ∧ t.inbox = s.inbox ∧ t.lanes = s.lanes

/-- No external call was made. -/
def sameCalls (s t : State) : Prop := t.ext = s.ext ∧ t.callNo = s.callNo

/-- Exactly these calls were made, in order, each answered `ok`. -/
def calledOk (s t : State) (calls : List ExtCall) : Prop :=
  t.ext = s.ext ++ calls.map (fun c => ⟨c, .ok⟩) ∧ t.callNo = s.callNo + calls.length

/-- `GLB` is unchanged. -/
def sameGlb (s t : State) : Prop := t.halted = s.halted ∧ t.oen = s.oen

/-- Every `TIM[t]` is unchanged. -/
def sameTim (s t : State) : Prop := ∀ u, t.timAt u = s.timAt u

/-- Every `CH[n]` is unchanged. -/
def sameCh (s t : State) : Prop := ∀ n, t.chAt n = s.chAt n

/-- Every `CFG[s]` is unchanged. -/
def sameCfg (s t : State) : Prop := ∀ sl, t.cfgAt sl = s.cfgAt sl

/-- Every `LEG[l]` is unchanged. -/
def sameLeg (s t : State) : Prop := ∀ l, t.legAt l = s.legAt l

/-- Every `INV[i]` is unchanged. -/
def sameInv (s t : State) : Prop := ∀ i, t.invAt i = s.invAt i

/-- Every `PSFB[j]` is unchanged. -/
def samePsfb (s t : State) : Prop := ∀ j, t.psfbAt j = s.psfbAt j

/-- Every `VF[k]` is unchanged. -/
def sameVf (s t : State) : Prop := ∀ k, t.vfAt k = s.vfAt k

/-- Every bank is unchanged. -/
def sameBanks (s t : State) : Prop :=
  sameGlb s t ∧ sameTim s t ∧ sameCh s t ∧ sameCfg s t ∧ sameLeg s t ∧ sameInv s t ∧
  samePsfb s t ∧ sameVf s t

/-- The result port is unchanged. -/
def samePort (s t : State) : Prop :=
  t.status = s.status ∧ t.rescode = s.rescode ∧ t.res0 = s.res0 ∧ t.res1 = s.res1 ∧
  t.res2 = s.res2 ∧ t.res3 = s.res3

/-- The result port after a command: status, `RESCODE`, `RES0..RES3` (R22). -/
def portHolds (t : State) (e : Status) (rescode : Byte) (r0 r1 r2 r3 : NUM) : Prop :=
  t.status = e ∧ t.rescode = rescode ∧ t.res0 = r0 ∧ t.res1 = r1 ∧ t.res2 = r2 ∧ t.res3 = r3

/-- The result port after a command whose results are these rationals (R22). -/
def portShows (t : State) (e : Status) (rescode : Byte) (r0 r1 r2 r3 : Ratio) : Prop :=
  portHolds t e rescode (.rat r0) (.rat r1) (.rat r2) (.rat r3)

/-- A command refused with no effect but its status (R309, R314). -/
def refusedWith (s t : State) (e : Status) : Prop :=
  portShows t e 0 0 0 0 0 ∧ sameInputs s t ∧ sameCalls s t ∧ sameBanks s t

/-- The command ends in a refusal: this status, and nothing else changed (R309, R314). -/
def turnsAway (i : Instr) (s : State) (e : Status) : Prop :=
  ∃ t, exec i s = .next t ∧ refusedWith s t e

/-- A command ended by the failing call number j of a timer initialisation (R153, R305): the calls up
to it are in the trace, CORE is halted, and no other register has changed. -/
def haltedAt (s t : State) (calls : List ExtCall) (j : Nat) : Prop :=
  portShows t .fatalHwinit 0 0 0 0 0 ∧ t.halted = true ∧ t.oen = s.oen ∧
  t.ext = s.ext ++ (calls.take j).map (fun c => ⟨c, .ok⟩) ++
    ((calls.drop j).take 1).map (fun c => ⟨c, .fail⟩) ∧
  t.callNo = s.callNo + j + 1 ∧
  sameInputs s t ∧ sameTim s t ∧ sameCh s t ∧ sameCfg s t ∧ sameLeg s t ∧ sameInv s t ∧
  samePsfb s t ∧ sameVf s t

/-! ### What a register write accepts (R291) -/

/-- The fields with access `RW` (R291). -/
def Cell.writable : Cell → Bool
  | .glb _ => false
  | .tim _ _ => false
  | .ch _ _ => false
  | .cfg _ _ => true
  | .leg _ f =>
    match f with
    | .kind | .pin | .disFirst | .disCount => true
    | .state | .cap => false
  | .inv _ f =>
    match f with
    | .dupEn | .disFirst | .disCount => true
    | .state | .init | .dup => false
  | .psfb _ _ => false
  | .vf _ f =>
    match f with
    | .outFreq | .reqState | .reqDir | .nomMi | .nomFreq | .accel | .pwmFreq | .inv => true
    | .init | .curFreq | .curState | .curDir | .theta => false

/-- A number that is 0 or 1. -/
def isFlag (v : NUM) : Prop := v = .rat 0 ∨ v = .rat 1

/-- A number that is an integer in 0..255. -/
def isByte (v : NUM) : Prop := ∃ n : Nat, n < 256 ∧ v = .rat n

/-- The values an `RW` field accepts: every real for a NUM field, 0 or 1 for a flag or a two-valued
enumeration, an integer in 0..255 for a `b8` field (R291). -/
def Cell.accepts (c : Cell) (v : NUM) : Prop :=
  match c with
  | .cfg _ f =>
    match f with
    | .fsw | .dtNs | .min | .max => True
    | .align | .dtEn | .bal | .dutyMode => isFlag v
  | .leg _ f =>
    match f with
    | .kind => isFlag v
    | .pin | .disFirst | .disCount => isByte v
    | .state | .cap => False
  | .inv _ f =>
    match f with
    | .dupEn => isFlag v
    | .disFirst | .disCount => isByte v
    | .state | .init | .dup => False
  | .vf _ f =>
    match f with
    | .outFreq | .nomMi | .nomFreq | .accel | .pwmFreq => True
    | .reqState | .reqDir => isFlag v
    | .inv => isByte v
    | .init | .curFreq | .curState | .curDir | .theta => False
  | .glb _ | .tim _ _ | .ch _ _ | .psfb _ _ => False

/-- An address names a field (R81, R290): bank, index and field number are in the table. -/
def legalAddr (p : Params) (addr : FieldAddr) : Prop :=
  let bank := bankNumber addr
  let idx := recordIndex addr
  let field := fieldNumber addr
  (bank = 0 ∧ idx = 0 ∧ field ≤ 1) ∨ (bank = 1 ∧ idx ≤ 1 ∧ field ≤ 9) ∨
  (bank = 2 ∧ 1 ≤ idx ∧ idx ≤ p.npwm ∧ field ≤ 3) ∨ (bank = 3 ∧ idx < p.ncfg ∧ field ≤ 7) ∨
  (bank = 4 ∧ idx < p.nleg ∧ field ≤ 5) ∨ (bank = 5 ∧ idx < p.ninv ∧ field ≤ 5) ∨
  (bank = 6 ∧ idx < p.npsfb ∧ field ≤ 1) ∨ (bank = 7 ∧ idx < p.nvf ∧ field ≤ 12)

/-- What `WRF addr, v` is refused with, in order (R292, R308). -/
def State.writeRefusal (s : State) (addr : FieldAddr) (v : NUM) (e : Status) : Prop :=
  if s.halted = true then e = .fatalHwinit
  else
    match resolve s.params addr with
    | none => e = .errAddr
    | some c => if c.writable = false then e = .errRo else ¬ c.accepts v ∧ e = .errValue

/-- The number a cell denotes (R293). -/
def CellValue.number : CellValue → NUM
  | .num v => v
  | .int n => .rat n

/-- The low 8 bits of an integer, 0 for a NUM (R293). -/
def CellValue.lowByte : CellValue → Byte
  | .num _ => 0
  | .int n => BitVec.ofNat 8 n

/-! ### Dead-time codes (R137) -/

/-- Reading B of the encoder: real arithmetic throughout (R137). -/
noncomputable def realTickCode (raw : ℝ) : Option Byte :=
  if raw < 128 then some (BitVec.ofNat 8 ⌊raw⌋₊)
  else if raw / 2 - 64 < 64 then some (BitVec.ofNat 8 ⌊raw / 2 - 64⌋₊ ||| 0x80)
  else if raw / 8 - 32 < 32 then some (BitVec.ofNat 8 ⌊raw / 8 - 32⌋₊ ||| 0xC0)
  else if raw / 16 - 32 < 32 then some (BitVec.ofNat 8 ⌊raw / 16 - 32⌋₊ ||| 0xE0)
  else none

/-! ### Timer initialisation (R151) -/

/-- A slot's timing on a timer, as `TINIT` computes it: usable, with these values (R151). -/
def slotTiming (tp : TimerParams) (c : Slot) (tm : Timing) : Prop :=
  (NUM.rat 0).lt c.fsw ∧ (tm.period : Int) = periodOf tp.clkHz c.align c.fsw ∧
  1 ≤ tm.period ∧ tm.period ≤ 2 ^ tp.width - 1 ∧
  (c.dtEn = true → (NUM.rat 0).le c.dtNs ∧ dtEncode c.dtNs tp.clkHz = some tm.code ∧
    tm.comp = dtComp c.dtNs c.fsw ∧ tm.comp.lt (.rat 1)) ∧
  (c.dtEn = false → tm.code = 0 ∧ tm.comp = .rat 0)

/-- A timer-base call, the only kind that the environment can answer with `fail` (R322). -/
def ExtCall.isTimerBase : ExtCall → Bool
  | .configureBase _ _ _ _ | .configureTriggerIn _ _ _ | .configureTriggerOut _ _
  | .configureBreakDeadtime _ _ _ => true
  | .setPinAsPwmRole _ | .setPinAsDigitalOutput _ _ | .setPhaseShift _ _ | .spwm _ _ _
  | .setOutputsEnabled _ _ | .irqConfig _ _ _ | .callback _ _ => false

/-- If these are the next calls made, the environment answers each of the timer-base calls among them
with `ok` (R322). Nothing is asked of any later call. -/
def State.callsAnswered (s : State) (calls : List ExtCall) : Prop :=
  ∀ j c, calls[j]? = some c → c.isTimerBase = true → s.callNo + j ∉ s.env.timerFails

/-- The environment answers the next four timer-base calls with `ok` (R322). -/
def State.baseCallsOk (s : State) : Prop := ∀ j, j < 4 → s.callNo + j ∉ s.env.timerFails

/-- Of the next four timer-base calls, number j is the first that the environment answers with
`fail` (R305). -/
def State.baseCallFails (s : State) (j : Nat) : Prop :=
  j < 4 ∧ s.callNo + j ∈ s.env.timerFails ∧ ∀ m, m < j → s.callNo + m ∉ s.env.timerFails

/-- The same for the four timer-base calls that k other calls precede (R305). -/
def State.laterBaseCallFails (s : State) (k j : Nat) : Prop :=
  j < 4 ∧ s.callNo + k + j ∈ s.env.timerFails ∧ ∀ m, m < j → s.callNo + k + m ∉ s.env.timerFails

/-- The four timer-base calls of an initialisation (R153). -/
def baseCalls (t : Nat) (tp : TimerParams) (al : Align) (tm : Timing) : List ExtCall :=
  [.configureBase t tm.period al tp.repCount,
   .configureTriggerIn t tp.trigInSource tp.trigInEdge,
   .configureTriggerOut t tp.trigOut,
   .configureBreakDeadtime t tm.code tp.aoe]

/-- `TIM[t]` after the lazy initialisation from slot s (R151): unchanged where it is initialised or
the slot is unusable. -/
def State.lazyTim (s : State) (t sl : Nat) : Tim :=
  if (s.timAt t).init then s.timAt t
  else
    match timingOf (s.params.timer t) (s.cfgAt sl) with
    | .ok tm => initTim (s.timAt t) (s.cfgAt sl) tm
    | .error _ => s.timAt t

/-- The timer-base calls of that initialisation (R153): none where it is initialised. -/
def State.lazyCalls (s : State) (t sl : Nat) : List ExtCall :=
  if (s.timAt t).init then []
  else
    match timingOf (s.params.timer t) (s.cfgAt sl) with
    | .ok tm => baseCalls t (s.params.timer t) (s.cfgAt sl).align tm
    | .error _ => []

/-- What `TINIT` refuses a slot with, in the order of its tests (R151, R154). -/
def slotRefusal (tp : TimerParams) (c : Slot) (e : Status) : Prop :=
  if ¬ (NUM.rat 0).lt c.fsw then e = .errValue
  else if periodOf tp.clkHz c.align c.fsw < 1 ∨
      2 ^ tp.width - 1 < periodOf tp.clkHz c.align c.fsw then e = .errValue
  else if c.dtEn = false then False
  else if c.dtNs.lt (.rat 0) then e = .errValue
  else if dtEncode c.dtNs tp.clkHz = none then e = .errDtRange
  else (NUM.rat 1).le (dtComp c.dtNs c.fsw) ∧ e = .errValue

/-- What `TINIT t, s` is refused with, in order (R151, R308). -/
def State.timerRefusal (s : State) (t sl : Nat) (e : Status) : Prop :=
  if s.halted = true then e = .fatalHwinit
  else if 1 < t ∨ s.params.ncfg ≤ sl then e = .errIndex
  else (s.timAt t).init = false ∧ slotRefusal (s.params.timer t) (s.cfgAt sl) e

/-- What `CFGPAIR n, s` is refused with, in order (R155, R308). -/
def State.pairRefusal (s : State) (n sl : Nat) (e : Status) : Prop :=
  if s.halted = true then e = .fatalHwinit
  else if s.params.ncfg ≤ sl then e = .errIndex
  else if n < 1 ∨ s.params.npwm < n then e = .errPinRange
  else if n % 2 = 0 then e = .errPinParity
  else s.timerRefusal (instOf s.params n) sl e

/-- What `CFGCH n, s` is refused with, in order (R156, R308). -/
def State.channelRefusal (s : State) (n sl : Nat) (e : Status) : Prop :=
  if s.halted = true then e = .fatalHwinit
  else if s.params.ncfg ≤ sl then e = .errIndex
  else if n < 1 ∨ s.params.npwm < n then e = .errPinRange
  else s.timerRefusal (instOf s.params n) sl e

/-! ### What configuring pairs leaves (R155, R201)

A list `refs` holds the pairs in order, each as its reference number and its slot. -/

/-- `TIM[u]` after the pairs are configured: the first pair on instance u whose turn finds it
un-initialised configures it from its own slot ("first caller wins", R31, R151). -/
def State.configuredTim (s : State) (u : Nat) : List (Nat × Nat) → Tim
  | [] => s.timAt u
  | (n, sl) :: refs =>
    if instOf s.params n = u then s.lazyTim u sl else s.configuredTim u refs

/-- `CFG[sl]` after the pairs are configured: its limits recomputed once for each of its pairs, in
order (R158, R159). -/
def State.configuredSlot (s : State) (refs : List (Nat × Nat)) (sl : Nat) : Slot :=
  refs.foldl
    (fun c r =>
      if r.2 = sl then limitSlot (s.configuredTim (instOf s.params r.1) refs) true c else c)
    (s.cfgAt sl)

/-- `CH[n]` after the pairs are configured: role and polarity of a member of a pair (R155, R157);
compare values kept. -/
def State.configuredCh (s : State) (refs : List (Nat × Nat)) (n : Nat) : Chan :=
  let edge := decide ((s.configuredTim (instOf s.params n) refs).align = .edge)
  if refs.any (fun r => r.1 == n) then { s.chAt n with role := .pairRef, ocsel := edge }
  else if refs.any (fun r => r.1 + 1 == n) then { s.chAt n with role := .pairInv, ocsel := !edge }
  else s.chAt n

/-- Every pair can be configured: its reference is bound and odd, its slot exists, and its instance is
initialised when its turn is over (R155). -/
def State.pairsReady (s : State) (refs : List (Nat × Nat)) : Prop :=
  ∀ r ∈ refs, 1 ≤ r.1 ∧ r.1 ≤ s.params.npwm ∧ r.1 % 2 = 1 ∧ r.2 < s.params.ncfg ∧
    (s.configuredTim (instOf s.params r.1) refs).init = true

/-- Some pair of the list lies on instance u. -/
def onInstance (p : Params) (refs : List (Nat × Nat)) (u : Nat) : Prop :=
  ∃ r ∈ refs, instOf p r.1 = u

/-- The external calls made when pairs are configured in order, after the pairs `earlier`: for the
first pair on an instance, the timer-base calls of the initialisation from its slot, which are none
where the instance was initialised before; for a later pair on it, none (R31, R80, R153). -/
def State.refsCalls (s : State) (earlier : List (Nat × Nat)) : List (Nat × Nat) → List ExtCall
  | [] => []
  | r :: refs =>
    (if earlier.any (fun e => instOf s.params e.1 == instOf s.params r.1) then []
      else s.lazyCalls (instOf s.params r.1) r.2) ++ s.refsCalls (earlier ++ [r]) refs

/-- Instances, slots and channels after the pairs are configured; compare values kept (R155). -/
def pairsConfigured (s t : State) (refs : List (Nat × Nat)) : Prop :=
  (∀ u, t.timAt u = s.configuredTim u refs) ∧ (∀ sl, t.cfgAt sl = s.configuredSlot refs sl) ∧
  (∀ n, t.chAt n = s.configuredCh refs n)

/-- A composite command ended by the failing call number j of the initialisation from pair r's slot,
after the pairs `earlier` were configured: they stay so, the calls are in the trace, CORE is halted,
and nothing else has changed (R153, R305, R314). -/
def pairsHaltedAt (s t : State) (earlier : List (Nat × Nat)) (r : Nat × Nat) (j : Nat) : Prop :=
  portShows t .fatalHwinit 0 0 0 0 0 ∧ t.halted = true ∧ t.oen = s.oen ∧
  pairsConfigured s t earlier ∧
  t.ext = s.ext ++ (s.refsCalls [] earlier ++
      (s.lazyCalls (instOf s.params r.1) r.2).take j).map (fun c => ⟨c, .ok⟩) ++
    (((s.lazyCalls (instOf s.params r.1) r.2).drop j).take 1).map (fun c => ⟨c, .fail⟩) ∧
  t.callNo = s.callNo + (s.refsCalls [] earlier).length + j + 1 ∧
  sameInputs s t ∧ sameLeg s t ∧ sameInv s t ∧ samePsfb s t ∧ sameVf s t

/-! ### What duty updates write (R161 to R168) -/

/-- A duty that a timer and a slot can convert: it is exactly 0 after the clamp, or its compensated
value lies in [0, 1] (R161, R162, R168). -/
def dutyFits (tm : Tim) (c : Slot) (applied : NUM) : Prop :=
  applied = .rat 0 ∨
    ((NUM.rat 0).le (applied.add (compOf tm c)) ∧ (applied.add (compOf tm c)).le (.rat 1))

/-- The compare value of an applied duty: the zero bypass, or the compensated duty times the period
(R164, R167). -/
def appliedCompare (tm : Tim) (c : Slot) (applied : NUM) : Nat :=
  match tm.align with
  | .edge =>
    if applied = .rat 0 then 0 else floorNat ((applied.add (compOf tm c)).mul (.rat tm.period))
  | .center =>
    if applied = .rat 0 then tm.period
    else floorNat (((NUM.rat 1).sub (applied.add (compOf tm c))).mul (.rat tm.period))

/-- The duty a pair update applies (R161, R165). -/
def clampedDuty (c : Slot) (duty : NUM) : NUM := clamp duty c.min c.max

/-- `UPDPAIR n, s` accepts a requested duty (R161). -/
def State.pairAccepts (s : State) (n sl : Nat) (duty : NUM) : Prop :=
  sl < s.params.ncfg ∧ 1 ≤ n ∧ n ≤ s.params.npwm ∧ n % 2 = 1 ∧
  (s.timAt (instOf s.params n)).init = true ∧ (s.chAt n).role = .pairRef ∧
  dutyFits (s.timAt (instOf s.params n)) (s.cfgAt sl) (clampedDuty (s.cfgAt sl) duty)

/-- `UPDCH n, s` accepts a requested duty (R162). -/
def State.channelAccepts (s : State) (n sl : Nat) (duty : NUM) : Prop :=
  sl < s.params.ncfg ∧ 1 ≤ n ∧ n ≤ s.params.npwm ∧
  (s.timAt (instOf s.params n)).init = true ∧ (s.chAt n).role = .single ∧
  dutyFits (s.timAt (instOf s.params n)) (s.cfgAt sl) (clampHi duty (s.cfgAt sl).max)

/-- What `UPDPAIR n, s` is refused with for a requested duty, in order (R161, R308). -/
def State.pairDutyRefusal (s : State) (n sl : Nat) (duty : NUM) (e : Status) : Prop :=
  if s.halted = true then e = .fatalHwinit
  else if s.params.ncfg ≤ sl then e = .errIndex
  else if n < 1 ∨ s.params.npwm < n then e = .errPinRange
  else if n % 2 = 0 then e = .errPinParity
  else if (s.timAt (instOf s.params n)).init = false ∨ (s.chAt n).role ≠ .pairRef then
    e = .errNotInit
  else
    ¬ dutyFits (s.timAt (instOf s.params n)) (s.cfgAt sl) (clampedDuty (s.cfgAt sl) duty) ∧
    e = .errValue

/-- What `UPDCH n, s` is refused with for a requested duty, in order (R162, R308). -/
def State.channelDutyRefusal (s : State) (n sl : Nat) (duty : NUM) (e : Status) : Prop :=
  if s.halted = true then e = .fatalHwinit
  else if s.params.ncfg ≤ sl then e = .errIndex
  else if n < 1 ∨ s.params.npwm < n then e = .errPinRange
  else if (s.timAt (instOf s.params n)).init = false ∨ (s.chAt n).role ≠ .single then
    e = .errNotInit
  else
    ¬ dutyFits (s.timAt (instOf s.params n)) (s.cfgAt sl) (clampHi duty (s.cfgAt sl).max) ∧
    e = .errValue

/-- `CAPUPD l` accepts a requested duty (R204 to R206). -/
def State.legAccepts (s : State) (l : Nat) (duty : NUM) : Prop :=
  l < s.params.nleg ∧
  (((s.legAt l).cap = .singlePair ∧ s.pairAccepts (s.legAt l).pin.toNat l duty) ∨
   ((s.legAt l).cap = .tnpcSplit ∧
      s.pairAccepts (s.legAt l).pin.toNat l (tnpcSplit duty).1 ∧
      s.pairAccepts ((s.legAt l).pin.toNat + 2) l (tnpcSplit duty).2))

/-- The applied duty a leg reports: after the clamp for a single pair, the pre-split duty for a TNPC
leg (R205, R206). -/
def State.legApplied (s : State) (l : Nat) (duty : NUM) : NUM :=
  if (s.legAt l).cap = .tnpcSplit then duty else clampedDuty (s.cfgAt l) duty

/-- The shadow compare value of a pair update (R161). -/
def State.pairCompare (s : State) (n sl : Nat) (duty : NUM) : Nat :=
  appliedCompare (s.timAt (instOf s.params n)) (s.cfgAt sl) (clampedDuty (s.cfgAt sl) duty)

/-- The pair writes of a leg's update, in order: reference number and compare value (R205, R206). -/
def State.legWrites (s : State) (l : Nat) (duty : NUM) : List (Nat × Nat) :=
  let p := (s.legAt l).pin.toNat
  if (s.legAt l).cap = .tnpcSplit then
    [(p, s.pairCompare p l (tnpcSplit duty).1), (p + 2, s.pairCompare (p + 2) l (tnpcSplit duty).2)]
  else [(p, s.pairCompare p l duty)]

/-- What a compare register holds after pair writes in order: the last that names its pair, else its
old value (R166). -/
def latest (writes : List (Nat × Nat)) (n old : Nat) : Nat :=
  writes.foldl (fun v w => if n = w.1 ∨ n = w.1 + 1 then w.2 else v) old

/-- Exactly these pair writes reached the shadow compare registers; nothing else of any channel
changed (R166). -/
def shadowsWritten (s t : State) (writes : List (Nat × Nat)) : Prop :=
  ∀ n, t.chAt n = { s.chAt n with cmps := latest writes n (s.chAt n).cmps }

/-- `CAPUPD l` is refused for a requested duty with this status, and these pair writes of its own
remain: none, or that of pair A of a TNPC leg whose pair B is refused (R204 to R206, R314). -/
def State.legDutyRefusal (s : State) (l : Nat) (duty : NUM) (writes : List (Nat × Nat))
    (e : Status) : Prop :=
  let p := (s.legAt l).pin.toNat
  if s.params.nleg ≤ l then e = .errIndex ∧ writes = []
  else
    match (s.legAt l).cap with
    | .none | .phaseShift => e = .errNotInit ∧ writes = []
    | .singlePair => s.pairDutyRefusal p l duty e ∧ writes = []
    | .tnpcSplit =>
      (s.pairDutyRefusal p l (tnpcSplit duty).1 e ∧ writes = []) ∨
      (s.pairAccepts p l (tnpcSplit duty).1 ∧
        s.pairDutyRefusal (p + 2) l (tnpcSplit duty).2 e ∧
        writes = [(p, s.pairCompare p l (tnpcSplit duty).1)])

/-- The pair writes of the updates of a list of legs, each with its requested duty, in order. -/
def State.dutyWrites (s : State) (updates : List (Nat × NUM)) : List (Nat × Nat) :=
  updates.flatMap fun r => s.legWrites r.1 r.2

/-- The legs of inverter i that its operations use (R221), by the latched duplicate flag. -/
def State.inverterLegs (s : State) (i : Nat) : List Nat := invLegs i (s.invAt i).dup

/-- `INVUPD i` accepts three requested duties: every leg accepts its own, and the duplicate, where
there is one, the third (R222). -/
def State.inverterAccepts (s : State) (i : Nat) (d0 d1 d2 : NUM) : Prop :=
  i < s.params.ninv ∧ (s.invAt i).init = true ∧
  s.legAccepts (4 * i) d0 ∧ s.legAccepts (4 * i + 1) d1 ∧ s.legAccepts (4 * i + 2) d2 ∧
  ((s.invAt i).dup = true → s.legAccepts (4 * i + 3) d2)

/-- The leg updates of an inverter update, in order: legs 0, 1, 2, and the duplicate with the third
requested duty (R222). -/
def State.inverterUpdates (s : State) (i : Nat) (d0 d1 d2 : NUM) : List (Nat × NUM) :=
  [(4 * i, d0), (4 * i + 1, d1), (4 * i + 2, d2)] ++
  (if (s.invAt i).dup then [(4 * i + 3, d2)] else [])

/-- The pair writes of an inverter update, in leg order 0, 1, 2, duplicate (R222). -/
def State.inverterWrites (s : State) (i : Nat) (d0 d1 d2 : NUM) : List (Nat × Nat) :=
  s.legWrites (4 * i) d0 ++ s.legWrites (4 * i + 1) d1 ++ s.legWrites (4 * i + 2) d2 ++
  (if (s.invAt i).dup then s.legWrites (4 * i + 3) d2 else [])

/-- The result port after an inverter update: the four applied duties (R222). -/
def inverterReports (s t : State) (i : Nat) (d0 d1 d2 : NUM) : Prop :=
  portHolds t .ok 0 (s.legApplied (4 * i) d0) (s.legApplied (4 * i + 1) d1)
    (s.legApplied (4 * i + 2) d2)
    (if (s.invAt i).dup then s.legApplied (4 * i + 3) d2 else .rat 0)

/-! ### Legs, pins and enables (R207, R208) -/

/-- `ENLEG l` passes its checks (R207). -/
def State.legEnables (s : State) (l : Nat) : Prop :=
  l < s.params.nleg ∧ (s.legAt l).cap ≠ .none ∧ 1 ≤ (s.legAt l).pin.toNat ∧
  (s.legAt l).pin.toNat + legWidth (s.legAt l).kind - 1 ≤ s.params.npwm

/-- Pin number q is a pin of leg l, by its live type (R208). -/
def State.ownsPin (s : State) (l q : Nat) : Prop :=
  (s.legAt l).pin.toNat ≤ q ∧ q < (s.legAt l).pin.toNat + legWidth (s.legAt l).kind

/-- The output-enable call of a leg (R207). -/
def State.enableCall (s : State) (l : Nat) (enable : Bool) : ExtCall :=
  .setOutputsEnabled (legMask (s.legAt l).pin.toNat (legWidth (s.legAt l).kind)) enable

/-- The mirror and the leg states after legs are enabled or disabled: every pin of a listed leg has
the enable value, every other bit its old one; `STATE` follows for the listed legs only (R207). -/
def legsEnabled (s t : State) (ls : List Nat) (enable : Bool) : Prop :=
  t.halted = s.halted ∧
  (∀ b, b < 255 → (∃ l ∈ ls, s.ownsPin l (b + 1)) → t.oen.getLsbD b = enable) ∧
  (∀ b, b < 255 → (¬ ∃ l ∈ ls, s.ownsPin l (b + 1)) → t.oen.getLsbD b = s.oen.getLsbD b) ∧
  (∀ l ∈ ls, t.legAt l = { s.legAt l with state := Activity.ofFlag enable }) ∧
  (∀ l, l ∉ ls → t.legAt l = s.legAt l)

/-- What `ENLEG l` is refused with, in order; the capability is tested before the pin range (R207,
R308). -/
def State.enableRefusal (s : State) (l : Nat) (e : Status) : Prop :=
  if s.halted = true then e = .fatalHwinit
  else if s.params.nleg ≤ l then e = .errIndex
  else if (s.legAt l).cap = .none then e = .errNotInit
  else
    ((s.legAt l).pin.toNat < 1 ∨
      s.params.npwm < (s.legAt l).pin.toNat + legWidth (s.legAt l).kind - 1) ∧ e = .errPinRange

/-- The calls that mark a TNPC leg's pins (R201). -/
def State.roleCalls (s : State) (l : Nat) : List ExtCall :=
  match (s.legAt l).kind with
  | .default => []
  | .tnpc => (tnpcPins (s.legAt l).pin.toNat).map .setPinAsPwmRole

/-- What `CFGLEG l` is refused with before it has any effect, in order (R201, R308). -/
def State.legRefusal (s : State) (l : Nat) (e : Status) : Prop :=
  if s.halted = true then e = .fatalHwinit
  else if s.params.nleg ≤ l then e = .errIndex
  else
    match (s.legAt l).kind with
    | .default => s.pairRefusal (s.legAt l).pin.toNat l e
    | .tnpc =>
      if (s.legAt l).pin.toNat < 1 ∨ s.params.npwm < (s.legAt l).pin.toNat + 3 then
        e = .errPinRange
      else if (s.legAt l).pin.toNat % 2 = 0 then e = .errPinParity
      else s.pairRefusal (s.legAt l).pin.toNat l e

/-- The pin of a leg fails the range or the parity test of a validation (R221, R230). -/
def State.pinFault (s : State) (width : LegType → Nat) (l : Nat) (e : Status) : Prop :=
  if (s.legAt l).pin.toNat < 1 ∨
      s.params.npwm < (s.legAt l).pin.toNat + width (s.legAt l).kind - 1 then e = .errPinRange
  else (s.legAt l).pin.toNat % 2 = 0 ∧ e = .errPinParity

/-- The first leg of a list whose pin fails a test decides the status (R221, R308). -/
def State.firstPinFault (s : State) (width : LegType → Nat) (ls : List Nat) (e : Status) : Prop :=
  ∃ before l after, ls = before ++ l :: after ∧
    (∀ m ∈ before, ∀ x, ¬ s.pinFault width m x) ∧ s.pinFault width l e

/-- The disable pins of an inverter run past pin 255 (R221). -/
def Inv.disablePinsOverrun (r : Inv) : Prop :=
  0 < r.disCount.toNat ∧ 255 < r.disFirst.toNat + r.disCount.toNat - 1

/-- What `INVINIT i` is refused with before it has any effect, in order (R220, R221). -/
def State.inverterRefusal (s : State) (i : Nat) (e : Status) : Prop :=
  if s.halted = true then e = .fatalHwinit
  else if s.params.ninv ≤ i then e = .errIndex
  else
    s.firstPinFault legWidth (invLegs i (s.invAt i).dupEn) e ∨
    ((∀ x, ¬ s.firstPinFault legWidth (invLegs i (s.invAt i).dupEn) x) ∧
      (s.invAt i).disablePinsOverrun ∧ e = .errValue)

/-- What `PSFBINIT j` is refused with before it has any effect, in order (R230). -/
def State.bridgeRefusal (s : State) (j : Nat) (e : Status) : Prop :=
  if s.halted = true then e = .fatalHwinit
  else if s.params.npsfb ≤ j then e = .errIndex
  else
    s.firstPinFault (fun _ => 2) (psfbLegs s.params j) e ∨
    ((∀ x, ¬ s.firstPinFault (fun _ => 2) (psfbLegs s.params j) x) ∧
      (∃ l ∈ psfbLegs s.params j, (s.legAt l).kind ≠ .default) ∧ e = .errLegType)

/-! ### Starting legs at 50% (R220, R230) -/

/-- The pairs of a leg with their slot, by its live type (R201). -/
def State.legRefs (s : State) (l : Nat) : List (Nat × Nat) :=
  match (s.legAt l).kind with
  | .default => [((s.legAt l).pin.toNat, l)]
  | .tnpc => [((s.legAt l).pin.toNat, l), ((s.legAt l).pin.toNat + 2, l)]

/-- The pairs of a list of legs, in order. -/
def State.refsOf (s : State) (ls : List Nat) : List (Nat × Nat) := ls.flatMap s.legRefs

/-- The capability that `CFGLEG` resolves for a leg (R201). -/
def capOf : LegType → Capability
  | .default => .singlePair
  | .tnpc => .tnpcSplit

/-- The duties a leg's pairs get at the start: 50% for the one pair of a Default leg, the split of
50% for the two pairs of a TNPC leg (R202, R220, R227). -/
def State.startDuties (s : State) (l : Nat) : List (Nat × NUM) :=
  match (s.legAt l).kind with
  | .default => [((s.legAt l).pin.toNat, .rat (1 / 2))]
  | .tnpc => [((s.legAt l).pin.toNat, .rat 0), ((s.legAt l).pin.toNat + 2, .rat 1)]

/-- Legs can be configured and given 50% in order: the records exist, all pairs can be configured,
and each start duty fits the slot and the timer as configured (R220). -/
def State.legsStart (s : State) (ls : List Nat) : Prop :=
  (∀ l ∈ ls, l < s.params.nleg) ∧
  (∀ l ∈ ls, (s.legAt l).kind = .tnpc → (s.legAt l).pin.toNat + 3 ≤ s.params.npwm) ∧
  s.pairsReady (s.refsOf ls) ∧
  ∀ l ∈ ls, ∀ e ∈ s.startDuties l,
    dutyFits (s.configuredTim (instOf s.params e.1) (s.refsOf ls))
      (s.configuredSlot (s.refsOf ls) l) (clampedDuty (s.configuredSlot (s.refsOf ls) l) e.2)

/-- The compare writes of those starts, in order. -/
def State.startWrites (s : State) (ls : List Nat) : List (Nat × Nat) :=
  ls.flatMap fun l => (s.startDuties l).map fun e =>
    (e.1, appliedCompare (s.configuredTim (instOf s.params e.1) (s.refsOf ls))
      (s.configuredSlot (s.refsOf ls) l) (clampedDuty (s.configuredSlot (s.refsOf ls) l) e.2))

/-- The external calls of configuring legs in order, after the pairs `earlier`: for each leg the
timer-base calls of its pairs, then the role calls of its pins if it is a TNPC leg (R201, R220). -/
def State.legsCalls (s : State) (earlier : List (Nat × Nat)) : List Nat → List ExtCall
  | [] => []
  | l :: ls =>
    s.refsCalls earlier (s.legRefs l) ++ s.roleCalls l ++ s.legsCalls (earlier ++ s.legRefs l) ls

/-- Legs have been configured and given their start duty, in order, and nothing else has been done:
no output is switched and no `STATE` changed (R220, R230, R314). -/
def legsBegun (s t : State) (ls : List Nat) : Prop :=
  (∀ u, t.timAt u = s.configuredTim u (s.refsOf ls)) ∧
  (∀ sl, t.cfgAt sl = s.configuredSlot (s.refsOf ls) sl) ∧
  (∀ n, t.chAt n = { s.configuredCh (s.refsOf ls) n with
    cmps := latest (s.startWrites ls) n (s.chAt n).cmps }) ∧
  (∀ l ∈ ls, t.legAt l = { s.legAt l with cap := capOf (s.legAt l).kind }) ∧
  (∀ l, l ∉ ls → t.legAt l = s.legAt l) ∧
  calledOk s t (s.legsCalls [] ls) ∧ sameInputs s t ∧ sameGlb s t ∧ sameInv s t ∧
  samePsfb s t ∧ sameVf s t

/-- The same state with a number on lane `ARG0`. -/
def State.withDuty (s : State) (duty : NUM) : State :=
  { s with lanes := { s.lanes with arg0 := .num duty } }

/-- An initialising command went no further than the configuration and the 50% updates of its legs: no
disable-pin call, no enable write, no `STATE` or `INIT` changed (R314). -/
def stoppedBeforeEnable (s t : State) : Prop :=
  t.oen = s.oen ∧ (∀ l, (t.legAt l).state = (s.legAt l).state) ∧ sameInv s t ∧ samePsfb s t ∧
  sameVf s t ∧ sameInputs s t ∧
  ∃ calls, t.ext = s.ext ++ calls ∧
    ∀ x ∈ calls, x.call.isTimerBase = true ∨ ∃ q, x.call = .setPinAsPwmRole q

/-- Legs have been started: timers, slots and channels configured, every channel of theirs at its
start compare value, capabilities resolved, `STATE` inactive and outputs disabled (R220, R227). -/
def legsStarted (s t : State) (ls : List Nat) : Prop :=
  (∀ u, t.timAt u = s.configuredTim u (s.refsOf ls)) ∧
  (∀ sl, t.cfgAt sl = s.configuredSlot (s.refsOf ls) sl) ∧
  (∀ n, t.chAt n = { s.configuredCh (s.refsOf ls) n with
    cmps := latest (s.startWrites ls) n (s.chAt n).cmps }) ∧
  (∀ l ∈ ls, t.legAt l =
    { s.legAt l with state := .inactive, cap := capOf (s.legAt l).kind }) ∧
  (∀ l, l ∉ ls → t.legAt l = s.legAt l) ∧
  t.halted = s.halted ∧
  (∀ b, b < 255 → (∃ l ∈ ls, s.ownsPin l (b + 1)) → t.oen.getLsbD b = false) ∧
  (∀ b, b < 255 → (¬ ∃ l ∈ ls, s.ownsPin l (b + 1)) → t.oen.getLsbD b = s.oen.getLsbD b)

/-! ### The ramp controller (R263 to R267) -/

/-- The frequency a step moves towards: 0 while a request is pending, else the target (R264 to
R266). -/
def Vf.goal (v : Vf) : NUM :=
  if v.reqState ≠ v.curState ∨ v.reqDir ≠ v.curDir then .rat 0 else v.outFreq

/-- `CUR_FREQ` after a step (R264 to R266). -/
def Vf.nextFreq (v : Vf) : NUM := toward v.curFreq v.goal (v.accel.div v.pwmFreq)

/-- The static configuration a controller can run on (R261, R262). -/
def Vf.configured (v : Vf) : Prop :=
  (NUM.rat 0).lt v.nomFreq ∧ (NUM.rat 0).lt v.pwmFreq ∧ (NUM.rat 0).le v.accel

/-- What `VFINIT k` is refused with, in order (R261). -/
def State.rampInitRefusal (s : State) (k : Nat) (e : Status) : Prop :=
  if s.halted = true then e = .fatalHwinit
  else if s.params.nvf ≤ k then e = .errIndex
  else if s.params.ninv ≤ (s.vfAt k).inv.toNat then e = .errIndex
  else ¬ (s.vfAt k).configured ∧ e = .errValue

/-- What `VFSTEP k` is refused with before it has any effect, in order (R262). -/
def State.rampStepRefusal (s : State) (k : Nat) (e : Status) : Prop :=
  if s.halted = true then e = .fatalHwinit
  else if s.params.nvf ≤ k then e = .errIndex
  else if (s.vfAt k).init = false then e = .errNotInit
  else if s.params.ninv ≤ (s.vfAt k).inv.toNat then e = .errIndex
  else if (s.invAt (s.vfAt k).inv.toNat).init = false then e = .errNotInit
  else ¬ (s.vfAt k).configured ∧ e = .errValue

/-- A step commits the requested activation: it is pending and the frequency reaches 0 (R264). -/
def Vf.commitsState (v : Vf) : Bool :=
  decide (v.reqState ≠ v.curState) && decide (v.nextFreq = .rat 0)

/-- A step commits the requested direction: it alone is pending and the frequency reaches 0
(R265). -/
def Vf.commitsDir (v : Vf) : Bool :=
  decide (v.reqState = v.curState) && decide (v.reqDir ≠ v.curDir) && decide (v.nextFreq = .rat 0)

/-- `VF[k]` after a successful step (R263 to R267). -/
def Vf.stepped (v : Vf) : Vf :=
  { v with
    curFreq := v.nextFreq
    curState := if v.commitsState then v.reqState else v.curState
    curDir := if v.commitsDir then v.reqDir else v.curDir
    theta := rmod (v.theta.add ((TWO_PI.mul v.nextFreq).div v.pwmFreq)) TWO_PI }

/-- The modulation index of a step (R267). -/
def Vf.nextMi (v : Vf) : NUM := (v.nomMi.mul v.nextFreq).div v.nomFreq

/-! ### Properties of a good state -/

/-- R28: the dead-time code and fraction of an initialised instance are derived from one nanosecond
value and one timer clock. -/
def State.deadTimeDerived (s : State) : Prop :=
  ∀ t, (s.timAt t).init = true →
    ((s.timAt t).dtEn = true →
      dtEncode (s.timAt t).dtNs (s.params.timer t).clkHz = some (s.timAt t).dtCode ∧
      (s.timAt t).dutyDt = dtComp (s.timAt t).dtNs (s.timAt t).fsw) ∧
    ((s.timAt t).dtEn = false → (s.timAt t).dtCode = 0 ∧ (s.timAt t).dutyDt = .rat 0)

/-- R173 (b): compare values never exceed the period of their instance; and an instance that is not
initialised has period 0. -/
def State.comparesFit (s : State) : Prop :=
  (∀ t, (s.timAt t).init = false → (s.timAt t).period = 0) ∧
  ∀ n, (s.chAt n).cmps ≤ (s.timAt (instOf s.params n)).period ∧
    (s.chAt n).cmpa ≤ (s.timAt (instOf s.params n)).period

/-- R151: the period of an initialised instance is in 1..2^W − 1, and instances are 0 and 1. -/
def State.periodsFit (s : State) : Prop :=
  ∀ t, (s.timAt t).init = true →
    t ≤ 1 ∧ 1 ≤ (s.timAt t).period ∧ (s.timAt t).period ≤ 2 ^ (s.params.timer t).width - 1

/-- R272 (a): every phase angle lies in `[0, TWO_PI)`. -/
def State.anglesInTurn (s : State) : Prop :=
  ∀ k, (NUM.rat 0).le (s.vfAt k).theta ∧ (s.vfAt k).theta.lt TWO_PI

/-- R108: the tag `PHASE_SHIFT` is never stored, and a callback slot holds null, a ramp controller or
an external callback. -/
def State.codesLegal (s : State) : Prop :=
  (∀ l, (s.legAt l).cap ≠ .phaseShift) ∧
  ∀ t, (s.timAt t).cb = 0 ∨ callbackLegal s.params (s.timAt t).cb = true

/-- R12, R26: `OEN` is `NPWM` bits wide. -/
def State.oenWithinPins (s : State) : Prop :=
  ∀ q, s.params.npwm ≤ q → s.oen.getLsbD q = false

/-- The next event cannot stop the machine: it is not a period event whose external callback never
returns (R346, U6). -/
def State.nextEventReturns (s : State) : Prop :=
  ∀ (t : Fin 2) rest, s.inbox = .perElapsed t :: rest →
    s.halted = true ∨ (s.timAt t.val).init = false ∨
    (s.timAt t.val).cb.toNat ≤ s.params.nvf ∨ s.callNo ∉ s.env.callbackHangs

end Sys2Proof.Machine
end

