-- ==== Sys2Proof/Certificates/Slice0/Obligations.lean ====
section
/-! DEFINITION. The statements about CORE for the provers. A statement that formalises a numbered rule
of spec/ names it; the vocabulary is that of Sys2Proof/Safety.lean. -/

section

open Sys2Proof Sys2Proof.Machine

/-! ### Encoding -/

/-- Decoding the word of a well-formed command gives the command back (R102 to R105, R109). -/
def Obligations.DecodeOfEncodeIsIdentity : Prop :=
  ∀ i : Instr, i.wellFormed = true → decode (encode i) = .ok i

/-- A word that decodes is the word of the command it decodes to: each legal word has one meaning
(R102 to R105). -/
def Obligations.EncodeOfDecodeIsIdentity : Prop :=
  ∀ (cw : Word) (i : Instr), decode cw = .ok i → i.wellFormed = true ∧ encode i = cw

/-- R105: decoding is total and needs the word alone; a word is a row's operation exactly when it
agrees with the row's match under the row's mask, and the masks of two rows never both match one
word. No range of an operand is tested: the index bytes are taken as they stand. -/
def Obligations.TableRowDecidesDecoding : Prop :=
  (∀ (cw : Word) (i : Instr), decode cw = .ok i → cw &&& i.tableMask = i.tableMatch) ∧
  (∀ (cw : Word) (i : Instr), cw &&& i.tableMask = i.tableMatch →
    ∃ j, decode cw = .ok j ∧ j.tableMatch = i.tableMatch) ∧
  (∀ (cw : Word) (i j : Instr), cw &&& i.tableMask = i.tableMatch →
    cw &&& j.tableMask = j.tableMatch →
    i.tableMatch = j.tableMatch ∧ i.tableMask = j.tableMask) ∧
  (∀ i : Instr, opField i.tableMask = 0xFF)

/-- One word of each family, written out from the spec's encoding of it (R102, R104, R109). -/
def Obligations.SampleWordsDecode : Prop :=
  decode 0x01302500 = .ok (.wrf 0x3025) ∧ decode 0x10000000 = .ok .dtenc ∧
  decode 0x23010000 = .ok (.updpair 1 0) ∧ decode 0x25000131 = .ok (.cfgirq 0 1 3 true) ∧
  decode 0x31000001 = .ok (.enleg 0 true) ∧ decode 0x42000001 = .ok (.invspwm 0 .reverse) ∧
  decode 0x52000001 = .ok (.psfbact 0 true) ∧ decode 0x61000000 = .ok (.vfstep 0)

/-- R106: an illegal word ends with `ERR_ILLEGAL_OP`, changes nothing but the result port and makes
no external call (the word and its lanes have been taken from the port); the all-zero word is
illegal. While `HALTED`, `FATAL_HWINIT` comes first: see HaltedStateRefusesEverything. -/
def Obligations.IllegalWordOnlyReportsStatus : Prop :=
  (∀ (s : State) (cw : Word) (lanes : Lanes) (rest : List Event),
    s.inbox = .command cw lanes :: rest → s.halted = false → illegalWord cw →
    ∃ t, step s = .next t ∧ portShows t .errIllegalOp 0 0 0 0 0 ∧ sameBanks s t ∧ sameCalls s t ∧
      t.params = s.params ∧ t.env = s.env ∧ t.inbox = rest ∧ t.lanes = lanes) ∧
  (∀ cw, illegalWord cw ↔ ∃ e, decode cw = .error e) ∧ illegalWord 0

/-! ### Steps -/

/-- A step at which a command word is presented that decodes to a command runs that command, with its
lanes at the port and the word taken from the inbox. CORE has no program counter (R24, R105). -/
def Obligations.StepRunsDecodedCommand : Prop :=
  ∀ (s : State) (cw : Word) (lanes : Lanes) (rest : List Event) (i : Instr),
    s.inbox = .command cw lanes :: rest → decode cw = .ok i →
    step s = exec i { s with inbox := rest, lanes := lanes }

/-- The model's choice of log 4: what is presented is a list, taken in order; with nothing presented
CORE waits, its state unchanged (R15, R324). -/
def Obligations.StepTakesEventsInOrder : Prop :=
  (∀ s : State, s.inbox = [] → step s = .next s) ∧
  (∀ (s : State) (u : Fin 2) (rest : List Event), s.inbox = .perElapsed u :: rest →
    step s = perElapsed u.val { s with inbox := rest }) ∧
  (∀ (s : State) (rest : List Event), s.inbox = .reset :: rest →
    step s = .next (doReset { s with inbox := rest }))

/-- R346, U6: a step stops the machine exactly where the next event runs an external callback that
never returns, and the fault names the instance presented and its callback. Every command, legal or
not, goes on. The stop is the model's reading of U6 (log 13); which callbacks hang is held in the state
(log 3). -/
def Obligations.StepStopsOnlyOnHungCallback : Prop :=
  ∀ s : State,
    (s.nextEventReturns → ∃ t, step s = .next t) ∧
    (¬ s.nextEventReturns → ∃ (u : Fin 2) (rest : List Event), s.inbox = .perElapsed u :: rest ∧
      step s = .fault (.callbackNeverReturned u.val (s.timAt u.val).cb))

/-! ### Reset and invariants -/

/-- R340, R341: `RESET`, accepted in every state, puts every field of every bank and the result port to
0, and is the only way out of `HALTED`; the state after power-on is the same. It makes no external
call; that the trace so far is kept across it, and not cleared, is the model's choice of log 8. -/
def Obligations.ResetEventRestoresEveryField : Prop :=
  (∀ (s : State) (rest : List Event), s.inbox = .reset :: rest →
    ∃ t, step s = .next t ∧ (∀ c : Cell, (memRead t c).number = .rat 0) ∧ portShows t .ok 0 0 0 0 0 ∧
      sameCalls s t ∧ t.params = s.params ∧ t.env = s.env ∧ t.inbox = rest) ∧
  (∀ s t : State, s.halted = true → step s = .next t → t.halted = false →
    ∃ rest, s.inbox = .reset :: rest) ∧
  (∀ c : Cell, (memRead State.reset c).number = .rat 0) ∧ portShows State.reset .ok 0 0 0 0 0

/-- The reset state has every property that the invariant statements below keep. -/
def Obligations.ResetStateMeetsInvariants : Prop :=
  State.reset.params.valid = true ∧ State.reset.banksWf = true ∧ State.reset.deadTimeDerived ∧
  State.reset.periodsFit ∧ State.reset.comparesFit ∧ State.reset.anglesInTurn ∧
  State.reset.codesLegal ∧ State.reset.oenWithinPins

/-- Every step keeps every bank in its canonical form, so that equal register files are equal
data. -/
def Obligations.BanksStayCanonical : Prop :=
  ∀ s t : State, step s = .next t → s.banksWf = true → t.banksWf = true

/-- R28: in every initialised instance the dead-time code and the compensation fraction are derived
from the same nanosecond value and the same timer clock, and are both 0 without dead-time; every
step keeps this, and the reset state has it. -/
def Obligations.DeadTimeStateStaysDerived : Prop :=
  State.reset.deadTimeDerived ∧
  ∀ s t : State, step s = .next t → s.deadTimeDerived → t.deadTimeDerived

/-- R151, R173 (b): the period of an initialised instance stays in 1..2^W − 1, and no compare value
ever exceeds the period of its instance. -/
def Obligations.PeriodsAndComparesStayInRange : Prop :=
  ∀ s t : State, step s = .next t → s.params.valid = true → s.periodsFit → s.comparesFit →
    t.periodsFit ∧ t.comparesFit

/-- R272 (a): every phase angle stays in `[0, TWO_PI)`. -/
def Obligations.PhaseAnglesStayInOneTurn : Prop :=
  ∀ s t : State, step s = .next t → s.anglesInTurn → t.anglesInTurn

/-- R26, R108: no leg ever holds the tag `PHASE_SHIFT`, no callback slot a reserved id, and `OEN` has
no bit at or above `NPWM`. -/
def Obligations.CodesAndEnablesStayLegal : Prop :=
  ∀ s t : State, step s = .next t →
    (s.codesLegal → t.codesLegal) ∧ (s.oenWithinPins → t.oenWithinPins)

/-- R27, R173 (c): but for the callback slot, `TIM[u]` changes only in the step that initialises the
instance, or by `RESET`; an initialised instance stays initialised. -/
def Obligations.TimerTimingIsWrittenOnce : Prop :=
  ∀ (s t : State) (u : Nat), step s = .next t → (∀ rest, s.inbox ≠ .reset :: rest) →
    ((s.timAt u).init = true → (t.timAt u).init = true) ∧
    ((s.timAt u).init = true ∨ (t.timAt u).init = false →
      { t.timAt u with cb := (s.timAt u).cb, cbPrio := (s.timAt u).cbPrio } = s.timAt u)

/-- The implementation's parameters and the environment's answers are fixed for a run (R6, R21; log 2,
3). -/
def Obligations.ParametersAndEnvironmentNeverChange : Prop :=
  ∀ s t : State, step s = .next t → t.params = s.params ∧ t.env = s.env

/-- R36, R272 (b), (c): in every step whatever, a controller's activation state or direction changes
only if its frequency is 0 afterwards. -/
def Obligations.ControllerCommitsOnlyAtStandstill : Prop :=
  ∀ (s t : State) (k : Nat), step s = .next t →
    ((t.vfAt k).curState ≠ (s.vfAt k).curState ∨ (t.vfAt k).curDir ≠ (s.vfAt k).curDir) →
    (t.vfAt k).curFreq = .rat 0

/-! ### How commands end -/

/-- R305: in the halted state every command word, legal or not, ends with `FATAL_HWINIT` and no
effect, and every `PER_ELAPSED` event is ignored; the register outputs keep their values and no
external call is made. -/
def Obligations.HaltedStateRefusesEverything : Prop :=
  (∀ (s : State) (cw : Word) (lanes : Lanes) (rest : List Event), s.halted = true →
    s.inbox = .command cw lanes :: rest →
    ∃ t, step s = .next t ∧ portShows t .fatalHwinit 0 0 0 0 0 ∧ sameBanks s t ∧ sameCalls s t ∧
      t.params = s.params ∧ t.env = s.env ∧ t.inbox = rest ∧ t.lanes = lanes) ∧
  (∀ (s : State) (u : Fin 2) (rest : List Event), s.halted = true →
    s.inbox = .perElapsed u :: rest → step s = .next { s with inbox := rest })

/-- R305, R309, R322: a command that CORE accepts while running halts it exactly when it ends with
`FATAL_HWINIT`, and exactly when its last external call was answered `fail`. -/
def Obligations.HaltExactlyOnFailedTimerCall : Prop :=
  ∀ (i : Instr) (s t : State), s.halted = false → exec i s = .next t →
    (t.halted = true ↔ t.status = .fatalHwinit) ∧
    (t.halted = true ↔
      ∃ c older, t.ext = older ++ [⟨c, .fail⟩] ∧ s.ext.length ≤ older.length)

/-- R314, its two sentences on simple commands: an error of a simple command, or of `CFGPAIR`, has no
effect but the status; `FATAL_HWINIT` latches `HALTED` and leaves its external calls in the trace,
and has no other effect. -/
def Obligations.SimpleCommandErrorsArePrecise : Prop :=
  ∀ (i : Instr) (s t : State), i.precise = true → s.halted = false → exec i s = .next t →
    t.status ≠ .ok →
    (t.status ≠ .fatalHwinit → refusedWith s t t.status) ∧
    (t.status = .fatalHwinit →
      portShows t .fatalHwinit 0 0 0 0 0 ∧ t.halted = true ∧ t.oen = s.oen ∧
      (∃ calls, t.ext = s.ext ++ calls) ∧ sameInputs s t ∧ sameTim s t ∧ sameCh s t ∧
      sameCfg s t ∧ sameLeg s t ∧ sameInv s t ∧ samePsfb s t ∧ sameVf s t)

/-- R309: a status other than `OK` comes with `RESCODE` and all four lanes 0, the next command
overwrites it, and `FATAL_HWINIT` is latched in `HALTED`. -/
def Obligations.ErrorsClearResults : Prop :=
  ∀ (i : Instr) (s : State), ∃ t, exec i s = .next t ∧
    (t.status ≠ .ok →
      t.rescode = 0 ∧ t.res0 = .rat 0 ∧ t.res1 = .rat 0 ∧ t.res2 = .rat 0 ∧
      t.res3 = .rat 0) ∧
    (t.status = .fatalHwinit → t.halted = true)

/-- R304, R308: a lane that the command reads and that is not a finite real ends it with `ERR_VALUE`
before anything else the operation tests or does. That this comes first also for `WRF` at an address
that names nothing, or at a read-only or an integer field, is the model's reading of log 9. -/
def Obligations.NonFiniteLaneIsRefusedFirst : Prop :=
  ∀ (i : Instr) (s : State), s.halted = false → .notFinite ∈ i.lanesRead s.lanes →
    turnsAway i s .errValue

/-- R303: `ERR_INDEX` where the record does not exist; `ERR_NOT_INIT` where it exists but its
configuring operation has not succeeded; in both cases no state is changed. -/
def Obligations.UseBeforeConfigurationIsRefused : Prop :=
  ∀ (i : Instr) (s : State), s.halted = false → .notFinite ∉ i.lanesRead s.lanes →
    (¬ i.indexesExist s → turnsAway i s .errIndex) ∧
    (i.indexesExist s → i.unconfigured s → turnsAway i s .errNotInit)

/-- R210 (e), R227 (c): a command that is not an enabling or initialising one, nor `VFSTEP`, leaves
`GLB.OEN` and every activation state of legs, inverters and full bridges as they were. -/
def Obligations.OnlyEnablingCommandsTouchOutputs : Prop :=
  ∀ (i : Instr) (s t : State), exec i s = .next t →
    (match i with
      | .enleg _ _ | .invinit _ | .invact _ _ | .psfbinit _ | .psfbact _ _ | .vfstep _ => False
      | _ => True) →
    t.oen = s.oen ∧ (∀ l, (t.legAt l).state = (s.legAt l).state) ∧
    (∀ u, (t.invAt u).state = (s.invAt u).state) ∧
    (∀ j, (t.psfbAt j).state = (s.psfbAt j).state)

/-! ### Dead-time encoder -/

/-- R134: the four tiers and the range that has no code. -/
def Obligations.DeadTimeTierRanges : Prop :=
  ∀ ns clk : NUM, 0 ≤ ns.real → 0 < clk.real →
    (⌊ns.real * clk.real / 1000000000⌋₊ ≤ 127 →
      ∃ c, dtEncode ns clk = some c ∧ c.toNat = ⌊ns.real * clk.real / 1000000000⌋₊ ∧
        dtDecode c = ⌊ns.real * clk.real / 1000000000⌋₊ ∧ dtStep c = 1) ∧
    (128 ≤ ⌊ns.real * clk.real / 1000000000⌋₊ → ⌊ns.real * clk.real / 1000000000⌋₊ ≤ 255 →
      ∃ c v, dtEncode ns clk = some c ∧ v ≤ 63 ∧ c.toNat = 0x80 + v ∧ dtDecode c = (v + 64) * 2 ∧
        128 ≤ dtDecode c ∧ dtDecode c ≤ 254 ∧ dtStep c = 2) ∧
    (256 ≤ ⌊ns.real * clk.real / 1000000000⌋₊ → ⌊ns.real * clk.real / 1000000000⌋₊ ≤ 511 →
      ∃ c v, dtEncode ns clk = some c ∧ v ≤ 31 ∧ c.toNat = 0xC0 + v ∧ dtDecode c = (v + 32) * 8 ∧
        256 ≤ dtDecode c ∧ dtDecode c ≤ 504 ∧ dtStep c = 8) ∧
    (512 ≤ ⌊ns.real * clk.real / 1000000000⌋₊ → ⌊ns.real * clk.real / 1000000000⌋₊ ≤ 1023 →
      ∃ c v, dtEncode ns clk = some c ∧ v ≤ 31 ∧ c.toNat = 0xE0 + v ∧ dtDecode c = (v + 32) * 16 ∧
        512 ≤ dtDecode c ∧ dtDecode c ≤ 1008 ∧ dtStep c = 16) ∧
    (1024 ≤ ⌊ns.real * clk.real / 1000000000⌋₊ → dtEncode ns clk = none)

/-- R135: (a) the encoder rounds down and never by a whole step; (b) the codes at each tier boundary;
(c) decoding after encoding is non-decreasing; (d) every code is produced, and is the code of the
dead-time it stands for. -/
def Obligations.DeadTimeQuantisation : Prop :=
  (∀ ns clk : NUM, 0 ≤ ns.real → 0 < clk.real → ⌊ns.real * clk.real / 1000000000⌋₊ ≤ 1023 →
    ∃ c, dtEncode ns clk = some c ∧ (dtDecode c : ℝ) ≤ ns.real * clk.real / 1000000000 ∧
      ns.real * clk.real / 1000000000 < dtDecode c + dtStep c) ∧
  (∀ ns clk : NUM, 0 ≤ ns.real → 0 < clk.real →
    (⌊ns.real * clk.real / 1000000000⌋₊ = 127 → dtEncode ns clk = some 0x7F) ∧
    (⌊ns.real * clk.real / 1000000000⌋₊ = 128 → dtEncode ns clk = some 0x80) ∧
    (⌊ns.real * clk.real / 1000000000⌋₊ = 255 → dtEncode ns clk = some 0xBF) ∧
    (⌊ns.real * clk.real / 1000000000⌋₊ = 256 → dtEncode ns clk = some 0xC0) ∧
    (⌊ns.real * clk.real / 1000000000⌋₊ = 511 → dtEncode ns clk = some 0xDF) ∧
    (⌊ns.real * clk.real / 1000000000⌋₊ = 512 → dtEncode ns clk = some 0xE0) ∧
    (⌊ns.real * clk.real / 1000000000⌋₊ = 1023 → dtEncode ns clk = some 0xFF) ∧
    (⌊ns.real * clk.real / 1000000000⌋₊ = 1024 → dtEncode ns clk = none)) ∧
  (∀ (ns clk ns' clk' : NUM) (c c' : Byte), 0 ≤ ns.real → 0 < clk.real → 0 ≤ ns'.real →
    0 < clk'.real → ns.real * clk.real / 1000000000 ≤ ns'.real * clk'.real / 1000000000 →
    dtEncode ns clk = some c → dtEncode ns' clk' = some c' → dtDecode c ≤ dtDecode c') ∧
  (∀ c : Byte, (∃ r, r ≤ 1023 ∧ tickCode r = some c) ∧
    ∀ clk : NUM, 0 < clk.real →
      dtEncode ((NUM.rat (dtDecode c * 1000000000)).div clk) clk = some c)

/-- R137: the integer reading and the real reading of the encoder's formulas agree. -/
def Obligations.RealAndIntegerReadingsAgree : Prop :=
  (∀ (raw : NUM) (m k : Nat), 0 ≤ raw.real → 0 < m →
    (raw.real < 128 * k ↔ floorNat raw < 128 * k) ∧
    floorNat raw / m = floorNat (raw.div (.rat m))) ∧
  (∀ ns clk : NUM, 0 ≤ ns.real → 0 < clk.real →
    dtEncode ns clk = realTickCode (ns.real * clk.real / 1000000000))

/-- R138: `DTENC` gives the code and the compensation fraction, writes nothing else, and refuses, in
order, the halted state, a negative dead-time or non-positive clock, and 1024 ticks or more. -/
def Obligations.DtencEncodesDeadTime : Prop :=
  ∀ (s : State) (ns clk fsw : NUM), s.lanes.arg0.value = some ns →
    s.lanes.arg1.value = some clk → s.lanes.arg2.value = some fsw →
    (s.halted = true → turnsAway .dtenc s .fatalHwinit) ∧
    (s.halted = false →
      (0 ≤ ns.real → 0 < clk.real → ⌊ns.real * clk.real / 1000000000⌋₊ < 1024 →
        ∃ t code frac, exec .dtenc s = .next t ∧ dtEncode ns clk = some code ∧
          frac.real = ns.real * fsw.real / 1000000000 ∧
          portHolds t .ok code frac (.rat 0) (.rat 0) (.rat 0) ∧ sameInputs s t ∧ sameCalls s t ∧
          sameBanks s t) ∧
      (0 ≤ ns.real → 0 < clk.real → 1024 ≤ ⌊ns.real * clk.real / 1000000000⌋₊ →
        turnsAway .dtenc s .errDtRange) ∧
      (ns.real < 0 ∨ clk.real ≤ 0 → turnsAway .dtenc s .errValue))

/-! ### Register access -/

/-- R290: an address names a field exactly where the table of banks, indices and field numbers has
it; two addresses never name one field; any other address ends both commands with `ERR_ADDR` and no
effect. -/
def Obligations.AddressesFollowTheTable : Prop :=
  (∀ (p : Params) (addr : FieldAddr), (∃ c, resolve p addr = some c) ↔ legalAddr p addr) ∧
  (∀ (p : Params) (a b : FieldAddr) (c : Cell), resolve p a = some c → resolve p b = some c →
    a = b) ∧
  (∀ (s : State) (addr : FieldAddr), s.halted = false → ¬ legalAddr s.params addr →
    turnsAway (.rdf addr) s .errAddr ∧
    (∀ v, s.lanes.arg0.value = some v → turnsAway (.wrf addr) s .errAddr))

/-- R291, R292: a legal `WRF` replaces the one field it names, and nothing else; every other is
refused, in the order of the rule. A lane that is not a finite real is the matter of
NonFiniteLaneIsRefusedFirst. -/
def Obligations.WrfWritesOneField : Prop :=
  (∀ (s : State) (addr : FieldAddr) (v : NUM) (c : Cell), s.halted = false →
    s.lanes.arg0.value = some v → resolve s.params addr = some c → c.writable = true →
    c.accepts v →
    ∃ t, exec (.wrf addr) s = .next t ∧ (memRead t c).number = v ∧
      (∀ c', c' ≠ c → memRead t c' = memRead s c') ∧ portShows t .ok 0 0 0 0 0 ∧
      sameInputs s t ∧ sameCalls s t) ∧
  (∀ (s : State) (addr : FieldAddr) (v : NUM) (e : Status),
    s.lanes.arg0.value = some v → s.writeRefusal addr v e → turnsAway (.wrf addr) s e)

/-- R10, R291 to R294: a number that is no rational, as those that involve `TWO_PI`, is legal for
exactly the read-write NUM fields; `WRF` stores it exactly, so that `RDF` returns the number written,
not one near it. -/
def Obligations.TwoPiNumberIsReadBackExactly : Prop :=
  ∀ (s : State) (addr : FieldAddr) (v : NUM) (c : Cell), s.halted = false →
    s.lanes.arg0.value = some v → (∀ q, v ≠ .rat q) → resolve s.params addr = some c →
    (c.accepts v →
      ∃ t u, exec (.wrf addr) s = .next t ∧ exec (.rdf addr) t = .next u ∧
        portHolds u .ok 0 v (.rat 0) (.rat 0) (.rat 0) ∧ memRead t c = .num v ∧
        (∀ c', c' ≠ c → memRead t c' = memRead s c') ∧ sameInputs s u ∧ sameCalls s u) ∧
    (c.writable = false → turnsAway (.wrf addr) s .errRo) ∧
    (c.writable = true → ¬ c.accepts v → turnsAway (.wrf addr) s .errValue) ∧
    (c.writable = true → (c.accepts v ↔ ∃ q, memRead s c = .num q))

/-- R293, R294: `RDF` returns every field, as a number and, if it is an integer, its low 8 bits; it
has no other effect. -/
def Obligations.RdfReturnsTheField : Prop :=
  (∀ (s : State) (addr : FieldAddr) (c : Cell), s.halted = false →
    resolve s.params addr = some c →
    ∃ t, exec (.rdf addr) s = .next t ∧
      portHolds t .ok (memRead s c).lowByte (memRead s c).number (.rat 0) (.rat 0) (.rat 0) ∧
      sameInputs s t ∧ sameCalls s t ∧ sameBanks s t) ∧
  (∀ (s : State) (addr : FieldAddr), s.halted = true → turnsAway (.rdf addr) s .fatalHwinit) ∧
  (∀ (s : State) (addr : FieldAddr), s.halted = false → resolve s.params addr = none →
    turnsAway (.rdf addr) s .errAddr)

/-! ### The pair and channel driver -/

/-- R151 to R154: the first `TINIT` of an instance makes the four timer-base calls and writes the
timing of the slot; a later one has no effect; a call answered `fail` halts; every other is refused
without effect. -/
def Obligations.TinitConfiguresOnce : Prop :=
  (∀ (s : State) (u sl : Nat) (tm : Timing), s.halted = false → u ≤ 1 → sl < s.params.ncfg →
    (s.timAt u).init = false → slotTiming (s.params.timer u) (s.cfgAt sl) tm →
    (s.baseCallsOk →
      ∃ t, exec (.tinit u sl) s = .next t ∧
        t.timAt u =
          { s.timAt u with
            init := true
            align := (s.cfgAt sl).align
            fsw := (s.cfgAt sl).fsw
            period := tm.period
            dtEn := (s.cfgAt sl).dtEn
            dtNs := (s.cfgAt sl).dtNs
            dtCode := tm.code
            dutyDt := tm.comp } ∧
        (∀ m, m ≠ u → t.timAt m = s.timAt m) ∧
        calledOk s t (baseCalls u (s.params.timer u) (s.cfgAt sl).align tm) ∧
        portShows t .ok 0 0 0 0 0 ∧ sameInputs s t ∧ sameGlb s t ∧ sameCh s t ∧ sameCfg s t ∧
        sameLeg s t ∧ sameInv s t ∧ samePsfb s t ∧ sameVf s t) ∧
    (∀ j, s.baseCallFails j →
      ∃ t, exec (.tinit u sl) s = .next t ∧
        haltedAt s t (baseCalls u (s.params.timer u) (s.cfgAt sl).align tm) j)) ∧
  (∀ (s : State) (u sl : Nat), s.halted = false → u ≤ 1 → sl < s.params.ncfg →
    (s.timAt u).init = true →
    ∃ t, exec (.tinit u sl) s = .next t ∧ portShows t .ok 0 0 0 0 0 ∧ sameInputs s t ∧
      sameCalls s t ∧ sameBanks s t) ∧
  (∀ (s : State) (u sl : Nat) (e : Status), s.timerRefusal u sl e → turnsAway (.tinit u sl) s e) ∧
  (∀ (tp : TimerParams) (c : Slot), (∃ tm, slotTiming tp c tm) ↔ ∀ e, ¬ slotRefusal tp c e)

/-- R155, R157: `CFGPAIR` initialises the instance if it is the first caller, gives the two members
their roles and polarities, recomputes the slot's limits, and keeps the compare values; a timer-base
call answered `fail` halts with nothing of its own written; every other is refused without effect. -/
def Obligations.CfgpairConfiguresPair : Prop :=
  (∀ (s : State) (n sl : Nat), s.halted = false → sl < s.params.ncfg → 1 ≤ n →
    n ≤ s.params.npwm → n % 2 = 1 → (s.lazyTim (instOf s.params n) sl).init = true →
    (s.baseCallsOk ∨ (s.timAt (instOf s.params n)).init = true →
      ∃ t, exec (.cfgpair n sl) s = .next t ∧
        t.timAt (instOf s.params n) = s.lazyTim (instOf s.params n) sl ∧
        (∀ u, u ≠ instOf s.params n → t.timAt u = s.timAt u) ∧
        t.chAt n = { s.chAt n with
          role := .pairRef
          ocsel := decide ((t.timAt (instOf s.params n)).align = .edge) } ∧
        t.chAt (n + 1) = { s.chAt (n + 1) with
          role := .pairInv
          ocsel := decide ((t.timAt (instOf s.params n)).align = .center) } ∧
        (∀ m, m ≠ n → m ≠ n + 1 → t.chAt m = s.chAt m) ∧
        t.cfgAt sl = limitSlot (t.timAt (instOf s.params n)) true (s.cfgAt sl) ∧
        (∀ m, m ≠ sl → t.cfgAt m = s.cfgAt m) ∧
        calledOk s t (s.lazyCalls (instOf s.params n) sl) ∧ portShows t .ok 0 0 0 0 0 ∧
        sameInputs s t ∧ sameGlb s t ∧ sameLeg s t ∧ sameInv s t ∧ samePsfb s t ∧ sameVf s t) ∧
    (∀ j, s.baseCallFails j → (s.timAt (instOf s.params n)).init = false →
      ∃ t, exec (.cfgpair n sl) s = .next t ∧
        haltedAt s t (s.lazyCalls (instOf s.params n) sl) j)) ∧
  (∀ (s : State) (n sl : Nat) (e : Status), s.pairRefusal n sl e → turnsAway (.cfgpair n sl) s e)

/-- R156, R157: `CFGCH` does the same for one channel, odd or even, and never writes `MIN`. -/
def Obligations.CfgchConfiguresChannel : Prop :=
  (∀ (s : State) (n sl : Nat), s.halted = false → sl < s.params.ncfg → 1 ≤ n →
    n ≤ s.params.npwm → (s.lazyTim (instOf s.params n) sl).init = true →
    (s.baseCallsOk ∨ (s.timAt (instOf s.params n)).init = true →
      ∃ t, exec (.cfgch n sl) s = .next t ∧
        t.timAt (instOf s.params n) = s.lazyTim (instOf s.params n) sl ∧
        (∀ u, u ≠ instOf s.params n → t.timAt u = s.timAt u) ∧
        t.chAt n = { s.chAt n with
          role := .single
          ocsel := decide (n % 2 = 0) ^^
            decide ((t.timAt (instOf s.params n)).align = .edge) } ∧
        (∀ m, m ≠ n → t.chAt m = s.chAt m) ∧
        t.cfgAt sl = limitSlot (t.timAt (instOf s.params n)) false (s.cfgAt sl) ∧
        (t.cfgAt sl).min = (s.cfgAt sl).min ∧
        (∀ m, m ≠ sl → t.cfgAt m = s.cfgAt m) ∧
        calledOk s t (s.lazyCalls (instOf s.params n) sl) ∧ portShows t .ok 0 0 0 0 0 ∧
        sameInputs s t ∧ sameGlb s t ∧ sameLeg s t ∧ sameInv s t ∧ samePsfb s t ∧ sameVf s t) ∧
    (∀ j, s.baseCallFails j → (s.timAt (instOf s.params n)).init = false →
      ∃ t, exec (.cfgch n sl) s = .next t ∧
        haltedAt s t (s.lazyCalls (instOf s.params n) sl) j)) ∧
  (∀ (s : State) (n sl : Nat) (e : Status), s.channelRefusal n sl e →
    turnsAway (.cfgch n sl) s e)

/-- R158, R159: what a configuration makes of a slot's limits: a limit of 0 is unset; with dead-time
the upper limit is brought to 1 − fraction of the instance; a balanced pair's lower limit becomes
1 − `MAX` where `MAX` > 0.5; all else of the slot is kept. What R158 adds of the updates under a negative
`MAX` is not said here (log 20). -/
def Obligations.LimitsFollowTheRules : Prop :=
  ∀ (s t : State) (n sl : Nat) (pair : Bool), s.halted = false →
    exec (if pair then .cfgpair n sl else .cfgch n sl) s = .next t → t.status = .ok →
    ((t.timAt (instOf s.params n)).dtEn = true → (s.cfgAt sl).max.real = 0 →
      (t.cfgAt sl).max.real = 1 - (t.timAt (instOf s.params n)).dutyDt.real) ∧
    ((t.timAt (instOf s.params n)).dtEn = true → (s.cfgAt sl).max.real ≠ 0 →
      (t.cfgAt sl).max.real =
        min (s.cfgAt sl).max.real (1 - (t.timAt (instOf s.params n)).dutyDt.real)) ∧
    ((t.timAt (instOf s.params n)).dtEn = false → (s.cfgAt sl).max.real = 0 →
      (t.cfgAt sl).max.real = 1) ∧
    ((t.timAt (instOf s.params n)).dtEn = false → (s.cfgAt sl).max.real ≠ 0 →
      (t.cfgAt sl).max = (s.cfgAt sl).max) ∧
    (pair = true → (s.cfgAt sl).bal = true → 1 / 2 < (t.cfgAt sl).max.real →
      (t.cfgAt sl).min.real = 1 - (t.cfgAt sl).max.real) ∧
    ((pair = false ∨ (s.cfgAt sl).bal = false ∨ (t.cfgAt sl).max.real ≤ 1 / 2) →
      (t.cfgAt sl).min = (s.cfgAt sl).min) ∧
    { t.cfgAt sl with min := (s.cfgAt sl).min, max := (s.cfgAt sl).max } = s.cfgAt sl

/-- R160: running `CFGPAIR n, s` or `CFGCH n, s` twice in a row leaves the same state as running it
once; and a slot shared by pairs of two initialised instances with dead-time ends with `MAX` no
greater than the smaller of the two limits. -/
def Obligations.ConfigurationIsIdempotent : Prop :=
  (∀ (s t : State) (n sl : Nat) (pair : Bool), s.halted = false →
    exec (if pair then .cfgpair n sl else .cfgch n sl) s = .next t → t.status = .ok →
    ∃ u, exec (if pair then .cfgpair n sl else .cfgch n sl) t = .next u ∧ sameBanks t u ∧
      samePort t u ∧ sameCalls t u ∧ sameInputs t u) ∧
  (∀ (s t u : State) (n m sl : Nat), s.halted = false →
    exec (.cfgpair n sl) s = .next t → t.status = .ok →
    exec (.cfgpair m sl) t = .next u → u.status = .ok →
    (u.timAt (instOf s.params n)).dtEn = true → (u.timAt (instOf s.params m)).dtEn = true →
    (u.timAt (instOf s.params n)).dutyDt.real < 1 →
    (u.cfgAt sl).max.real ≤ 1 - (u.timAt (instOf s.params n)).dutyDt.real ∧
    (u.cfgAt sl).max.real ≤ 1 - (u.timAt (instOf s.params m)).dutyDt.real)

/-- R161, R163 to R169: `UPDPAIR` clamps the duty, adds the compensation, bypasses an exact 0, writes
one compare value to the shadow registers of both members, and returns the clamped duty; every other
is refused without effect. Under a negative `MAX` it is the pseudocode of R161 that decides, not the
remark in R158: a clamped duty that the compensation lifts to 0 or more, and a request that `MIN`
raises, are accepted (log 20). -/
def Obligations.UpdpairWritesBothShadows : Prop :=
  (∀ (s : State) (n sl : Nat) (duty : NUM), s.halted = false →
    s.lanes.arg0.value = some duty → s.pairAccepts n sl duty →
    ∃ t, exec (.updpair n sl) s = .next t ∧
      portHolds t .ok 0 (clampedDuty (s.cfgAt sl) duty) (.rat 0) (.rat 0) (.rat 0) ∧
      (∀ m, t.chAt m =
        if m = n ∨ m = n + 1 then { s.chAt m with cmps := s.pairCompare n sl duty }
        else s.chAt m) ∧
      sameInputs s t ∧ sameCalls s t ∧ sameGlb s t ∧ sameTim s t ∧ sameCfg s t ∧ sameLeg s t ∧
      sameInv s t ∧ samePsfb s t ∧ sameVf s t) ∧
  (∀ (s : State) (n sl : Nat) (duty : NUM) (e : Status), s.lanes.arg0.value = some duty →
    s.pairDutyRefusal n sl duty e → turnsAway (.updpair n sl) s e)

/-- R162 to R165, R167 to R169: `UPDCH` does the same for one channel configured alone, with no lower
limit and no parity test. A negative duty is accepted where the compensation lifts it to 0 or more
(log 20). -/
def Obligations.UpdchWritesOneShadow : Prop :=
  (∀ (s : State) (n sl : Nat) (duty : NUM), s.halted = false →
    s.lanes.arg0.value = some duty → s.channelAccepts n sl duty →
    ∃ t, exec (.updch n sl) s = .next t ∧
      portHolds t .ok 0 (clampHi duty (s.cfgAt sl).max) (.rat 0) (.rat 0) (.rat 0) ∧
      (∀ m, t.chAt m =
        if m = n then
          { s.chAt m with
            cmps := appliedCompare (s.timAt (instOf s.params n)) (s.cfgAt sl)
              (clampHi duty (s.cfgAt sl).max) }
        else s.chAt m) ∧
      sameInputs s t ∧ sameCalls s t ∧ sameGlb s t ∧ sameTim s t ∧ sameCfg s t ∧ sameLeg s t ∧
      sameInv s t ∧ samePsfb s t ∧ sameVf s t) ∧
  (∀ (s : State) (n sl : Nat) (duty : NUM) (e : Status), s.lanes.arg0.value = some duty →
    s.channelDutyRefusal n sl duty e → turnsAway (.updch n sl) s e)

/-- R165, R168, R173 (a): with `MIN` ≤ `MAX` an applied pair duty lies between them; an applied channel
duty never exceeds `MAX`; and with 0 ≤ `MIN` ≤ `MAX` ≤ 1 − compensation a configured pair accepts
every requested duty. -/
def Obligations.AppliedDutyStaysInLimits : Prop :=
  (∀ (s t : State) (n sl : Nat), exec (.updpair n sl) s = .next t → t.status = .ok →
    (s.cfgAt sl).min.real ≤ (s.cfgAt sl).max.real →
    (s.cfgAt sl).min.real ≤ t.res0.real ∧ t.res0.real ≤ (s.cfgAt sl).max.real) ∧
  (∀ (s t : State) (n sl : Nat), exec (.updch n sl) s = .next t → t.status = .ok →
    t.res0.real ≤ (s.cfgAt sl).max.real) ∧
  (∀ (s : State) (n sl : Nat) (duty : NUM), s.halted = false →
    s.lanes.arg0.value = some duty → sl < s.params.ncfg → 1 ≤ n → n ≤ s.params.npwm →
    n % 2 = 1 → (s.timAt (instOf s.params n)).init = true → (s.chAt n).role = .pairRef →
    0 ≤ (s.cfgAt sl).min.real → (s.cfgAt sl).min.real ≤ (s.cfgAt sl).max.real →
    (s.cfgAt sl).max.real ≤ 1 - (compOf (s.timAt (instOf s.params n)) (s.cfgAt sl)).real →
    0 ≤ (compOf (s.timAt (instOf s.params n)) (s.cfgAt sl)).real →
    ∃ t, exec (.updpair n sl) s = .next t ∧ t.status = .ok)

/-- R170: an enabling `CFGIRQ` with a legal id replaces the callback, with the null id it is a no-op,
and a disabling one clears the callback; a reserved id and a bad instance are refused. -/
def Obligations.CfgirqSetsTheCallback : Prop :=
  (∀ (s : State) (u : Nat) (cb : Byte) (prio : Nibble), s.halted = false → u ≤ 1 →
    (1 ≤ cb.toNat ∧ cb.toNat ≤ s.params.nvf ∨ 0x80 ≤ cb.toNat) →
    ∃ t, exec (.cfgirq u cb prio true) s = .next t ∧
      t.timAt u = { s.timAt u with cb := cb, cbPrio := prio } ∧
      (∀ m, m ≠ u → t.timAt m = s.timAt m) ∧ calledOk s t [.irqConfig u true prio] ∧
      portShows t .ok 0 0 0 0 0 ∧ sameInputs s t ∧ sameGlb s t ∧ sameCh s t ∧ sameCfg s t ∧
      sameLeg s t ∧ sameInv s t ∧ samePsfb s t ∧ sameVf s t) ∧
  (∀ (s : State) (u : Nat) (prio : Nibble), s.halted = false → u ≤ 1 →
    ∃ t, exec (.cfgirq u 0 prio true) s = .next t ∧ portShows t .ok 0 0 0 0 0 ∧
      sameInputs s t ∧ sameCalls s t ∧ sameBanks s t) ∧
  (∀ (s : State) (u : Nat) (cb : Byte) (prio : Nibble), s.halted = false → u ≤ 1 →
    ∃ t, exec (.cfgirq u cb prio false) s = .next t ∧
      t.timAt u = { s.timAt u with cb := 0 } ∧ (∀ m, m ≠ u → t.timAt m = s.timAt m) ∧
      calledOk s t [.irqConfig u false 0] ∧
      portShows t .ok 0 0 0 0 0 ∧ sameInputs s t ∧ sameGlb s t ∧ sameCh s t ∧ sameCfg s t ∧
      sameLeg s t ∧ sameInv s t ∧ samePsfb s t ∧ sameVf s t) ∧
  (∀ (s : State) (u : Nat) (cb : Byte) (prio : Nibble) (e : Bool),
    (s.halted = true → turnsAway (.cfgirq u cb prio e) s .fatalHwinit) ∧
    (s.halted = false → 1 < u → turnsAway (.cfgirq u cb prio e) s .errIndex) ∧
    (s.halted = false → u ≤ 1 → e = true → s.params.nvf < cb.toNat → 1 ≤ cb.toNat →
      cb.toNat < 0x80 → turnsAway (.cfgirq u cb prio e) s .errValue))

/-- R172: `PER_ELAPSED[u]` has no effect while CORE is halted or the instance un-initialised; else it
commits the shadows of all channels of the instance, then runs the callback: none, one `VFSTEP`
whose status is discarded, or an external call. The result port is not touched. That an external
callback which never returns leaves no further transition is the model's reading of U6 and R346 (log
13); that a list of call numbers in the environment tells which one it is, its choice (log 3). -/
def Obligations.PeriodEventCommitsThenCallsBack : Prop :=
  ∀ (s : State) (u : Fin 2) (rest : List Event), s.inbox = .perElapsed u :: rest →
    (s.halted = true ∨ (s.timAt u.val).init = false → step s = .next { s with inbox := rest }) ∧
    (s.halted = false → (s.timAt u.val).init = true →
      ∃ c : State,
        (∀ n, c.chAt n =
          if 1 ≤ n ∧ n ≤ s.params.npwm ∧ instOf s.params n = u.val then
            { s.chAt n with cmpa := (s.chAt n).cmps }
          else s.chAt n) ∧
        c.params = s.params ∧ c.env = s.env ∧ c.inbox = rest ∧ c.lanes = s.lanes ∧
        sameCalls s c ∧ sameGlb s c ∧ sameTim s c ∧ sameCfg s c ∧ sameLeg s c ∧ sameInv s c ∧
        samePsfb s c ∧ sameVf s c ∧ samePort s c ∧
        ((s.timAt u.val).cb = 0 → step s = .next c) ∧
        ((s.timAt u.val).cb ≠ 0 → (s.timAt u.val).cb.toNat ≤ s.params.nvf →
          ∃ t v, step s = .next t ∧
            exec (.vfstep ((s.timAt u.val).cb.toNat - 1)) c = .next v ∧
            sameBanks v t ∧ sameCalls v t ∧ sameInputs v t ∧ samePort s t) ∧
        (s.params.nvf < (s.timAt u.val).cb.toNat →
          (s.callNo ∉ s.env.callbackHangs →
            ∃ t, step s = .next t ∧ calledOk c t [.callback u.val (s.timAt u.val).cb] ∧
              sameBanks c t ∧ sameInputs c t ∧ samePort c t) ∧
          (s.callNo ∈ s.env.callbackHangs →
            step s = .fault (.callbackNeverReturned u.val (s.timAt u.val).cb))))

/-! ### Legs -/

/-- R201, R314: `CFGLEG` configures the pairs of the leg, with the timer-base calls of each instance it
is the first to initialise, marks the four pins of a TNPC leg, stores and returns the capability; the
leg's `STATE` is not touched. Where its first pair is refused it has no effect; where the second is
refused, the first stays configured and the capability is not stored; where a timer-base call fails,
the pairs before it stay configured and CORE halts. -/
def Obligations.CfglegResolvesCapability : Prop :=
  (∀ (s : State) (l : Nat), s.halted = false → s.params.valid = true → l < s.params.nleg →
    ((s.legAt l).kind = .tnpc → (s.legAt l).pin.toNat + 3 ≤ s.params.npwm) →
    s.pairsReady (s.legRefs l) → s.callsAnswered (s.legsCalls [] [l]) →
    ∃ t, exec (.cfgleg l) s = .next t ∧
      t.legAt l = { s.legAt l with cap := capOf (s.legAt l).kind } ∧
      (∀ m, m ≠ l → t.legAt m = s.legAt m) ∧ pairsConfigured s t (s.legRefs l) ∧
      calledOk s t (s.legsCalls [] [l]) ∧
      portShows t .ok (match (s.legAt l).kind with | .default => 1 | .tnpc => 2) 0 0 0 0 ∧
      sameInputs s t ∧ sameGlb s t ∧ sameInv s t ∧ samePsfb s t ∧ sameVf s t) ∧
  (∀ (s : State) (l : Nat) (e : Status), s.legRefusal l e →
    turnsAway (.cfgleg l) s e) ∧
  (∀ (s : State) (l : Nat) (e : Status), s.halted = false → s.params.valid = true →
    l < s.params.nleg → (s.legAt l).kind = .tnpc → (s.legAt l).pin.toNat + 3 ≤ s.params.npwm →
    s.pairsReady [((s.legAt l).pin.toNat, l)] →
    s.callsAnswered (s.refsCalls [] [((s.legAt l).pin.toNat, l)]) →
    instOf s.params ((s.legAt l).pin.toNat + 2) ≠ instOf s.params (s.legAt l).pin.toNat →
    s.pairRefusal ((s.legAt l).pin.toNat + 2) l e →
    ∃ t, exec (.cfgleg l) s = .next t ∧ portShows t e 0 0 0 0 0 ∧
      pairsConfigured s t [((s.legAt l).pin.toNat, l)] ∧
      calledOk s t (s.refsCalls [] [((s.legAt l).pin.toNat, l)]) ∧ sameInputs s t ∧ sameGlb s t ∧
      sameLeg s t ∧ sameInv s t ∧ samePsfb s t ∧ sameVf s t) ∧
  (∀ (s : State) (l : Nat) (before after : List (Nat × Nat)) (r : Nat × Nat) (j : Nat),
    s.halted = false → s.params.valid = true → l < s.params.nleg →
    ((s.legAt l).kind = .tnpc → (s.legAt l).pin.toNat + 3 ≤ s.params.npwm) →
    s.legRefs l = before ++ r :: after → s.pairsReady (before ++ [r]) →
    s.callsAnswered (s.refsCalls [] before) → ¬ onInstance s.params before (instOf s.params r.1) →
    (s.timAt (instOf s.params r.1)).init = false →
    s.laterBaseCallFails (s.refsCalls [] before).length j →
    ∃ t, exec (.cfgleg l) s = .next t ∧ pairsHaltedAt s t before r j)

/-- R207, R208: `ENLEG` makes one masked output-enable call for all pins of the leg, gives their bits
of `OEN` the enable value and keeps the others, and sets the leg's `STATE`. -/
def Obligations.EnlegWritesOneMask : Prop :=
  (∀ (s : State) (l : Nat) (e : Bool), s.halted = false → s.legEnables l →
    ∃ t, exec (.enleg l e) s = .next t ∧ legsEnabled s t [l] e ∧
      calledOk s t [.setOutputsEnabled
        (legMask (s.legAt l).pin.toNat (legWidth (s.legAt l).kind)) e] ∧
      portShows t .ok 0 0 0 0 0 ∧ sameInputs s t ∧ sameTim s t ∧ sameCh s t ∧ sameCfg s t ∧
      sameInv s t ∧ samePsfb s t ∧ sameVf s t) ∧
  (∀ (s : State) (l : Nat) (e : Bool) (x : Status), s.enableRefusal l x →
    turnsAway (.enleg l e) s x) ∧
  (legWidth .default = 2 ∧ legWidth .tnpc = 4) ∧
  (∀ p w b : Nat, 1 ≤ p → b < 255 →
    (legMask p w).getLsbD b = decide (p ≤ b + 1 ∧ b + 1 ≤ p + w - 1))

/-- R204 to R206: `CAPUPD` goes by the cached capability: none is refused, a single pair is one pair
update, a TNPC leg is the split over two pair updates that returns the pre-split duty; where the
second of them is refused, the first keeps its new compare value. -/
def Obligations.CapupdGoesByCapability : Prop :=
  (∀ (s : State) (l : Nat) (duty : NUM), s.halted = false → s.lanes.arg0.value = some duty →
    s.legAccepts l duty →
    ∃ t, exec (.capupd l) s = .next t ∧ portHolds t .ok 0 (s.legApplied l duty) (.rat 0) (.rat 0) (.rat 0) ∧
      shadowsWritten s t (s.legWrites l duty) ∧ sameInputs s t ∧ sameCalls s t ∧ sameGlb s t ∧
      sameTim s t ∧ sameCfg s t ∧ sameLeg s t ∧ sameInv s t ∧ samePsfb s t ∧ sameVf s t) ∧
  (∀ (s : State) (l : Nat) (duty : NUM), s.lanes.arg0.value = some duty →
    (s.halted = true → turnsAway (.capupd l) s .fatalHwinit) ∧
    (s.halted = false → s.params.nleg ≤ l → turnsAway (.capupd l) s .errIndex)) ∧
  (∀ (s : State) (l : Nat) (duty : NUM), s.halted = false → s.lanes.arg0.value = some duty →
    l < s.params.nleg →
    ((s.legAt l).cap = .none → turnsAway (.capupd l) s .errNotInit) ∧
    ((s.legAt l).cap = .singlePair →
      exec (.capupd l) s = exec (.updpair (s.legAt l).pin.toNat l) s) ∧
    (∀ e, (s.legAt l).cap = .tnpcSplit →
      s.pairDutyRefusal (s.legAt l).pin.toNat l (tnpcSplit duty).1 e →
      turnsAway (.capupd l) s e) ∧
    (∀ e, (s.legAt l).cap = .tnpcSplit →
      s.pairAccepts (s.legAt l).pin.toNat l (tnpcSplit duty).1 →
      s.pairDutyRefusal ((s.legAt l).pin.toNat + 2) l (tnpcSplit duty).2 e →
      ∃ t, exec (.capupd l) s = .next t ∧ portShows t e 0 0 0 0 0 ∧
        shadowsWritten s t [((s.legAt l).pin.toNat,
          s.pairCompare (s.legAt l).pin.toNat l (tnpcSplit duty).1)] ∧
        sameInputs s t ∧ sameCalls s t ∧ sameGlb s t ∧ sameTim s t ∧ sameCfg s t ∧
        sameLeg s t ∧ sameInv s t ∧ samePsfb s t ∧ sameVf s t))

/-- R202, R203, R210 (a), (b): the split of a leg duty into the duties of two pairs: the table of
exact values, the closed forms, and the ranges. -/
def Obligations.TnpcSplitIsExact : Prop :=
  (tnpcSplit (.rat 0) = (.rat 0, .rat 0) ∧ tnpcSplit (.rat (1 / 4)) = (.rat 0, .rat (1 / 2)) ∧
    tnpcSplit (.rat (1 / 2)) = (.rat 0, .rat 1) ∧
    tnpcSplit (.rat (3 / 4)) = (.rat (1 / 2), .rat 1) ∧ tnpcSplit (.rat 1) = (.rat 1, .rat 1)) ∧
  (tnpcDistance (.rat 0) = .rat 1 ∧ tnpcDistance (.rat (1 / 4)) = .rat (1 / 2) ∧
    tnpcDistance (.rat (1 / 2)) = .rat 0 ∧ tnpcDistance (.rat (3 / 4)) = .rat (1 / 2) ∧
    tnpcDistance (.rat 1) = .rat 1) ∧
  (∀ d : NUM, (tnpcDistance d).real = |d.real - 1 / 2| * 2) ∧
  (∀ d : NUM, d.real < 1 / 2 → (tnpcSplit d).1 = .rat 0 ∧
    (tnpcSplit d).2.real = 1 - (tnpcDistance d).real ∧ (tnpcSplit d).2.real = 2 * d.real) ∧
  (∀ d : NUM, 1 / 2 ≤ d.real → (tnpcSplit d).1 = tnpcDistance d ∧
    (tnpcSplit d).1.real = 2 * d.real - 1 ∧ (tnpcSplit d).2 = .rat 1) ∧
  (∀ d : NUM, 0 ≤ (tnpcSplit d).1.real ∧ (tnpcSplit d).2.real ≤ 1 ∧
    (tnpcSplit d).1.real + (tnpcSplit d).2.real = 2 * d.real) ∧
  (∀ d : NUM, 0 ≤ d.real → d.real ≤ 1 → (tnpcSplit d).1.real ≤ (tnpcSplit d).2.real)

/-! ### Inverter and full bridge -/

/-- R220, R225 to R227: `INVINIT` configures every leg and gives it its 50%, drives the disable pins
low, latches the duplicate flag, disables every leg, and marks the inverter initialised and
inactive. R314: where a leg's `CFGLEG` or its 50% update fails, `INVINIT` ends as that command does in
the state with the earlier legs configured and at 50% (what it leaves: CfglegResolvesCapability,
CapupdGoesByCapability); no failure touches a disable pin, an output, a `STATE` or `INIT`. -/
def Obligations.InvinitStartsInverter : Prop :=
  (∀ (s : State) (u : Nat), s.halted = false → s.params.valid = true → u < s.params.ninv →
    ¬ (s.invAt u).disablePinsOverrun → s.legsStart (invLegs u (s.invAt u).dupEn) →
    s.callsAnswered (s.legsCalls [] (invLegs u (s.invAt u).dupEn)) →
    ∃ t, exec (.invinit u) s = .next t ∧ portShows t .ok 0 0 0 0 0 ∧
      legsStarted s t (invLegs u (s.invAt u).dupEn) ∧
      t.invAt u = { s.invAt u with state := .inactive, init := true, dup := (s.invAt u).dupEn } ∧
      (∀ m, m ≠ u → t.invAt m = s.invAt m) ∧ sameInputs s t ∧ samePsfb s t ∧ sameVf s t ∧
      calledOk s t (s.legsCalls [] (invLegs u (s.invAt u).dupEn) ++
        (disablePins (s.invAt u)).map (fun q => .setPinAsDigitalOutput q 0) ++
        (invLegs u (s.invAt u).dupEn).map (fun l => s.enableCall l false))) ∧
  (∀ (s : State) (u : Nat) (before after : List Nat) (l : Nat), s.halted = false →
    s.params.valid = true → u < s.params.ninv → ¬ (s.invAt u).disablePinsOverrun →
    (∀ x, ¬ s.firstPinFault legWidth (invLegs u (s.invAt u).dupEn) x) →
    invLegs u (s.invAt u).dupEn = before ++ l :: after → s.legsStart before →
    s.callsAnswered (s.legsCalls [] before) →
    ∃ c v, legsBegun s c before ∧ exec (.cfgleg l) c = .next v ∧
      (v.status ≠ .ok → exec (.invinit u) s = .next v) ∧
      (v.status = .ok → ∃ w, exec (.capupd l) (v.withDuty (.rat (1 / 2))) = .next w ∧
        (w.status ≠ .ok → exec (.invinit u) s = .next { w with lanes := s.lanes }))) ∧
  (∀ (s t : State) (u : Nat), s.params.valid = true → exec (.invinit u) s = .next t →
    t.status ≠ .ok → stoppedBeforeEnable s t)

/-- R221: the legs of an inverter, and its validation: the first leg in order whose pin is out of
range or even decides the status, then a disable-pin range past pin 255 is refused; no refusal has
an effect. -/
def Obligations.InvinitValidatesFirst : Prop :=
  (∀ (s : State) (u : Nat) (e : Status), s.inverterRefusal u e → turnsAway (.invinit u) s e) ∧
  (∀ u : Nat, invLegs u false = [4 * u, 4 * u + 1, 4 * u + 2] ∧
    invLegs u true = [4 * u, 4 * u + 1, 4 * u + 2, 4 * u + 3])

/-- R222: `INVUPD` updates its legs in the order 0, 1, 2, duplicate, the duplicate with the requested
duty of the third leg, and returns the applied duties; no output enable and no `STATE` changes. R314:
where a leg refuses its duty, the command ends with its status, and the writes of the earlier legs
remain. -/
def Obligations.InvupdUpdatesLegsInOrder : Prop :=
  (∀ (s : State) (u : Nat) (d0 d1 d2 : NUM), s.halted = false →
    s.lanes.arg0.value = some d0 → s.lanes.arg1.value = some d1 → s.lanes.arg2.value = some d2 →
    s.inverterAccepts u d0 d1 d2 →
    ∃ t, exec (.invupd u) s = .next t ∧ inverterReports s t u d0 d1 d2 ∧
      shadowsWritten s t (s.inverterWrites u d0 d1 d2) ∧ sameInputs s t ∧ sameCalls s t ∧
      sameGlb s t ∧ sameTim s t ∧ sameCfg s t ∧ sameLeg s t ∧ sameInv s t ∧ samePsfb s t ∧
      sameVf s t) ∧
  (∀ (s : State) (u : Nat) (d0 d1 d2 d : NUM) (before after : List (Nat × NUM)) (l : Nat)
      (writes : List (Nat × Nat)) (e : Status), s.halted = false →
    s.lanes.arg0.value = some d0 → s.lanes.arg1.value = some d1 → s.lanes.arg2.value = some d2 →
    u < s.params.ninv → (s.invAt u).init = true →
    s.inverterUpdates u d0 d1 d2 = before ++ (l, d) :: after →
    (∀ r ∈ before, s.legAccepts r.1 r.2) → s.legDutyRefusal l d writes e →
    ∃ t, exec (.invupd u) s = .next t ∧ portShows t e 0 0 0 0 0 ∧
      shadowsWritten s t (s.dutyWrites before ++ writes) ∧ sameInputs s t ∧ sameCalls s t ∧
      sameGlb s t ∧ sameTim s t ∧ sameCfg s t ∧ sameLeg s t ∧ sameInv s t ∧ samePsfb s t ∧
      sameVf s t)

/-- R223, R224: `INVSPWM` makes one call of the sinusoidal generator and updates the inverter with its
three answers, whatever they are. R314: where a leg refuses its duty, the command ends with its
status; the call stays in the trace, and the writes of the earlier legs remain. -/
def Obligations.InvspwmAppliesTheGenerator : Prop :=
  (∀ (s : State) (u : Nat) (dir : Direction) (theta mi : NUM) (a b c : NUM), s.halted = false →
    s.lanes.arg0.value = some theta → s.lanes.arg1.value = some mi →
    s.spwm theta mi dir = (a, b, c) → s.inverterAccepts u a b c →
    ∃ t, exec (.invspwm u dir) s = .next t ∧ inverterReports s t u a b c ∧
      shadowsWritten s t (s.inverterWrites u a b c) ∧
      t.ext = s.ext ++ [⟨.spwm theta mi dir, .duties a b c⟩] ∧ t.callNo = s.callNo + 1 ∧
      sameInputs s t ∧ sameGlb s t ∧ sameTim s t ∧ sameCfg s t ∧ sameLeg s t ∧ sameInv s t ∧
      samePsfb s t ∧ sameVf s t) ∧
  (∀ (s : State) (u : Nat) (dir : Direction) (theta mi : NUM) (a b c d : NUM)
      (before after : List (Nat × NUM)) (l : Nat) (writes : List (Nat × Nat)) (e : Status),
    s.halted = false → s.lanes.arg0.value = some theta → s.lanes.arg1.value = some mi →
    u < s.params.ninv → (s.invAt u).init = true → s.spwm theta mi dir = (a, b, c) →
    s.inverterUpdates u a b c = before ++ (l, d) :: after →
    (∀ r ∈ before, s.legAccepts r.1 r.2) → s.legDutyRefusal l d writes e →
    ∃ t, exec (.invspwm u dir) s = .next t ∧ portShows t e 0 0 0 0 0 ∧
      shadowsWritten s t (s.dutyWrites before ++ writes) ∧
      t.ext = s.ext ++ [⟨.spwm theta mi dir, .duties a b c⟩] ∧ t.callNo = s.callNo + 1 ∧
      sameInputs s t ∧ sameGlb s t ∧ sameTim s t ∧ sameCfg s t ∧ sameLeg s t ∧ sameInv s t ∧
      samePsfb s t ∧ sameVf s t)

/-- R226: `INVACT` makes one masked write for each leg, in order, and sets the aggregate state. R314:
where a leg's `ENLEG` is refused, the command ends with its status, the earlier legs stay switched,
and the aggregate state is unchanged. -/
def Obligations.InvactSwitchesEveryLeg : Prop :=
  (∀ (s : State) (u : Nat) (e : Bool), s.halted = false → u < s.params.ninv →
    (s.invAt u).init = true → (∀ l ∈ s.inverterLegs u, s.legEnables l) →
    ∃ t, exec (.invact u e) s = .next t ∧ portShows t .ok 0 0 0 0 0 ∧
      legsEnabled s t (s.inverterLegs u) e ∧
      t.invAt u = { s.invAt u with state := if e then .active else .inactive } ∧
      (∀ m, m ≠ u → t.invAt m = s.invAt m) ∧
      calledOk s t ((s.inverterLegs u).map fun l => s.enableCall l e) ∧ sameInputs s t ∧
      sameTim s t ∧ sameCh s t ∧ sameCfg s t ∧ samePsfb s t ∧ sameVf s t) ∧
  (∀ (s : State) (u : Nat) (e : Bool) (before after : List Nat) (l : Nat) (x : Status),
    s.halted = false → u < s.params.ninv → (s.invAt u).init = true →
    s.inverterLegs u = before ++ l :: after → (∀ m ∈ before, s.legEnables m) →
    s.enableRefusal l x →
    ∃ t, exec (.invact u e) s = .next t ∧ portShows t x 0 0 0 0 0 ∧ legsEnabled s t before e ∧
      calledOk s t (before.map fun m => s.enableCall m e) ∧ sameInputs s t ∧ sameTim s t ∧
      sameCh s t ∧ sameCfg s t ∧ sameInv s t ∧ samePsfb s t ∧ sameVf s t)

/-- R230: `PSFBINIT` configures its two Default legs at 50%, disables them, and marks the bridge
initialised and inactive; a bad pin, then a TNPC leg, is refused without effect. R314: where a leg's
`CFGLEG` or its 50% update fails, `PSFBINIT` ends as that command does in the state with the earlier
leg configured and at 50%; no failure touches an output, a `STATE` or `INIT`. -/
def Obligations.PsfbinitStartsBridge : Prop :=
  (∀ (s : State) (j : Nat), s.halted = false → s.params.valid = true → j < s.params.npsfb →
    (∀ l ∈ psfbLegs s.params j, (s.legAt l).kind = .default) →
    s.legsStart (psfbLegs s.params j) → s.callsAnswered (s.legsCalls [] (psfbLegs s.params j)) →
    ∃ t, exec (.psfbinit j) s = .next t ∧ portShows t .ok 0 0 0 0 0 ∧
      legsStarted s t (psfbLegs s.params j) ∧
      t.psfbAt j = { s.psfbAt j with state := .inactive, init := true } ∧
      (∀ m, m ≠ j → t.psfbAt m = s.psfbAt m) ∧ sameInputs s t ∧ sameInv s t ∧ sameVf s t ∧
      calledOk s t (s.legsCalls [] (psfbLegs s.params j) ++
        (psfbLegs s.params j).map (fun l => s.enableCall l false))) ∧
  (∀ (s : State) (j : Nat) (before after : List Nat) (l : Nat), s.halted = false →
    s.params.valid = true → j < s.params.npsfb →
    (∀ x, ¬ s.firstPinFault (fun _ => 2) (psfbLegs s.params j) x) →
    (∀ m ∈ psfbLegs s.params j, (s.legAt m).kind = .default) →
    psfbLegs s.params j = before ++ l :: after → s.legsStart before →
    s.callsAnswered (s.legsCalls [] before) →
    ∃ c v, legsBegun s c before ∧ exec (.cfgleg l) c = .next v ∧
      (v.status ≠ .ok → exec (.psfbinit j) s = .next v) ∧
      (v.status = .ok → ∃ w, exec (.capupd l) (v.withDuty (.rat (1 / 2))) = .next w ∧
        (w.status ≠ .ok → exec (.psfbinit j) s = .next { w with lanes := s.lanes }))) ∧
  (∀ (s t : State) (j : Nat), s.params.valid = true → exec (.psfbinit j) s = .next t →
    t.status ≠ .ok → stoppedBeforeEnable s t) ∧
  (∀ (s : State) (j : Nat) (e : Status), s.bridgeRefusal j e → turnsAway (.psfbinit j) s e) ∧
  (∀ (p : Params) (j : Nat), psfbLegs p j = [4 * p.ninv + 2 * j, 4 * p.ninv + 2 * j + 1])

/-- R231, R232, R234 (b): `PSFBUPD` forwards half the duty, not clamped, to the second leg's reference
pin, returns it, and writes no register. -/
def Obligations.PsfbupdForwardsHalfTheDuty : Prop :=
  (∀ (s : State) (j : Nat) (duty : NUM), s.halted = false → s.lanes.arg0.value = some duty →
    j < s.params.npsfb → (s.psfbAt j).init = true →
    ∃ t half, exec (.psfbupd j) s = .next t ∧
      half.real = duty.real / 2 ∧ portHolds t .ok 0 half (.rat 0) (.rat 0) (.rat 0) ∧
      calledOk s t
        [.setPhaseShift (s.legAt (4 * s.params.ninv + 2 * j + 1)).pin.toNat half] ∧
      sameInputs s t ∧ sameBanks s t) ∧
  (∀ (s : State) (j : Nat) (duty : NUM), s.lanes.arg0.value = some duty →
    (s.halted = true → turnsAway (.psfbupd j) s .fatalHwinit) ∧
    (s.halted = false → s.params.npsfb ≤ j → turnsAway (.psfbupd j) s .errIndex) ∧
    (s.halted = false → j < s.params.npsfb → (s.psfbAt j).init = false →
      turnsAway (.psfbupd j) s .errNotInit))

/-- R233: `PSFBACT` makes two masked writes, first leg then second leg, and sets the bridge's
state. R314: where a leg's `ENLEG` is refused, the command ends with its status, an earlier leg stays
switched, and the bridge's state is unchanged. -/
def Obligations.PsfbactSwitchesBothLegs : Prop :=
  (∀ (s : State) (j : Nat) (e : Bool), s.halted = false → j < s.params.npsfb →
    (s.psfbAt j).init = true → (∀ l ∈ psfbLegs s.params j, s.legEnables l) →
    ∃ t, exec (.psfbact j e) s = .next t ∧ portShows t .ok 0 0 0 0 0 ∧
      legsEnabled s t (psfbLegs s.params j) e ∧
      t.psfbAt j = { s.psfbAt j with state := if e then .active else .inactive } ∧
      (∀ m, m ≠ j → t.psfbAt m = s.psfbAt m) ∧
      calledOk s t ((psfbLegs s.params j).map fun l => s.enableCall l e) ∧ sameInputs s t ∧
      sameTim s t ∧ sameCh s t ∧ sameCfg s t ∧ sameInv s t ∧ sameVf s t) ∧
  (∀ (s : State) (j : Nat) (e : Bool) (before after : List Nat) (l : Nat) (x : Status),
    s.halted = false → j < s.params.npsfb → (s.psfbAt j).init = true →
    psfbLegs s.params j = before ++ l :: after → (∀ m ∈ before, s.legEnables m) →
    s.enableRefusal l x →
    ∃ t, exec (.psfbact j e) s = .next t ∧ portShows t x 0 0 0 0 0 ∧ legsEnabled s t before e ∧
      calledOk s t (before.map fun m => s.enableCall m e) ∧ sameInputs s t ∧ sameTim s t ∧
      sameCh s t ∧ sameCfg s t ∧ sameInv s t ∧ samePsfb s t ∧ sameVf s t)

/-! ### The ramp controller -/

/-- R6, R10, R13: a number of the model is an exact real, `TWO_PI` is 2π, and no real is held in two
ways; sums, differences, products, quotients, comparisons and floors of numbers are those of the reals;
and the angle of a step is the real remainder `(THETA + TWO_PI × f / PWM_FREQ) rmod TWO_PI`. -/
def Obligations.NumbersAreExactReals : Prop :=
  (TWO_PI.real = 2 * Real.pi ∧ ∀ q : Ratio, (NUM.rat q).real = q) ∧
  (∀ x y : NUM, x.real = y.real → x = y) ∧
  (∀ x y : NUM, (x.add y).real = x.real + y.real ∧ (x.sub y).real = x.real - y.real ∧
    (x.mul y).real = x.real * y.real ∧ (y.real ≠ 0 → (x.div y).real = x.real / y.real) ∧
    x.half.real = x.real / 2 ∧ (x.lt y = true ↔ x.real < y.real) ∧
    (x.le y = true ↔ x.real ≤ y.real) ∧ x.floor = ⌊x.real⌋) ∧
  (∀ (v : Vf) (x : ℝ), 0 < v.pwmFreq.real →
    x = v.theta.real + 2 * Real.pi * v.curFreq.real / v.pwmFreq.real →
    (nextTheta v).real = x - 2 * Real.pi * (⌊x / (2 * Real.pi)⌋ : ℝ) ∧
    (NUM.rat 0).le (nextTheta v) ∧ (nextTheta v).lt TWO_PI)

/-- R261: `VFINIT` puts a controller with a usable configuration at frequency 0, angle 0, inactive,
with the requested direction, and touches nothing else; every other is refused without effect. -/
def Obligations.VfinitStartsController : Prop :=
  (∀ (s : State) (k : Nat), s.halted = false → k < s.params.nvf →
    (s.vfAt k).inv.toNat < s.params.ninv → (s.vfAt k).configured →
    ∃ t, exec (.vfinit k) s = .next t ∧ portShows t .ok 0 0 0 0 0 ∧
      t.vfAt k =
        { s.vfAt k with
          curFreq := .rat 0
          theta := .rat 0
          curState := .inactive
          reqState := .inactive
          curDir := (s.vfAt k).reqDir
          init := true } ∧
      (∀ m, m ≠ k → t.vfAt m = s.vfAt m) ∧ sameInputs s t ∧ sameCalls s t ∧ sameGlb s t ∧
      sameTim s t ∧ sameCh s t ∧ sameCfg s t ∧ sameLeg s t ∧ sameInv s t ∧ samePsfb s t) ∧
  (∀ (s : State) (k : Nat) (e : Status), s.rampInitRefusal k e → turnsAway (.vfinit k) s e)

/-- R262 to R268: one step of the controller: exactly one of activation, direction and tracking, a
commit exactly when the ramp reaches 0, then the advance of the angle and one sinusoidal update of
the inverter with the new angle, index and direction. R314: where the commit's `INVACT` fails, only the
frequency of the controller is updated, and the earlier legs stay switched; where the update fails,
the whole record is updated, a commit stands, the generator's call stays in the trace, and the writes
of the earlier legs remain. -/
def Obligations.VfstepRunsOneCycle : Prop :=
  (∀ (s : State) (k : Nat) (v w : Vf) (i : Nat) (a b c : NUM), s.halted = false →
    k < s.params.nvf → v = s.vfAt k → v.init = true → i = v.inv.toNat → i < s.params.ninv →
    v.configured → w = v.stepped →
    s.spwm w.theta v.nextMi w.curDir = (a, b, c) →
    (v.commitsState = true → ∀ l ∈ s.inverterLegs i, s.legEnables l) →
    s.inverterAccepts i a b c →
    ∃ t, exec (.vfstep k) s = .next t ∧
      portHolds t .ok 0 w.curFreq v.nextMi w.theta (.rat 0) ∧
      t.vfAt k = w ∧ (∀ m, m ≠ k → t.vfAt m = s.vfAt m) ∧
      (∀ m, m ≠ i → t.invAt m = s.invAt m) ∧
      (v.commitsState = true →
        legsEnabled s t (s.inverterLegs i) v.reqState.flag ∧
        t.invAt i = { s.invAt i with state := v.reqState }) ∧
      (v.commitsState = false → sameGlb s t ∧ sameLeg s t ∧ t.invAt i = s.invAt i) ∧
      shadowsWritten s t (s.inverterWrites i a b c) ∧
      t.ext = s.ext ++
        (if v.commitsState then
          (s.inverterLegs i).map fun l => ⟨s.enableCall l v.reqState.flag, .ok⟩ else []) ++
        [⟨.spwm w.theta v.nextMi w.curDir, .duties a b c⟩] ∧
      t.callNo = s.callNo + (if v.commitsState then (s.inverterLegs i).length else 0) + 1 ∧
      sameInputs s t ∧ sameTim s t ∧ sameCfg s t ∧ samePsfb s t) ∧
  (∀ (s : State) (k : Nat) (v : Vf) (before after : List Nat) (l : Nat) (x : Status),
    s.halted = false → k < s.params.nvf → v = s.vfAt k → v.init = true →
    v.inv.toNat < s.params.ninv → (s.invAt v.inv.toNat).init = true → v.configured →
    v.commitsState = true → s.inverterLegs v.inv.toNat = before ++ l :: after →
    (∀ m ∈ before, s.legEnables m) → s.enableRefusal l x →
    ∃ t, exec (.vfstep k) s = .next t ∧ portShows t x 0 0 0 0 0 ∧
      t.vfAt k = { v with curFreq := .rat 0 } ∧ (∀ m, m ≠ k → t.vfAt m = s.vfAt m) ∧
      legsEnabled s t before v.reqState.flag ∧
      calledOk s t (before.map fun m => s.enableCall m v.reqState.flag) ∧ sameInputs s t ∧
      sameTim s t ∧ sameCh s t ∧ sameCfg s t ∧ sameInv s t ∧ samePsfb s t) ∧
  (∀ (s : State) (k : Nat) (v w : Vf) (i : Nat) (a b c d : NUM)
      (before after : List (Nat × NUM)) (l : Nat) (writes : List (Nat × Nat)) (e : Status),
    s.halted = false → k < s.params.nvf → v = s.vfAt k → v.init = true → i = v.inv.toNat →
    i < s.params.ninv → (s.invAt i).init = true → v.configured → w = v.stepped →
    s.spwm w.theta v.nextMi w.curDir = (a, b, c) →
    (v.commitsState = true → ∀ m ∈ s.inverterLegs i, s.legEnables m) →
    s.inverterUpdates i a b c = before ++ (l, d) :: after →
    (∀ r ∈ before, s.legAccepts r.1 r.2) → s.legDutyRefusal l d writes e →
    ∃ t, exec (.vfstep k) s = .next t ∧ portShows t e 0 0 0 0 0 ∧
      t.vfAt k = w ∧ (∀ m, m ≠ k → t.vfAt m = s.vfAt m) ∧
      (∀ m, m ≠ i → t.invAt m = s.invAt m) ∧
      (v.commitsState = true →
        legsEnabled s t (s.inverterLegs i) v.reqState.flag ∧
        t.invAt i = { s.invAt i with state := v.reqState }) ∧
      (v.commitsState = false → sameGlb s t ∧ sameLeg s t ∧ t.invAt i = s.invAt i) ∧
      shadowsWritten s t (s.dutyWrites before ++ writes) ∧
      t.ext = s.ext ++
        (if v.commitsState then
          (s.inverterLegs i).map fun l => ⟨s.enableCall l v.reqState.flag, .ok⟩ else []) ++
        [⟨.spwm w.theta v.nextMi w.curDir, .duties a b c⟩] ∧
      t.callNo = s.callNo + (if v.commitsState then (s.inverterLegs i).length else 0) + 1 ∧
      sameInputs s t ∧ sameTim s t ∧ sameCfg s t ∧ samePsfb s t)

/-- R262, its checks: a step that they refuse has no effect. -/
def Obligations.VfstepChecksBeforeEffect : Prop :=
  ∀ (s : State) (k : Nat) (e : Status), s.rampStepRefusal k e → turnsAway (.vfstep k) s e

/-- R263, R266, R271, R272 (d), (e): the frequency moves by at most a per step and never passes its
goal; from F > 0 with a change pending it is `max(F − n·a, 0)` after n steps, so it reaches 0 first
in step `ceil(F / a)`. -/
def Obligations.RampNeverOvershoots : Prop :=
  (∀ v : Vf, v.configured →
    |v.nextFreq.real - v.curFreq.real| ≤ v.accel.real / v.pwmFreq.real ∧
    (v.curFreq.real ≤ v.goal.real →
      v.curFreq.real ≤ v.nextFreq.real ∧ v.nextFreq.real ≤ v.goal.real) ∧
    (v.goal.real ≤ v.curFreq.real →
      v.goal.real ≤ v.nextFreq.real ∧ v.nextFreq.real ≤ v.curFreq.real)) ∧
  (∀ f g a : NUM, 0 ≤ a.real → (toward f g a = g ↔ |f.real - g.real| ≤ a.real)) ∧
  (∀ (f a : NUM) (n : Nat), 0 ≤ f.real → 0 < a.real →
    ((fun x => toward0 x a)^[n] f).real = max (f.real - n * a.real) 0 ∧
    ((fun x => toward0 x a)^[n] f = .rat 0 ↔ ⌈f.real / a.real⌉₊ ≤ n))

end
end

