-- ==== Sys2Proof/Laws/Bank.lean ====
section
/-! SUPPORT. Register banks: a read after a write, and the canonical form kept by every write. -/

namespace Sys2Proof.Machine

section
variable {α : Type}

@[simp] theorem Bank.read_nil (d : α) (n : Nat) : Bank.read d [] n = d := rfl

theorem Bank.read_cons (d : α) (k : Nat) (v : α) (b : Bank α) (n : Nat) :
    Bank.read d ((k, v) :: b) n = if n = k then v else Bank.read d b n := rfl

theorem Bank.read_erase (d : α) (b : Bank α) (n m : Nat) :
    Bank.read d (b.erase n) m = if m = n then d else Bank.read d b m := by
  induction b with
  | nil => simp [Bank.erase]
  | cons e b ih =>
    obtain ⟨k, v⟩ := e
    by_cases hk : k = n
    · have : Bank.erase ((k, v) :: b) n = Bank.erase b n := by simp [Bank.erase, hk]
      rw [this, ih, Bank.read_cons]
      split
      · rfl
      · next h => rw [if_neg (by omega)]
    · have : Bank.erase ((k, v) :: b) n = (k, v) :: Bank.erase b n := by simp [Bank.erase, hk]
      rw [this, Bank.read_cons, Bank.read_cons, ih]
      split
      · next h => rw [if_neg (by omega)]
      · rfl

theorem Bank.read_insert (d : α) (b : Bank α) (n : Nat) (v : α) (m : Nat)
    (hn : ∀ e ∈ b, e.1 ≠ n) :
    Bank.read d (b.insert n v) m = if m = n then v else Bank.read d b m := by
  induction b with
  | nil => rfl
  | cons e b ih =>
    obtain ⟨k, w⟩ := e
    have hk : k ≠ n := hn (k, w) (by simp)
    have hb : ∀ e ∈ b, e.1 ≠ n := fun e he => hn e (by simp [he])
    simp only [Bank.insert]
    split
    · rfl
    · rw [Bank.read_cons, Bank.read_cons, ih hb]
      split
      · next h => rw [if_neg (by omega)]
      · rfl

theorem Bank.erase_ne (b : Bank α) (n : Nat) : ∀ e ∈ b.erase n, e.1 ≠ n := by
  intro e he
  simpa [Bank.erase] using (List.mem_filter.mp he).2

theorem Bank.read_of_lt (d : α) (b : Bank α) (n : Nat) (h : ∀ e ∈ b, n < e.1) :
    Bank.read d b n = d := by
  induction b with
  | nil => rfl
  | cons e b ih =>
    obtain ⟨k, v⟩ := e
    have := h (k, v) (by simp)
    rw [Bank.read_cons, if_neg (by simp only at this; omega), ih fun e he => h e (by simp [he])]

variable [DecidableEq α]

/-- A read after a write: the value written at its index, every other index as before. -/
theorem Bank.read_write (d : α) (b : Bank α) (n m : Nat) (v : α) :
    Bank.read d (Bank.write d b n v) m = if m = n then v else Bank.read d b m := by
  unfold Bank.write
  split
  · next h => rw [Bank.read_erase, h]
  · rw [Bank.read_insert d _ n v m (b.erase_ne n), Bank.read_erase]
    split
    · rfl
    · rfl

theorem Bank.wf_cons (d : α) (k : Nat) (v : α) (b : Bank α) :
    Bank.wf d ((k, v) :: b) = true ↔
      v ≠ d ∧ (∀ e ∈ b, k < e.1) ∧ Bank.wf d b = true := by
  simp [Bank.wf, and_assoc]

theorem Bank.wf_erase (d : α) (b : Bank α) (n : Nat) (h : Bank.wf d b = true) :
    Bank.wf d (b.erase n) = true := by
  induction b with
  | nil => rfl
  | cons e b ih =>
    obtain ⟨k, v⟩ := e
    obtain ⟨hv, hk, hb⟩ := (Bank.wf_cons d k v b).mp h
    by_cases hkn : k = n
    · have : Bank.erase ((k, v) :: b) n = Bank.erase b n := by simp [Bank.erase, hkn]
      rw [this]; exact ih hb
    · have : Bank.erase ((k, v) :: b) n = (k, v) :: Bank.erase b n := by simp [Bank.erase, hkn]
      rw [this]
      exact (Bank.wf_cons _ _ _ _).mpr
        ⟨hv, fun e he => hk e (List.mem_filter.mp he).1, ih hb⟩

theorem Bank.mem_insert (b : Bank α) (n : Nat) (v : α) (e : Nat × α) :
    e ∈ b.insert n v ↔ e = (n, v) ∨ e ∈ b := by
  induction b with
  | nil => simp [Bank.insert]
  | cons x b ih =>
    obtain ⟨k, w⟩ := x
    simp only [Bank.insert]
    split
    · simp
    · simp only [List.mem_cons, ih]; tauto

theorem Bank.wf_insert (d : α) (b : Bank α) (n : Nat) (v : α) (hv : v ≠ d)
    (hn : ∀ e ∈ b, e.1 ≠ n) (h : Bank.wf d b = true) : Bank.wf d (b.insert n v) = true := by
  induction b with
  | nil => simp [Bank.insert, Bank.wf, hv]
  | cons x b ih =>
    obtain ⟨k, w⟩ := x
    obtain ⟨hw, hk, hb⟩ := (Bank.wf_cons d k w b).mp h
    have hkn : k ≠ n := hn (k, w) (by simp)
    simp only [Bank.insert]
    split
    · next hlt =>
      refine (Bank.wf_cons _ _ _ _).mpr ⟨hv, ?_, h⟩
      intro e he
      rcases List.mem_cons.mp he with rfl | he
      · exact hlt
      · exact lt_trans hlt (hk e he)
    · next hlt =>
      refine (Bank.wf_cons _ _ _ _).mpr ⟨hw, ?_, ih (fun e he => hn e (by simp [he])) hb⟩
      intro e he
      rcases (Bank.mem_insert _ _ _ _).mp he with rfl | he
      · simp only; omega
      · exact hk e he

/-- Every write keeps the canonical form. -/
theorem Bank.wf_write (d : α) (b : Bank α) (n : Nat) (v : α) (h : Bank.wf d b = true) :
    Bank.wf d (Bank.write d b n v) = true := by
  unfold Bank.write
  split
  · exact Bank.wf_erase d b n h
  · next hv => exact Bank.wf_insert d _ n v hv (b.erase_ne n) (Bank.wf_erase d b n h)

/-- Two canonical banks that read alike at every index are the same data. -/
theorem Bank.eq_of_read (d : α) (b c : Bank α) (hb : Bank.wf d b = true) (hc : Bank.wf d c = true)
    (h : ∀ n, Bank.read d b n = Bank.read d c n) : b = c := by
  induction b generalizing c with
  | nil =>
    cases c with
    | nil => rfl
    | cons f c =>
      obtain ⟨k, v⟩ := f
      exact absurd (by simpa [Bank.read_cons] using (h k).symm) ((Bank.wf_cons d k v c).mp hc).1
  | cons e b ih =>
    obtain ⟨j, u⟩ := e
    obtain ⟨hu, hj, hb'⟩ := (Bank.wf_cons d j u b).mp hb
    cases c with
    | nil => exact absurd (by simpa [Bank.read_cons] using h j) hu
    | cons f c =>
      obtain ⟨k, v⟩ := f
      obtain ⟨hv, hk, hc'⟩ := (Bank.wf_cons d k v c).mp hc
      have hjk : j = k := by
        rcases Nat.lt_trichotomy j k with hlt | heq | hlt
        · have h1 := h j
          rw [Bank.read_cons, if_pos rfl, Bank.read_of_lt d ((k, v) :: c) j] at h1
          · exact absurd h1 hu
          · intro e he
            rcases List.mem_cons.mp he with rfl | he
            · exact hlt
            · exact lt_trans hlt (hk e he)
        · exact heq
        · have h1 := h k
          rw [Bank.read_cons (k := k), if_pos rfl, Bank.read_of_lt d ((j, u) :: b) k] at h1
          · exact absurd h1.symm hv
          · intro e he
            rcases List.mem_cons.mp he with rfl | he
            · exact hlt
            · exact lt_trans hlt (hj e he)
      subst hjk
      have huv : u = v := by simpa [Bank.read_cons] using h j
      subst huv
      have hbc : b = c := ih c hb' hc' fun n => by
        by_cases hn : n = j
        · rw [hn, Bank.read_of_lt d b j hj, Bank.read_of_lt d c j hk]
        · simpa [Bank.read_cons, hn] using h n
      rw [hbc]

/-- The reset bank is canonical. -/
@[simp] theorem Bank.wf_nil (d : α) : Bank.wf d ([] : Bank α) = true := rfl

end

end Sys2Proof.Machine
end

