-- ==== Sys2Proof/Laws/Numbers.lean ====
section
/-! SUPPORT. Floor, minimum, maximum, clamps, real remainder, compare values and the ramp as the real
numbers they compute. -/

namespace Sys2Proof.Laws

/-- `floor` is that of the real. -/
@[simp] theorem floor_eq (x : NUM) : x.floor = ⌊x.real⌋ := by
  cases x with
  | rat q => rw [real_rat, Rat.floor_cast]; rfl
  | tau f =>
    simp only [NUM.floor]
    split
    · rename_i h; exact ((isFloor_iff _ _).1 h).symm
    · exact ((isFloor_iff _ _).1 (Nat.find_spec (exists_isFloor (.tau f)))).symm

theorem eq_rat_iff (x : NUM) (q : Ratio) : x = .rat q ↔ x.real = q := by
  rw [← real_inj, real_rat]

theorem not_lt_iff (x y : NUM) : ¬ x.lt y = true ↔ y.real ≤ x.real := by
  rw [lt_iff, not_lt]

theorem not_le_iff (x y : NUM) : ¬ x.le y = true ↔ y.real < x.real := by
  rw [le_iff, not_le]

end Sys2Proof.Laws

namespace Sys2Proof.Machine
open Laws

theorem floorNat_eq (x : NUM) : floorNat x = ⌊x.real⌋₊ := by
  rw [floorNat, floor_eq, Int.floor_toNat]

theorem floorNat_le {x : NUM} {n : Nat} (hx : 0 ≤ x.real) : floorNat x ≤ n ↔ x.real < n + 1 := by
  rw [floorNat_eq, ← Nat.lt_succ_iff, Nat.floor_lt hx]; push_cast; rfl

theorem floorNat_mul_le {d : NUM} (h0 : 0 ≤ d.real) (h1 : d.real ≤ 1) (n : Nat) :
    floorNat (d.mul (.rat n)) ≤ n := by
  have hn : (0 : ℝ) ≤ n := Nat.cast_nonneg n
  rw [floorNat_le (by rw [real_mul, real_rat]; push_cast; positivity), real_mul, real_rat]
  push_cast
  nlinarith

/-- The real remainder. -/
theorem rmod_real (x m : NUM) : (rmod x m).real = x.real - m.real * (⌊x.real / m.real⌋ : ℝ) := by
  rw [rmod, real_sub, real_mul, real_rat, floor_eq, real_div]
  push_cast
  rfl

theorem rmod_nonneg (x : NUM) {m : NUM} (hm : 0 < m.real) : 0 ≤ (rmod x m).real := by
  have h : m.real * (⌊x.real / m.real⌋ : ℝ) ≤ m.real * (x.real / m.real) := by
    gcongr; exact Int.floor_le _
  rw [mul_div_cancel₀ _ hm.ne'] at h
  rw [rmod_real]
  linarith

theorem rmod_lt (x : NUM) {m : NUM} (hm : 0 < m.real) : (rmod x m).real < m.real := by
  have h : m.real * (x.real / m.real) < m.real * ((⌊x.real / m.real⌋ : ℝ) + 1) := by
    gcongr; exact Int.lt_floor_add_one _
  rw [mul_div_cancel₀ _ hm.ne'] at h
  rw [rmod_real]
  linarith

theorem numMin_real (a b : NUM) : (numMin a b).real = min a.real b.real := by
  unfold numMin
  split
  · rename_i h; exact (min_eq_left ((le_iff _ _).1 h)).symm
  · rename_i h; exact (min_eq_right ((not_le_iff _ _).1 h).le).symm

theorem numMax_real (a b : NUM) : (numMax a b).real = max a.real b.real := by
  unfold numMax
  split
  · rename_i h; exact (max_eq_right ((le_iff _ _).1 h)).symm
  · rename_i h; exact (max_eq_left ((not_le_iff _ _).1 h).le).symm

theorem numAbs_real (x : NUM) : (numAbs x).real = |x.real| := by
  unfold numAbs
  split
  · rename_i h
    have h : x.real < 0 := by simpa using h
    rw [real_sub, real_rat, abs_of_neg h]; simp
  · rename_i h
    have h : 0 ≤ x.real := by simpa using h
    rw [abs_of_nonneg h]

/-- A clamp stays between limits that are in order. -/
theorem clamp_bounds {d lo hi : NUM} (h : lo.real ≤ hi.real) :
    lo.real ≤ (clamp d lo hi).real ∧ (clamp d lo hi).real ≤ hi.real := by
  unfold clamp
  split
  · exact ⟨h, le_refl _⟩
  · split
    · exact ⟨le_refl _, h⟩
    · exact ⟨(not_lt_iff _ _).1 ‹_›, (not_lt_iff _ _).1 ‹_›⟩

theorem clampHi_le (d hi : NUM) : (clampHi d hi).real ≤ hi.real := by
  unfold clampHi
  split
  · exact le_refl _
  · exact (not_lt_iff _ _).1 ‹_›

/-- One ramp step as the real it computes. -/
theorem toward_real (f g a : NUM) : (toward f g a).real =
    if f.real < g.real then min (f.real + a.real) g.real
    else if g.real < f.real then max (f.real - a.real) g.real else f.real := by
  unfold toward
  simp only [lt_iff]
  split
  · rw [numMin_real, real_add]
  · split
    · rw [numMax_real, real_sub]
    · rfl

/-- One ramp step: it moves by at most a, and never past the target. -/
theorem toward_spec (f g : NUM) {a : NUM} (ha : 0 ≤ a.real) :
    |(toward f g a).real - f.real| ≤ a.real ∧
    (f.real ≤ g.real → f.real ≤ (toward f g a).real ∧ (toward f g a).real ≤ g.real) ∧
    (g.real ≤ f.real → g.real ≤ (toward f g a).real ∧ (toward f g a).real ≤ f.real) := by
  rw [toward_real, min_def, max_def]
  refine ⟨abs_le.mpr ⟨?_, ?_⟩, fun h => ⟨?_, ?_⟩, fun h => ⟨?_, ?_⟩⟩ <;>
    (split_ifs <;> linarith)

/-- A ramp step towards 0 from a frequency that is not negative. -/
theorem toward0_real {f a : NUM} (hf : 0 ≤ f.real) (ha : 0 ≤ a.real) :
    (toward0 f a).real = max (f.real - a.real) 0 := by
  rw [toward0, toward_real, real_rat]
  push_cast
  rw [if_neg (not_lt.mpr hf)]
  split
  · rfl
  · rename_i h
    have h0 : f.real = 0 := le_antisymm (not_lt.mp h) hf
    rw [h0, max_eq_right (by linarith)]

/-- A usable ramp configuration, in real numbers. -/
theorem configured_iff (v : Vf) : v.configured ↔
    0 < v.nomFreq.real ∧ 0 < v.pwmFreq.real ∧ 0 ≤ v.accel.real := by
  unfold Vf.configured
  rw [lt_iff, lt_iff, le_iff, real_rat]
  push_cast
  rfl

/-- A duty that fits, in real numbers. -/
theorem dutyFits_iff (tm : Tim) (c : Slot) (d : NUM) : dutyFits tm c d ↔
    d = .rat 0 ∨ (0 ≤ (d.add (compOf tm c)).real ∧ (d.add (compOf tm c)).real ≤ 1) := by
  unfold dutyFits
  rw [le_iff, le_iff, real_rat, real_rat]
  push_cast
  rfl

/-- The shadow compare value never exceeds the period when the duty fits. -/
theorem appliedCompare_le {tm : Tim} {c : Slot} {d : NUM} (h : dutyFits tm c d) :
    appliedCompare tm c d ≤ tm.period := by
  rw [dutyFits_iff] at h
  unfold appliedCompare
  rcases h with h | ⟨h0, h1⟩
  · cases tm.align <;> simp [h]
  · cases tm.align <;> simp only <;> split
    · omega
    · exact floorNat_mul_le h0 h1 _
    · exact le_refl _
    · refine floorNat_mul_le ?_ ?_ _ <;> (rw [real_sub, real_rat]; push_cast; linarith)

/-- What `UPDPAIR` and `UPDCH` compute from a clamped duty: a compare value exactly when it fits. -/
theorem dutyCompare_eq (tm : Tim) (c : Slot) (d : NUM) :
    (dutyFits tm c d → dutyCompare tm c d = some (appliedCompare tm c d)) ∧
    (¬ dutyFits tm c d → dutyCompare tm c d = none) := by
  have hc : ((d.add (compOf tm c)).lt (.rat 0) || (NUM.rat 1).lt (d.add (compOf tm c))) = true ↔
      ¬ (0 ≤ (d.add (compOf tm c)).real ∧ (d.add (compOf tm c)).real ≤ 1) := by
    rw [Bool.or_eq_true, lt_iff, lt_iff, real_rat, real_rat, not_and_or, not_le, not_le]
    push_cast
    rfl
  rw [dutyFits_iff]
  unfold dutyCompare appliedCompare bypassOf compareOf
  by_cases hd : d = .rat 0
  · refine ⟨fun _ => ?_, fun h => absurd (.inl hd) h⟩
    cases tm.align <;> simp [hd]
  · simp only [hd, if_false, false_or]
    refine ⟨fun h => ?_, fun h => ?_⟩
    · exact (if_neg fun hx => hc.1 hx h).trans (by cases tm.align <;> rfl)
    · rw [if_pos (hc.2 h)]

end Sys2Proof.Machine
end

