-- ==== Sys2Proof/Laws/State.lean ====
section
/-! SUPPORT. What each update of the state changes and keeps: one lemma per field per update, and one
per record accessor, so that no proof unfolds a record update. -/

namespace Sys2Proof.Machine

variable (s : State)

/-! ### `setTim` -/

@[simp] theorem State.setTim_params (t : Nat) (v : Tim) : (s.setTim t v).params = s.params := rfl
@[simp] theorem State.setTim_env (t : Nat) (v : Tim) : (s.setTim t v).env = s.env := rfl
@[simp] theorem State.setTim_inbox (t : Nat) (v : Tim) : (s.setTim t v).inbox = s.inbox := rfl
@[simp] theorem State.setTim_lanes (t : Nat) (v : Tim) : (s.setTim t v).lanes = s.lanes := rfl
@[simp] theorem State.setTim_ext (t : Nat) (v : Tim) : (s.setTim t v).ext = s.ext := rfl
@[simp] theorem State.setTim_callNo (t : Nat) (v : Tim) : (s.setTim t v).callNo = s.callNo := rfl
@[simp] theorem State.setTim_halted (t : Nat) (v : Tim) : (s.setTim t v).halted = s.halted := rfl
@[simp] theorem State.setTim_oen (t : Nat) (v : Tim) : (s.setTim t v).oen = s.oen := rfl
@[simp] theorem State.setTim_ch (t : Nat) (v : Tim) : (s.setTim t v).ch = s.ch := rfl
@[simp] theorem State.setTim_cfg (t : Nat) (v : Tim) : (s.setTim t v).cfg = s.cfg := rfl
@[simp] theorem State.setTim_leg (t : Nat) (v : Tim) : (s.setTim t v).leg = s.leg := rfl
@[simp] theorem State.setTim_inv (t : Nat) (v : Tim) : (s.setTim t v).inv = s.inv := rfl
@[simp] theorem State.setTim_psfb (t : Nat) (v : Tim) : (s.setTim t v).psfb = s.psfb := rfl
@[simp] theorem State.setTim_vf (t : Nat) (v : Tim) : (s.setTim t v).vf = s.vf := rfl
@[simp] theorem State.setTim_status (t : Nat) (v : Tim) : (s.setTim t v).status = s.status := rfl
@[simp] theorem State.setTim_rescode (t : Nat) (v : Tim) : (s.setTim t v).rescode = s.rescode := rfl
@[simp] theorem State.setTim_res0 (t : Nat) (v : Tim) : (s.setTim t v).res0 = s.res0 := rfl
@[simp] theorem State.setTim_res1 (t : Nat) (v : Tim) : (s.setTim t v).res1 = s.res1 := rfl
@[simp] theorem State.setTim_res2 (t : Nat) (v : Tim) : (s.setTim t v).res2 = s.res2 := rfl
@[simp] theorem State.setTim_res3 (t : Nat) (v : Tim) : (s.setTim t v).res3 = s.res3 := rfl
@[simp] theorem State.setTim_chAt (t : Nat) (v : Tim) : (s.setTim t v).chAt = s.chAt := rfl
@[simp] theorem State.setTim_cfgAt (t : Nat) (v : Tim) : (s.setTim t v).cfgAt = s.cfgAt := rfl
@[simp] theorem State.setTim_legAt (t : Nat) (v : Tim) : (s.setTim t v).legAt = s.legAt := rfl
@[simp] theorem State.setTim_invAt (t : Nat) (v : Tim) : (s.setTim t v).invAt = s.invAt := rfl
@[simp] theorem State.setTim_psfbAt (t : Nat) (v : Tim) : (s.setTim t v).psfbAt = s.psfbAt := rfl
@[simp] theorem State.setTim_vfAt (t : Nat) (v : Tim) : (s.setTim t v).vfAt = s.vfAt := rfl

/-! ### `setCh` -/

@[simp] theorem State.setCh_params (n : Nat) (v : Chan) : (s.setCh n v).params = s.params := rfl
@[simp] theorem State.setCh_env (n : Nat) (v : Chan) : (s.setCh n v).env = s.env := rfl
@[simp] theorem State.setCh_inbox (n : Nat) (v : Chan) : (s.setCh n v).inbox = s.inbox := rfl
@[simp] theorem State.setCh_lanes (n : Nat) (v : Chan) : (s.setCh n v).lanes = s.lanes := rfl
@[simp] theorem State.setCh_ext (n : Nat) (v : Chan) : (s.setCh n v).ext = s.ext := rfl
@[simp] theorem State.setCh_callNo (n : Nat) (v : Chan) : (s.setCh n v).callNo = s.callNo := rfl
@[simp] theorem State.setCh_halted (n : Nat) (v : Chan) : (s.setCh n v).halted = s.halted := rfl
@[simp] theorem State.setCh_oen (n : Nat) (v : Chan) : (s.setCh n v).oen = s.oen := rfl
@[simp] theorem State.setCh_tim (n : Nat) (v : Chan) : (s.setCh n v).tim = s.tim := rfl
@[simp] theorem State.setCh_cfg (n : Nat) (v : Chan) : (s.setCh n v).cfg = s.cfg := rfl
@[simp] theorem State.setCh_leg (n : Nat) (v : Chan) : (s.setCh n v).leg = s.leg := rfl
@[simp] theorem State.setCh_inv (n : Nat) (v : Chan) : (s.setCh n v).inv = s.inv := rfl
@[simp] theorem State.setCh_psfb (n : Nat) (v : Chan) : (s.setCh n v).psfb = s.psfb := rfl
@[simp] theorem State.setCh_vf (n : Nat) (v : Chan) : (s.setCh n v).vf = s.vf := rfl
@[simp] theorem State.setCh_status (n : Nat) (v : Chan) : (s.setCh n v).status = s.status := rfl
@[simp] theorem State.setCh_rescode (n : Nat) (v : Chan) : (s.setCh n v).rescode = s.rescode := rfl
@[simp] theorem State.setCh_res0 (n : Nat) (v : Chan) : (s.setCh n v).res0 = s.res0 := rfl
@[simp] theorem State.setCh_res1 (n : Nat) (v : Chan) : (s.setCh n v).res1 = s.res1 := rfl
@[simp] theorem State.setCh_res2 (n : Nat) (v : Chan) : (s.setCh n v).res2 = s.res2 := rfl
@[simp] theorem State.setCh_res3 (n : Nat) (v : Chan) : (s.setCh n v).res3 = s.res3 := rfl
@[simp] theorem State.setCh_timAt (n : Nat) (v : Chan) : (s.setCh n v).timAt = s.timAt := rfl
@[simp] theorem State.setCh_cfgAt (n : Nat) (v : Chan) : (s.setCh n v).cfgAt = s.cfgAt := rfl
@[simp] theorem State.setCh_legAt (n : Nat) (v : Chan) : (s.setCh n v).legAt = s.legAt := rfl
@[simp] theorem State.setCh_invAt (n : Nat) (v : Chan) : (s.setCh n v).invAt = s.invAt := rfl
@[simp] theorem State.setCh_psfbAt (n : Nat) (v : Chan) : (s.setCh n v).psfbAt = s.psfbAt := rfl
@[simp] theorem State.setCh_vfAt (n : Nat) (v : Chan) : (s.setCh n v).vfAt = s.vfAt := rfl

/-! ### `setCfg` -/

@[simp] theorem State.setCfg_params (sl : Nat) (v : Slot) : (s.setCfg sl v).params = s.params := rfl
@[simp] theorem State.setCfg_env (sl : Nat) (v : Slot) : (s.setCfg sl v).env = s.env := rfl
@[simp] theorem State.setCfg_inbox (sl : Nat) (v : Slot) : (s.setCfg sl v).inbox = s.inbox := rfl
@[simp] theorem State.setCfg_lanes (sl : Nat) (v : Slot) : (s.setCfg sl v).lanes = s.lanes := rfl
@[simp] theorem State.setCfg_ext (sl : Nat) (v : Slot) : (s.setCfg sl v).ext = s.ext := rfl
@[simp] theorem State.setCfg_callNo (sl : Nat) (v : Slot) : (s.setCfg sl v).callNo = s.callNo := rfl
@[simp] theorem State.setCfg_halted (sl : Nat) (v : Slot) : (s.setCfg sl v).halted = s.halted := rfl
@[simp] theorem State.setCfg_oen (sl : Nat) (v : Slot) : (s.setCfg sl v).oen = s.oen := rfl
@[simp] theorem State.setCfg_tim (sl : Nat) (v : Slot) : (s.setCfg sl v).tim = s.tim := rfl
@[simp] theorem State.setCfg_ch (sl : Nat) (v : Slot) : (s.setCfg sl v).ch = s.ch := rfl
@[simp] theorem State.setCfg_leg (sl : Nat) (v : Slot) : (s.setCfg sl v).leg = s.leg := rfl
@[simp] theorem State.setCfg_inv (sl : Nat) (v : Slot) : (s.setCfg sl v).inv = s.inv := rfl
@[simp] theorem State.setCfg_psfb (sl : Nat) (v : Slot) : (s.setCfg sl v).psfb = s.psfb := rfl
@[simp] theorem State.setCfg_vf (sl : Nat) (v : Slot) : (s.setCfg sl v).vf = s.vf := rfl
@[simp] theorem State.setCfg_status (sl : Nat) (v : Slot) : (s.setCfg sl v).status = s.status := rfl
@[simp] theorem State.setCfg_rescode (sl : Nat) (v : Slot) : (s.setCfg sl v).rescode = s.rescode := rfl
@[simp] theorem State.setCfg_res0 (sl : Nat) (v : Slot) : (s.setCfg sl v).res0 = s.res0 := rfl
@[simp] theorem State.setCfg_res1 (sl : Nat) (v : Slot) : (s.setCfg sl v).res1 = s.res1 := rfl
@[simp] theorem State.setCfg_res2 (sl : Nat) (v : Slot) : (s.setCfg sl v).res2 = s.res2 := rfl
@[simp] theorem State.setCfg_res3 (sl : Nat) (v : Slot) : (s.setCfg sl v).res3 = s.res3 := rfl
@[simp] theorem State.setCfg_timAt (sl : Nat) (v : Slot) : (s.setCfg sl v).timAt = s.timAt := rfl
@[simp] theorem State.setCfg_chAt (sl : Nat) (v : Slot) : (s.setCfg sl v).chAt = s.chAt := rfl
@[simp] theorem State.setCfg_legAt (sl : Nat) (v : Slot) : (s.setCfg sl v).legAt = s.legAt := rfl
@[simp] theorem State.setCfg_invAt (sl : Nat) (v : Slot) : (s.setCfg sl v).invAt = s.invAt := rfl
@[simp] theorem State.setCfg_psfbAt (sl : Nat) (v : Slot) : (s.setCfg sl v).psfbAt = s.psfbAt := rfl
@[simp] theorem State.setCfg_vfAt (sl : Nat) (v : Slot) : (s.setCfg sl v).vfAt = s.vfAt := rfl

/-! ### `setLeg` -/

@[simp] theorem State.setLeg_params (l : Nat) (v : Leg) : (s.setLeg l v).params = s.params := rfl
@[simp] theorem State.setLeg_env (l : Nat) (v : Leg) : (s.setLeg l v).env = s.env := rfl
@[simp] theorem State.setLeg_inbox (l : Nat) (v : Leg) : (s.setLeg l v).inbox = s.inbox := rfl
@[simp] theorem State.setLeg_lanes (l : Nat) (v : Leg) : (s.setLeg l v).lanes = s.lanes := rfl
@[simp] theorem State.setLeg_ext (l : Nat) (v : Leg) : (s.setLeg l v).ext = s.ext := rfl
@[simp] theorem State.setLeg_callNo (l : Nat) (v : Leg) : (s.setLeg l v).callNo = s.callNo := rfl
@[simp] theorem State.setLeg_halted (l : Nat) (v : Leg) : (s.setLeg l v).halted = s.halted := rfl
@[simp] theorem State.setLeg_oen (l : Nat) (v : Leg) : (s.setLeg l v).oen = s.oen := rfl
@[simp] theorem State.setLeg_tim (l : Nat) (v : Leg) : (s.setLeg l v).tim = s.tim := rfl
@[simp] theorem State.setLeg_ch (l : Nat) (v : Leg) : (s.setLeg l v).ch = s.ch := rfl
@[simp] theorem State.setLeg_cfg (l : Nat) (v : Leg) : (s.setLeg l v).cfg = s.cfg := rfl
@[simp] theorem State.setLeg_inv (l : Nat) (v : Leg) : (s.setLeg l v).inv = s.inv := rfl
@[simp] theorem State.setLeg_psfb (l : Nat) (v : Leg) : (s.setLeg l v).psfb = s.psfb := rfl
@[simp] theorem State.setLeg_vf (l : Nat) (v : Leg) : (s.setLeg l v).vf = s.vf := rfl
@[simp] theorem State.setLeg_status (l : Nat) (v : Leg) : (s.setLeg l v).status = s.status := rfl
@[simp] theorem State.setLeg_rescode (l : Nat) (v : Leg) : (s.setLeg l v).rescode = s.rescode := rfl
@[simp] theorem State.setLeg_res0 (l : Nat) (v : Leg) : (s.setLeg l v).res0 = s.res0 := rfl
@[simp] theorem State.setLeg_res1 (l : Nat) (v : Leg) : (s.setLeg l v).res1 = s.res1 := rfl
@[simp] theorem State.setLeg_res2 (l : Nat) (v : Leg) : (s.setLeg l v).res2 = s.res2 := rfl
@[simp] theorem State.setLeg_res3 (l : Nat) (v : Leg) : (s.setLeg l v).res3 = s.res3 := rfl
@[simp] theorem State.setLeg_timAt (l : Nat) (v : Leg) : (s.setLeg l v).timAt = s.timAt := rfl
@[simp] theorem State.setLeg_chAt (l : Nat) (v : Leg) : (s.setLeg l v).chAt = s.chAt := rfl
@[simp] theorem State.setLeg_cfgAt (l : Nat) (v : Leg) : (s.setLeg l v).cfgAt = s.cfgAt := rfl
@[simp] theorem State.setLeg_invAt (l : Nat) (v : Leg) : (s.setLeg l v).invAt = s.invAt := rfl
@[simp] theorem State.setLeg_psfbAt (l : Nat) (v : Leg) : (s.setLeg l v).psfbAt = s.psfbAt := rfl
@[simp] theorem State.setLeg_vfAt (l : Nat) (v : Leg) : (s.setLeg l v).vfAt = s.vfAt := rfl

/-! ### `setInv` -/

@[simp] theorem State.setInv_params (i : Nat) (v : Inv) : (s.setInv i v).params = s.params := rfl
@[simp] theorem State.setInv_env (i : Nat) (v : Inv) : (s.setInv i v).env = s.env := rfl
@[simp] theorem State.setInv_inbox (i : Nat) (v : Inv) : (s.setInv i v).inbox = s.inbox := rfl
@[simp] theorem State.setInv_lanes (i : Nat) (v : Inv) : (s.setInv i v).lanes = s.lanes := rfl
@[simp] theorem State.setInv_ext (i : Nat) (v : Inv) : (s.setInv i v).ext = s.ext := rfl
@[simp] theorem State.setInv_callNo (i : Nat) (v : Inv) : (s.setInv i v).callNo = s.callNo := rfl
@[simp] theorem State.setInv_halted (i : Nat) (v : Inv) : (s.setInv i v).halted = s.halted := rfl
@[simp] theorem State.setInv_oen (i : Nat) (v : Inv) : (s.setInv i v).oen = s.oen := rfl
@[simp] theorem State.setInv_tim (i : Nat) (v : Inv) : (s.setInv i v).tim = s.tim := rfl
@[simp] theorem State.setInv_ch (i : Nat) (v : Inv) : (s.setInv i v).ch = s.ch := rfl
@[simp] theorem State.setInv_cfg (i : Nat) (v : Inv) : (s.setInv i v).cfg = s.cfg := rfl
@[simp] theorem State.setInv_leg (i : Nat) (v : Inv) : (s.setInv i v).leg = s.leg := rfl
@[simp] theorem State.setInv_psfb (i : Nat) (v : Inv) : (s.setInv i v).psfb = s.psfb := rfl
@[simp] theorem State.setInv_vf (i : Nat) (v : Inv) : (s.setInv i v).vf = s.vf := rfl
@[simp] theorem State.setInv_status (i : Nat) (v : Inv) : (s.setInv i v).status = s.status := rfl
@[simp] theorem State.setInv_rescode (i : Nat) (v : Inv) : (s.setInv i v).rescode = s.rescode := rfl
@[simp] theorem State.setInv_res0 (i : Nat) (v : Inv) : (s.setInv i v).res0 = s.res0 := rfl
@[simp] theorem State.setInv_res1 (i : Nat) (v : Inv) : (s.setInv i v).res1 = s.res1 := rfl
@[simp] theorem State.setInv_res2 (i : Nat) (v : Inv) : (s.setInv i v).res2 = s.res2 := rfl
@[simp] theorem State.setInv_res3 (i : Nat) (v : Inv) : (s.setInv i v).res3 = s.res3 := rfl
@[simp] theorem State.setInv_timAt (i : Nat) (v : Inv) : (s.setInv i v).timAt = s.timAt := rfl
@[simp] theorem State.setInv_chAt (i : Nat) (v : Inv) : (s.setInv i v).chAt = s.chAt := rfl
@[simp] theorem State.setInv_cfgAt (i : Nat) (v : Inv) : (s.setInv i v).cfgAt = s.cfgAt := rfl
@[simp] theorem State.setInv_legAt (i : Nat) (v : Inv) : (s.setInv i v).legAt = s.legAt := rfl
@[simp] theorem State.setInv_psfbAt (i : Nat) (v : Inv) : (s.setInv i v).psfbAt = s.psfbAt := rfl
@[simp] theorem State.setInv_vfAt (i : Nat) (v : Inv) : (s.setInv i v).vfAt = s.vfAt := rfl

/-! ### `setPsfb` -/

@[simp] theorem State.setPsfb_params (j : Nat) (v : Psfb) : (s.setPsfb j v).params = s.params := rfl
@[simp] theorem State.setPsfb_env (j : Nat) (v : Psfb) : (s.setPsfb j v).env = s.env := rfl
@[simp] theorem State.setPsfb_inbox (j : Nat) (v : Psfb) : (s.setPsfb j v).inbox = s.inbox := rfl
@[simp] theorem State.setPsfb_lanes (j : Nat) (v : Psfb) : (s.setPsfb j v).lanes = s.lanes := rfl
@[simp] theorem State.setPsfb_ext (j : Nat) (v : Psfb) : (s.setPsfb j v).ext = s.ext := rfl
@[simp] theorem State.setPsfb_callNo (j : Nat) (v : Psfb) : (s.setPsfb j v).callNo = s.callNo := rfl
@[simp] theorem State.setPsfb_halted (j : Nat) (v : Psfb) : (s.setPsfb j v).halted = s.halted := rfl
@[simp] theorem State.setPsfb_oen (j : Nat) (v : Psfb) : (s.setPsfb j v).oen = s.oen := rfl
@[simp] theorem State.setPsfb_tim (j : Nat) (v : Psfb) : (s.setPsfb j v).tim = s.tim := rfl
@[simp] theorem State.setPsfb_ch (j : Nat) (v : Psfb) : (s.setPsfb j v).ch = s.ch := rfl
@[simp] theorem State.setPsfb_cfg (j : Nat) (v : Psfb) : (s.setPsfb j v).cfg = s.cfg := rfl
@[simp] theorem State.setPsfb_leg (j : Nat) (v : Psfb) : (s.setPsfb j v).leg = s.leg := rfl
@[simp] theorem State.setPsfb_inv (j : Nat) (v : Psfb) : (s.setPsfb j v).inv = s.inv := rfl
@[simp] theorem State.setPsfb_vf (j : Nat) (v : Psfb) : (s.setPsfb j v).vf = s.vf := rfl
@[simp] theorem State.setPsfb_status (j : Nat) (v : Psfb) : (s.setPsfb j v).status = s.status := rfl
@[simp] theorem State.setPsfb_rescode (j : Nat) (v : Psfb) : (s.setPsfb j v).rescode = s.rescode := rfl
@[simp] theorem State.setPsfb_res0 (j : Nat) (v : Psfb) : (s.setPsfb j v).res0 = s.res0 := rfl
@[simp] theorem State.setPsfb_res1 (j : Nat) (v : Psfb) : (s.setPsfb j v).res1 = s.res1 := rfl
@[simp] theorem State.setPsfb_res2 (j : Nat) (v : Psfb) : (s.setPsfb j v).res2 = s.res2 := rfl
@[simp] theorem State.setPsfb_res3 (j : Nat) (v : Psfb) : (s.setPsfb j v).res3 = s.res3 := rfl
@[simp] theorem State.setPsfb_timAt (j : Nat) (v : Psfb) : (s.setPsfb j v).timAt = s.timAt := rfl
@[simp] theorem State.setPsfb_chAt (j : Nat) (v : Psfb) : (s.setPsfb j v).chAt = s.chAt := rfl
@[simp] theorem State.setPsfb_cfgAt (j : Nat) (v : Psfb) : (s.setPsfb j v).cfgAt = s.cfgAt := rfl
@[simp] theorem State.setPsfb_legAt (j : Nat) (v : Psfb) : (s.setPsfb j v).legAt = s.legAt := rfl
@[simp] theorem State.setPsfb_invAt (j : Nat) (v : Psfb) : (s.setPsfb j v).invAt = s.invAt := rfl
@[simp] theorem State.setPsfb_vfAt (j : Nat) (v : Psfb) : (s.setPsfb j v).vfAt = s.vfAt := rfl

/-! ### `setVf` -/

@[simp] theorem State.setVf_params (k : Nat) (v : Vf) : (s.setVf k v).params = s.params := rfl
@[simp] theorem State.setVf_env (k : Nat) (v : Vf) : (s.setVf k v).env = s.env := rfl
@[simp] theorem State.setVf_inbox (k : Nat) (v : Vf) : (s.setVf k v).inbox = s.inbox := rfl
@[simp] theorem State.setVf_lanes (k : Nat) (v : Vf) : (s.setVf k v).lanes = s.lanes := rfl
@[simp] theorem State.setVf_ext (k : Nat) (v : Vf) : (s.setVf k v).ext = s.ext := rfl
@[simp] theorem State.setVf_callNo (k : Nat) (v : Vf) : (s.setVf k v).callNo = s.callNo := rfl
@[simp] theorem State.setVf_halted (k : Nat) (v : Vf) : (s.setVf k v).halted = s.halted := rfl
@[simp] theorem State.setVf_oen (k : Nat) (v : Vf) : (s.setVf k v).oen = s.oen := rfl
@[simp] theorem State.setVf_tim (k : Nat) (v : Vf) : (s.setVf k v).tim = s.tim := rfl
@[simp] theorem State.setVf_ch (k : Nat) (v : Vf) : (s.setVf k v).ch = s.ch := rfl
@[simp] theorem State.setVf_cfg (k : Nat) (v : Vf) : (s.setVf k v).cfg = s.cfg := rfl
@[simp] theorem State.setVf_leg (k : Nat) (v : Vf) : (s.setVf k v).leg = s.leg := rfl
@[simp] theorem State.setVf_inv (k : Nat) (v : Vf) : (s.setVf k v).inv = s.inv := rfl
@[simp] theorem State.setVf_psfb (k : Nat) (v : Vf) : (s.setVf k v).psfb = s.psfb := rfl
@[simp] theorem State.setVf_status (k : Nat) (v : Vf) : (s.setVf k v).status = s.status := rfl
@[simp] theorem State.setVf_rescode (k : Nat) (v : Vf) : (s.setVf k v).rescode = s.rescode := rfl
@[simp] theorem State.setVf_res0 (k : Nat) (v : Vf) : (s.setVf k v).res0 = s.res0 := rfl
@[simp] theorem State.setVf_res1 (k : Nat) (v : Vf) : (s.setVf k v).res1 = s.res1 := rfl
@[simp] theorem State.setVf_res2 (k : Nat) (v : Vf) : (s.setVf k v).res2 = s.res2 := rfl
@[simp] theorem State.setVf_res3 (k : Nat) (v : Vf) : (s.setVf k v).res3 = s.res3 := rfl
@[simp] theorem State.setVf_timAt (k : Nat) (v : Vf) : (s.setVf k v).timAt = s.timAt := rfl
@[simp] theorem State.setVf_chAt (k : Nat) (v : Vf) : (s.setVf k v).chAt = s.chAt := rfl
@[simp] theorem State.setVf_cfgAt (k : Nat) (v : Vf) : (s.setVf k v).cfgAt = s.cfgAt := rfl
@[simp] theorem State.setVf_legAt (k : Nat) (v : Vf) : (s.setVf k v).legAt = s.legAt := rfl
@[simp] theorem State.setVf_invAt (k : Nat) (v : Vf) : (s.setVf k v).invAt = s.invAt := rfl
@[simp] theorem State.setVf_psfbAt (k : Nat) (v : Vf) : (s.setVf k v).psfbAt = s.psfbAt := rfl

/-! ### `setOen` -/

@[simp] theorem State.setOen_params (m : PinMask) : (s.setOen m).params = s.params := rfl
@[simp] theorem State.setOen_env (m : PinMask) : (s.setOen m).env = s.env := rfl
@[simp] theorem State.setOen_inbox (m : PinMask) : (s.setOen m).inbox = s.inbox := rfl
@[simp] theorem State.setOen_lanes (m : PinMask) : (s.setOen m).lanes = s.lanes := rfl
@[simp] theorem State.setOen_ext (m : PinMask) : (s.setOen m).ext = s.ext := rfl
@[simp] theorem State.setOen_callNo (m : PinMask) : (s.setOen m).callNo = s.callNo := rfl
@[simp] theorem State.setOen_halted (m : PinMask) : (s.setOen m).halted = s.halted := rfl
@[simp] theorem State.setOen_tim (m : PinMask) : (s.setOen m).tim = s.tim := rfl
@[simp] theorem State.setOen_ch (m : PinMask) : (s.setOen m).ch = s.ch := rfl
@[simp] theorem State.setOen_cfg (m : PinMask) : (s.setOen m).cfg = s.cfg := rfl
@[simp] theorem State.setOen_leg (m : PinMask) : (s.setOen m).leg = s.leg := rfl
@[simp] theorem State.setOen_inv (m : PinMask) : (s.setOen m).inv = s.inv := rfl
@[simp] theorem State.setOen_psfb (m : PinMask) : (s.setOen m).psfb = s.psfb := rfl
@[simp] theorem State.setOen_vf (m : PinMask) : (s.setOen m).vf = s.vf := rfl
@[simp] theorem State.setOen_status (m : PinMask) : (s.setOen m).status = s.status := rfl
@[simp] theorem State.setOen_rescode (m : PinMask) : (s.setOen m).rescode = s.rescode := rfl
@[simp] theorem State.setOen_res0 (m : PinMask) : (s.setOen m).res0 = s.res0 := rfl
@[simp] theorem State.setOen_res1 (m : PinMask) : (s.setOen m).res1 = s.res1 := rfl
@[simp] theorem State.setOen_res2 (m : PinMask) : (s.setOen m).res2 = s.res2 := rfl
@[simp] theorem State.setOen_res3 (m : PinMask) : (s.setOen m).res3 = s.res3 := rfl
@[simp] theorem State.setOen_timAt (m : PinMask) : (s.setOen m).timAt = s.timAt := rfl
@[simp] theorem State.setOen_chAt (m : PinMask) : (s.setOen m).chAt = s.chAt := rfl
@[simp] theorem State.setOen_cfgAt (m : PinMask) : (s.setOen m).cfgAt = s.cfgAt := rfl
@[simp] theorem State.setOen_legAt (m : PinMask) : (s.setOen m).legAt = s.legAt := rfl
@[simp] theorem State.setOen_invAt (m : PinMask) : (s.setOen m).invAt = s.invAt := rfl
@[simp] theorem State.setOen_psfbAt (m : PinMask) : (s.setOen m).psfbAt = s.psfbAt := rfl
@[simp] theorem State.setOen_vfAt (m : PinMask) : (s.setOen m).vfAt = s.vfAt := rfl

/-! ### `record` -/

@[simp] theorem State.record_params (c : ExtCall) (a : ExtAnswer) : (s.record c a).params = s.params := rfl
@[simp] theorem State.record_env (c : ExtCall) (a : ExtAnswer) : (s.record c a).env = s.env := rfl
@[simp] theorem State.record_inbox (c : ExtCall) (a : ExtAnswer) : (s.record c a).inbox = s.inbox := rfl
@[simp] theorem State.record_lanes (c : ExtCall) (a : ExtAnswer) : (s.record c a).lanes = s.lanes := rfl
@[simp] theorem State.record_halted (c : ExtCall) (a : ExtAnswer) : (s.record c a).halted = s.halted := rfl
@[simp] theorem State.record_oen (c : ExtCall) (a : ExtAnswer) : (s.record c a).oen = s.oen := rfl
@[simp] theorem State.record_tim (c : ExtCall) (a : ExtAnswer) : (s.record c a).tim = s.tim := rfl
@[simp] theorem State.record_ch (c : ExtCall) (a : ExtAnswer) : (s.record c a).ch = s.ch := rfl
@[simp] theorem State.record_cfg (c : ExtCall) (a : ExtAnswer) : (s.record c a).cfg = s.cfg := rfl
@[simp] theorem State.record_leg (c : ExtCall) (a : ExtAnswer) : (s.record c a).leg = s.leg := rfl
@[simp] theorem State.record_inv (c : ExtCall) (a : ExtAnswer) : (s.record c a).inv = s.inv := rfl
@[simp] theorem State.record_psfb (c : ExtCall) (a : ExtAnswer) : (s.record c a).psfb = s.psfb := rfl
@[simp] theorem State.record_vf (c : ExtCall) (a : ExtAnswer) : (s.record c a).vf = s.vf := rfl
@[simp] theorem State.record_status (c : ExtCall) (a : ExtAnswer) : (s.record c a).status = s.status := rfl
@[simp] theorem State.record_rescode (c : ExtCall) (a : ExtAnswer) : (s.record c a).rescode = s.rescode := rfl
@[simp] theorem State.record_res0 (c : ExtCall) (a : ExtAnswer) : (s.record c a).res0 = s.res0 := rfl
@[simp] theorem State.record_res1 (c : ExtCall) (a : ExtAnswer) : (s.record c a).res1 = s.res1 := rfl
@[simp] theorem State.record_res2 (c : ExtCall) (a : ExtAnswer) : (s.record c a).res2 = s.res2 := rfl
@[simp] theorem State.record_res3 (c : ExtCall) (a : ExtAnswer) : (s.record c a).res3 = s.res3 := rfl
@[simp] theorem State.record_timAt (c : ExtCall) (a : ExtAnswer) : (s.record c a).timAt = s.timAt := rfl
@[simp] theorem State.record_chAt (c : ExtCall) (a : ExtAnswer) : (s.record c a).chAt = s.chAt := rfl
@[simp] theorem State.record_cfgAt (c : ExtCall) (a : ExtAnswer) : (s.record c a).cfgAt = s.cfgAt := rfl
@[simp] theorem State.record_legAt (c : ExtCall) (a : ExtAnswer) : (s.record c a).legAt = s.legAt := rfl
@[simp] theorem State.record_invAt (c : ExtCall) (a : ExtAnswer) : (s.record c a).invAt = s.invAt := rfl
@[simp] theorem State.record_psfbAt (c : ExtCall) (a : ExtAnswer) : (s.record c a).psfbAt = s.psfbAt := rfl
@[simp] theorem State.record_vfAt (c : ExtCall) (a : ExtAnswer) : (s.record c a).vfAt = s.vfAt := rfl

/-! ### `emit` -/

@[simp] theorem State.emit_params (c : ExtCall) : (s.emit c).params = s.params := rfl
@[simp] theorem State.emit_env (c : ExtCall) : (s.emit c).env = s.env := rfl
@[simp] theorem State.emit_inbox (c : ExtCall) : (s.emit c).inbox = s.inbox := rfl
@[simp] theorem State.emit_lanes (c : ExtCall) : (s.emit c).lanes = s.lanes := rfl
@[simp] theorem State.emit_halted (c : ExtCall) : (s.emit c).halted = s.halted := rfl
@[simp] theorem State.emit_oen (c : ExtCall) : (s.emit c).oen = s.oen := rfl
@[simp] theorem State.emit_tim (c : ExtCall) : (s.emit c).tim = s.tim := rfl
@[simp] theorem State.emit_ch (c : ExtCall) : (s.emit c).ch = s.ch := rfl
@[simp] theorem State.emit_cfg (c : ExtCall) : (s.emit c).cfg = s.cfg := rfl
@[simp] theorem State.emit_leg (c : ExtCall) : (s.emit c).leg = s.leg := rfl
@[simp] theorem State.emit_inv (c : ExtCall) : (s.emit c).inv = s.inv := rfl
@[simp] theorem State.emit_psfb (c : ExtCall) : (s.emit c).psfb = s.psfb := rfl
@[simp] theorem State.emit_vf (c : ExtCall) : (s.emit c).vf = s.vf := rfl
@[simp] theorem State.emit_status (c : ExtCall) : (s.emit c).status = s.status := rfl
@[simp] theorem State.emit_rescode (c : ExtCall) : (s.emit c).rescode = s.rescode := rfl
@[simp] theorem State.emit_res0 (c : ExtCall) : (s.emit c).res0 = s.res0 := rfl
@[simp] theorem State.emit_res1 (c : ExtCall) : (s.emit c).res1 = s.res1 := rfl
@[simp] theorem State.emit_res2 (c : ExtCall) : (s.emit c).res2 = s.res2 := rfl
@[simp] theorem State.emit_res3 (c : ExtCall) : (s.emit c).res3 = s.res3 := rfl
@[simp] theorem State.emit_timAt (c : ExtCall) : (s.emit c).timAt = s.timAt := rfl
@[simp] theorem State.emit_chAt (c : ExtCall) : (s.emit c).chAt = s.chAt := rfl
@[simp] theorem State.emit_cfgAt (c : ExtCall) : (s.emit c).cfgAt = s.cfgAt := rfl
@[simp] theorem State.emit_legAt (c : ExtCall) : (s.emit c).legAt = s.legAt := rfl
@[simp] theorem State.emit_invAt (c : ExtCall) : (s.emit c).invAt = s.invAt := rfl
@[simp] theorem State.emit_psfbAt (c : ExtCall) : (s.emit c).psfbAt = s.psfbAt := rfl
@[simp] theorem State.emit_vfAt (c : ExtCall) : (s.emit c).vfAt = s.vfAt := rfl

/-! ### `emitSpwm` -/

@[simp] theorem State.emitSpwm_params (x y : NUM) (d : Direction) : (s.emitSpwm x y d).params = s.params := rfl
@[simp] theorem State.emitSpwm_env (x y : NUM) (d : Direction) : (s.emitSpwm x y d).env = s.env := rfl
@[simp] theorem State.emitSpwm_inbox (x y : NUM) (d : Direction) : (s.emitSpwm x y d).inbox = s.inbox := rfl
@[simp] theorem State.emitSpwm_lanes (x y : NUM) (d : Direction) : (s.emitSpwm x y d).lanes = s.lanes := rfl
@[simp] theorem State.emitSpwm_halted (x y : NUM) (d : Direction) : (s.emitSpwm x y d).halted = s.halted := rfl
@[simp] theorem State.emitSpwm_oen (x y : NUM) (d : Direction) : (s.emitSpwm x y d).oen = s.oen := rfl
@[simp] theorem State.emitSpwm_tim (x y : NUM) (d : Direction) : (s.emitSpwm x y d).tim = s.tim := rfl
@[simp] theorem State.emitSpwm_ch (x y : NUM) (d : Direction) : (s.emitSpwm x y d).ch = s.ch := rfl
@[simp] theorem State.emitSpwm_cfg (x y : NUM) (d : Direction) : (s.emitSpwm x y d).cfg = s.cfg := rfl
@[simp] theorem State.emitSpwm_leg (x y : NUM) (d : Direction) : (s.emitSpwm x y d).leg = s.leg := rfl
@[simp] theorem State.emitSpwm_inv (x y : NUM) (d : Direction) : (s.emitSpwm x y d).inv = s.inv := rfl
@[simp] theorem State.emitSpwm_psfb (x y : NUM) (d : Direction) : (s.emitSpwm x y d).psfb = s.psfb := rfl
@[simp] theorem State.emitSpwm_vf (x y : NUM) (d : Direction) : (s.emitSpwm x y d).vf = s.vf := rfl
@[simp] theorem State.emitSpwm_status (x y : NUM) (d : Direction) : (s.emitSpwm x y d).status = s.status := rfl
@[simp] theorem State.emitSpwm_rescode (x y : NUM) (d : Direction) : (s.emitSpwm x y d).rescode = s.rescode := rfl
@[simp] theorem State.emitSpwm_res0 (x y : NUM) (d : Direction) : (s.emitSpwm x y d).res0 = s.res0 := rfl
@[simp] theorem State.emitSpwm_res1 (x y : NUM) (d : Direction) : (s.emitSpwm x y d).res1 = s.res1 := rfl
@[simp] theorem State.emitSpwm_res2 (x y : NUM) (d : Direction) : (s.emitSpwm x y d).res2 = s.res2 := rfl
@[simp] theorem State.emitSpwm_res3 (x y : NUM) (d : Direction) : (s.emitSpwm x y d).res3 = s.res3 := rfl
@[simp] theorem State.emitSpwm_timAt (x y : NUM) (d : Direction) : (s.emitSpwm x y d).timAt = s.timAt := rfl
@[simp] theorem State.emitSpwm_chAt (x y : NUM) (d : Direction) : (s.emitSpwm x y d).chAt = s.chAt := rfl
@[simp] theorem State.emitSpwm_cfgAt (x y : NUM) (d : Direction) : (s.emitSpwm x y d).cfgAt = s.cfgAt := rfl
@[simp] theorem State.emitSpwm_legAt (x y : NUM) (d : Direction) : (s.emitSpwm x y d).legAt = s.legAt := rfl
@[simp] theorem State.emitSpwm_invAt (x y : NUM) (d : Direction) : (s.emitSpwm x y d).invAt = s.invAt := rfl
@[simp] theorem State.emitSpwm_psfbAt (x y : NUM) (d : Direction) : (s.emitSpwm x y d).psfbAt = s.psfbAt := rfl
@[simp] theorem State.emitSpwm_vfAt (x y : NUM) (d : Direction) : (s.emitSpwm x y d).vfAt = s.vfAt := rfl

/-! ### `halt` -/

@[simp] theorem State.halt_params : s.halt.params = s.params := rfl
@[simp] theorem State.halt_env : s.halt.env = s.env := rfl
@[simp] theorem State.halt_inbox : s.halt.inbox = s.inbox := rfl
@[simp] theorem State.halt_lanes : s.halt.lanes = s.lanes := rfl
@[simp] theorem State.halt_ext : s.halt.ext = s.ext := rfl
@[simp] theorem State.halt_callNo : s.halt.callNo = s.callNo := rfl
@[simp] theorem State.halt_oen : s.halt.oen = s.oen := rfl
@[simp] theorem State.halt_tim : s.halt.tim = s.tim := rfl
@[simp] theorem State.halt_ch : s.halt.ch = s.ch := rfl
@[simp] theorem State.halt_cfg : s.halt.cfg = s.cfg := rfl
@[simp] theorem State.halt_leg : s.halt.leg = s.leg := rfl
@[simp] theorem State.halt_inv : s.halt.inv = s.inv := rfl
@[simp] theorem State.halt_psfb : s.halt.psfb = s.psfb := rfl
@[simp] theorem State.halt_vf : s.halt.vf = s.vf := rfl
@[simp] theorem State.halt_status : s.halt.status = s.status := rfl
@[simp] theorem State.halt_rescode : s.halt.rescode = s.rescode := rfl
@[simp] theorem State.halt_res0 : s.halt.res0 = s.res0 := rfl
@[simp] theorem State.halt_res1 : s.halt.res1 = s.res1 := rfl
@[simp] theorem State.halt_res2 : s.halt.res2 = s.res2 := rfl
@[simp] theorem State.halt_res3 : s.halt.res3 = s.res3 := rfl
@[simp] theorem State.halt_timAt : s.halt.timAt = s.timAt := rfl
@[simp] theorem State.halt_chAt : s.halt.chAt = s.chAt := rfl
@[simp] theorem State.halt_cfgAt : s.halt.cfgAt = s.cfgAt := rfl
@[simp] theorem State.halt_legAt : s.halt.legAt = s.legAt := rfl
@[simp] theorem State.halt_invAt : s.halt.invAt = s.invAt := rfl
@[simp] theorem State.halt_psfbAt : s.halt.psfbAt = s.psfbAt := rfl
@[simp] theorem State.halt_vfAt : s.halt.vfAt = s.vfAt := rfl

/-! ### `drive` -/

@[simp] theorem State.drive_params (e : Status) (r : Results) : (s.drive e r).params = s.params := rfl
@[simp] theorem State.drive_env (e : Status) (r : Results) : (s.drive e r).env = s.env := rfl
@[simp] theorem State.drive_inbox (e : Status) (r : Results) : (s.drive e r).inbox = s.inbox := rfl
@[simp] theorem State.drive_lanes (e : Status) (r : Results) : (s.drive e r).lanes = s.lanes := rfl
@[simp] theorem State.drive_ext (e : Status) (r : Results) : (s.drive e r).ext = s.ext := rfl
@[simp] theorem State.drive_callNo (e : Status) (r : Results) : (s.drive e r).callNo = s.callNo := rfl
@[simp] theorem State.drive_halted (e : Status) (r : Results) : (s.drive e r).halted = s.halted := rfl
@[simp] theorem State.drive_oen (e : Status) (r : Results) : (s.drive e r).oen = s.oen := rfl
@[simp] theorem State.drive_tim (e : Status) (r : Results) : (s.drive e r).tim = s.tim := rfl
@[simp] theorem State.drive_ch (e : Status) (r : Results) : (s.drive e r).ch = s.ch := rfl
@[simp] theorem State.drive_cfg (e : Status) (r : Results) : (s.drive e r).cfg = s.cfg := rfl
@[simp] theorem State.drive_leg (e : Status) (r : Results) : (s.drive e r).leg = s.leg := rfl
@[simp] theorem State.drive_inv (e : Status) (r : Results) : (s.drive e r).inv = s.inv := rfl
@[simp] theorem State.drive_psfb (e : Status) (r : Results) : (s.drive e r).psfb = s.psfb := rfl
@[simp] theorem State.drive_vf (e : Status) (r : Results) : (s.drive e r).vf = s.vf := rfl
@[simp] theorem State.drive_timAt (e : Status) (r : Results) : (s.drive e r).timAt = s.timAt := rfl
@[simp] theorem State.drive_chAt (e : Status) (r : Results) : (s.drive e r).chAt = s.chAt := rfl
@[simp] theorem State.drive_cfgAt (e : Status) (r : Results) : (s.drive e r).cfgAt = s.cfgAt := rfl
@[simp] theorem State.drive_legAt (e : Status) (r : Results) : (s.drive e r).legAt = s.legAt := rfl
@[simp] theorem State.drive_invAt (e : Status) (r : Results) : (s.drive e r).invAt = s.invAt := rfl
@[simp] theorem State.drive_psfbAt (e : Status) (r : Results) : (s.drive e r).psfbAt = s.psfbAt := rfl
@[simp] theorem State.drive_vfAt (e : Status) (r : Results) : (s.drive e r).vfAt = s.vfAt := rfl

/-! ### `setRole` -/

@[simp] theorem State.setRole_params (n : Nat) (r : Role) (o : Bool) : (s.setRole n r o).params = s.params := rfl
@[simp] theorem State.setRole_env (n : Nat) (r : Role) (o : Bool) : (s.setRole n r o).env = s.env := rfl
@[simp] theorem State.setRole_inbox (n : Nat) (r : Role) (o : Bool) : (s.setRole n r o).inbox = s.inbox := rfl
@[simp] theorem State.setRole_lanes (n : Nat) (r : Role) (o : Bool) : (s.setRole n r o).lanes = s.lanes := rfl
@[simp] theorem State.setRole_ext (n : Nat) (r : Role) (o : Bool) : (s.setRole n r o).ext = s.ext := rfl
@[simp] theorem State.setRole_callNo (n : Nat) (r : Role) (o : Bool) : (s.setRole n r o).callNo = s.callNo := rfl
@[simp] theorem State.setRole_halted (n : Nat) (r : Role) (o : Bool) : (s.setRole n r o).halted = s.halted := rfl
@[simp] theorem State.setRole_oen (n : Nat) (r : Role) (o : Bool) : (s.setRole n r o).oen = s.oen := rfl
@[simp] theorem State.setRole_tim (n : Nat) (r : Role) (o : Bool) : (s.setRole n r o).tim = s.tim := rfl
@[simp] theorem State.setRole_cfg (n : Nat) (r : Role) (o : Bool) : (s.setRole n r o).cfg = s.cfg := rfl
@[simp] theorem State.setRole_leg (n : Nat) (r : Role) (o : Bool) : (s.setRole n r o).leg = s.leg := rfl
@[simp] theorem State.setRole_inv (n : Nat) (r : Role) (o : Bool) : (s.setRole n r o).inv = s.inv := rfl
@[simp] theorem State.setRole_psfb (n : Nat) (r : Role) (o : Bool) : (s.setRole n r o).psfb = s.psfb := rfl
@[simp] theorem State.setRole_vf (n : Nat) (r : Role) (o : Bool) : (s.setRole n r o).vf = s.vf := rfl
@[simp] theorem State.setRole_status (n : Nat) (r : Role) (o : Bool) : (s.setRole n r o).status = s.status := rfl
@[simp] theorem State.setRole_rescode (n : Nat) (r : Role) (o : Bool) : (s.setRole n r o).rescode = s.rescode := rfl
@[simp] theorem State.setRole_res0 (n : Nat) (r : Role) (o : Bool) : (s.setRole n r o).res0 = s.res0 := rfl
@[simp] theorem State.setRole_res1 (n : Nat) (r : Role) (o : Bool) : (s.setRole n r o).res1 = s.res1 := rfl
@[simp] theorem State.setRole_res2 (n : Nat) (r : Role) (o : Bool) : (s.setRole n r o).res2 = s.res2 := rfl
@[simp] theorem State.setRole_res3 (n : Nat) (r : Role) (o : Bool) : (s.setRole n r o).res3 = s.res3 := rfl
@[simp] theorem State.setRole_timAt (n : Nat) (r : Role) (o : Bool) : (s.setRole n r o).timAt = s.timAt := rfl
@[simp] theorem State.setRole_cfgAt (n : Nat) (r : Role) (o : Bool) : (s.setRole n r o).cfgAt = s.cfgAt := rfl
@[simp] theorem State.setRole_legAt (n : Nat) (r : Role) (o : Bool) : (s.setRole n r o).legAt = s.legAt := rfl
@[simp] theorem State.setRole_invAt (n : Nat) (r : Role) (o : Bool) : (s.setRole n r o).invAt = s.invAt := rfl
@[simp] theorem State.setRole_psfbAt (n : Nat) (r : Role) (o : Bool) : (s.setRole n r o).psfbAt = s.psfbAt := rfl
@[simp] theorem State.setRole_vfAt (n : Nat) (r : Role) (o : Bool) : (s.setRole n r o).vfAt = s.vfAt := rfl

/-! ### `applyLimits` -/

@[simp] theorem State.applyLimits_params (t sl : Nat) (p : Bool) : (s.applyLimits t sl p).params = s.params := rfl
@[simp] theorem State.applyLimits_env (t sl : Nat) (p : Bool) : (s.applyLimits t sl p).env = s.env := rfl
@[simp] theorem State.applyLimits_inbox (t sl : Nat) (p : Bool) : (s.applyLimits t sl p).inbox = s.inbox := rfl
@[simp] theorem State.applyLimits_lanes (t sl : Nat) (p : Bool) : (s.applyLimits t sl p).lanes = s.lanes := rfl
@[simp] theorem State.applyLimits_ext (t sl : Nat) (p : Bool) : (s.applyLimits t sl p).ext = s.ext := rfl
@[simp] theorem State.applyLimits_callNo (t sl : Nat) (p : Bool) : (s.applyLimits t sl p).callNo = s.callNo := rfl
@[simp] theorem State.applyLimits_halted (t sl : Nat) (p : Bool) : (s.applyLimits t sl p).halted = s.halted := rfl
@[simp] theorem State.applyLimits_oen (t sl : Nat) (p : Bool) : (s.applyLimits t sl p).oen = s.oen := rfl
@[simp] theorem State.applyLimits_tim (t sl : Nat) (p : Bool) : (s.applyLimits t sl p).tim = s.tim := rfl
@[simp] theorem State.applyLimits_ch (t sl : Nat) (p : Bool) : (s.applyLimits t sl p).ch = s.ch := rfl
@[simp] theorem State.applyLimits_leg (t sl : Nat) (p : Bool) : (s.applyLimits t sl p).leg = s.leg := rfl
@[simp] theorem State.applyLimits_inv (t sl : Nat) (p : Bool) : (s.applyLimits t sl p).inv = s.inv := rfl
@[simp] theorem State.applyLimits_psfb (t sl : Nat) (p : Bool) : (s.applyLimits t sl p).psfb = s.psfb := rfl
@[simp] theorem State.applyLimits_vf (t sl : Nat) (p : Bool) : (s.applyLimits t sl p).vf = s.vf := rfl
@[simp] theorem State.applyLimits_status (t sl : Nat) (p : Bool) : (s.applyLimits t sl p).status = s.status := rfl
@[simp] theorem State.applyLimits_rescode (t sl : Nat) (p : Bool) : (s.applyLimits t sl p).rescode = s.rescode := rfl
@[simp] theorem State.applyLimits_res0 (t sl : Nat) (p : Bool) : (s.applyLimits t sl p).res0 = s.res0 := rfl
@[simp] theorem State.applyLimits_res1 (t sl : Nat) (p : Bool) : (s.applyLimits t sl p).res1 = s.res1 := rfl
@[simp] theorem State.applyLimits_res2 (t sl : Nat) (p : Bool) : (s.applyLimits t sl p).res2 = s.res2 := rfl
@[simp] theorem State.applyLimits_res3 (t sl : Nat) (p : Bool) : (s.applyLimits t sl p).res3 = s.res3 := rfl
@[simp] theorem State.applyLimits_timAt (t sl : Nat) (p : Bool) : (s.applyLimits t sl p).timAt = s.timAt := rfl
@[simp] theorem State.applyLimits_chAt (t sl : Nat) (p : Bool) : (s.applyLimits t sl p).chAt = s.chAt := rfl
@[simp] theorem State.applyLimits_legAt (t sl : Nat) (p : Bool) : (s.applyLimits t sl p).legAt = s.legAt := rfl
@[simp] theorem State.applyLimits_invAt (t sl : Nat) (p : Bool) : (s.applyLimits t sl p).invAt = s.invAt := rfl
@[simp] theorem State.applyLimits_psfbAt (t sl : Nat) (p : Bool) : (s.applyLimits t sl p).psfbAt = s.psfbAt := rfl
@[simp] theorem State.applyLimits_vfAt (t sl : Nat) (p : Bool) : (s.applyLimits t sl p).vfAt = s.vfAt := rfl

/-! ### `setShadow` -/

@[simp] theorem State.setShadow_params (n c : Nat) : (s.setShadow n c).params = s.params := rfl
@[simp] theorem State.setShadow_env (n c : Nat) : (s.setShadow n c).env = s.env := rfl
@[simp] theorem State.setShadow_inbox (n c : Nat) : (s.setShadow n c).inbox = s.inbox := rfl
@[simp] theorem State.setShadow_lanes (n c : Nat) : (s.setShadow n c).lanes = s.lanes := rfl
@[simp] theorem State.setShadow_ext (n c : Nat) : (s.setShadow n c).ext = s.ext := rfl
@[simp] theorem State.setShadow_callNo (n c : Nat) : (s.setShadow n c).callNo = s.callNo := rfl
@[simp] theorem State.setShadow_halted (n c : Nat) : (s.setShadow n c).halted = s.halted := rfl
@[simp] theorem State.setShadow_oen (n c : Nat) : (s.setShadow n c).oen = s.oen := rfl
@[simp] theorem State.setShadow_tim (n c : Nat) : (s.setShadow n c).tim = s.tim := rfl
@[simp] theorem State.setShadow_cfg (n c : Nat) : (s.setShadow n c).cfg = s.cfg := rfl
@[simp] theorem State.setShadow_leg (n c : Nat) : (s.setShadow n c).leg = s.leg := rfl
@[simp] theorem State.setShadow_inv (n c : Nat) : (s.setShadow n c).inv = s.inv := rfl
@[simp] theorem State.setShadow_psfb (n c : Nat) : (s.setShadow n c).psfb = s.psfb := rfl
@[simp] theorem State.setShadow_vf (n c : Nat) : (s.setShadow n c).vf = s.vf := rfl
@[simp] theorem State.setShadow_status (n c : Nat) : (s.setShadow n c).status = s.status := rfl
@[simp] theorem State.setShadow_rescode (n c : Nat) : (s.setShadow n c).rescode = s.rescode := rfl
@[simp] theorem State.setShadow_res0 (n c : Nat) : (s.setShadow n c).res0 = s.res0 := rfl
@[simp] theorem State.setShadow_res1 (n c : Nat) : (s.setShadow n c).res1 = s.res1 := rfl
@[simp] theorem State.setShadow_res2 (n c : Nat) : (s.setShadow n c).res2 = s.res2 := rfl
@[simp] theorem State.setShadow_res3 (n c : Nat) : (s.setShadow n c).res3 = s.res3 := rfl
@[simp] theorem State.setShadow_timAt (n c : Nat) : (s.setShadow n c).timAt = s.timAt := rfl
@[simp] theorem State.setShadow_cfgAt (n c : Nat) : (s.setShadow n c).cfgAt = s.cfgAt := rfl
@[simp] theorem State.setShadow_legAt (n c : Nat) : (s.setShadow n c).legAt = s.legAt := rfl
@[simp] theorem State.setShadow_invAt (n c : Nat) : (s.setShadow n c).invAt = s.invAt := rfl
@[simp] theorem State.setShadow_psfbAt (n c : Nat) : (s.setShadow n c).psfbAt = s.psfbAt := rfl
@[simp] theorem State.setShadow_vfAt (n c : Nat) : (s.setShadow n c).vfAt = s.vfAt := rfl

/-! ### `setCap` -/

@[simp] theorem State.setCap_params (l : Nat) (c : Capability) : (s.setCap l c).params = s.params := rfl
@[simp] theorem State.setCap_env (l : Nat) (c : Capability) : (s.setCap l c).env = s.env := rfl
@[simp] theorem State.setCap_inbox (l : Nat) (c : Capability) : (s.setCap l c).inbox = s.inbox := rfl
@[simp] theorem State.setCap_lanes (l : Nat) (c : Capability) : (s.setCap l c).lanes = s.lanes := rfl
@[simp] theorem State.setCap_ext (l : Nat) (c : Capability) : (s.setCap l c).ext = s.ext := rfl
@[simp] theorem State.setCap_callNo (l : Nat) (c : Capability) : (s.setCap l c).callNo = s.callNo := rfl
@[simp] theorem State.setCap_halted (l : Nat) (c : Capability) : (s.setCap l c).halted = s.halted := rfl
@[simp] theorem State.setCap_oen (l : Nat) (c : Capability) : (s.setCap l c).oen = s.oen := rfl
@[simp] theorem State.setCap_tim (l : Nat) (c : Capability) : (s.setCap l c).tim = s.tim := rfl
@[simp] theorem State.setCap_ch (l : Nat) (c : Capability) : (s.setCap l c).ch = s.ch := rfl
@[simp] theorem State.setCap_cfg (l : Nat) (c : Capability) : (s.setCap l c).cfg = s.cfg := rfl
@[simp] theorem State.setCap_inv (l : Nat) (c : Capability) : (s.setCap l c).inv = s.inv := rfl
@[simp] theorem State.setCap_psfb (l : Nat) (c : Capability) : (s.setCap l c).psfb = s.psfb := rfl
@[simp] theorem State.setCap_vf (l : Nat) (c : Capability) : (s.setCap l c).vf = s.vf := rfl
@[simp] theorem State.setCap_status (l : Nat) (c : Capability) : (s.setCap l c).status = s.status := rfl
@[simp] theorem State.setCap_rescode (l : Nat) (c : Capability) : (s.setCap l c).rescode = s.rescode := rfl
@[simp] theorem State.setCap_res0 (l : Nat) (c : Capability) : (s.setCap l c).res0 = s.res0 := rfl
@[simp] theorem State.setCap_res1 (l : Nat) (c : Capability) : (s.setCap l c).res1 = s.res1 := rfl
@[simp] theorem State.setCap_res2 (l : Nat) (c : Capability) : (s.setCap l c).res2 = s.res2 := rfl
@[simp] theorem State.setCap_res3 (l : Nat) (c : Capability) : (s.setCap l c).res3 = s.res3 := rfl
@[simp] theorem State.setCap_timAt (l : Nat) (c : Capability) : (s.setCap l c).timAt = s.timAt := rfl
@[simp] theorem State.setCap_chAt (l : Nat) (c : Capability) : (s.setCap l c).chAt = s.chAt := rfl
@[simp] theorem State.setCap_cfgAt (l : Nat) (c : Capability) : (s.setCap l c).cfgAt = s.cfgAt := rfl
@[simp] theorem State.setCap_invAt (l : Nat) (c : Capability) : (s.setCap l c).invAt = s.invAt := rfl
@[simp] theorem State.setCap_psfbAt (l : Nat) (c : Capability) : (s.setCap l c).psfbAt = s.psfbAt := rfl
@[simp] theorem State.setCap_vfAt (l : Nat) (c : Capability) : (s.setCap l c).vfAt = s.vfAt := rfl

/-! ### `commitChannel` -/

@[simp] theorem State.commitChannel_params (n : Nat) : (s.commitChannel n).params = s.params := rfl
@[simp] theorem State.commitChannel_env (n : Nat) : (s.commitChannel n).env = s.env := rfl
@[simp] theorem State.commitChannel_inbox (n : Nat) : (s.commitChannel n).inbox = s.inbox := rfl
@[simp] theorem State.commitChannel_lanes (n : Nat) : (s.commitChannel n).lanes = s.lanes := rfl
@[simp] theorem State.commitChannel_ext (n : Nat) : (s.commitChannel n).ext = s.ext := rfl
@[simp] theorem State.commitChannel_callNo (n : Nat) : (s.commitChannel n).callNo = s.callNo := rfl
@[simp] theorem State.commitChannel_halted (n : Nat) : (s.commitChannel n).halted = s.halted := rfl
@[simp] theorem State.commitChannel_oen (n : Nat) : (s.commitChannel n).oen = s.oen := rfl
@[simp] theorem State.commitChannel_tim (n : Nat) : (s.commitChannel n).tim = s.tim := rfl
@[simp] theorem State.commitChannel_cfg (n : Nat) : (s.commitChannel n).cfg = s.cfg := rfl
@[simp] theorem State.commitChannel_leg (n : Nat) : (s.commitChannel n).leg = s.leg := rfl
@[simp] theorem State.commitChannel_inv (n : Nat) : (s.commitChannel n).inv = s.inv := rfl
@[simp] theorem State.commitChannel_psfb (n : Nat) : (s.commitChannel n).psfb = s.psfb := rfl
@[simp] theorem State.commitChannel_vf (n : Nat) : (s.commitChannel n).vf = s.vf := rfl
@[simp] theorem State.commitChannel_status (n : Nat) : (s.commitChannel n).status = s.status := rfl
@[simp] theorem State.commitChannel_rescode (n : Nat) : (s.commitChannel n).rescode = s.rescode := rfl
@[simp] theorem State.commitChannel_res0 (n : Nat) : (s.commitChannel n).res0 = s.res0 := rfl
@[simp] theorem State.commitChannel_res1 (n : Nat) : (s.commitChannel n).res1 = s.res1 := rfl
@[simp] theorem State.commitChannel_res2 (n : Nat) : (s.commitChannel n).res2 = s.res2 := rfl
@[simp] theorem State.commitChannel_res3 (n : Nat) : (s.commitChannel n).res3 = s.res3 := rfl
@[simp] theorem State.commitChannel_timAt (n : Nat) : (s.commitChannel n).timAt = s.timAt := rfl
@[simp] theorem State.commitChannel_cfgAt (n : Nat) : (s.commitChannel n).cfgAt = s.cfgAt := rfl
@[simp] theorem State.commitChannel_legAt (n : Nat) : (s.commitChannel n).legAt = s.legAt := rfl
@[simp] theorem State.commitChannel_invAt (n : Nat) : (s.commitChannel n).invAt = s.invAt := rfl
@[simp] theorem State.commitChannel_psfbAt (n : Nat) : (s.commitChannel n).psfbAt = s.psfbAt := rfl
@[simp] theorem State.commitChannel_vfAt (n : Nat) : (s.commitChannel n).vfAt = s.vfAt := rfl

/-! ### The records an update writes -/

theorem State.timAt_setTim (k m : Nat) (v : Tim) :
    (s.setTim k v).timAt m = if m = k then v else s.timAt m := Bank.read_write _ _ _ _ _
@[simp] theorem State.timAt_setTim_same (k : Nat) (v : Tim) : (s.setTim k v).timAt k = v := by
  simp [State.timAt_setTim]
theorem State.timAt_setTim_other (k m : Nat) (v : Tim) (h : m ≠ k) :
    (s.setTim k v).timAt m = s.timAt m := by
  simp [State.timAt_setTim, h]

theorem State.chAt_setCh (k m : Nat) (v : Chan) :
    (s.setCh k v).chAt m = if m = k then v else s.chAt m := Bank.read_write _ _ _ _ _
@[simp] theorem State.chAt_setCh_same (k : Nat) (v : Chan) : (s.setCh k v).chAt k = v := by
  simp [State.chAt_setCh]
theorem State.chAt_setCh_other (k m : Nat) (v : Chan) (h : m ≠ k) :
    (s.setCh k v).chAt m = s.chAt m := by
  simp [State.chAt_setCh, h]

theorem State.cfgAt_setCfg (k m : Nat) (v : Slot) :
    (s.setCfg k v).cfgAt m = if m = k then v else s.cfgAt m := Bank.read_write _ _ _ _ _
@[simp] theorem State.cfgAt_setCfg_same (k : Nat) (v : Slot) : (s.setCfg k v).cfgAt k = v := by
  simp [State.cfgAt_setCfg]
theorem State.cfgAt_setCfg_other (k m : Nat) (v : Slot) (h : m ≠ k) :
    (s.setCfg k v).cfgAt m = s.cfgAt m := by
  simp [State.cfgAt_setCfg, h]

theorem State.legAt_setLeg (k m : Nat) (v : Leg) :
    (s.setLeg k v).legAt m = if m = k then v else s.legAt m := Bank.read_write _ _ _ _ _
@[simp] theorem State.legAt_setLeg_same (k : Nat) (v : Leg) : (s.setLeg k v).legAt k = v := by
  simp [State.legAt_setLeg]
theorem State.legAt_setLeg_other (k m : Nat) (v : Leg) (h : m ≠ k) :
    (s.setLeg k v).legAt m = s.legAt m := by
  simp [State.legAt_setLeg, h]

theorem State.invAt_setInv (k m : Nat) (v : Inv) :
    (s.setInv k v).invAt m = if m = k then v else s.invAt m := Bank.read_write _ _ _ _ _
@[simp] theorem State.invAt_setInv_same (k : Nat) (v : Inv) : (s.setInv k v).invAt k = v := by
  simp [State.invAt_setInv]
theorem State.invAt_setInv_other (k m : Nat) (v : Inv) (h : m ≠ k) :
    (s.setInv k v).invAt m = s.invAt m := by
  simp [State.invAt_setInv, h]

theorem State.psfbAt_setPsfb (k m : Nat) (v : Psfb) :
    (s.setPsfb k v).psfbAt m = if m = k then v else s.psfbAt m := Bank.read_write _ _ _ _ _
@[simp] theorem State.psfbAt_setPsfb_same (k : Nat) (v : Psfb) : (s.setPsfb k v).psfbAt k = v := by
  simp [State.psfbAt_setPsfb]
theorem State.psfbAt_setPsfb_other (k m : Nat) (v : Psfb) (h : m ≠ k) :
    (s.setPsfb k v).psfbAt m = s.psfbAt m := by
  simp [State.psfbAt_setPsfb, h]

theorem State.vfAt_setVf (k m : Nat) (v : Vf) :
    (s.setVf k v).vfAt m = if m = k then v else s.vfAt m := Bank.read_write _ _ _ _ _
@[simp] theorem State.vfAt_setVf_same (k : Nat) (v : Vf) : (s.setVf k v).vfAt k = v := by
  simp [State.vfAt_setVf]
theorem State.vfAt_setVf_other (k m : Nat) (v : Vf) (h : m ≠ k) :
    (s.setVf k v).vfAt m = s.vfAt m := by
  simp [State.vfAt_setVf, h]

theorem State.chAt_setRole (n m : Nat) (r : Role) (o : Bool) :
    (s.setRole n r o).chAt m = if m = n then { s.chAt n with role := r, ocsel := o } else s.chAt m :=
  State.chAt_setCh _ _ _ _

theorem State.chAt_setShadow (n m c : Nat) :
    (s.setShadow n c).chAt m = if m = n then { s.chAt n with cmps := c } else s.chAt m :=
  State.chAt_setCh _ _ _ _

theorem State.chAt_commitChannel (n m : Nat) :
    (s.commitChannel n).chAt m =
      if m = n then { s.chAt n with cmpa := (s.chAt n).cmps } else s.chAt m :=
  State.chAt_setCh _ _ _ _

theorem State.legAt_setCap (l m : Nat) (c : Capability) :
    (s.setCap l c).legAt m = if m = l then { s.legAt l with cap := c } else s.legAt m :=
  State.legAt_setLeg _ _ _ _

theorem State.cfgAt_applyLimits (t sl m : Nat) (p : Bool) :
    (s.applyLimits t sl p).cfgAt m =
      if m = sl then limitSlot (s.timAt t) p (s.cfgAt sl) else s.cfgAt m :=
  State.cfgAt_setCfg _ _ _ _

@[simp] theorem State.setOen_oen (m : PinMask) : (s.setOen m).oen = m := rfl
@[simp] theorem State.halt_halted : s.halt.halted = true := rfl
@[simp] theorem State.record_ext (c : ExtCall) (a : ExtAnswer) :
    (s.record c a).ext = s.ext ++ [⟨c, a⟩] := rfl
@[simp] theorem State.record_callNo (c : ExtCall) (a : ExtAnswer) :
    (s.record c a).callNo = s.callNo + 1 := rfl
@[simp] theorem State.emit_ext (c : ExtCall) : (s.emit c).ext = s.ext ++ [⟨c, .ok⟩] := rfl
@[simp] theorem State.emit_callNo (c : ExtCall) : (s.emit c).callNo = s.callNo + 1 := rfl
@[simp] theorem State.emitSpwm_callNo (x y : NUM) (d : Direction) :
    (s.emitSpwm x y d).callNo = s.callNo + 1 := rfl
@[simp] theorem State.drive_status (e : Status) (r : Results) : (s.drive e r).status = e := rfl
@[simp] theorem State.drive_rescode (e : Status) (r : Results) :
    (s.drive e r).rescode = r.rescode := rfl
@[simp] theorem State.drive_res0 (e : Status) (r : Results) : (s.drive e r).res0 = r.res0 := rfl
@[simp] theorem State.drive_res1 (e : Status) (r : Results) : (s.drive e r).res1 = r.res1 := rfl
@[simp] theorem State.drive_res2 (e : Status) (r : Results) : (s.drive e r).res2 = r.res2 := rfl
@[simp] theorem State.drive_res3 (e : Status) (r : Results) : (s.drive e r).res3 = r.res3 := rfl
@[simp] theorem State.drive_drive (e e' : Status) (r r' : Results) :
    (s.drive e r).drive e' r' = s.drive e' r' := rfl

/-! ### Every bank write keeps the canonical form -/

theorem State.banksWf_iff :
    s.banksWf = true ↔ Bank.wf Tim.reset s.tim = true ∧ Bank.wf Chan.reset s.ch = true ∧
      Bank.wf Slot.reset s.cfg = true ∧ Bank.wf Leg.reset s.leg = true ∧
      Bank.wf Inv.reset s.inv = true ∧ Bank.wf Psfb.reset s.psfb = true ∧
      Bank.wf Vf.reset s.vf = true := by
  simp only [State.banksWf, Bool.and_eq_true, and_assoc]

theorem State.banksWf_setTim (h : s.banksWf = true) (t : Nat) (v : Tim) :
    (s.setTim t v).banksWf = true := by
  obtain ⟨h1, h2, h3, h4, h5, h6, h7⟩ := s.banksWf_iff.mp h
  exact (State.banksWf_iff _).mpr ⟨Bank.wf_write _ _ _ _ h1, h2, h3, h4, h5, h6, h7⟩

theorem State.banksWf_setCh (h : s.banksWf = true) (n : Nat) (v : Chan) :
    (s.setCh n v).banksWf = true := by
  obtain ⟨h1, h2, h3, h4, h5, h6, h7⟩ := s.banksWf_iff.mp h
  exact (State.banksWf_iff _).mpr ⟨h1, Bank.wf_write _ _ _ _ h2, h3, h4, h5, h6, h7⟩

theorem State.banksWf_setCfg (h : s.banksWf = true) (sl : Nat) (v : Slot) :
    (s.setCfg sl v).banksWf = true := by
  obtain ⟨h1, h2, h3, h4, h5, h6, h7⟩ := s.banksWf_iff.mp h
  exact (State.banksWf_iff _).mpr ⟨h1, h2, Bank.wf_write _ _ _ _ h3, h4, h5, h6, h7⟩

theorem State.banksWf_setLeg (h : s.banksWf = true) (l : Nat) (v : Leg) :
    (s.setLeg l v).banksWf = true := by
  obtain ⟨h1, h2, h3, h4, h5, h6, h7⟩ := s.banksWf_iff.mp h
  exact (State.banksWf_iff _).mpr ⟨h1, h2, h3, Bank.wf_write _ _ _ _ h4, h5, h6, h7⟩

theorem State.banksWf_setInv (h : s.banksWf = true) (i : Nat) (v : Inv) :
    (s.setInv i v).banksWf = true := by
  obtain ⟨h1, h2, h3, h4, h5, h6, h7⟩ := s.banksWf_iff.mp h
  exact (State.banksWf_iff _).mpr ⟨h1, h2, h3, h4, Bank.wf_write _ _ _ _ h5, h6, h7⟩

theorem State.banksWf_setPsfb (h : s.banksWf = true) (j : Nat) (v : Psfb) :
    (s.setPsfb j v).banksWf = true := by
  obtain ⟨h1, h2, h3, h4, h5, h6, h7⟩ := s.banksWf_iff.mp h
  exact (State.banksWf_iff _).mpr ⟨h1, h2, h3, h4, h5, Bank.wf_write _ _ _ _ h6, h7⟩

theorem State.banksWf_setVf (h : s.banksWf = true) (k : Nat) (v : Vf) :
    (s.setVf k v).banksWf = true := by
  obtain ⟨h1, h2, h3, h4, h5, h6, h7⟩ := s.banksWf_iff.mp h
  exact (State.banksWf_iff _).mpr ⟨h1, h2, h3, h4, h5, h6, Bank.wf_write _ _ _ _ h7⟩

/-- The reset state's banks are canonical. -/
theorem State.banksWf_reset : State.reset.banksWf = true := rfl

end Sys2Proof.Machine
end

