-- ==== Sys2Proof/Laws/Ops.lean ====
section
/-! SUPPORT. How operations compose and how a command ends: one lemma per shared operation that says
everything it can do. -/

namespace Sys2Proof.Machine

variable {α β : Type}

@[simp] theorem Done.andThen_ok (a : α) (s : State) (k : α → State → Done β) :
    (Done.ok a s).andThen k = k a s := rfl
@[simp] theorem Done.andThen_err (e : Status) (s : State) (k : α → State → Done β) :
    (Done.err e s).andThen k = .err e s := rfl
@[simp] theorem Done.state_ok (a : α) (s : State) : (Done.ok a s).state = s := rfl
@[simp] theorem Done.state_err (e : Status) (s : State) : (Done.err e s : Done α).state = s := rfl

theorem Done.andThen_eq_ok {r : Done α} {k : α → State → Done β} {b : β} {t : State} :
    r.andThen k = .ok b t ↔ ∃ a s, r = .ok a s ∧ k a s = .ok b t := by
  cases r <;> simp

theorem Done.andThen_eq_err {r : Done α} {k : α → State → Done β} {e : Status} {t : State} :
    r.andThen k = .err e t ↔ r = .err e t ∨ ∃ a s, r = .ok a s ∧ k a s = .err e t := by
  cases r <;> simp

theorem Done.andThen_assoc {γ : Type} (r : Done α) (k : α → State → Done β)
    (m : β → State → Done γ) :
    (r.andThen k).andThen m = r.andThen fun a s => (k a s).andThen m := by
  cases r <;> rfl

@[simp] theorem forUnits_nil (f : Nat → State → Done Unit) (s : State) :
    forUnits f [] s = .ok () s := rfl
@[simp] theorem forUnits_cons (f : Nat → State → Done Unit) (l : Nat) (ls : List Nat) (s : State) :
    forUnits f (l :: ls) s = (f l s).andThen fun _ s' => forUnits f ls s' := rfl

@[simp] theorem Done.finish_ok (r : Results) (s : State) : (Done.ok r s).finish = s.drive .ok r :=
  rfl
@[simp] theorem Done.finish_err (e : Status) (s : State) :
    (Done.err e s : Done Results).finish = s.drive e Results.none := rfl

/-! ### Commands -/

/-- A command while CORE runs answers the end of its operation. -/
theorem command_running {op : State → Done Results} {s : State} (h : s.halted = false) :
    command op s = .next (op s).finish := by simp [command, h]

/-- A command while CORE is halted (R305). -/
theorem command_halted {op : State → Done Results} {s : State} (h : s.halted = true) :
    command op s = .next (s.drive .fatalHwinit Results.none) := by simp [command, h]

theorem portHolds_drive (s : State) (e : Status) (r : Results) :
    portHolds (s.drive e r) e r.rescode r.res0 r.res1 r.res2 r.res3 := ⟨rfl, rfl, rfl, rfl, rfl, rfl⟩

/-- Driving the result port changes nothing else. -/
theorem drive_frame (s : State) (e : Status) (r : Results) :
    sameInputs s (s.drive e r) ∧ sameCalls s (s.drive e r) ∧ sameBanks s (s.drive e r) := by
  refine ⟨⟨rfl, rfl, rfl, rfl⟩, ⟨rfl, rfl⟩, ⟨rfl, rfl⟩, ?_, ?_, ?_, ?_, ?_, ?_, ?_⟩ <;> intro _ <;> rfl

/-- A status driven on an unchanged state is a refusal without effect. -/
theorem refusedWith_drive (s : State) (e : Status) : refusedWith s (s.drive e Results.none) e :=
  ⟨portHolds_drive s e Results.none, (drive_frame s e _).1, (drive_frame s e _).2.1,
    (drive_frame s e _).2.2⟩

/-- The operation a command performs (R104). -/
def opOf : Instr → State → Done Results
  | .wrf addr => withArg0 (writeField addr)
  | .rdf addr => readField addr
  | .dtenc => withArgs encodeDeadTime
  | .tinit t sl => fun s => noResults (timerInit t sl s)
  | .cfgpair n sl => fun s => noResults (configPair n sl s)
  | .cfgch n sl => fun s => noResults (configChannel n sl s)
  | .updpair n sl => withArg0 fun d s => dutyResult (updatePair n sl d s)
  | .updch n sl => withArg0 fun d s => dutyResult (updateChannel n sl d s)
  | .cfgirq t cb prio e => fun s => noResults (configIrq t cb prio e s)
  | .cfgleg l => fun s => (configLeg l s).andThen fun cap s' =>
      .ok (Results.code (BitVec.ofNat 8 cap.code)) s'
  | .enleg l e => fun s => noResults (enableLeg l e s)
  | .capupd l => withArg0 fun d s => dutyResult (capabilityUpdate l d s)
  | .invinit i => fun s => noResults (inverterInit i s)
  | .invupd i => withArgs fun d0 d1 d2 s => dutiesResult (inverterUpdate i d0 d1 d2 s)
  | .invspwm i dir => withArg01 fun theta mi s => dutiesResult (inverterSpwm i dir theta mi s)
  | .invact i e => fun s => noResults (inverterActivate i e s)
  | .psfbinit j => fun s => noResults (psfbInit j s)
  | .psfbupd j => withArg0 fun d s => dutyResult (psfbUpdate j d s)
  | .psfbact j e => fun s => noResults (psfbActivate j e s)
  | .vfinit k => fun s => noResults (rampInit k s)
  | .vfstep k => rampStep k

/-- Every command is `command` over its operation. -/
theorem exec_eq (i : Instr) (s : State) : exec i s = command (opOf i) s := by cases i <;> rfl

/-- A command always answers a next state (R300). -/
theorem exec_next (i : Instr) (s : State) : ∃ t, exec i s = .next t := ⟨_, exec_eq i s⟩

theorem exec_running {i : Instr} {s : State} (h : s.halted = false) :
    exec i s = .next (opOf i s).finish := by rw [exec_eq, command_running h]

/-! ### Operand lanes -/

theorem withArg0_some {op : NUM → State → Done Results} {s : State} {a : NUM}
    (h : s.lanes.arg0.value = some a) : withArg0 op s = op a s := by simp [withArg0, h]

theorem withArg01_some {op : NUM → NUM → State → Done Results} {s : State} {a b : NUM}
    (ha : s.lanes.arg0.value = some a) (hb : s.lanes.arg1.value = some b) :
    withArg01 op s = op a b s := by simp [withArg01, ha, hb]

theorem withArgs_some {op : NUM → NUM → NUM → State → Done Results} {s : State} {a b c : NUM}
    (ha : s.lanes.arg0.value = some a) (hb : s.lanes.arg1.value = some b)
    (hc : s.lanes.arg2.value = some c) : withArgs op s = op a b c s := by
  simp [withArgs, ha, hb, hc]

/-- Either the lane is a number and the operation runs on it, or the command is refused (R103). -/
theorem withArg0_cases (op : NUM → State → Done Results) (s : State) :
    (s.lanes.arg0.value = none ∧ withArg0 op s = .err .errValue s) ∨
    ∃ a, s.lanes.arg0.value = some a ∧ withArg0 op s = op a s := by
  unfold withArg0
  cases s.lanes.arg0.value <;> simp

theorem withArg01_cases (op : NUM → NUM → State → Done Results) (s : State) :
    ((s.lanes.arg0.value = none ∨ s.lanes.arg1.value = none) ∧
      withArg01 op s = .err .errValue s) ∨
    ∃ a b, s.lanes.arg0.value = some a ∧ s.lanes.arg1.value = some b ∧
      withArg01 op s = op a b s := by
  unfold withArg01
  cases s.lanes.arg0.value <;> cases s.lanes.arg1.value <;> simp

theorem withArgs_cases (op : NUM → NUM → NUM → State → Done Results) (s : State) :
    ((s.lanes.arg0.value = none ∨ s.lanes.arg1.value = none ∨ s.lanes.arg2.value = none) ∧
      withArgs op s = .err .errValue s) ∨
    ∃ a b c, s.lanes.arg0.value = some a ∧ s.lanes.arg1.value = some b ∧
      s.lanes.arg2.value = some c ∧ withArgs op s = op a b c s := by
  unfold withArgs
  cases s.lanes.arg0.value <;> cases s.lanes.arg1.value <;> cases s.lanes.arg2.value <;> simp

/-- A lane delivers no number exactly when it is not a finite real (R103). -/
theorem Lane.value_eq_none {x : Lane} : x.value = none ↔ x = .notFinite := by
  cases x <;> simp [Lane.value]

/-! ### External calls -/

/-- A timer-base call: recorded and answered `ok`, or recorded as failed with CORE halted (R305). -/
theorem timerCall_cases (c : ExtCall) (s : State) :
    (s.callNo ∈ s.env.timerFails ∧ timerCall c s = .err .fatalHwinit (s.record c .fail).halt) ∨
    (s.callNo ∉ s.env.timerFails ∧ timerCall c s = .ok () (s.emit c)) := by
  unfold timerCall
  by_cases h : s.callNo ∈ s.env.timerFails <;> simp [h]

theorem timerCall_ok {c : ExtCall} {s : State} (h : s.callNo ∉ s.env.timerFails) :
    timerCall c s = .ok () (s.emit c) := by
  unfold timerCall
  rw [if_neg h]

theorem timerCall_fail {c : ExtCall} {s : State} (h : s.callNo ∈ s.env.timerFails) :
    timerCall c s = .err .fatalHwinit (s.record c .fail).halt := by
  unfold timerCall
  rw [if_pos h]

theorem State.callsAnswered.left {s : State} {a b : List ExtCall}
    (h : s.callsAnswered (a ++ b)) : s.callsAnswered a := by
  intro j c hj ht
  refine h j c ?_ ht
  have hlt : j < a.length := (List.getElem?_eq_some_iff.mp hj).1
  rw [List.getElem?_append_left hlt]; exact hj

/-- Once the first calls of a list are made, the rest are the next calls. -/
theorem State.callsAnswered.right {s t : State} {a b : List ExtCall}
    (h : s.callsAnswered (a ++ b)) (he : t.env = s.env) (hc : calledOk s t a) :
    t.callsAnswered b := by
  intro j c hj ht
  rw [hc.2, he, Nat.add_assoc]
  refine h (a.length + j) c ?_ ht
  rw [List.getElem?_append_right (by omega)]
  simpa using hj

/-- The four timer-base calls are answered `ok` exactly when none of the next four calls fails. -/
theorem State.callsAnswered.base {s : State} {t : Nat} {tp : TimerParams} {al : Align} {tm : Timing}
    (h : s.callsAnswered (baseCalls t tp al tm)) : s.baseCallsOk := by
  intro j hj
  obtain rfl | rfl | rfl | rfl : j = 0 ∨ j = 1 ∨ j = 2 ∨ j = 3 := by omega
  · exact h 0 _ rfl rfl
  · exact h 1 _ rfl rfl
  · exact h 2 _ rfl rfl
  · exact h 3 _ rfl rfl

/-- Many calls, each answered `ok`. -/
def State.emits (s : State) : List ExtCall → State
  | [] => s
  | c :: cs => (s.emit c).emits cs

theorem State.emits_eq (s : State) (cs : List ExtCall) :
    s.emits cs = { s with
      ext := s.ext ++ cs.map (fun c => ⟨c, .ok⟩), callNo := s.callNo + cs.length } := by
  induction cs generalizing s with
  | nil => simp [State.emits]
  | cons c cs ih =>
    rw [State.emits, ih]
    simp [State.emit, State.record, Nat.add_assoc, Nat.add_comm 1]

section
variable (s : State) (cs : List ExtCall)
@[simp] theorem State.emits_params : (s.emits cs).params = s.params := by rw [State.emits_eq]
@[simp] theorem State.emits_env : (s.emits cs).env = s.env := by rw [State.emits_eq]
@[simp] theorem State.emits_inbox : (s.emits cs).inbox = s.inbox := by rw [State.emits_eq]
@[simp] theorem State.emits_lanes : (s.emits cs).lanes = s.lanes := by rw [State.emits_eq]
@[simp] theorem State.emits_halted : (s.emits cs).halted = s.halted := by rw [State.emits_eq]
@[simp] theorem State.emits_oen : (s.emits cs).oen = s.oen := by rw [State.emits_eq]
@[simp] theorem State.emits_status : (s.emits cs).status = s.status := by rw [State.emits_eq]
@[simp] theorem State.emits_rescode : (s.emits cs).rescode = s.rescode := by rw [State.emits_eq]
@[simp] theorem State.emits_res0 : (s.emits cs).res0 = s.res0 := by rw [State.emits_eq]
@[simp] theorem State.emits_res1 : (s.emits cs).res1 = s.res1 := by rw [State.emits_eq]
@[simp] theorem State.emits_res2 : (s.emits cs).res2 = s.res2 := by rw [State.emits_eq]
@[simp] theorem State.emits_res3 : (s.emits cs).res3 = s.res3 := by rw [State.emits_eq]
@[simp] theorem State.emits_timAt : (s.emits cs).timAt = s.timAt := by rw [State.emits_eq]; rfl
@[simp] theorem State.emits_chAt : (s.emits cs).chAt = s.chAt := by rw [State.emits_eq]; rfl
@[simp] theorem State.emits_cfgAt : (s.emits cs).cfgAt = s.cfgAt := by rw [State.emits_eq]; rfl
@[simp] theorem State.emits_legAt : (s.emits cs).legAt = s.legAt := by rw [State.emits_eq]; rfl
@[simp] theorem State.emits_invAt : (s.emits cs).invAt = s.invAt := by rw [State.emits_eq]; rfl
@[simp] theorem State.emits_psfbAt : (s.emits cs).psfbAt = s.psfbAt := by rw [State.emits_eq]; rfl
@[simp] theorem State.emits_vfAt : (s.emits cs).vfAt = s.vfAt := by rw [State.emits_eq]; rfl
end

theorem calledOk_emits (s : State) (cs : List ExtCall) : calledOk s (s.emits cs) cs := by
  rw [State.emits_eq]; exact ⟨rfl, rfl⟩

end Sys2Proof.Machine
end

