-- ==== Sys2Proof/Laws/Change.lean ====
section
/-! SUPPORT. Everything a step can do to the state, said once: `Change` lists the single updates that
the operations make, each with what it guarantees, and every operation is a chain of them. A command is
such a chain and then its end at the result port. A property that every `Change` keeps, and that does
not look at the port, is kept by every step. -/

namespace Sys2Proof.Machine

/-- One update of the state that some operation makes. -/
inductive Change : State → State → Prop
  /-- An external call whose answer lets CORE go on (R320). -/
  | call (s : State) (c : ExtCall) (a : ExtAnswer) (ha : a ≠ .fail) : Change s (s.record c a)
  /-- A failed timer-base call (R305). -/
  | halt (s : State) (c : ExtCall) : Change s (s.record c .fail).halt
  /-- The first successful `TINIT` of an instance (R151). -/
  | init (s : State) (t : Nat) (c : Slot) (tm : Timing) (ht : t ≤ 1)
      (hi : (s.timAt t).init = false) (hc : slotTiming (s.params.timer t) c tm) :
      Change s (s.setTim t (initTim (s.timAt t) c tm))
  /-- A callback slot written (R170). -/
  | callback (s : State) (t : Nat) (cb : Byte) (prio : Nibble)
      (hc : cb = 0 ∨ callbackLegal s.params cb = true) :
      Change s (s.setTim t { s.timAt t with cb := cb, cbPrio := prio })
  /-- Role and polarity of a channel written (R155, R156). -/
  | role (s : State) (n : Nat) (r : Role) (o : Bool) : Change s (s.setRole n r o)
  /-- A slot written: by `WRF` or by `Limits` (R158, R291). -/
  | slot (s : State) (sl : Nat) (c : Slot) : Change s (s.setCfg sl c)
  /-- A shadow compare value written: for the reference m of a channel or pair (R161, R166). -/
  | shadow (s : State) (n m c : Nat) (hn : n = m ∨ (n = m + 1 ∧ m % 2 = 1))
      (hc : c ≤ (s.timAt (instOf s.params m)).period) : Change s (s.setShadow n c)
  /-- The shadow commit of a channel (R172). -/
  | commit (s : State) (n : Nat) : Change s (s.commitChannel n)
  /-- A leg written: by `WRF`, `CFGLEG` or `ENLEG`. -/
  | leg (s : State) (l : Nat) (r : Leg) (hc : r.cap = (s.legAt l).cap ∨ r.cap ≠ .phaseShift) :
      Change s (s.setLeg l r)
  /-- A masked enable write (R207). -/
  | enable (s : State) (p w : Nat) (e : Bool) (hp : 1 ≤ p) (hw : p + w - 1 ≤ s.params.npwm) :
      Change s (s.setOen (maskedEnable s.oen (legMask p w) e))
  /-- An inverter record written. -/
  | inv (s : State) (i : Nat) (r : Inv) : Change s (s.setInv i r)
  /-- A full-bridge record written. -/
  | psfb (s : State) (j : Nat) (r : Psfb) : Change s (s.setPsfb j r)
  /-- A controller record written: its angle kept, cleared or advanced (R261, R267). -/
  | vf (s : State) (k : Nat) (r : Vf)
      (ht : r.theta = (s.vfAt k).theta ∨ r.theta = .rat 0 ∨ ∃ x, r.theta = rmod x TWO_PI) :
      Change s (s.setVf k r)

/-- A chain of updates. -/
def Reach : State → State → Prop := Relation.ReflTransGen Change

theorem Reach.refl (s : State) : Reach s s := Relation.ReflTransGen.refl
theorem Reach.one {s t : State} (h : Change s t) : Reach s t := Relation.ReflTransGen.single h
theorem Reach.then {s t u : State} (h : Reach s t) (g : Change t u) : Reach s u :=
  Relation.ReflTransGen.tail h g
theorem Reach.trans {s t u : State} (h : Reach s t) (g : Reach t u) : Reach s u :=
  Relation.ReflTransGen.trans h g

/-- A property of a state that every update keeps holds after every chain of updates. -/
theorem Reach.keeps {P : State → Prop} (hP : ∀ s t, Change s t → P s → P t) {s t : State}
    (h : Reach s t) (hs : P s) : P t := by
  induction h with
  | refl => exact hs
  | tail _ g ih => exact hP _ _ g ih

/-- No update changes the parameters or the environment. -/
theorem Change.params {s t : State} (h : Change s t) : t.params = s.params ∧ t.env = s.env := by
  cases h <;> exact ⟨rfl, rfl⟩

theorem Reach.params {s t : State} (h : Reach s t) : t.params = s.params ∧ t.env = s.env := by
  induction h with
  | refl => exact ⟨rfl, rfl⟩
  | tail _ g ih => exact ⟨g.params.1.trans ih.1, g.params.2.trans ih.2⟩

variable {α β : Type}

theorem Reach.andThen {s : State} {r : Done α} {k : α → State → Done β} (h : Reach s r.state)
    (hk : ∀ a t, r = .ok a t → Reach s t → Reach s (k a t).state) :
    Reach s (r.andThen k).state := by
  cases r with
  | ok a t => exact hk a t rfl h
  | err e t => exact h

theorem reach_forUnits {f : Nat → State → Done Unit} (hf : ∀ l s, Reach s (f l s).state)
    (ls : List Nat) (s : State) : Reach s (forUnits f ls s).state := by
  induction ls generalizing s with
  | nil => exact .refl s
  | cons l ls ih => exact Reach.andThen (hf l s) fun _ t _ h => h.trans (ih t)

theorem reach_timerCall (c : ExtCall) (s : State) : Reach s (timerCall c s).state := by
  rcases timerCall_cases c s with ⟨-, h⟩ | ⟨-, h⟩ <;> rw [h]
  · exact .one (.halt s c)
  · exact .one (.call s c .ok (by decide))

/-- What `TINIT` accepts of a slot and what it computes from it (R151). -/
theorem timingOf_eq_ok {tp : TimerParams} {c : Slot} {tm : Timing} :
    timingOf tp c = .ok tm ↔ slotTiming tp c tm := by
  unfold timingOf slotTiming dtOfSlot
  by_cases hf : (NUM.rat 0).lt c.fsw = true
  · simp only [hf, not_true_eq_false, if_false, true_and]
    by_cases hp : periodOf tp.clkHz c.align c.fsw < 1 ∨
        2 ^ tp.width - 1 < periodOf tp.clkHz c.align c.fsw
    · rw [if_pos hp]
      refine ⟨fun h => (by cases h), fun ⟨h1, h2, h3, _⟩ => absurd hp ?_⟩
      push Not
      have : (0 : Int) < 2 ^ tp.width := by positivity
      have h4 : ((2 ^ tp.width - 1 : Nat) : Int) = 2 ^ tp.width - 1 := by
        have : 1 ≤ 2 ^ tp.width := Nat.one_le_two_pow
        push_cast [this]; rfl
      omega
    · rw [if_neg hp]
      push Not at hp
      have h4 : ((2 ^ tp.width - 1 : Nat) : Int) = 2 ^ tp.width - 1 := by
        have : 1 ≤ 2 ^ tp.width := Nat.one_le_two_pow
        push_cast [this]; rfl
      have hP : ∀ n : Nat, periodOf tp.clkHz c.align c.fsw = n ↔
          (n : Int) = periodOf tp.clkHz c.align c.fsw := fun n => eq_comm
      cases hd : c.dtEn with
      | false =>
        simp only [Bool.false_eq_true, if_false, Except.ok.injEq, false_implies, true_and,
          forall_const]
        constructor
        · rintro rfl
          refine ⟨?_, ?_, ?_, rfl, rfl⟩ <;> simp only <;> omega
        · rintro ⟨h1, h2, h3, h5, h6⟩
          cases tm; simp only at *; subst h5 h6; congr; omega
      | true =>
        simp only [if_true, Bool.true_eq_false, false_implies, and_true, forall_const]
        by_cases hn : c.dtNs.lt (.rat 0) = true
        · rw [if_pos hn]
          refine ⟨fun h => (by cases h), fun ⟨_, _, _, h, _⟩ => absurd hn (Laws.le_iff_not_lt.1 h)⟩
        · rw [if_neg hn]
          cases he : dtEncode c.dtNs tp.clkHz with
          | none =>
            refine ⟨fun h => (by cases h), fun ⟨_, _, _, _, h, _⟩ => (by cases h)⟩
          | some code =>
            simp only
            by_cases h1 : (NUM.rat 1).le (dtComp c.dtNs c.fsw) = true
            · rw [if_pos h1]
              refine ⟨fun h => (by cases h), fun ⟨_, _, _, _, _, h5, h6⟩ => ?_⟩
              rw [h5] at h6
              exact absurd h1 (Laws.lt_iff_not_le.1 h6)
            · rw [if_neg h1]
              simp only [Except.ok.injEq, Option.some.injEq]
              constructor
              · rintro rfl
                refine ⟨?_, ?_, ?_, Laws.le_iff_not_lt.2 hn, rfl, rfl,
                  Laws.lt_iff_not_le.2 h1⟩ <;> simp only <;> omega
              · rintro ⟨h5, h6, h7, h8, h9, h10, h11⟩
                cases tm; simp only at *; subst h9 h10; congr; omega
  · simp [hf]

/-- The timer-base calls touch nothing but the trace and, on a failure, `HALTED`. -/
theorem timerBaseCalls_frame (t : Nat) (tp : TimerParams) (al : Align) (tm : Timing) (s : State) :
    Reach s (timerBaseCalls t tp al tm s).state ∧
    (timerBaseCalls t tp al tm s).state.params = s.params ∧
    (timerBaseCalls t tp al tm s).state.timAt = s.timAt := by
  unfold timerBaseCalls
  rcases timerCall_cases (.configureBase t tm.period al tp.repCount) s with ⟨-, h⟩ | ⟨-, h⟩ <;>
    rw [h]
  · exact ⟨.one (.halt _ _), rfl, rfl⟩
  simp only [Done.andThen_ok]
  have r1 : Reach s (s.emit (.configureBase t tm.period al tp.repCount)) :=
    .one (.call _ _ .ok (by decide))
  generalize hs1 : s.emit (.configureBase t tm.period al tp.repCount) = s1 at *
  have e1 : s1.params = s.params ∧ s1.timAt = s.timAt := by subst hs1; exact ⟨rfl, rfl⟩
  rcases timerCall_cases (.configureTriggerIn t tp.trigInSource tp.trigInEdge) s1 with
    ⟨-, h⟩ | ⟨-, h⟩ <;> rw [h]
  · exact ⟨r1.then (.halt _ _), e1.1, e1.2⟩
  simp only [Done.andThen_ok]
  have r2 := r1.then (.call s1 (.configureTriggerIn t tp.trigInSource tp.trigInEdge) .ok (by decide))
  change Reach s (s1.emit _) at r2
  generalize hs2 : s1.emit (.configureTriggerIn t tp.trigInSource tp.trigInEdge) = s2 at *
  have e2 : s2.params = s.params ∧ s2.timAt = s.timAt := by subst hs2; exact e1
  rcases timerCall_cases (.configureTriggerOut t tp.trigOut) s2 with ⟨-, h⟩ | ⟨-, h⟩ <;> rw [h]
  · exact ⟨r2.then (.halt _ _), e2.1, e2.2⟩
  simp only [Done.andThen_ok]
  have r3 := r2.then (.call s2 (.configureTriggerOut t tp.trigOut) .ok (by decide))
  change Reach s (s2.emit _) at r3
  generalize hs3 : s2.emit (.configureTriggerOut t tp.trigOut) = s3 at *
  have e3 : s3.params = s.params ∧ s3.timAt = s.timAt := by subst hs3; exact e2
  rcases timerCall_cases (.configureBreakDeadtime t tm.code tp.aoe) s3 with ⟨-, h⟩ | ⟨-, h⟩ <;>
    rw [h]
  · exact ⟨r3.then (.halt _ _), e3.1, e3.2⟩
  · exact ⟨r3.then (.call _ _ .ok (by decide)), e3.1, e3.2⟩

theorem reach_timerInit (t sl : Nat) (s : State) : Reach s (timerInit t sl s).state := by
  unfold timerInit
  split
  · exact .refl s
  · next ht =>
    split
    · exact .refl s
    · next hi =>
      simp only
      cases htm : timingOf (s.params.timer t) (s.cfgAt sl) with
      | error e => exact .refl s
      | ok tm =>
        simp only
        obtain ⟨hr, hp, hT⟩ := timerBaseCalls_frame t (s.params.timer t) (s.cfgAt sl).align tm s
        refine Reach.andThen hr fun _ s1 h1 r1 => r1.then ?_
        rw [h1] at hp hT
        simp only [Done.state_ok] at hp hT
        refine .init s1 t (s.cfgAt sl) tm (by omega) ?_ ?_
        · rw [hT]; simpa using hi
        · rw [hp]; exact timingOf_eq_ok.mp htm

theorem reach_configPair (n sl : Nat) (s : State) : Reach s (configPair n sl s).state := by
  unfold configPair
  split
  · exact .refl s
  split
  · exact .refl s
  split
  · exact .refl s
  exact Reach.andThen (reach_timerInit _ _ _) fun _ s1 _ r1 =>
    ((r1.then (.role _ _ _ _)).then (.role _ _ _ _)).then (.slot _ _ _)

theorem reach_configChannel (n sl : Nat) (s : State) : Reach s (configChannel n sl s).state := by
  unfold configChannel
  split
  · exact .refl s
  split
  · exact .refl s
  exact Reach.andThen (reach_timerInit _ _ _) fun _ s1 _ r1 =>
    (r1.then (.role _ _ _ _)).then (.slot _ _ _)

/-- A compare value that an update computes fits the period. -/
theorem dutyCompare_le {tm : Tim} {c : Slot} {d : NUM} {cmp : Nat}
    (h : dutyCompare tm c d = some cmp) : cmp ≤ tm.period := by
  by_cases hf : dutyFits tm c d
  · rw [(dutyCompare_eq tm c d).1 hf] at h
    cases h; exact appliedCompare_le hf
  · rw [(dutyCompare_eq tm c d).2 hf] at h; cases h

theorem reach_updatePair (n sl : Nat) (d : NUM) (s : State) :
    Reach s (updatePair n sl d s).state := by
  unfold updatePair
  split
  · exact .refl s
  split
  · exact .refl s
  split
  · exact .refl s
  simp only
  split
  · exact .refl s
  split
  · exact .refl s
  · next cmp hc =>
    have h := dutyCompare_le hc
    exact (Reach.one (.shadow s n n cmp (.inl rfl) h)).then
      (.shadow _ (n + 1) n cmp (.inr ⟨rfl, by omega⟩) h)

theorem reach_updateChannel (n sl : Nat) (d : NUM) (s : State) :
    Reach s (updateChannel n sl d s).state := by
  unfold updateChannel
  split
  · exact .refl s
  split
  · exact .refl s
  simp only
  split
  · exact .refl s
  split
  · exact .refl s
  · next cmp hc => exact .one (.shadow s n n cmp (.inl rfl) (dutyCompare_le hc))

theorem reach_configIrq (t : Nat) (cb : Byte) (prio : Nibble) (e : Bool) (s : State) :
    Reach s (configIrq t cb prio e s).state := by
  unfold configIrq
  split
  · exact .refl s
  split
  · split
    · exact .refl s
    split
    · exact .refl s
    · next h =>
      exact (Reach.one (.callback s t cb prio (.inr (by simpa using h)))).then
        (.call _ _ .ok (by decide))
  · exact (Reach.one (.callback s t 0 (s.timAt t).cbPrio (.inl rfl))).then
      (.call _ _ .ok (by decide))

theorem reach_emitPwmRoles (qs : List Nat) (s : State) : Reach s (s.emitPwmRoles qs) := by
  induction qs generalizing s with
  | nil => exact .refl s
  | cons q qs ih =>
    exact (Reach.one (.call s (.setPinAsPwmRole q) .ok (by decide))).trans (ih _)

theorem reach_emitDisablePins (qs : List Nat) (s : State) : Reach s (s.emitDisablePins qs) := by
  induction qs generalizing s with
  | nil => exact .refl s
  | cons q qs ih =>
    exact (Reach.one (.call s (.setPinAsDigitalOutput q 0) .ok (by decide))).trans (ih _)

theorem reach_configLeg (l : Nat) (s : State) : Reach s (configLeg l s).state := by
  unfold configLeg
  split
  · exact .refl s
  simp only
  split
  · exact Reach.andThen (reach_configPair _ _ _) fun _ s1 _ r1 =>
      r1.then (.leg _ _ _ (.inr (by simp)))
  · split
    · exact .refl s
    split
    · exact .refl s
    refine Reach.andThen (reach_configPair _ _ _) fun _ s1 _ r1 => ?_
    refine Reach.andThen (r1.trans (reach_configPair _ _ _)) fun _ s2 _ r2 => ?_
    exact (r2.trans (reach_emitPwmRoles _ _)).then (.leg _ _ _ (.inr (by simp)))

theorem reach_capabilityUpdate (l : Nat) (d : NUM) (s : State) :
    Reach s (capabilityUpdate l d s).state := by
  unfold capabilityUpdate
  split
  · exact .refl s
  split
  · exact .refl s
  · exact reach_updatePair _ _ _ _
  · refine Reach.andThen (reach_updatePair _ _ _ _) fun _ s1 _ r1 => ?_
    exact Reach.andThen (r1.trans (reach_updatePair _ _ _ _)) fun _ s2 _ r2 => r2
  · exact .refl s

theorem reach_enableLeg (l : Nat) (e : Bool) (s : State) : Reach s (enableLeg l e s).state := by
  unfold enableLeg
  split
  · exact .refl s
  split
  · exact .refl s
  simp only
  split
  · exact .refl s
  · next h =>
    have r1 := (Reach.one (.call s (.setOutputsEnabled
      (legMask (s.legAt l).pin.toNat (legWidth (s.legAt l).kind)) e) .ok (by decide)))
    refine (r1.then (.enable _ (s.legAt l).pin.toNat (legWidth (s.legAt l).kind) e
      (by omega) (by change _ ≤ s.params.npwm; omega))).then (.leg _ _ _ (.inl rfl))

theorem reach_startLeg (l : Nat) (s : State) : Reach s (startLeg l s).state := by
  unfold startLeg
  refine Reach.andThen (reach_configLeg _ _) fun _ s1 _ r1 => ?_
  exact Reach.andThen (r1.trans (reach_capabilityUpdate _ _ _)) fun _ s2 _ r2 => r2

theorem reach_inverterEnable (i : Nat) (e : Bool) (s : State) :
    Reach s (inverterEnable i e s).state :=
  Reach.andThen (reach_forUnits (fun l s => reach_enableLeg l e s) _ _) fun _ _ _ r =>
    r.then (.inv _ _ _)

theorem reach_inverterInit (i : Nat) (s : State) : Reach s (inverterInit i s).state := by
  unfold inverterInit
  split
  · exact .refl s
  simp only
  split
  · exact .refl s
  refine Reach.andThen (reach_forUnits reach_startLeg _ _) fun _ s1 _ r1 => ?_
  refine Reach.andThen (((r1.trans (reach_emitDisablePins (disablePins (s1.invAt i)) s1)).then
    (.inv _ _ _)).trans (reach_inverterEnable _ _ _)) fun _ s2 _ r2 => r2.then (.inv _ _ _)

theorem reach_inverterUpdate (i : Nat) (d0 d1 d2 : NUM) (s : State) :
    Reach s (inverterUpdate i d0 d1 d2 s).state := by
  unfold inverterUpdate
  split
  · exact .refl s
  split
  · exact .refl s
  refine Reach.andThen (reach_capabilityUpdate _ _ _) fun _ s1 _ r1 => ?_
  refine Reach.andThen (r1.trans (reach_capabilityUpdate _ _ _)) fun _ s2 _ r2 => ?_
  refine Reach.andThen (r2.trans (reach_capabilityUpdate _ _ _)) fun _ s3 _ r3 => ?_
  refine Reach.andThen (r3.trans ?_) fun _ s4 _ r4 => r4
  unfold duplicateUpdate
  split
  · exact reach_capabilityUpdate _ _ _
  · exact .refl _

theorem reach_inverterSpwm (i : Nat) (dir : Direction) (theta mi : NUM) (s : State) :
    Reach s (inverterSpwm i dir theta mi s).state := by
  unfold inverterSpwm
  split
  · exact .refl s
  split
  · exact .refl s
  exact (Reach.one (.call s _ _ (by intro h; cases h))).trans (reach_inverterUpdate _ _ _ _ _)

theorem reach_inverterActivate (i : Nat) (e : Bool) (s : State) :
    Reach s (inverterActivate i e s).state := by
  unfold inverterActivate
  split
  · exact .refl s
  split
  · exact .refl s
  exact reach_inverterEnable _ _ _

theorem reach_psfbEnable (j : Nat) (e : Bool) (s : State) : Reach s (psfbEnable j e s).state :=
  Reach.andThen (reach_forUnits (fun l s => reach_enableLeg l e s) _ _) fun _ _ _ r =>
    r.then (.psfb _ _ _)

theorem reach_psfbInit (j : Nat) (s : State) : Reach s (psfbInit j s).state := by
  unfold psfbInit
  split
  · exact .refl s
  simp only
  split
  · exact .refl s
  split
  · exact .refl s
  refine Reach.andThen (reach_forUnits reach_startLeg _ _) fun _ s1 _ r1 => ?_
  exact Reach.andThen (r1.trans (reach_psfbEnable _ _ _)) fun _ s2 _ r2 => r2.then (.psfb _ _ _)

theorem reach_psfbUpdate (j : Nat) (d : NUM) (s : State) : Reach s (psfbUpdate j d s).state := by
  unfold psfbUpdate
  split
  · exact .refl s
  split
  · exact .refl s
  exact .one (.call _ _ .ok (by decide))

theorem reach_psfbActivate (j : Nat) (e : Bool) (s : State) :
    Reach s (psfbActivate j e s).state := by
  unfold psfbActivate
  split
  · exact .refl s
  split
  · exact .refl s
  exact reach_psfbEnable _ _ _

theorem reach_rampInit (k : Nat) (s : State) : Reach s (rampInit k s).state := by
  unfold rampInit
  split
  · exact .refl s
  simp only
  split
  · exact .refl s
  split
  · exact .refl s
  exact .one (.vf _ _ _ (.inr (.inl rfl)))

theorem reach_rampArbitrate (k i : Nat) (a : NUM) (s : State) :
    Reach s (rampArbitrate k i a s).state := by
  unfold rampArbitrate
  simp only
  split
  · unfold rampActivation
    simp only
    split
    · refine Reach.andThen (Reach.trans (Reach.one (.vf _ _ _ (.inl ?_)))
        (reach_inverterActivate _ _ _)) fun _ s2 _ r2 => r2.then (.vf _ _ _ (.inl rfl))
      rfl
    · exact .one (.vf _ _ _ (.inl rfl))
  · split
    · exact .one (.vf _ _ _ (.inl rfl))
    · exact .one (.vf _ _ _ (.inl rfl))

theorem reach_rampEmit (k i : Nat) (s : State) : Reach s (rampEmit k i s).state := by
  unfold rampEmit
  simp only
  refine Reach.andThen ((Reach.one (.vf _ _ _ (.inr (.inr ⟨_, rfl⟩)))).trans
    (reach_inverterSpwm _ _ _ _ _)) fun _ s2 _ r2 => r2

theorem reach_rampStep (k : Nat) (s : State) : Reach s (rampStep k s).state := by
  unfold rampStep
  split
  · exact .refl s
  simp only
  split
  · exact .refl s
  split
  · exact .refl s
  split
  · exact .refl s
  split
  · exact .refl s
  exact Reach.andThen (reach_rampArbitrate _ _ _ _) fun _ s1 _ r1 =>
    r1.trans (reach_rampEmit _ _ _)

theorem reach_landIn {α : Type} {s : State} {put : α → State} {r : Except Status α}
    (h : ∀ x, r = .ok x → Change s (put x)) : Reach s (landIn s put r).state := by
  cases r with
  | ok x => exact .one (h x rfl)
  | error e => exact .refl s

/-- A register write keeps a leg's capability (R33). -/
theorem legWith_cap {r r' : Leg} {v : NUM} {f : LegField} (h : legWith r v f = .ok r') :
    r'.cap = r.cap := by
  cases f <;> simp only [legWith, putIf] at h <;> first | contradiction | skip
  all_goals (split at h <;> cases h; rfl)

/-- A register write keeps a controller's angle (R36). -/
theorem vfWith_theta {r r' : Vf} {v : NUM} {f : VfField} (h : vfWith r v f = .ok r') :
    r'.theta = r.theta := by
  cases f <;> simp only [vfWith, putIf] at h <;> first | contradiction | (cases h; rfl) | skip
  all_goals (split at h <;> cases h; rfl)

theorem reach_memWrite (v : NUM) (s : State) (c : Cell) : Reach s (memWrite v s c).state := by
  cases c <;> simp only [memWrite] <;> first | exact .refl s | skip
  · exact reach_landIn fun x _ => .slot _ _ _
  · exact reach_landIn fun x h => .leg _ _ _ (.inl (legWith_cap h))
  · exact reach_landIn fun x _ => .inv _ _ _
  · exact reach_landIn fun x h => .vf _ _ _ (.inl (vfWith_theta h))

theorem reach_commitAll (ns : List Nat) (s : State) : Reach s (s.commitAll ns) := by
  induction ns generalizing s with
  | nil => exact .refl s
  | cons n ns ih => exact (Reach.one (.commit s n)).trans (ih _)

/-! ### Commands and steps -/

/-- No update touches the result port, the inbox or the lanes. -/
theorem Change.quiet {s t : State} (h : Change s t) : samePort s t ∧ sameInputs s t := by
  cases h <;> exact ⟨⟨rfl, rfl, rfl, rfl, rfl, rfl⟩, rfl, rfl, rfl, rfl⟩

theorem Reach.quiet {s t : State} (h : Reach s t) : samePort s t ∧ sameInputs s t := by
  induction h with
  | refl => exact ⟨⟨rfl, rfl, rfl, rfl, rfl, rfl⟩, rfl, rfl, rfl, rfl⟩
  | tail _ g ih =>
    obtain ⟨⟨a1, a2, a3, a4, a5, a6⟩, b1, b2, b3, b4⟩ := ih
    obtain ⟨⟨c1, c2, c3, c4, c5, c6⟩, d1, d2, d3, d4⟩ := g.quiet
    exact ⟨⟨c1.trans a1, c2.trans a2, c3.trans a3, c4.trans a4, c5.trans a5, c6.trans a6⟩,
      d1.trans b1, d2.trans b2, d3.trans b3, d4.trans b4⟩

/-- A chain of updates, then the end of a command. -/
def ReachEnd (s t : State) : Prop := ∃ u e r, Reach s u ∧ t = u.drive e r

/-- A command is a chain of updates and an end when its operation is a chain. -/
theorem reach_command {op : State → Done Results} {s t : State}
    (h : Reach s (op s).state) (ht : command op s = .next t) : ReachEnd s t := by
  unfold command at ht
  injection ht with ht
  subst ht
  split
  · exact ⟨_, _, _, .refl s, rfl⟩
  · revert h
    cases op s with
    | ok r u => exact fun h => ⟨_, _, _, h, rfl⟩
    | err e u => exact fun h => ⟨_, _, _, h, rfl⟩

theorem reach_noResults {s : State} {r : Done Unit} (h : Reach s r.state) :
    Reach s (noResults r).state := Reach.andThen h fun _ _ _ h => h

theorem reach_dutyResult {s : State} {r : Done NUM} (h : Reach s r.state) :
    Reach s (dutyResult r).state := Reach.andThen h fun _ _ _ h => h

theorem reach_dutiesResult {s : State} {r : Done Duties} (h : Reach s r.state) :
    Reach s (dutiesResult r).state := Reach.andThen h fun _ _ _ h => h

theorem reach_withArg0 {op : NUM → State → Done Results} {s : State}
    (h : ∀ a, Reach s (op a s).state) : Reach s (withArg0 op s).state := by
  rcases withArg0_cases op s with ⟨-, e⟩ | ⟨a, -, e⟩ <;> rw [e]
  · exact .refl s
  · exact h a

theorem reach_withArg01 {op : NUM → NUM → State → Done Results} {s : State}
    (h : ∀ a b, Reach s (op a b s).state) : Reach s (withArg01 op s).state := by
  rcases withArg01_cases op s with ⟨-, e⟩ | ⟨a, b, -, -, e⟩ <;> rw [e]
  · exact .refl s
  · exact h a b

theorem reach_withArgs {op : NUM → NUM → NUM → State → Done Results} {s : State}
    (h : ∀ a b c, Reach s (op a b c s).state) : Reach s (withArgs op s).state := by
  rcases withArgs_cases op s with ⟨-, e⟩ | ⟨a, b, c, -, -, -, e⟩ <;> rw [e]
  · exact .refl s
  · exact h a b c

/-- Every operation of a command is a chain of updates. -/
theorem reach_opOf (i : Instr) (s : State) : Reach s (opOf i s).state := by
  cases i <;> simp only [opOf]
  · refine reach_withArg0 fun a => ?_
    unfold writeField
    split
    · exact .refl s
    · exact Reach.andThen (reach_memWrite _ _ _) fun _ _ _ h => h
  · unfold readField; split <;> exact .refl s
  · refine reach_withArgs fun a b c => ?_
    unfold encodeDeadTime
    split
    · exact .refl s
    · split <;> exact .refl s
  · exact reach_noResults (reach_timerInit _ _ _)
  · exact reach_noResults (reach_configPair _ _ _)
  · exact reach_noResults (reach_configChannel _ _ _)
  · exact reach_withArg0 fun a => reach_dutyResult (reach_updatePair _ _ _ _)
  · exact reach_withArg0 fun a => reach_dutyResult (reach_updateChannel _ _ _ _)
  · exact reach_noResults (reach_configIrq _ _ _ _ _)
  · exact Reach.andThen (reach_configLeg _ _) fun _ _ _ h => h
  · exact reach_noResults (reach_enableLeg _ _ _)
  · exact reach_withArg0 fun a => reach_dutyResult (reach_capabilityUpdate _ _ _)
  · exact reach_noResults (reach_inverterInit _ _)
  · exact reach_withArgs fun a b c => reach_dutiesResult (reach_inverterUpdate _ _ _ _ _)
  · exact reach_withArg01 fun a b => reach_dutiesResult (reach_inverterSpwm _ _ _ _ _)
  · exact reach_noResults (reach_inverterActivate _ _ _)
  · exact reach_noResults (reach_psfbInit _ _)
  · exact reach_withArg0 fun a => reach_dutyResult (reach_psfbUpdate _ _ _)
  · exact reach_noResults (reach_psfbActivate _ _ _)
  · exact reach_noResults (reach_rampInit _ _)
  · exact reach_rampStep _ _

/-- Every command is a chain of updates and an end. -/
theorem reach_exec {i : Instr} {s t : State} (h : exec i s = .next t) : ReachEnd s t := by
  rw [exec_eq] at h
  exact reach_command (reach_opOf i s) h

theorem reach_perElapsed {t : Nat} {s u : State} (h : perElapsed t s = .next u) : Reach s u := by
  unfold perElapsed at h
  split at h
  · cases h; exact .refl s
  · have r := reach_commitAll (channelsOf s.params t) s
    change Reach s (s.commit t) at r
    unfold runCallback at h
    simp only at h
    split at h
    · cases h; exact r
    · split at h
      · cases h; exact r.trans (reach_rampStep _ _)
      · unfold externalCallback at h
        split at h
        · cases h
        · cases h; exact r.then (.call _ _ .ok (by decide))

/-- Every step is `RESET`, or, with the event taken from the inbox and its lanes at the port, a chain
of updates that may end as a command ends. -/
theorem step_cases {s t : State} (h : step s = .next t) :
    (∃ rest, s.inbox = .reset :: rest ∧ t = doReset { s with inbox := rest }) ∨
    ((∀ rest, s.inbox ≠ .reset :: rest) ∧
      ∃ inbox lanes, Reach { s with inbox := inbox, lanes := lanes } t ∨
        ReachEnd { s with inbox := inbox, lanes := lanes } t) := by
  unfold step at h
  split at h
  · next hs =>
    cases h
    exact .inr ⟨fun rest e => (by rw [hs] at e; cases e), s.inbox, s.lanes, .inl (.refl s)⟩
  · next event rest hs =>
    cases event with
    | command cw lanes =>
      refine .inr ⟨fun rest e => (by rw [hs] at e; cases e), rest, lanes, .inr ?_⟩
      simp only [take, runWord] at h
      split at h
      · exact reach_exec h
      · exact reach_command (.refl _) h
    | perElapsed t =>
      exact .inr ⟨fun rest e => (by rw [hs] at e; cases e), rest, s.lanes,
        .inl (reach_perElapsed h)⟩
    | reset => cases h; exact .inl ⟨rest, hs, rfl⟩

/-- A property that `RESET`, every update, a change of inbox and lanes, and the end of a command keep
is kept by every step. -/
theorem step_keeps {P : State → Prop} (h0 : ∀ s, P s → P (doReset s))
    (hi : ∀ s inbox lanes, P s → P { s with inbox := inbox, lanes := lanes })
    (hd : ∀ s e r, P s → P (s.drive e r))
    (hP : ∀ s t, Change s t → P s → P t) {s t : State} (h : step s = .next t) (hs : P s) : P t := by
  rcases step_cases h with ⟨rest, -, rfl⟩ | ⟨-, inbox, lanes, hr | ⟨u, e, r, hr, rfl⟩⟩
  · exact h0 _ (hi s rest s.lanes hs)
  · exact hr.keeps hP (hi _ _ _ hs)
  · exact hd _ _ _ (hr.keeps hP (hi _ _ _ hs))

/-- The two members of a pair lie on one instance (R73). -/
theorem instOf_succ {p : Params} (hp : p.timer0.nch % 2 = 0) {m : Nat} (hm : m % 2 = 1) :
    instOf p (m + 1) = instOf p m := by
  unfold instOf; split <;> split <;> omega

/-- The bits of a leg's mask: those of its pins (R208). -/
theorem getLsbD_legMask (p w b : Nat) (hb : b < 255) :
    (legMask p w).getLsbD b = (decide (p - 1 ≤ b) && decide (b < p - 1 + w)) := by
  unfold legMask
  rw [BitVec.getLsbD_ofNat, Nat.testBit_shiftLeft, Nat.testBit_two_pow_sub_one]
  by_cases h : p - 1 ≤ b
  · simp [hb, h]; omega
  · simp [h]

/-- One bit of a masked enable write: the enable value under the mask, the old bit elsewhere. -/
theorem getLsbD_maskedEnable (o m : PinMask) (e : Bool) (b : Nat) (hb : b < 255) :
    (maskedEnable o m e).getLsbD b = if m.getLsbD b then e else o.getLsbD b := by
  unfold maskedEnable
  cases e
  · simp only [Bool.false_eq_true, if_false, BitVec.getLsbD_and, BitVec.getLsbD_not, hb,
      decide_true, Bool.true_and]
    cases m.getLsbD b <;> simp
  · simp only [if_true, BitVec.getLsbD_or]
    cases m.getLsbD b <;> simp

end Sys2Proof.Machine
end

