-- ==== Sys2Proof/Laws/Config.lean ====
section
/-! SUPPORT. Every parameter set the model starts from meets the constraints of R6. -/

namespace Sys2Proof

theorem positiveOr1_pos (x : NUM) : (NUM.rat 0).lt (positiveOr1 x) = true := by
  unfold positiveOr1
  split
  · assumption
  · decide +kernel

theorem Params.valid_ofFree (f : FreeParams) : (Params.ofFree f).valid = true := by
  have h0 : f.pairs0 ≤ 126 ∧ 1 ≤ f.pairs0 := by unfold FreeParams.pairs0; omega
  have h1 : f.pairs1 ≤ 127 - f.pairs0 ∧ 1 ≤ f.pairs1 := by
    unfold FreeParams.pairs1
    have := Nat.mod_lt f.half1 (y := 127 - f.pairs0) (by omega); omega
  have h2 : f.inverters ≤ 64 := by unfold FreeParams.inverters; omega
  have h3 : f.bridges ≤ 128 - 2 * f.inverters := by
    unfold FreeParams.bridges
    have := Nat.mod_lt f.npsfb (y := 129 - 2 * f.inverters) (by omega); omega
  have h4 : f.ownedLegs ≤ 256 := by unfold FreeParams.ownedLegs; omega
  have h5 : f.ownedLegs ≤ f.legs ∧ f.legs ≤ 256 := by
    unfold FreeParams.legs
    have := Nat.mod_lt f.extraLegs (y := 257 - f.ownedLegs) (by omega); omega
  have h6 := Nat.mod_lt f.extraSlots (y := 257 - f.legs) (by omega)
  refine decide_eq_true ?_
  simp only [Params.ofFree, Params.npwm]
  refine ⟨?_, ?_, ?_, ?_, ?_, ?_, ?_, ?_, ?_, ?_, ?_, ?_, ?_, ?_⟩
  · exact positiveOr1_pos _
  · exact positiveOr1_pos _
  all_goals first | omega | (unfold FreeParams.ownedLegs at h5; omega)

theorem Config.params_valid : Config.params.valid = true := Params.valid_ofFree _

theorem Params.valid_ex : Params.ex.valid = true := by decide +kernel

namespace Machine

@[simp] theorem State.reset_params : State.reset.params = Config.params := rfl

theorem State.reset_params_valid : State.reset.params.valid = true := Config.params_valid

end Machine

/-- What the constraint column of R6 gives a proof. -/
theorem Params.valid_facts {p : Params} (h : p.valid = true) :
    p.timer0.nch % 2 = 0 ∧ p.timer1.nch % 2 = 0 ∧ p.npwm ≤ 255 ∧ p.nvf ≤ 127 ∧
    4 * p.ninv + 2 * p.npsfb ≤ p.nleg ∧ p.nleg ≤ p.ncfg := by
  obtain ⟨-, -, h1, h2, -, -, -, -, h3, h4, h5, -, h6, -⟩ := of_decide_eq_true h
  exact ⟨h1, h2, h3, h4, h5, h6⟩

end Sys2Proof
end

