-- ==== Sys2Proof/Laws/Driver.lean ====
section
/-! SUPPORT. The PWM driver's operations: what each leaves when it completes, and when it does
(41_pwm_driver.md). -/

namespace Sys2Proof.Machine

/-! ### Timer initialisation -/

/-- The state after a `TINIT` that completes: unchanged, or four calls and the record written. -/
def State.lazyInit (s : State) (t sl : Nat) : State :=
  if (s.timAt t).init then s
  else (s.emits (s.lazyCalls t sl)).setTim t (s.lazyTim t sl)

theorem State.lazyTim_of_init {s : State} {t : Nat} (h : (s.timAt t).init = true) (sl : Nat) :
    s.lazyTim t sl = s.timAt t := by simp [State.lazyTim, h]

theorem State.lazyCalls_of_init {s : State} {t : Nat} (h : (s.timAt t).init = true) (sl : Nat) :
    s.lazyCalls t sl = [] := by simp [State.lazyCalls, h]

theorem State.lazyTim_of_timing {s : State} {t sl : Nat} {tm : Timing}
    (h : (s.timAt t).init = false)
    (hc : timingOf (s.params.timer t) (s.cfgAt sl) = .ok tm) :
    s.lazyTim t sl = initTim (s.timAt t) (s.cfgAt sl) tm := by simp [State.lazyTim, h, hc]

theorem State.lazyCalls_of_timing {s : State} {t sl : Nat} {tm : Timing}
    (h : (s.timAt t).init = false)
    (hc : timingOf (s.params.timer t) (s.cfgAt sl) = .ok tm) :
    s.lazyCalls t sl = baseCalls t (s.params.timer t) (s.cfgAt sl).align tm := by
  simp [State.lazyCalls, h, hc]

/-- The slot can initialise the instance, or the instance is initialised: exactly when its record is
initialised afterwards. -/
theorem State.lazyTim_init {s : State} {t sl : Nat} (h : (s.lazyTim t sl).init = true) :
    (s.timAt t).init = true ∨ ((s.timAt t).init = false ∧
      ∃ tm, timingOf (s.params.timer t) (s.cfgAt sl) = .ok tm) := by
  unfold State.lazyTim at h
  cases hi : (s.timAt t).init with
  | true => exact .inl rfl
  | false =>
    refine .inr ⟨rfl, ?_⟩
    simp only [hi, Bool.false_eq_true, if_false] at h
    cases hc : timingOf (s.params.timer t) (s.cfgAt sl) with
    | ok tm => exact ⟨tm, rfl⟩
    | error e => simp [hc, hi] at h

/-- An instance that its slot can initialise is initialised, or its four calls are answered `ok`. -/
theorem State.callsAnswered.lazy {s : State} {t sl : Nat} (h : s.callsAnswered (s.lazyCalls t sl))
    (hl : (s.lazyTim t sl).init = true) : s.baseCallsOk ∨ (s.timAt t).init = true := by
  rcases State.lazyTim_init hl with hi | ⟨hi, tm, htm⟩
  · exact .inr hi
  · rw [State.lazyCalls_of_timing hi htm] at h
    exact .inl h.base

theorem timerBaseCalls_ok {s : State} (h : s.baseCallsOk) (t : Nat) (tp : TimerParams) (al : Align)
    (tm : Timing) :
    timerBaseCalls t tp al tm s = .ok () (s.emits (baseCalls t tp al tm)) := by
  unfold timerBaseCalls
  rw [timerCall_ok (h 0 (by omega)), Done.andThen_ok]
  erw [timerCall_ok (h 1 (by omega)), Done.andThen_ok, timerCall_ok (h 2 (by omega)),
    Done.andThen_ok, timerCall_ok (h 3 (by omega))]
  rfl

/-- A failing timer-base call ends the initialisation with the calls up to it made (R153, R305). -/
theorem timerBaseCalls_fail {s : State} {j : Nat} (h : s.baseCallFails j) (t : Nat)
    (tp : TimerParams) (al : Align) (tm : Timing) :
    ∃ c, (baseCalls t tp al tm).drop j = c :: (baseCalls t tp al tm).drop (j + 1) ∧
      timerBaseCalls t tp al tm s =
        .err .fatalHwinit ((s.emits ((baseCalls t tp al tm).take j)).record c .fail).halt := by
  obtain ⟨hj, hf, hb⟩ := h
  unfold timerBaseCalls
  match j, hj with
  | 0, _ =>
    refine ⟨_, rfl, ?_⟩
    rw [timerCall_fail hf]; rfl
  | 1, _ =>
    refine ⟨_, rfl, ?_⟩
    rw [timerCall_ok (hb 0 (by omega)), Done.andThen_ok]
    erw [timerCall_fail hf]; rfl
  | 2, _ =>
    refine ⟨_, rfl, ?_⟩
    rw [timerCall_ok (hb 0 (by omega)), Done.andThen_ok]
    erw [timerCall_ok (hb 1 (by omega)), Done.andThen_ok, timerCall_fail hf]; rfl
  | 3, _ =>
    refine ⟨_, rfl, ?_⟩
    rw [timerCall_ok (hb 0 (by omega)), Done.andThen_ok]
    erw [timerCall_ok (hb 1 (by omega)), Done.andThen_ok, timerCall_ok (hb 2 (by omega)),
      Done.andThen_ok, timerCall_fail hf]
    rfl

/-- The timer-base calls complete only with four calls answered `ok`. -/
theorem timerBaseCalls_eq_ok {s s' : State} {t : Nat} {tp : TimerParams} {al : Align} {tm : Timing}
    (h : timerBaseCalls t tp al tm s = .ok () s') : s' = s.emits (baseCalls t tp al tm) := by
  have key : ∀ c (u v : State), timerCall c u = .ok () v → v = u.emit c := by
    intro c u v hc
    rcases timerCall_cases c u with ⟨-, e⟩ | ⟨-, e⟩ <;> rw [e] at hc <;> cases hc
    rfl
  unfold timerBaseCalls at h
  simp only [Done.andThen_eq_ok] at h
  obtain ⟨_, s1, h1, _, s2, h2, _, s3, h3, h4⟩ := h
  rw [key _ _ _ h4, key _ _ _ h3, key _ _ _ h2, key _ _ _ h1]
  rfl

/-- The timer-base calls end otherwise only in the fatal state, after a call answered `fail`
(R305). -/
theorem timerBaseCalls_eq_err {s s' : State} {t : Nat} {tp : TimerParams} {al : Align} {tm : Timing}
    {e : Status} (h : timerBaseCalls t tp al tm s = .err e s') :
    e = .fatalHwinit ∧ ∃ cs c, s' = ((s.emits cs).record c .fail).halt := by
  have key : ∀ c (u v : State), timerCall c u = .ok () v → v = u.emit c := by
    intro c u v hc
    rcases timerCall_cases c u with ⟨-, e⟩ | ⟨-, e⟩ <;> rw [e] at hc <;> cases hc
    rfl
  have key' : ∀ c (u v : State), timerCall c u = .err e v →
      e = .fatalHwinit ∧ v = (u.record c .fail).halt := by
    intro c u v hc
    rcases timerCall_cases c u with ⟨-, e⟩ | ⟨-, e⟩ <;> rw [e] at hc <;> cases hc
    exact ⟨rfl, rfl⟩
  unfold timerBaseCalls at h
  simp only [Done.andThen_eq_err] at h
  rcases h with h | ⟨_, s1, h1, h | ⟨_, s2, h2, h | ⟨_, s3, h3, h⟩⟩⟩
  · exact ⟨(key' _ _ _ h).1, [], _, (key' _ _ _ h).2⟩
  · exact ⟨(key' _ _ _ h).1, [_], _, by rw [(key' _ _ _ h).2, key _ _ _ h1]; rfl⟩
  · exact ⟨(key' _ _ _ h).1, [_, _], _, by
      rw [(key' _ _ _ h).2, key _ _ _ h2, key _ _ _ h1]; rfl⟩
  · exact ⟨(key' _ _ _ h).1, [_, _, _], _, by
      rw [(key' _ _ _ h).2, key _ _ _ h3, key _ _ _ h2, key _ _ _ h1]; rfl⟩

/-- `TINIT` completes on a usable slot when the environment fails no call (R151). -/
theorem timerInit_ok {s : State} {t sl : Nat} (ht : t ≤ 1) (hs : sl < s.params.ncfg)
    (hl : (s.lazyTim t sl).init = true) (hb : s.baseCallsOk ∨ (s.timAt t).init = true) :
    timerInit t sl s = .ok () (s.lazyInit t sl) := by
  unfold timerInit State.lazyInit
  rw [if_neg (by omega)]
  rcases State.lazyTim_init hl with hi | ⟨hi, tm, htm⟩
  · simp [hi]
  · have hb' : s.baseCallsOk := hb.resolve_right (by simp [hi])
    simp only [hi, Bool.false_eq_true, if_false, htm]
    rw [timerBaseCalls_ok hb', State.lazyCalls_of_timing hi htm, State.lazyTim_of_timing hi htm]
    simp only [Done.andThen_ok, State.emits_eq]
    rfl

theorem dtOfSlot_err {clk : NUM} {c : Slot} {e : Status} (h : dtOfSlot clk c = .error e) :
    e = .errValue ∨ e = .errDtRange := by
  unfold dtOfSlot at h
  split at h
  · split at h
    · cases h; exact .inl rfl
    · split at h
      · cases h; exact .inr rfl
      · split at h <;> cases h; exact .inl rfl
  · cases h

/-- A slot that `TINIT` refuses is refused with `ERR_VALUE` or `ERR_DT_RANGE` (R151, R154). -/
theorem timingOf_err {tp : TimerParams} {c : Slot} {e : Status} (h : timingOf tp c = .error e) :
    e = .errValue ∨ e = .errDtRange := by
  unfold timingOf at h
  simp only at h
  split at h
  · cases h; exact .inl rfl
  · split at h
    · cases h; exact .inl rfl
    · split at h
      · next hd => cases h; exact dtOfSlot_err hd
      · cases h

/-- Everything a `TINIT` can do (R151): complete; be refused without effect; or halt CORE. -/
theorem timerInit_spec (t sl : Nat) (s : State) :
    (∀ s', timerInit t sl s = .ok () s' →
      t ≤ 1 ∧ sl < s.params.ncfg ∧ (s.lazyTim t sl).init = true ∧ s' = s.lazyInit t sl) ∧
    (∀ e s', timerInit t sl s = .err e s' →
      (e ≠ .fatalHwinit ∧ s' = s) ∨
      (e = .fatalHwinit ∧ ∃ cs c, s' = ((s.emits cs).record c .fail).halt)) := by
  unfold timerInit
  by_cases h0 : 1 < t ∨ s.params.ncfg ≤ sl
  · rw [if_pos h0]
    exact ⟨fun s' h => (by cases h), fun e s' h => by cases h; exact .inl ⟨by decide, rfl⟩⟩
  rw [if_neg h0]
  cases hi : (s.timAt t).init with
  | true =>
    simp only [if_true]
    refine ⟨fun s' h => ?_, fun e s' h => (by cases h)⟩
    cases h
    refine ⟨by omega, by omega, by rw [State.lazyTim_of_init hi]; exact hi, ?_⟩
    simp [State.lazyInit, hi]
  | false =>
    simp only [Bool.false_eq_true, if_false]
    cases hc : timingOf (s.params.timer t) (s.cfgAt sl) with
    | error e =>
      refine ⟨fun s' h => (by cases h), fun e' s' h => ?_⟩
      cases h
      refine .inl ⟨?_, rfl⟩
      rcases timingOf_err hc with rfl | rfl <;> decide
    | ok tm =>
      simp only
      refine ⟨fun s' h => ?_, fun e s' h => ?_⟩
      · rw [Done.andThen_eq_ok] at h
        obtain ⟨_, s1, h1, h2⟩ := h
        rw [timerBaseCalls_eq_ok h1] at h2
        cases h2
        refine ⟨by omega, by omega, ?_, ?_⟩
        · rw [State.lazyTim_of_timing hi hc]; rfl
        · simp only [State.lazyInit, hi, Bool.false_eq_true, if_false, State.emits_eq,
            State.lazyCalls_of_timing hi hc, State.lazyTim_of_timing hi hc]
          rfl
      · rw [Done.andThen_eq_err] at h
        rcases h with h | ⟨_, _, _, h⟩
        · exact .inr (timerBaseCalls_eq_err h)
        · cases h

/-! ### What `TINIT` leaves alone -/

@[simp] theorem State.lazyInit_params (s : State) (t sl : Nat) :
    (s.lazyInit t sl).params = s.params := by
  unfold State.lazyInit; split
  · rfl
  · rw [State.emits_eq]; rfl
@[simp] theorem State.lazyInit_env (s : State) (t sl : Nat) :
    (s.lazyInit t sl).env = s.env := by
  unfold State.lazyInit; split
  · rfl
  · rw [State.emits_eq]; rfl
@[simp] theorem State.lazyInit_inbox (s : State) (t sl : Nat) :
    (s.lazyInit t sl).inbox = s.inbox := by
  unfold State.lazyInit; split
  · rfl
  · rw [State.emits_eq]; rfl
@[simp] theorem State.lazyInit_lanes (s : State) (t sl : Nat) :
    (s.lazyInit t sl).lanes = s.lanes := by
  unfold State.lazyInit; split
  · rfl
  · rw [State.emits_eq]; rfl
@[simp] theorem State.lazyInit_halted (s : State) (t sl : Nat) :
    (s.lazyInit t sl).halted = s.halted := by
  unfold State.lazyInit; split
  · rfl
  · rw [State.emits_eq]; rfl
@[simp] theorem State.lazyInit_oen (s : State) (t sl : Nat) :
    (s.lazyInit t sl).oen = s.oen := by
  unfold State.lazyInit; split
  · rfl
  · rw [State.emits_eq]; rfl
@[simp] theorem State.lazyInit_status (s : State) (t sl : Nat) :
    (s.lazyInit t sl).status = s.status := by
  unfold State.lazyInit; split
  · rfl
  · rw [State.emits_eq]; rfl
@[simp] theorem State.lazyInit_rescode (s : State) (t sl : Nat) :
    (s.lazyInit t sl).rescode = s.rescode := by
  unfold State.lazyInit; split
  · rfl
  · rw [State.emits_eq]; rfl
@[simp] theorem State.lazyInit_res0 (s : State) (t sl : Nat) :
    (s.lazyInit t sl).res0 = s.res0 := by
  unfold State.lazyInit; split
  · rfl
  · rw [State.emits_eq]; rfl
@[simp] theorem State.lazyInit_res1 (s : State) (t sl : Nat) :
    (s.lazyInit t sl).res1 = s.res1 := by
  unfold State.lazyInit; split
  · rfl
  · rw [State.emits_eq]; rfl
@[simp] theorem State.lazyInit_res2 (s : State) (t sl : Nat) :
    (s.lazyInit t sl).res2 = s.res2 := by
  unfold State.lazyInit; split
  · rfl
  · rw [State.emits_eq]; rfl
@[simp] theorem State.lazyInit_res3 (s : State) (t sl : Nat) :
    (s.lazyInit t sl).res3 = s.res3 := by
  unfold State.lazyInit; split
  · rfl
  · rw [State.emits_eq]; rfl
@[simp] theorem State.lazyInit_chAt (s : State) (t sl : Nat) :
    (s.lazyInit t sl).chAt = s.chAt := by
  unfold State.lazyInit; split
  · rfl
  · rw [State.emits_eq]; rfl
@[simp] theorem State.lazyInit_cfgAt (s : State) (t sl : Nat) :
    (s.lazyInit t sl).cfgAt = s.cfgAt := by
  unfold State.lazyInit; split
  · rfl
  · rw [State.emits_eq]; rfl
@[simp] theorem State.lazyInit_legAt (s : State) (t sl : Nat) :
    (s.lazyInit t sl).legAt = s.legAt := by
  unfold State.lazyInit; split
  · rfl
  · rw [State.emits_eq]; rfl
@[simp] theorem State.lazyInit_invAt (s : State) (t sl : Nat) :
    (s.lazyInit t sl).invAt = s.invAt := by
  unfold State.lazyInit; split
  · rfl
  · rw [State.emits_eq]; rfl
@[simp] theorem State.lazyInit_psfbAt (s : State) (t sl : Nat) :
    (s.lazyInit t sl).psfbAt = s.psfbAt := by
  unfold State.lazyInit; split
  · rfl
  · rw [State.emits_eq]; rfl
@[simp] theorem State.lazyInit_vfAt (s : State) (t sl : Nat) :
    (s.lazyInit t sl).vfAt = s.vfAt := by
  unfold State.lazyInit; split
  · rfl
  · rw [State.emits_eq]; rfl

/-- Only the instance's own record changes, to `lazyTim` (R151). -/
theorem State.timAt_lazyInit (s : State) (t sl u : Nat) :
    (s.lazyInit t sl).timAt u = if u = t then s.lazyTim t sl else s.timAt u := by
  unfold State.lazyInit
  split
  · next h =>
    split
    · next e => subst e; rw [State.lazyTim_of_init h]
    · rfl
  · rw [State.timAt_setTim, State.emits_eq]; rfl

theorem State.calledOk_lazyInit (s : State) (t sl : Nat) :
    calledOk s (s.lazyInit t sl) (s.lazyCalls t sl) := by
  unfold State.lazyInit
  split
  · next h => rw [State.lazyCalls_of_init h]; exact ⟨by simp, by simp⟩
  · rw [State.emits_eq]; exact ⟨rfl, rfl⟩

/-! ### Configuration -/

/-- The state after a `CFGPAIR` that completes (R155). -/
def State.afterPair (s : State) (n sl : Nat) : State :=
  let t := instOf s.params n
  let s1 := s.lazyInit t sl
  let al := (s.lazyTim t sl).align
  ((s1.setRole n .pairRef (ocselOf false al)).setRole (n + 1) .pairInv (ocselOf true al)).applyLimits
    t sl true

/-- The state after a `CFGCH` that completes (R156). -/
def State.afterChannel (s : State) (n sl : Nat) : State :=
  let t := instOf s.params n
  let s1 := s.lazyInit t sl
  let al := (s.lazyTim t sl).align
  (s1.setRole n .single (ocselOf (isSecond n) al)).applyLimits t sl false

theorem bound_iff {p : Params} {n : Nat} : bound p n = true ↔ 1 ≤ n ∧ n ≤ p.npwm := by
  simp [bound]

theorem instOf_le (p : Params) (n : Nat) : instOf p n ≤ 1 := by unfold instOf; split <;> omega

theorem configPair_ok {s : State} {n sl : Nat} (hs : sl < s.params.ncfg) (h1 : 1 ≤ n)
    (h2 : n ≤ s.params.npwm) (h3 : n % 2 = 1)
    (hl : (s.lazyTim (instOf s.params n) sl).init = true)
    (hb : s.baseCallsOk ∨ (s.timAt (instOf s.params n)).init = true) :
    configPair n sl s = .ok () (s.afterPair n sl) := by
  unfold configPair State.afterPair
  rw [if_neg (by omega), if_neg (by simp [bound_iff, h1, h2]), if_neg (by omega)]
  simp only [timerInit_ok (instOf_le _ _) hs hl hb, Done.andThen_ok, State.timAt_lazyInit, if_true]

theorem configChannel_ok {s : State} {n sl : Nat} (hs : sl < s.params.ncfg) (h1 : 1 ≤ n)
    (h2 : n ≤ s.params.npwm)
    (hl : (s.lazyTim (instOf s.params n) sl).init = true)
    (hb : s.baseCallsOk ∨ (s.timAt (instOf s.params n)).init = true) :
    configChannel n sl s = .ok () (s.afterChannel n sl) := by
  unfold configChannel State.afterChannel
  rw [if_neg (by omega), if_neg (by simp [bound_iff, h1, h2])]
  simp only [timerInit_ok (instOf_le _ _) hs hl hb, Done.andThen_ok, State.timAt_lazyInit, if_true]

/-- Everything a `CFGPAIR` can do (R155): complete; be refused without effect; or halt CORE. -/
theorem configPair_spec (n sl : Nat) (s : State) :
    (∀ s', configPair n sl s = .ok () s' →
      sl < s.params.ncfg ∧ 1 ≤ n ∧ n ≤ s.params.npwm ∧ n % 2 = 1 ∧
      (s.lazyTim (instOf s.params n) sl).init = true ∧ s' = s.afterPair n sl) ∧
    (∀ e s', configPair n sl s = .err e s' →
      (e ≠ .fatalHwinit ∧ s' = s) ∨
      (e = .fatalHwinit ∧ ∃ cs c, s' = ((s.emits cs).record c .fail).halt)) := by
  unfold configPair
  split
  · exact ⟨fun s' h => (by cases h), fun e s' h => by cases h; exact .inl ⟨by decide, rfl⟩⟩
  split
  · exact ⟨fun s' h => (by cases h), fun e s' h => by cases h; exact .inl ⟨by decide, rfl⟩⟩
  split
  · exact ⟨fun s' h => (by cases h), fun e s' h => by cases h; exact .inl ⟨by decide, rfl⟩⟩
  · next h1 h2 h3 =>
    obtain ⟨g1, g2⟩ := timerInit_spec (instOf s.params n) sl s
    rw [not_not, bound_iff] at h2
    refine ⟨fun s' h => ?_, fun e s' h => ?_⟩
    · rw [Done.andThen_eq_ok] at h
      obtain ⟨_, s1, e1, e2⟩ := h
      obtain ⟨_, _, hl, rfl⟩ := g1 s1 e1
      cases e2
      refine ⟨by omega, h2.1, h2.2, by omega, hl, ?_⟩
      simp only [State.afterPair, State.timAt_lazyInit, if_true]
    · rw [Done.andThen_eq_err] at h
      rcases h with h | ⟨_, _, _, h⟩
      · exact g2 e s' h
      · cases h

/-- Everything a `CFGCH` can do (R156): complete; be refused without effect; or halt CORE. -/
theorem configChannel_spec (n sl : Nat) (s : State) :
    (∀ s', configChannel n sl s = .ok () s' →
      sl < s.params.ncfg ∧ 1 ≤ n ∧ n ≤ s.params.npwm ∧
      (s.lazyTim (instOf s.params n) sl).init = true ∧ s' = s.afterChannel n sl) ∧
    (∀ e s', configChannel n sl s = .err e s' →
      (e ≠ .fatalHwinit ∧ s' = s) ∨
      (e = .fatalHwinit ∧ ∃ cs c, s' = ((s.emits cs).record c .fail).halt)) := by
  unfold configChannel
  split
  · exact ⟨fun s' h => (by cases h), fun e s' h => by cases h; exact .inl ⟨by decide, rfl⟩⟩
  split
  · exact ⟨fun s' h => (by cases h), fun e s' h => by cases h; exact .inl ⟨by decide, rfl⟩⟩
  · next h1 h2 =>
    obtain ⟨g1, g2⟩ := timerInit_spec (instOf s.params n) sl s
    rw [not_not, bound_iff] at h2
    refine ⟨fun s' h => ?_, fun e s' h => ?_⟩
    · rw [Done.andThen_eq_ok] at h
      obtain ⟨_, s1, e1, e2⟩ := h
      obtain ⟨_, _, hl, rfl⟩ := g1 s1 e1
      cases e2
      refine ⟨by omega, h2.1, h2.2, hl, ?_⟩
      simp only [State.afterChannel, State.timAt_lazyInit, if_true]
    · rw [Done.andThen_eq_err] at h
      rcases h with h | ⟨_, _, _, h⟩
      · exact g2 e s' h
      · cases h

@[simp] theorem State.afterPair_params (s : State) (n sl : Nat) :
    (s.afterPair n sl).params = s.params := s.lazyInit_params (instOf s.params n) sl
@[simp] theorem State.afterPair_env (s : State) (n sl : Nat) :
    (s.afterPair n sl).env = s.env := s.lazyInit_env (instOf s.params n) sl
@[simp] theorem State.afterPair_inbox (s : State) (n sl : Nat) :
    (s.afterPair n sl).inbox = s.inbox := s.lazyInit_inbox (instOf s.params n) sl
@[simp] theorem State.afterPair_lanes (s : State) (n sl : Nat) :
    (s.afterPair n sl).lanes = s.lanes := s.lazyInit_lanes (instOf s.params n) sl
@[simp] theorem State.afterPair_halted (s : State) (n sl : Nat) :
    (s.afterPair n sl).halted = s.halted := s.lazyInit_halted (instOf s.params n) sl
@[simp] theorem State.afterPair_oen (s : State) (n sl : Nat) :
    (s.afterPair n sl).oen = s.oen := s.lazyInit_oen (instOf s.params n) sl
@[simp] theorem State.afterPair_status (s : State) (n sl : Nat) :
    (s.afterPair n sl).status = s.status := s.lazyInit_status (instOf s.params n) sl
@[simp] theorem State.afterPair_rescode (s : State) (n sl : Nat) :
    (s.afterPair n sl).rescode = s.rescode := s.lazyInit_rescode (instOf s.params n) sl
@[simp] theorem State.afterPair_res0 (s : State) (n sl : Nat) :
    (s.afterPair n sl).res0 = s.res0 := s.lazyInit_res0 (instOf s.params n) sl
@[simp] theorem State.afterPair_res1 (s : State) (n sl : Nat) :
    (s.afterPair n sl).res1 = s.res1 := s.lazyInit_res1 (instOf s.params n) sl
@[simp] theorem State.afterPair_res2 (s : State) (n sl : Nat) :
    (s.afterPair n sl).res2 = s.res2 := s.lazyInit_res2 (instOf s.params n) sl
@[simp] theorem State.afterPair_res3 (s : State) (n sl : Nat) :
    (s.afterPair n sl).res3 = s.res3 := s.lazyInit_res3 (instOf s.params n) sl
@[simp] theorem State.afterPair_legAt (s : State) (n sl : Nat) :
    (s.afterPair n sl).legAt = s.legAt := s.lazyInit_legAt (instOf s.params n) sl
@[simp] theorem State.afterPair_invAt (s : State) (n sl : Nat) :
    (s.afterPair n sl).invAt = s.invAt := s.lazyInit_invAt (instOf s.params n) sl
@[simp] theorem State.afterPair_psfbAt (s : State) (n sl : Nat) :
    (s.afterPair n sl).psfbAt = s.psfbAt := s.lazyInit_psfbAt (instOf s.params n) sl
@[simp] theorem State.afterPair_vfAt (s : State) (n sl : Nat) :
    (s.afterPair n sl).vfAt = s.vfAt := s.lazyInit_vfAt (instOf s.params n) sl

theorem State.timAt_afterPair (s : State) (n sl u : Nat) : (s.afterPair n sl).timAt u =
    if u = instOf s.params n then s.lazyTim (instOf s.params n) sl else s.timAt u :=
  s.timAt_lazyInit _ _ _

theorem State.cfgAt_afterPair (s : State) (n sl m : Nat) : (s.afterPair n sl).cfgAt m =
    if m = sl then limitSlot (s.lazyTim (instOf s.params n) sl) true (s.cfgAt sl)
    else s.cfgAt m := by
  simp [State.afterPair, State.cfgAt_applyLimits, State.timAt_lazyInit]

theorem State.calledOk_afterPair (s : State) (n sl : Nat) :
    calledOk s (s.afterPair n sl) (s.lazyCalls (instOf s.params n) sl) :=
  s.calledOk_lazyInit _ _

@[simp] theorem State.afterChannel_params (s : State) (n sl : Nat) :
    (s.afterChannel n sl).params = s.params := s.lazyInit_params (instOf s.params n) sl
@[simp] theorem State.afterChannel_env (s : State) (n sl : Nat) :
    (s.afterChannel n sl).env = s.env := s.lazyInit_env (instOf s.params n) sl
@[simp] theorem State.afterChannel_inbox (s : State) (n sl : Nat) :
    (s.afterChannel n sl).inbox = s.inbox := s.lazyInit_inbox (instOf s.params n) sl
@[simp] theorem State.afterChannel_lanes (s : State) (n sl : Nat) :
    (s.afterChannel n sl).lanes = s.lanes := s.lazyInit_lanes (instOf s.params n) sl
@[simp] theorem State.afterChannel_halted (s : State) (n sl : Nat) :
    (s.afterChannel n sl).halted = s.halted := s.lazyInit_halted (instOf s.params n) sl
@[simp] theorem State.afterChannel_oen (s : State) (n sl : Nat) :
    (s.afterChannel n sl).oen = s.oen := s.lazyInit_oen (instOf s.params n) sl
@[simp] theorem State.afterChannel_status (s : State) (n sl : Nat) :
    (s.afterChannel n sl).status = s.status := s.lazyInit_status (instOf s.params n) sl
@[simp] theorem State.afterChannel_rescode (s : State) (n sl : Nat) :
    (s.afterChannel n sl).rescode = s.rescode := s.lazyInit_rescode (instOf s.params n) sl
@[simp] theorem State.afterChannel_res0 (s : State) (n sl : Nat) :
    (s.afterChannel n sl).res0 = s.res0 := s.lazyInit_res0 (instOf s.params n) sl
@[simp] theorem State.afterChannel_res1 (s : State) (n sl : Nat) :
    (s.afterChannel n sl).res1 = s.res1 := s.lazyInit_res1 (instOf s.params n) sl
@[simp] theorem State.afterChannel_res2 (s : State) (n sl : Nat) :
    (s.afterChannel n sl).res2 = s.res2 := s.lazyInit_res2 (instOf s.params n) sl
@[simp] theorem State.afterChannel_res3 (s : State) (n sl : Nat) :
    (s.afterChannel n sl).res3 = s.res3 := s.lazyInit_res3 (instOf s.params n) sl
@[simp] theorem State.afterChannel_legAt (s : State) (n sl : Nat) :
    (s.afterChannel n sl).legAt = s.legAt := s.lazyInit_legAt (instOf s.params n) sl
@[simp] theorem State.afterChannel_invAt (s : State) (n sl : Nat) :
    (s.afterChannel n sl).invAt = s.invAt := s.lazyInit_invAt (instOf s.params n) sl
@[simp] theorem State.afterChannel_psfbAt (s : State) (n sl : Nat) :
    (s.afterChannel n sl).psfbAt = s.psfbAt := s.lazyInit_psfbAt (instOf s.params n) sl
@[simp] theorem State.afterChannel_vfAt (s : State) (n sl : Nat) :
    (s.afterChannel n sl).vfAt = s.vfAt := s.lazyInit_vfAt (instOf s.params n) sl

theorem State.timAt_afterChannel (s : State) (n sl u : Nat) : (s.afterChannel n sl).timAt u =
    if u = instOf s.params n then s.lazyTim (instOf s.params n) sl else s.timAt u :=
  s.timAt_lazyInit _ _ _

theorem State.cfgAt_afterChannel (s : State) (n sl m : Nat) : (s.afterChannel n sl).cfgAt m =
    if m = sl then limitSlot (s.lazyTim (instOf s.params n) sl) false (s.cfgAt sl)
    else s.cfgAt m := by
  simp [State.afterChannel, State.cfgAt_applyLimits, State.timAt_lazyInit]

theorem State.calledOk_afterChannel (s : State) (n sl : Nat) :
    calledOk s (s.afterChannel n sl) (s.lazyCalls (instOf s.params n) sl) :=
  s.calledOk_lazyInit _ _

theorem State.chAt_afterPair (s : State) (n sl m : Nat) : (s.afterPair n sl).chAt m =
    if m = n then
      { s.chAt m with
        role := .pairRef, ocsel := ocselOf false (s.lazyTim (instOf s.params n) sl).align }
    else if m = n + 1 then
      { s.chAt m with
        role := .pairInv, ocsel := ocselOf true (s.lazyTim (instOf s.params n) sl).align }
    else s.chAt m := by
  simp only [State.afterPair, State.applyLimits_chAt, State.chAt_setRole, State.lazyInit_chAt]
  by_cases h1 : m = n
  · subst h1; simp
  · by_cases h2 : m = n + 1
    · subst h2; simp
    · simp [h1, h2]

theorem State.chAt_afterChannel (s : State) (n sl m : Nat) : (s.afterChannel n sl).chAt m =
    if m = n then
      { s.chAt m with
        role := .single, ocsel := ocselOf (isSecond n) (s.lazyTim (instOf s.params n) sl).align }
    else s.chAt m := by
  simp only [State.afterChannel, State.applyLimits_chAt, State.chAt_setRole, State.lazyInit_chAt]
  by_cases h1 : m = n
  · subst h1; simp
  · simp [h1]

/-! ### Duty updates -/

/-- The state after a pair update that completes (R161). -/
def State.afterUpdate (s : State) (n cmp : Nat) : State := (s.setShadow n cmp).setShadow (n + 1) cmp

/-- A pair update completes exactly when it accepts, with the clamped duty and one compare value in
both shadow registers; otherwise it is refused without effect (R161, R166). -/
theorem updatePair_spec (n sl : Nat) (duty : NUM) (s : State) :
    (s.pairAccepts n sl duty → updatePair n sl duty s =
      .ok (clampedDuty (s.cfgAt sl) duty) (s.afterUpdate n (s.pairCompare n sl duty))) ∧
    (¬ s.pairAccepts n sl duty → ∃ e, e ≠ .fatalHwinit ∧ updatePair n sl duty s = .err e s) := by
  unfold updatePair State.pairAccepts
  by_cases h1 : s.params.ncfg ≤ sl
  · rw [if_pos h1]
    exact ⟨fun h => absurd h.1 (by omega), fun _ => ⟨_, by decide, rfl⟩⟩
  rw [if_neg h1]
  by_cases h2 : bound s.params n = true
  · rw [if_neg (by simp [h2])]
    rw [bound_iff] at h2
    by_cases h3 : n % 2 = 0
    · rw [if_pos h3]
      exact ⟨fun h => absurd h.2.2.2.1 (by omega), fun _ => ⟨_, by decide, rfl⟩⟩
    rw [if_neg h3]
    simp only
    by_cases h4 : (s.timAt (instOf s.params n)).init = false ∨ (s.chAt n).role ≠ .pairRef
    · rw [if_pos h4]
      refine ⟨fun h => ?_, fun _ => ⟨_, by decide, rfl⟩⟩
      rcases h4 with h4 | h4
      · rw [h.2.2.2.2.1] at h4; cases h4
      · exact absurd h.2.2.2.2.2.1 h4
    rw [if_neg h4]
    push Not at h4
    obtain ⟨d1, d2⟩ := dutyCompare_eq (s.timAt (instOf s.params n)) (s.cfgAt sl)
      (clampedDuty (s.cfgAt sl) duty)
    unfold clampedDuty at d1 d2 ⊢
    refine ⟨fun h => ?_, fun h => ?_⟩
    · rw [d1 h.2.2.2.2.2.2]; rfl
    · have hf : ¬ dutyFits (s.timAt (instOf s.params n)) (s.cfgAt sl)
          (clamp duty (s.cfgAt sl).min (s.cfgAt sl).max) := fun hf =>
        h ⟨by omega, h2.1, h2.2, by omega, by simpa using h4.1, h4.2, hf⟩
      rw [d2 hf]
      exact ⟨_, by decide, rfl⟩
  · rw [if_pos (by simpa using h2)]
    rw [bound_iff] at h2
    exact ⟨fun h => absurd ⟨h.2.1, h.2.2.1⟩ h2, fun _ => ⟨_, by decide, rfl⟩⟩

/-- A channel update completes exactly when it accepts; otherwise it is refused without effect
(R162). -/
theorem updateChannel_spec (n sl : Nat) (duty : NUM) (s : State) :
    (s.channelAccepts n sl duty → updateChannel n sl duty s =
      .ok (clampHi duty (s.cfgAt sl).max) (s.setShadow n
        (appliedCompare (s.timAt (instOf s.params n)) (s.cfgAt sl)
          (clampHi duty (s.cfgAt sl).max)))) ∧
    (¬ s.channelAccepts n sl duty →
      ∃ e, e ≠ .fatalHwinit ∧ updateChannel n sl duty s = .err e s) := by
  unfold updateChannel State.channelAccepts
  by_cases h1 : s.params.ncfg ≤ sl
  · rw [if_pos h1]
    exact ⟨fun h => absurd h.1 (by omega), fun _ => ⟨_, by decide, rfl⟩⟩
  rw [if_neg h1]
  by_cases h2 : bound s.params n = true
  · rw [if_neg (by simp [h2])]
    rw [bound_iff] at h2
    simp only
    by_cases h4 : (s.timAt (instOf s.params n)).init = false ∨ (s.chAt n).role ≠ .single
    · rw [if_pos h4]
      refine ⟨fun h => ?_, fun _ => ⟨_, by decide, rfl⟩⟩
      rcases h4 with h4 | h4
      · rw [h.2.2.2.1] at h4; cases h4
      · exact absurd h.2.2.2.2.1 h4
    rw [if_neg h4]
    push Not at h4
    obtain ⟨d1, d2⟩ := dutyCompare_eq (s.timAt (instOf s.params n)) (s.cfgAt sl)
      (clampHi duty (s.cfgAt sl).max)
    refine ⟨fun h => ?_, fun h => ?_⟩
    · rw [d1 h.2.2.2.2.2]
    · have hf : ¬ dutyFits (s.timAt (instOf s.params n)) (s.cfgAt sl)
          (clampHi duty (s.cfgAt sl).max) := fun hf =>
        h ⟨by omega, h2.1, h2.2, by simpa using h4.1, h4.2, hf⟩
      rw [d2 hf]
      exact ⟨_, by decide, rfl⟩
  · rw [if_pos (by simpa using h2)]
    rw [bound_iff] at h2
    exact ⟨fun h => absurd ⟨h.2.1, h.2.2.1⟩ h2, fun _ => ⟨_, by decide, rfl⟩⟩

@[simp] theorem State.afterUpdate_params (s : State) (n c : Nat) :
    (s.afterUpdate n c).params = s.params := rfl
@[simp] theorem State.afterUpdate_env (s : State) (n c : Nat) :
    (s.afterUpdate n c).env = s.env := rfl
@[simp] theorem State.afterUpdate_inbox (s : State) (n c : Nat) :
    (s.afterUpdate n c).inbox = s.inbox := rfl
@[simp] theorem State.afterUpdate_lanes (s : State) (n c : Nat) :
    (s.afterUpdate n c).lanes = s.lanes := rfl
@[simp] theorem State.afterUpdate_ext (s : State) (n c : Nat) :
    (s.afterUpdate n c).ext = s.ext := rfl
@[simp] theorem State.afterUpdate_callNo (s : State) (n c : Nat) :
    (s.afterUpdate n c).callNo = s.callNo := rfl
@[simp] theorem State.afterUpdate_halted (s : State) (n c : Nat) :
    (s.afterUpdate n c).halted = s.halted := rfl
@[simp] theorem State.afterUpdate_oen (s : State) (n c : Nat) :
    (s.afterUpdate n c).oen = s.oen := rfl
@[simp] theorem State.afterUpdate_status (s : State) (n c : Nat) :
    (s.afterUpdate n c).status = s.status := rfl
@[simp] theorem State.afterUpdate_rescode (s : State) (n c : Nat) :
    (s.afterUpdate n c).rescode = s.rescode := rfl
@[simp] theorem State.afterUpdate_res0 (s : State) (n c : Nat) :
    (s.afterUpdate n c).res0 = s.res0 := rfl
@[simp] theorem State.afterUpdate_res1 (s : State) (n c : Nat) :
    (s.afterUpdate n c).res1 = s.res1 := rfl
@[simp] theorem State.afterUpdate_res2 (s : State) (n c : Nat) :
    (s.afterUpdate n c).res2 = s.res2 := rfl
@[simp] theorem State.afterUpdate_res3 (s : State) (n c : Nat) :
    (s.afterUpdate n c).res3 = s.res3 := rfl
@[simp] theorem State.afterUpdate_timAt (s : State) (n c : Nat) :
    (s.afterUpdate n c).timAt = s.timAt := rfl
@[simp] theorem State.afterUpdate_cfgAt (s : State) (n c : Nat) :
    (s.afterUpdate n c).cfgAt = s.cfgAt := rfl
@[simp] theorem State.afterUpdate_legAt (s : State) (n c : Nat) :
    (s.afterUpdate n c).legAt = s.legAt := rfl
@[simp] theorem State.afterUpdate_invAt (s : State) (n c : Nat) :
    (s.afterUpdate n c).invAt = s.invAt := rfl
@[simp] theorem State.afterUpdate_psfbAt (s : State) (n c : Nat) :
    (s.afterUpdate n c).psfbAt = s.psfbAt := rfl
@[simp] theorem State.afterUpdate_vfAt (s : State) (n c : Nat) :
    (s.afterUpdate n c).vfAt = s.vfAt := rfl

/-- Both members of the pair take the compare value; nothing else of any channel changes (R166). -/
theorem State.chAt_afterUpdate (s : State) (n c m : Nat) : (s.afterUpdate n c).chAt m =
    if m = n ∨ m = n + 1 then { s.chAt m with cmps := c } else s.chAt m := by
  simp only [State.afterUpdate, State.chAt_setShadow]
  by_cases h1 : m = n
  · subst h1; simp
  · by_cases h2 : m = n + 1
    · subst h2; simp
    · simp [h1, h2]

/-! ### The reset-interrupt callback -/

/-- Everything a `CFGIRQ` can do (R170). -/
theorem configIrq_spec (t : Nat) (cb : Byte) (prio : Nibble) (e : Bool) (s : State) :
    (1 < t ∧ configIrq t cb prio e s = .err .errIndex s) ∨
    (t ≤ 1 ∧ e = true ∧ cb = 0 ∧ configIrq t cb prio e s = .ok () s) ∨
    (t ≤ 1 ∧ e = true ∧ cb ≠ 0 ∧ callbackLegal s.params cb = false ∧
      configIrq t cb prio e s = .err .errValue s) ∨
    (t ≤ 1 ∧ e = true ∧ cb ≠ 0 ∧ callbackLegal s.params cb = true ∧
      configIrq t cb prio e s =
        .ok () ((s.setTim t { s.timAt t with cb := cb, cbPrio := prio }).emit
          (.irqConfig t true prio))) ∨
    (t ≤ 1 ∧ e = false ∧ configIrq t cb prio e s =
      .ok () ((s.setTim t { s.timAt t with cb := 0 }).emit (.irqConfig t false 0))) := by
  unfold configIrq
  by_cases ht : 1 < t
  · simp [ht]
  · cases e
    · simp [ht]; omega
    · by_cases hc : cb = 0
      · simp [ht, hc]; omega
      · cases hl : callbackLegal s.params cb
        · exact .inr (.inr (.inl ⟨by omega, rfl, hc, rfl, by
            rw [if_neg ht, if_pos rfl, if_neg hc, if_pos (by simp)]⟩))
        · exact .inr (.inr (.inr (.inl ⟨by omega, rfl, hc, rfl, by
            rw [if_neg ht, if_pos rfl, if_neg hc, if_neg (by simp)]⟩)))

end Sys2Proof.Machine
end

