-- ==== Sys2Proof/Laws/Configured.lean ====
section
/-! SUPPORT. What configuring a list of pairs leaves, and that it composes: configuring one list and
then another is configuring both (R31, R155, R160). -/

namespace Sys2Proof.Machine

/-! ### The timing part of a slot -/

/-- Two slots with the same timing fields. -/
def sameTimingFields (c c' : Slot) : Prop :=
  c'.align = c.align ∧ c'.fsw = c.fsw ∧ c'.dtEn = c.dtEn ∧ c'.dtNs = c.dtNs

theorem timingOf_congr {c c' : Slot} (h : sameTimingFields c c') (tp : TimerParams) :
    timingOf tp c' = timingOf tp c := by
  obtain ⟨h1, h2, h3, h4⟩ := h
  simp [timingOf, dtOfSlot, h1, h2, h3, h4]

theorem initTim_congr {c c' : Slot} (h : sameTimingFields c c') (r : Tim) (tm : Timing) :
    initTim r c' tm = initTim r c tm := by
  obtain ⟨h1, h2, h3, h4⟩ := h
  simp [initTim, h1, h2, h3, h4]

theorem lazyTim_congr {s t : State} {u sl : Nat} (hp : t.params = s.params)
    (ht : t.timAt u = s.timAt u) (hc : sameTimingFields (s.cfgAt sl) (t.cfgAt sl)) :
    t.lazyTim u sl = s.lazyTim u sl := by
  unfold State.lazyTim
  rw [hp, ht, timingOf_congr hc]
  cases timingOf (s.params.timer u) (s.cfgAt sl) with
  | ok tm => simp only [initTim_congr hc]
  | error e => rfl

theorem sameTimingFields_limitSlot (tm : Tim) (p : Bool) {c c' : Slot}
    (h : sameTimingFields c c') : sameTimingFields c (limitSlot tm p c') := h

/-! ### Instances and slots after configuration -/

theorem configuredTim_of_init {s : State} {u : Nat} (h : (s.timAt u).init = true)
    (refs : List (Nat × Nat)) : s.configuredTim u refs = s.timAt u := by
  induction refs with
  | nil => rfl
  | cons r refs ih =>
    obtain ⟨n, sl⟩ := r
    simp only [State.configuredTim, ih, State.lazyTim_of_init h, ite_self]

theorem configuredTim_of_absent {s : State} {u : Nat} {refs : List (Nat × Nat)}
    (h : ¬ onInstance s.params refs u) (refs' : List (Nat × Nat)) :
    s.configuredTim u (refs ++ refs') = s.configuredTim u refs' := by
  induction refs with
  | nil => rfl
  | cons r refs ih =>
    obtain ⟨n, sl⟩ := r
    have hn : instOf s.params n ≠ u := fun e => h ⟨(n, sl), by simp, e⟩
    rw [List.cons_append, State.configuredTim, if_neg hn]
    exact ih fun ⟨r, hr, e⟩ => h ⟨r, by simp [hr], e⟩

theorem configuredTim_of_present {s : State} {u : Nat} {refs : List (Nat × Nat)}
    (h : onInstance s.params refs u) (refs' : List (Nat × Nat)) :
    s.configuredTim u (refs ++ refs') = s.configuredTim u refs := by
  induction refs with
  | nil => obtain ⟨r, hr, -⟩ := h; cases hr
  | cons r refs ih =>
    obtain ⟨n, sl⟩ := r
    rw [List.cons_append, State.configuredTim, State.configuredTim]
    split
    · rfl
    · next hn =>
      apply ih
      obtain ⟨r, hr, e⟩ := h
      rcases List.mem_cons.mp hr with rfl | hr
      · exact absurd e hn
      · exact ⟨r, hr, e⟩

theorem configuredTim_absent {s : State} {u : Nat} {refs : List (Nat × Nat)}
    (h : ¬ onInstance s.params refs u) : s.configuredTim u refs = s.timAt u := by
  have := configuredTim_of_absent h []
  rw [List.append_nil] at this
  exact this

/-- One slot's limits recomputed for its pairs. -/
def limitFold (tims : Nat → Tim) (p : Params) (refs : List (Nat × Nat)) (sl : Nat) (c : Slot) :
    Slot :=
  refs.foldl (fun c r => if r.2 = sl then limitSlot (tims (instOf p r.1)) true c else c) c

theorem configuredSlot_eq (s : State) (refs : List (Nat × Nat)) (sl : Nat) :
    s.configuredSlot refs sl =
      limitFold (fun u => s.configuredTim u refs) s.params refs sl (s.cfgAt sl) := rfl

theorem limitFold_append (tims : Nat → Tim) (p : Params) (a b : List (Nat × Nat)) (sl : Nat)
    (c : Slot) : limitFold tims p (a ++ b) sl c = limitFold tims p b sl (limitFold tims p a sl c) :=
  List.foldl_append

theorem limitFold_congr {tims tims' : Nat → Tim} {p : Params} {refs : List (Nat × Nat)}
    (h : ∀ r ∈ refs, tims (instOf p r.1) = tims' (instOf p r.1)) (sl : Nat) (c : Slot) :
    limitFold tims p refs sl c = limitFold tims' p refs sl c := by
  induction refs generalizing c with
  | nil => rfl
  | cons r refs ih =>
    simp only [limitFold, List.foldl_cons] at ih ⊢
    rw [h r (by simp)]
    exact ih (fun r hr => h r (by simp [hr])) _

theorem limitFold_absent (tims : Nat → Tim) (p : Params) {refs : List (Nat × Nat)} {sl : Nat}
    (h : ∀ r ∈ refs, r.2 ≠ sl) (c : Slot) : limitFold tims p refs sl c = c := by
  induction refs with
  | nil => rfl
  | cons r refs ih =>
    simp only [limitFold, List.foldl_cons] at ih ⊢
    rw [if_neg (h r (by simp))]
    exact ih fun r hr => h r (by simp [hr])

theorem sameTimingFields_limitFold (tims : Nat → Tim) (p : Params) (refs : List (Nat × Nat))
    (sl : Nat) {c c' : Slot} (h : sameTimingFields c c') :
    sameTimingFields c (limitFold tims p refs sl c') := by
  induction refs generalizing c' with
  | nil => exact h
  | cons r refs ih =>
    simp only [limitFold, List.foldl_cons] at ih ⊢
    apply ih
    split
    · exact sameTimingFields_limitSlot _ _ h
    · exact h

theorem sameTimingFields_refl (c : Slot) : sameTimingFields c c := ⟨rfl, rfl, rfl, rfl⟩

/-! ### The relation -/

/-- The pairs of a list have been configured; compare values are left out. -/
def Configured (s : State) (refs : List (Nat × Nat)) (t : State) : Prop :=
  t.params = s.params ∧
  (∀ u, t.timAt u = s.configuredTim u refs) ∧
  (∀ m, t.cfgAt m = s.configuredSlot refs m) ∧
  (∀ m, t.chAt m = { s.configuredCh refs m with cmps := (t.chAt m).cmps })

/-- Every pair of the list is odd and its instance was initialised. -/
def refsGood (s : State) (refs : List (Nat × Nat)) : Prop :=
  ∀ r ∈ refs, r.1 % 2 = 1 ∧ (s.configuredTim (instOf s.params r.1) refs).init = true

theorem configured_afterPair (s : State) (n sl : Nat) (hn : n % 2 = 1)
    (hp : s.params.timer0.nch % 2 = 0) : Configured s [(n, sl)] (s.afterPair n sl) := by
  refine ⟨s.afterPair_params n sl, fun u => ?_, fun m => ?_, fun m => ?_⟩
  · rw [State.timAt_afterPair, State.configuredTim]
    by_cases h : instOf s.params n = u
    · subst h; simp
    · rw [if_neg h, if_neg fun e => h e.symm]; rfl
  · rw [State.cfgAt_afterPair]
    simp only [State.configuredSlot, List.foldl_cons, List.foldl_nil, State.configuredTim, if_true]
    by_cases h : m = sl
    · subst h; simp
    · rw [if_neg h, if_neg fun e => h e.symm]
  · rw [State.chAt_afterPair]
    by_cases h1 : m = n
    · subst h1
      simp only [State.configuredCh, List.any_cons, List.any_nil, beq_self_eq_true, Bool.true_or,
        if_true, State.configuredTim]
      cases (s.lazyTim (instOf s.params m) sl).align <;> rfl
    · by_cases h2 : m = n + 1
      · subst h2
        simp only [State.configuredCh, List.any_cons, List.any_nil, beq_self_eq_true, Bool.true_or,
          if_true, State.configuredTim, instOf_succ hp hn]
        rw [if_neg h1]
        have : (n == n + 1) = false := by simp
        simp only [this, Bool.or_self, Bool.false_eq_true, if_false]
        cases (s.lazyTim (instOf s.params n) sl).align <;> rfl
      · have a1 : (n == m) = false := by simpa using fun e => h1 e.symm
        have a2 : (n + 1 == m) = false := by simpa using fun e => h2 e.symm
        simp [State.configuredCh, h1, h2, a1, a2]

/-- What is configured next depends on the state before through the pairs already configured only. -/
theorem Configured.tim {s t : State} {refs : List (Nat × Nat)} (h : Configured s refs t)
    (hg : refsGood s refs) (refs' : List (Nat × Nat)) (u : Nat) :
    t.configuredTim u refs' = s.configuredTim u (refs ++ refs') := by
  obtain ⟨hp, ht, hc, -⟩ := h
  by_cases hu : onInstance s.params refs u
  · rw [configuredTim_of_present hu]
    obtain ⟨r, hr, e⟩ := hu
    have hi : (t.timAt u).init = true := by rw [ht, ← e]; exact (hg r hr).2
    rw [configuredTim_of_init hi, ht]
  · rw [configuredTim_of_absent hu]
    have htu : t.timAt u = s.timAt u := by rw [ht, configuredTim_absent hu]
    induction refs' with
    | nil => exact htu
    | cons r refs' ih =>
      obtain ⟨n, sl⟩ := r
      rw [State.configuredTim, State.configuredTim, hp, ih]
      split
      · apply lazyTim_congr hp htu
        rw [hc, configuredSlot_eq]
        exact sameTimingFields_limitFold _ _ _ _ (sameTimingFields_refl _)
      · rfl

theorem Configured.slot {s t : State} {refs : List (Nat × Nat)} (h : Configured s refs t)
    (hg : refsGood s refs) (refs' : List (Nat × Nat)) (m : Nat) :
    t.configuredSlot refs' m = s.configuredSlot (refs ++ refs') m := by
  rw [configuredSlot_eq, configuredSlot_eq, limitFold_append, h.1, h.2.2.1, configuredSlot_eq]
  rw [limitFold_congr (tims := fun u => t.configuredTim u refs')
    (tims' := fun u => s.configuredTim u (refs ++ refs')) fun r _ => h.tim hg refs' _]
  congr 1
  apply limitFold_congr
  intro r hr
  exact (configuredTim_of_present ⟨r, hr, rfl⟩ refs').symm

theorem Configured.append {s t u : State} {refs refs' : List (Nat × Nat)}
    (h : Configured s refs t) (h' : Configured t refs' u) (hg : refsGood s refs)
    (ho : ∀ r ∈ refs', r.1 % 2 = 1) (hp : s.params.timer0.nch % 2 = 0) :
    Configured s (refs ++ refs') u := by
  refine ⟨h'.1.trans h.1, fun v => ?_, fun m => ?_, fun m => ?_⟩
  · rw [h'.2.1, h.tim hg]
  · rw [h'.2.2.1, h.slot hg]
  · rw [h'.2.2.2 m]
    simp only [State.configuredCh, h.tim hg, h.1, List.any_append]
    have hm := h.2.2.2 m
    simp only [State.configuredCh] at hm
    by_cases b1 : (refs'.any fun r => r.1 == m) = true
    · rw [hm]
      simp only [b1, Bool.or_true, if_true]
      split <;> [rfl; (split <;> rfl)]
    · simp only [Bool.not_eq_true] at b1
      simp only [b1, Bool.or_false, Bool.false_eq_true, if_false]
      by_cases b2 : (refs'.any fun r => r.1 + 1 == m) = true
      · have b3 : (refs.any fun r => r.1 == m) = false := by
          rw [List.any_eq_false]
          intro r hr e
          obtain ⟨r', hr', e'⟩ := List.any_eq_true.mp b2
          have := (hg r hr).1
          have := ho r' hr'
          simp only [beq_iff_eq] at e e'
          omega
        rw [hm]
        simp only [b2, b3, Bool.or_true, if_true, Bool.false_eq_true, if_false]
        split <;> rfl
      · simp only [Bool.not_eq_true] at b2
        simp only [b2, Bool.or_false, Bool.false_eq_true, if_false]
        rw [hm]
        by_cases c1 : (refs.any fun r => r.1 == m) = true
        · obtain ⟨r, hr, e⟩ := List.any_eq_true.mp c1
          simp only [beq_iff_eq] at e
          simp only [c1, if_true]
          rw [configuredTim_of_present ⟨r, hr, by rw [e]⟩]
        · simp only [Bool.not_eq_true] at c1
          by_cases c2 : (refs.any fun r => r.1 + 1 == m) = true
          · obtain ⟨r, hr, e⟩ := List.any_eq_true.mp c2
            simp only [beq_iff_eq] at e
            simp only [c1, c2, if_true, Bool.false_eq_true, if_false]
            rw [configuredTim_of_present ⟨r, hr, by rw [← e, instOf_succ hp (hg r hr).1]⟩]
          · simp only [Bool.not_eq_true] at c2
            simp only [c1, c2, Bool.false_eq_true, if_false]

/-! ### The calls of configuring pairs (R80, R153) -/

theorem lazyCalls_congr {s t : State} {u sl : Nat} (hp : t.params = s.params)
    (ht : t.timAt u = s.timAt u) (hc : sameTimingFields (s.cfgAt sl) (t.cfgAt sl)) :
    t.lazyCalls u sl = s.lazyCalls u sl := by
  unfold State.lazyCalls
  rw [hp, ht, timingOf_congr hc, hc.1]

theorem refsCalls_nil (s : State) (e : List (Nat × Nat)) : s.refsCalls e [] = [] := rfl

theorem refsCalls_append (s : State) (e a b : List (Nat × Nat)) :
    s.refsCalls e (a ++ b) = s.refsCalls e a ++ s.refsCalls (e ++ a) b := by
  induction a generalizing e with
  | nil => simp [State.refsCalls]
  | cons r a ih => simp [State.refsCalls, ih]

theorem refsCalls_first (s : State) (r : Nat × Nat) :
    s.refsCalls [] [r] = s.lazyCalls (instOf s.params r.1) r.2 := by
  simp [State.refsCalls]

theorem any_instance {p : Params} {refs : List (Nat × Nat)} {u : Nat} :
    (refs.any fun e => instOf p e.1 == u) = true ↔ onInstance p refs u := by
  simp [onInstance]

/-- What configuring the next pairs calls depends on the state before through the pairs already
configured only. -/
theorem Configured.calls {s t : State} {refs : List (Nat × Nat)} (h : Configured s refs t)
    (hg : refsGood s refs) (e refs' : List (Nat × Nat)) :
    t.refsCalls e refs' = s.refsCalls (refs ++ e) refs' := by
  induction refs' generalizing e with
  | nil => rfl
  | cons r refs' ih =>
    rw [State.refsCalls, State.refsCalls, ih, List.append_assoc, h.1]
    congr 1
    simp only [List.any_append]
    by_cases hu : onInstance s.params refs (instOf s.params r.1)
    · rw [any_instance.mpr hu]
      obtain ⟨r', hr', e'⟩ := hu
      have hi : (t.timAt (instOf s.params r.1)).init = true := by
        rw [h.2.1, ← e']; exact (hg r' hr').2
      simp [State.lazyCalls_of_init hi]
    · have hf : (refs.any fun e => instOf s.params e.1 == instOf s.params r.1) = false := by
        rw [← Bool.not_eq_true, any_instance]; exact hu
      rw [hf, Bool.false_or]
      split
      · rfl
      · apply lazyCalls_congr h.1
        · rw [h.2.1, configuredTim_absent hu]
        · rw [h.2.2.1, configuredSlot_eq]
          exact sameTimingFields_limitFold _ _ _ _ (sameTimingFields_refl _)

/-- Updates of anything but instances, slots and roles keep the relation. -/
theorem Configured.of_eq {s t u : State} {refs : List (Nat × Nat)} (h : Configured s refs t)
    (hp : u.params = t.params) (ht : ∀ v, u.timAt v = t.timAt v) (hc : ∀ m, u.cfgAt m = t.cfgAt m)
    (hch : ∀ m, u.chAt m = { t.chAt m with cmps := (u.chAt m).cmps }) : Configured s refs u := by
  refine ⟨hp.trans h.1, fun v => (ht v).trans (h.2.1 v), fun m => (hc m).trans (h.2.2.1 m),
    fun m => ?_⟩
  have hm := h.2.2.2 m
  rw [hch m, hm]

end Sys2Proof.Machine
end

