-- ==== Sys2Proof/Laws/PerInstr.lean ====
section
/-! SUPPORT. The families of statements made for every command, one lemma per constructor.
`TableRow`: the encoding of a well-formed command lies in its own row of the operation map (R104,
R105, R109). -/

namespace Sys2Proof.Laws

/-- The command's word, masked by its row's mask, is its row's match (R105). -/
def TableRow.Statement (i : Instr) : Prop :=
  i.wellFormed = true → encode i &&& i.tableMask = i.tableMatch

/-- A word under a mask, byte by byte. -/
theorem wordOf_and (a b c d m0 m1 m2 m3 : Byte) :
    wordOf a b c d &&& wordOf m0 m1 m2 m3 =
      wordOf (a &&& m0) (b &&& m1) (c &&& m2) (d &&& m3) := by
  unfold wordOf
  rw [BitVec.and_append, BitVec.and_append, BitVec.and_append]

theorem wordOfUnit_and (op : Byte) (u : Nat) :
    wordOfUnit op u &&& 0xFF00FFFF = wordOf (op &&& 0xFF) 0 0 0 := by
  have hm : (0xFF00FFFF : Word) = wordOf 0xFF 0#8 0xFF 0xFF := rfl
  unfold wordOfUnit
  rw [hm, wordOf_and, BitVec.and_zero]
  rfl

theorem wordOfFlag_and (op : Byte) (u : Nat) (f : Bool) :
    wordOfFlag op u f &&& 0xFF00FFFE = wordOf (op &&& 0xFF) 0 0 0 := by
  have hm : (0xFF00FFFE : Word) = wordOf 0xFF 0#8 0xFF 0xFE := rfl
  have hf : ((BitVec.ofBool f).zeroExtend 8 : Byte) &&& 0xFE = 0#8 := by cases f <;> decide
  unfold wordOfFlag
  rw [hm, wordOf_and, BitVec.and_zero, hf]
  rfl

theorem wordOfSlot_and (op : Byte) (x sl : Nat) :
    wordOfSlot op x sl &&& 0xFF0000FF = wordOf (op &&& 0xFF) 0 0 0 := by
  have hm : (0xFF0000FF : Word) = wordOf 0xFF 0#8 0#8 0xFF := rfl
  unfold wordOfSlot
  rw [hm, wordOf_and, BitVec.and_zero, BitVec.and_zero]
  rfl

theorem wordOfAddr_and (op : Byte) (addr : FieldAddr) :
    wordOfAddr op addr &&& 0xFF0000FF = (op &&& 0xFF) ++ (0#16) ++ (0#8) := by
  have hm : (0xFF0000FF : Word) = (0xFF : Byte) ++ (0#16) ++ (0xFF : Byte) := rfl
  unfold wordOfAddr
  rw [hm, BitVec.and_append, BitVec.and_append, BitVec.and_zero]
  rfl

theorem wordOfIrq_and (t : Nat) (cb : Byte) (priority : Nibble) (enable : Bool) :
    wordOfIrq t cb priority enable &&& 0xFF00000E = 0x25000000 := by
  have hm : (0xFF00000E : Word) =
    wordOf 0xFF 0#8 0#8 ((0#4) ++ (7 : BitVec 3) ++ (0#1)) := rfl
  unfold wordOfIrq
  rw [hm, wordOf_and, BitVec.and_append, BitVec.and_append, BitVec.and_zero, BitVec.and_zero,
    BitVec.and_zero, BitVec.and_zero]
  rfl

theorem TableRow.wrf (addr : FieldAddr) : TableRow.Statement (.wrf addr) :=
  fun _ => (wordOfAddr_and _ _).trans rfl

theorem TableRow.rdf (addr : FieldAddr) : TableRow.Statement (.rdf addr) :=
  fun _ => (wordOfAddr_and _ _).trans rfl

theorem TableRow.dtenc : TableRow.Statement .dtenc :=
  fun _ => rfl

theorem TableRow.tinit (t : Nat) (sl : Nat) : TableRow.Statement (.tinit t sl) :=
  fun _ => (wordOfSlot_and _ _ _).trans rfl

theorem TableRow.cfgpair (n : Nat) (sl : Nat) : TableRow.Statement (.cfgpair n sl) :=
  fun _ => (wordOfSlot_and _ _ _).trans rfl

theorem TableRow.cfgch (n : Nat) (sl : Nat) : TableRow.Statement (.cfgch n sl) :=
  fun _ => (wordOfSlot_and _ _ _).trans rfl

theorem TableRow.updpair (n : Nat) (sl : Nat) : TableRow.Statement (.updpair n sl) :=
  fun _ => (wordOfSlot_and _ _ _).trans rfl

theorem TableRow.updch (n : Nat) (sl : Nat) : TableRow.Statement (.updch n sl) :=
  fun _ => (wordOfSlot_and _ _ _).trans rfl

theorem TableRow.cfgirq (t : Nat) (cb : Byte) (priority : Nibble) (enable : Bool) : TableRow.Statement (.cfgirq t cb priority enable) :=
  fun _ => wordOfIrq_and _ _ _ _

theorem TableRow.cfgleg (l : Nat) : TableRow.Statement (.cfgleg l) :=
  fun _ => (wordOfUnit_and _ _).trans rfl

theorem TableRow.enleg (l : Nat) (enable : Bool) : TableRow.Statement (.enleg l enable) :=
  fun _ => (wordOfFlag_and _ _ _).trans rfl

theorem TableRow.capupd (l : Nat) : TableRow.Statement (.capupd l) :=
  fun _ => (wordOfUnit_and _ _).trans rfl

theorem TableRow.invinit (i : Nat) : TableRow.Statement (.invinit i) :=
  fun _ => (wordOfUnit_and _ _).trans rfl

theorem TableRow.invupd (i : Nat) : TableRow.Statement (.invupd i) :=
  fun _ => (wordOfUnit_and _ _).trans rfl

theorem TableRow.invspwm (i : Nat) (direction : Direction) : TableRow.Statement (.invspwm i direction) :=
  fun _ => (wordOfFlag_and _ _ _).trans rfl

theorem TableRow.invact (i : Nat) (enable : Bool) : TableRow.Statement (.invact i enable) :=
  fun _ => (wordOfFlag_and _ _ _).trans rfl

theorem TableRow.psfbinit (j : Nat) : TableRow.Statement (.psfbinit j) :=
  fun _ => (wordOfUnit_and _ _).trans rfl

theorem TableRow.psfbupd (j : Nat) : TableRow.Statement (.psfbupd j) :=
  fun _ => (wordOfUnit_and _ _).trans rfl

theorem TableRow.psfbact (j : Nat) (enable : Bool) : TableRow.Statement (.psfbact j enable) :=
  fun _ => (wordOfFlag_and _ _ _).trans rfl

theorem TableRow.vfinit (k : Nat) : TableRow.Statement (.vfinit k) :=
  fun _ => (wordOfUnit_and _ _).trans rfl

theorem TableRow.vfstep (k : Nat) : TableRow.Statement (.vfstep k) :=
  fun _ => (wordOfUnit_and _ _).trans rfl

end Sys2Proof.Laws
end

