-- ==== Sys2Proof/Laws/Encoding.lean ====
section
/-! SUPPORT. The fields of a command word: what each reads of an assembled word, and that a word is
its four bytes (30_encoding.md rule R102). -/

namespace Sys2Proof

/-- Concatenation as a number: the first operand counts in units of the second's range. -/
theorem toNat_append_mul {v w : Nat} (x : BitVec v) (y : BitVec w) :
    (x ++ y).toNat = x.toNat * 2 ^ w + y.toNat := by
  rw [BitVec.toNat_append, ← Nat.shiftLeft_add_eq_or_of_lt y.isLt, Nat.shiftLeft_eq]

/-- A slice as a number. -/
theorem toNat_slice {w : Nat} (x : BitVec w) (lo n : Nat) :
    (x.extractLsb' lo n).toNat = x.toNat / 2 ^ lo % 2 ^ n := by
  rw [BitVec.extractLsb'_toNat, Nat.shiftRight_eq_div_pow]

theorem wordOf_toNat (a b c d : Byte) :
    (wordOf a b c d).toNat = ((a.toNat * 256 + b.toNat) * 256 + c.toNat) * 256 + d.toNat := by
  unfold wordOf
  simp only [toNat_append_mul, Nat.reducePow]

theorem wordOfAddr_toNat (op : Byte) (addr : FieldAddr) :
    (wordOfAddr op addr).toNat = (op.toNat * 65536 + addr.toNat) * 256 := by
  unfold wordOfAddr
  simp only [toNat_append_mul, Nat.reducePow, show (0 : Byte).toNat = 0 from rfl, Nat.add_zero]

@[simp] theorem opField_wordOf (a b c d : Byte) : opField (wordOf a b c d) = a := by
  have ha := a.isLt; have hb := b.isLt; have hc := c.isLt; have hd := d.isLt
  apply BitVec.eq_of_toNat_eq
  unfold opField
  rw [toNat_slice, wordOf_toNat]
  omega

@[simp] theorem aField_wordOf (a b c d : Byte) : aField (wordOf a b c d) = b := by
  have ha := a.isLt; have hb := b.isLt; have hc := c.isLt; have hd := d.isLt
  apply BitVec.eq_of_toNat_eq
  unfold aField
  rw [toNat_slice, wordOf_toNat]
  omega

@[simp] theorem bField_wordOf (a b c d : Byte) : bField (wordOf a b c d) = c := by
  have ha := a.isLt; have hb := b.isLt; have hc := c.isLt; have hd := d.isLt
  apply BitVec.eq_of_toNat_eq
  unfold bField
  rw [toNat_slice, wordOf_toNat]
  omega

@[simp] theorem cField_wordOf (a b c d : Byte) : cField (wordOf a b c d) = d := by
  have ha := a.isLt; have hb := b.isLt; have hc := c.isLt; have hd := d.isLt
  apply BitVec.eq_of_toNat_eq
  unfold cField
  rw [toNat_slice, wordOf_toNat]
  omega

/-- A word is its four bytes. -/
theorem wordOf_fields (cw : Word) :
    wordOf (opField cw) (aField cw) (bField cw) (cField cw) = cw := by
  have h := cw.isLt
  apply BitVec.eq_of_toNat_eq
  unfold opField aField bField cField
  rw [wordOf_toNat]
  simp only [toNat_slice]
  omega

@[simp] theorem opField_wordOfAddr (op : Byte) (addr : FieldAddr) :
    opField (wordOfAddr op addr) = op := by
  have ho := op.isLt; have ha := addr.isLt
  apply BitVec.eq_of_toNat_eq
  unfold opField
  rw [toNat_slice, wordOfAddr_toNat]
  omega

@[simp] theorem cField_wordOfAddr (op : Byte) (addr : FieldAddr) :
    cField (wordOfAddr op addr) = 0 := by
  apply BitVec.eq_of_toNat_eq
  unfold cField
  rw [toNat_slice, wordOfAddr_toNat]
  simp

@[simp] theorem addrField_wordOfAddr (op : Byte) (addr : FieldAddr) :
    addrField (wordOfAddr op addr) = addr := by
  have ho := op.isLt; have ha := addr.isLt
  apply BitVec.eq_of_toNat_eq
  unfold addrField
  rw [toNat_slice, wordOfAddr_toNat]
  omega

/-- A format `A` word is its operation number, its address and its low byte. -/
theorem wordOfAddr_fields (cw : Word) (h : cField cw = 0) :
    wordOfAddr (opField cw) (addrField cw) = cw := by
  have hw := cw.isLt
  have hc : (cField cw).toNat = 0 := by rw [h]; rfl
  apply BitVec.eq_of_toNat_eq
  unfold cField at hc
  unfold opField addrField
  rw [wordOfAddr_toNat]
  simp only [toNat_slice] at *
  omega

/-- The must-be-zero slices of a word as its bytes. -/
theorem slice_zero_iff (cw : Word) :
    (cw.extractLsb' 0 16 = 0 ↔ bField cw = 0 ∧ cField cw = 0) ∧
    (cw.extractLsb' 0 24 = 0 ↔ aField cw = 0 ∧ bField cw = 0 ∧ cField cw = 0) ∧
    (cw.extractLsb' 1 15 = 0 ↔ bField cw = 0 ∧ (cField cw).toNat ≤ 1) ∧
    (cw.extractLsb' 1 3 = 0 ↔ (cField cw).toNat % 16 ≤ 1) := by
  have e : ∀ {n : Nat} (x : BitVec n), x = 0 ↔ x.toNat = 0 := fun x =>
    ⟨fun h => by rw [h]; simp, fun h => BitVec.eq_of_toNat_eq (by simpa using h)⟩
  unfold aField bField cField
  simp only [e, toNat_slice]
  refine ⟨?_, ?_, ?_, ?_⟩ <;> omega

theorem priorityField_toNat (cw : Word) : (priorityField cw).toNat = (cField cw).toNat / 16 := by
  unfold priorityField cField
  simp only [toNat_slice]
  omega

theorem flagField_eq (cw : Word) : flagField cw = decide ((cField cw).toNat % 2 = 1) := by
  unfold flagField cField
  simp only [toNat_slice]
  rw [BitVec.getLsbD, Nat.testBit_zero]
  congr 1
  simp only [eq_iff_iff]
  omega

/-- The low byte of a format `UF` word (R102). -/
theorem flagByte_toNat (f : Bool) :
    ((BitVec.ofBool f).zeroExtend 8 : Byte).toNat = if f then 1 else 0 := by
  cases f <;> decide

/-- The low byte of the format `IRQ` word (R102). -/
theorem irqByte_toNat (p : Nibble) (f : Bool) :
    (p ++ (0 : BitVec 3) ++ BitVec.ofBool f : Byte).toNat = p.toNat * 16 + if f then 1 else 0 := by
  have e : (BitVec.ofBool f).toNat = if f then 1 else 0 := by cases f <;> rfl
  simp only [toNat_append_mul, e]
  simp
  omega

/-- A word under a mask, byte by byte. -/
theorem and_eq_wordOf (cw : Word) (m0 m1 m2 m3 r0 r1 r2 r3 : Byte) :
    cw &&& wordOf m0 m1 m2 m3 = wordOf r0 r1 r2 r3 ↔
      opField cw &&& m0 = r0 ∧ aField cw &&& m1 = r1 ∧ bField cw &&& m2 = r2 ∧
      cField cw &&& m3 = r3 := by
  conv_lhs => rw [← wordOf_fields cw, Laws.wordOf_and]
  constructor
  · intro h
    have h0 := congrArg opField h
    have h1 := congrArg aField h
    have h2 := congrArg bField h
    have h3 := congrArg cField h
    simp only [opField_wordOf, aField_wordOf, bField_wordOf, cField_wordOf] at h0 h1 h2 h3
    exact ⟨h0, h1, h2, h3⟩
  · rintro ⟨rfl, rfl, rfl, rfl⟩
    rfl

theorem byte_and_ff (x : Byte) : x &&& 0xFF = x := by
  revert x; decide +kernel

/-- A row's match is its operation number and zeros (R105). -/
theorem tableMatch_eq (i : Instr) : i.tableMatch = wordOf (opField i.tableMatch) 0 0 0 := by
  cases i <;> simp only [Instr.tableMatch] <;> decide

/-- The low byte under the masks of formats `UF` and `IRQ`. -/
theorem byte_and_eq_zero (x : Byte) :
    (x &&& 0xFE = 0 ↔ x.toNat ≤ 1) ∧ (x &&& 0x0E = 0 ↔ x.toNat % 16 ≤ 1) := by
  revert x; decide +kernel

@[simp] theorem flagDirection_directionFlag (d : Direction) :
    flagDirection (directionFlag d) = d := by cases d <;> rfl

@[simp] theorem directionFlag_flagDirection (b : Bool) :
    directionFlag (flagDirection b) = b := by cases b <;> rfl

theorem ofNat_byte {n : Nat} (h : n < 256) : (BitVec.ofNat 8 n).toNat = n := by
  rw [BitVec.toNat_ofNat]; omega

end Sys2Proof
end

