-- ==== Sys2Proof/Laws/Legs.lean ====
section
/-! SUPPORT. Legs: enabling, duty updates and configuration, one leg and a list of legs at a time
(42_power_module_leg.md). -/

namespace Sys2Proof.Machine

/-! ### Enabling legs (R207) -/

/-- The state after an `ENLEG` that completes. -/
def State.afterEnable (s : State) (l : Nat) (e : Bool) : State :=
  let s1 := s.emit (s.enableCall l e)
  let s2 := s1.setOen (maskedEnable s.oen
    (legMask (s.legAt l).pin.toNat (legWidth (s.legAt l).kind)) e)
  s2.setLeg l { s.legAt l with state := Activity.ofFlag e }

/-- `ENLEG` completes exactly when its checks pass; otherwise it is refused without effect. -/
theorem enableLeg_spec (l : Nat) (e : Bool) (s : State) :
    (s.legEnables l → enableLeg l e s = .ok () (s.afterEnable l e)) ∧
    (¬ s.legEnables l → ∃ x, x ≠ .fatalHwinit ∧ enableLeg l e s = .err x s) := by
  unfold enableLeg State.legEnables
  by_cases h1 : s.params.nleg ≤ l
  · rw [if_pos h1]
    exact ⟨fun h => absurd h.1 (by omega), fun _ => ⟨_, by decide, rfl⟩⟩
  rw [if_neg h1]
  by_cases h2 : (s.legAt l).cap = .none
  · rw [if_pos h2]
    exact ⟨fun h => absurd h2 h.2.1, fun _ => ⟨_, by decide, rfl⟩⟩
  rw [if_neg h2]
  simp only
  by_cases h3 : (s.legAt l).pin.toNat < 1 ∨
      s.params.npwm < (s.legAt l).pin.toNat + legWidth (s.legAt l).kind - 1
  · rw [if_pos h3]
    refine ⟨fun h => ?_, fun _ => ⟨_, by decide, rfl⟩⟩
    obtain ⟨-, -, h4, h5⟩ := h
    omega
  · rw [if_neg h3]
    exact ⟨fun _ => rfl, fun h => absurd ⟨by omega, h2, by omega, by omega⟩ h⟩

section
variable (s : State) (l : Nat) (e : Bool)
@[simp] theorem State.afterEnable_params : (s.afterEnable l e).params = s.params := rfl
@[simp] theorem State.afterEnable_env : (s.afterEnable l e).env = s.env := rfl
@[simp] theorem State.afterEnable_inbox : (s.afterEnable l e).inbox = s.inbox := rfl
@[simp] theorem State.afterEnable_lanes : (s.afterEnable l e).lanes = s.lanes := rfl
@[simp] theorem State.afterEnable_ext :
    (s.afterEnable l e).ext = s.ext ++ [⟨s.enableCall l e, .ok⟩] := rfl
@[simp] theorem State.afterEnable_callNo : (s.afterEnable l e).callNo = s.callNo + 1 := rfl
@[simp] theorem State.afterEnable_halted : (s.afterEnable l e).halted = s.halted := rfl
@[simp] theorem State.afterEnable_timAt : (s.afterEnable l e).timAt = s.timAt := rfl
@[simp] theorem State.afterEnable_chAt : (s.afterEnable l e).chAt = s.chAt := rfl
@[simp] theorem State.afterEnable_cfgAt : (s.afterEnable l e).cfgAt = s.cfgAt := rfl
@[simp] theorem State.afterEnable_invAt : (s.afterEnable l e).invAt = s.invAt := rfl
@[simp] theorem State.afterEnable_psfbAt : (s.afterEnable l e).psfbAt = s.psfbAt := rfl
@[simp] theorem State.afterEnable_vfAt : (s.afterEnable l e).vfAt = s.vfAt := rfl
theorem State.legAt_afterEnable (m : Nat) : (s.afterEnable l e).legAt m =
    if m = l then { s.legAt l with state := Activity.ofFlag e } else s.legAt m :=
  State.legAt_setLeg _ _ _ _
end

/-- One bit of the mirror after an `ENLEG`: the enable value at the leg's pins. -/
theorem State.oen_afterEnable {s : State} {l : Nat} (h : s.legEnables l) (e : Bool) (b : Nat)
    (hb : b < 255) :
    (s.ownsPin l (b + 1) → (s.afterEnable l e).oen.getLsbD b = e) ∧
    (¬ s.ownsPin l (b + 1) → (s.afterEnable l e).oen.getLsbD b = s.oen.getLsbD b) := by
  change (_ → (maskedEnable s.oen _ e).getLsbD b = e) ∧
    (_ → (maskedEnable s.oen _ e).getLsbD b = _)
  rw [getLsbD_maskedEnable _ _ _ _ hb, getLsbD_legMask _ _ _ hb]
  unfold State.ownsPin
  obtain ⟨-, -, h1, -⟩ := h
  refine ⟨fun ho => ?_, fun ho => ?_⟩
  · rw [if_pos]
    simp only [Bool.and_eq_true, decide_eq_true_eq]
    omega
  · rw [if_neg]
    simp only [Bool.and_eq_true, decide_eq_true_eq]
    omega

/-- Everything but the trace, the mirror and the legs is unchanged. -/
def sameButEnables (s t : State) : Prop :=
  sameInputs s t ∧ sameTim s t ∧ sameCh s t ∧ sameCfg s t ∧ sameInv s t ∧ samePsfb s t ∧ sameVf s t

/-- A list of legs is enabled or disabled in order when each passes its checks (R226, R233). -/
theorem forUnits_enable (e : Bool) (ls : List Nat) (hd : ls.Nodup) (s : State)
    (h : ∀ l ∈ ls, s.legEnables l) :
    ∃ t, forUnits (fun l s => enableLeg l e s) ls s = .ok () t ∧ legsEnabled s t ls e ∧
      sameButEnables s t ∧ calledOk s t (ls.map fun l => s.enableCall l e) := by
  induction ls generalizing s with
  | nil =>
    refine ⟨s, rfl, ⟨rfl, ?_, ?_, ?_, ?_⟩, ⟨⟨rfl, rfl, rfl, rfl⟩, ?_⟩, ?_, rfl⟩
    · rintro b - ⟨l, hl, -⟩; cases hl
    · intros; rfl
    · intro l hl; cases hl
    · intros; rfl
    · exact ⟨fun _ => rfl, fun _ => rfl, fun _ => rfl, fun _ => rfl, fun _ => rfl, fun _ => rfl⟩
    · simp
  | cons l ls ih =>
    have hl := h l (by simp)
    obtain ⟨hnl, hd'⟩ := List.nodup_cons.mp hd
    have hleg : ∀ m ∈ ls, (s.afterEnable l e).legAt m = s.legAt m := by
      intro m hm
      rw [State.legAt_afterEnable, if_neg]
      rintro rfl; exact hnl hm
    have hpin : ∀ m q, (s.afterEnable l e).ownsPin m q ↔ s.ownsPin m q := by
      intro m q
      unfold State.ownsPin
      rw [State.legAt_afterEnable]
      split
      · next em => subst em; rfl
      · rfl
    obtain ⟨t, ht, ⟨g0, g1, g2, g3, g4⟩, ⟨f0, f1, f2, f3, f4, f5, f6⟩, c1, c2⟩ :=
      ih hd' (s.afterEnable l e) fun m hm => by
        have := h m (by simp [hm])
        unfold State.legEnables at this ⊢
        rw [hleg m hm]; exact this
    refine ⟨t, ?_, ⟨g0, ?_, ?_, ?_, ?_⟩, ⟨f0, f1, f2, f3, f4, f5, f6⟩, ?_, ?_⟩
    · rw [forUnits_cons, (enableLeg_spec l e s).1 hl]; exact ht
    · rintro b hb ⟨m, hm, ho⟩
      by_cases hx : ∃ m ∈ ls, s.ownsPin m (b + 1)
      · obtain ⟨m', hm', ho'⟩ := hx
        exact g1 b hb ⟨m', hm', (hpin _ _).mpr ho'⟩
      · rw [g2 b hb fun ⟨m', hm', ho'⟩ => hx ⟨m', hm', (hpin _ _).mp ho'⟩]
        rcases List.mem_cons.mp hm with rfl | hm
        · exact (State.oen_afterEnable hl e b hb).1 ho
        · exact absurd ⟨m, hm, ho⟩ hx
    · intro b hb hx
      rw [g2 b hb fun ⟨m', hm', ho'⟩ => hx ⟨m', by simp [hm'], (hpin _ _).mp ho'⟩]
      exact (State.oen_afterEnable hl e b hb).2 fun ho => hx ⟨l, by simp, ho⟩
    · intro m hm
      rcases List.mem_cons.mp hm with rfl | hm
      · rw [g4 m hnl, State.legAt_afterEnable, if_pos rfl]
      · rw [g3 m hm, hleg m hm]
    · intro m hm
      rw [g4 m fun hx => hm (by simp [hx]), State.legAt_afterEnable, if_neg fun ex => hm (by simp [ex])]
    · rw [c1]
      have : ∀ m ∈ ls, (s.afterEnable l e).enableCall m e = s.enableCall m e := by
        intro m hm; unfold State.enableCall; rw [hleg m hm]
      simp only [State.afterEnable_ext, List.map_cons, List.append_assoc, List.cons_append,
        List.nil_append, List.map_map]
      congr 2
      apply List.map_congr_left
      intro m hm
      simp only [Function.comp, this m hm]
    · rw [c2]; simp; omega

/-! ### Duty updates of legs (R204 to R206) -/

/-- Everything but the channels is unchanged. -/
def sameButChannels (s t : State) : Prop :=
  sameInputs s t ∧ sameCalls s t ∧ sameGlb s t ∧ sameTim s t ∧ sameCfg s t ∧ sameLeg s t ∧
  sameInv s t ∧ samePsfb s t ∧ sameVf s t

theorem sameButChannels_refl (s : State) : sameButChannels s s :=
  ⟨⟨rfl, rfl, rfl, rfl⟩, ⟨rfl, rfl⟩, ⟨rfl, rfl⟩, fun _ => rfl, fun _ => rfl, fun _ => rfl,
    fun _ => rfl, fun _ => rfl, fun _ => rfl⟩

theorem sameButChannels_trans {s t u : State} (h : sameButChannels s t)
    (g : sameButChannels t u) : sameButChannels s u := by
  obtain ⟨⟨a1, a2, a3, a4⟩, ⟨b1, b2⟩, ⟨c1, c2⟩, d1, d2, d3, d4, d5, d6⟩ := h
  obtain ⟨⟨a1', a2', a3', a4'⟩, ⟨b1', b2'⟩, ⟨c1', c2'⟩, d1', d2', d3', d4', d5', d6'⟩ := g
  exact ⟨⟨a1'.trans a1, a2'.trans a2, a3'.trans a3, a4'.trans a4⟩, ⟨b1'.trans b1, b2'.trans b2⟩,
    ⟨c1'.trans c1, c2'.trans c2⟩, fun n => (d1' n).trans (d1 n), fun n => (d2' n).trans (d2 n),
    fun n => (d3' n).trans (d3 n), fun n => (d4' n).trans (d4 n), fun n => (d5' n).trans (d5 n),
    fun n => (d6' n).trans (d6 n)⟩

theorem sameButChannels_afterUpdate (s : State) (n c : Nat) :
    sameButChannels s (s.afterUpdate n c) := sameButChannels_refl s

theorem latest_append (a b : List (Nat × Nat)) (n old : Nat) :
    latest (a ++ b) n old = latest b n (latest a n old) := List.foldl_append

theorem shadowsWritten_nil (s : State) : shadowsWritten s s [] := fun _ => rfl

theorem shadowsWritten_trans {s t u : State} {a b : List (Nat × Nat)} (h : shadowsWritten s t a)
    (g : shadowsWritten t u b) : shadowsWritten s u (a ++ b) := by
  intro n
  rw [g n, h n, latest_append]

theorem shadowsWritten_afterUpdate (s : State) (n c : Nat) :
    shadowsWritten s (s.afterUpdate n c) [(n, c)] := by
  intro m
  rw [State.chAt_afterUpdate]
  simp only [latest, List.foldl_cons, List.foldl_nil]
  split <;> rfl

/-- A pair's acceptance and compare value do not depend on shadow compare values. -/
theorem pairAccepts_congr {s t : State} {w : List (Nat × Nat)} (h : sameButChannels s t)
    (hw : shadowsWritten s t w) (n sl : Nat) (d : NUM) :
    (t.pairAccepts n sl d ↔ s.pairAccepts n sl d) ∧ t.pairCompare n sl d = s.pairCompare n sl d := by
  obtain ⟨⟨hp, -, -, -⟩, -, -, ht, hc, -⟩ := h
  unfold State.pairAccepts State.pairCompare
  rw [hp, ht, hc, hw n]
  exact ⟨Iff.rfl, rfl⟩

theorem legAccepts_congr {s t : State} {w : List (Nat × Nat)} (h : sameButChannels s t)
    (hw : shadowsWritten s t w) (l : Nat) (d : NUM) :
    (t.legAccepts l d ↔ s.legAccepts l d) ∧ t.legWrites l d = s.legWrites l d ∧
    t.legApplied l d = s.legApplied l d := by
  have hl := h.2.2.2.2.2.1 l
  have hc := h.2.2.2.2.1 l
  unfold State.legAccepts State.legWrites State.legApplied
  simp only [hl, hc, h.1.1, (pairAccepts_congr h hw _ _ _).1, (pairAccepts_congr h hw _ _ _).2,
    and_self]

/-- A leg's update completes when it accepts (R204 to R206). -/
theorem capabilityUpdate_ok {s : State} {l : Nat} {d : NUM} (h : s.legAccepts l d) :
    ∃ t, capabilityUpdate l d s = .ok (s.legApplied l d) t ∧ sameButChannels s t ∧
      shadowsWritten s t (s.legWrites l d) := by
  obtain ⟨hl, h | h⟩ := h
  · refine ⟨s.afterUpdate (s.legAt l).pin.toNat (s.pairCompare (s.legAt l).pin.toNat l d), ?_,
      sameButChannels_afterUpdate _ _ _, ?_⟩
    · unfold capabilityUpdate singlePairUpdate State.legApplied
      rw [if_neg (by omega), h.1]
      simp only [(updatePair_spec _ _ _ _).1 h.2]
      rfl
    · unfold State.legWrites
      rw [if_neg (by rw [h.1]; decide)]
      exact shadowsWritten_afterUpdate _ _ _
  · obtain ⟨hc, hA, hB⟩ := h
    have w1 := shadowsWritten_afterUpdate s (s.legAt l).pin.toNat
      (s.pairCompare (s.legAt l).pin.toNat l (tnpcSplit d).1)
    have f1 := sameButChannels_afterUpdate s (s.legAt l).pin.toNat
      (s.pairCompare (s.legAt l).pin.toNat l (tnpcSplit d).1)
    refine ⟨_, ?_, sameButChannels_trans f1 (sameButChannels_afterUpdate _ ((s.legAt l).pin.toNat + 2)
      (s.pairCompare ((s.legAt l).pin.toNat + 2) l (tnpcSplit d).2)), ?_⟩
    · unfold capabilityUpdate tnpcSplitUpdate State.legApplied
      rw [if_neg (by omega), hc]
      simp only [(updatePair_spec _ _ _ _).1 hA, Done.andThen_ok, if_true]
      rw [(updatePair_spec _ _ _ _).1 ((pairAccepts_congr f1 w1 _ _ _).1.mpr hB),
        (pairAccepts_congr f1 w1 _ _ _).2]
      rfl
    · unfold State.legWrites
      rw [if_pos hc]
      exact shadowsWritten_trans w1 (shadowsWritten_afterUpdate _ _ _)

/-- A leg's update completes only when it accepts, and no update halts CORE. -/
theorem capabilityUpdate_err {s t : State} {l : Nat} {d : NUM} {e : Status}
    (h : capabilityUpdate l d s = .err e t) :
    e ≠ .fatalHwinit ∧ sameButChannels s t ∧ ¬ s.legAccepts l d := by
  unfold capabilityUpdate at h
  split at h
  · next hl => cases h; exact ⟨by decide, sameButChannels_refl s, fun g => absurd g.1 (by omega)⟩
  split at h
  · next hc =>
    cases h
    refine ⟨by decide, sameButChannels_refl s, fun g => ?_⟩
    rcases g.2 with g | g <;> (rw [hc] at g; exact absurd g.1 (by decide))
  · next hc =>
    unfold singlePairUpdate at h
    by_cases hp : s.pairAccepts (s.legAt l).pin.toNat l d
    · rw [(updatePair_spec _ _ _ _).1 hp] at h; cases h
    · obtain ⟨e', he, h'⟩ := (updatePair_spec (s.legAt l).pin.toNat l d s).2 hp
      rw [h'] at h; cases h
      refine ⟨he, sameButChannels_refl s, fun g => ?_⟩
      rcases g.2 with g | g
      · exact hp g.2
      · rw [hc] at g; exact absurd g.1 (by decide)
  · next hc =>
    unfold tnpcSplitUpdate at h
    simp only at h
    by_cases hA : s.pairAccepts (s.legAt l).pin.toNat l (tnpcSplit d).1
    · rw [(updatePair_spec _ _ _ _).1 hA, Done.andThen_ok] at h
      have w1 := shadowsWritten_afterUpdate s (s.legAt l).pin.toNat
        (s.pairCompare (s.legAt l).pin.toNat l (tnpcSplit d).1)
      have f1 := sameButChannels_afterUpdate s (s.legAt l).pin.toNat
        (s.pairCompare (s.legAt l).pin.toNat l (tnpcSplit d).1)
      by_cases hB : s.pairAccepts ((s.legAt l).pin.toNat + 2) l (tnpcSplit d).2
      · rw [(updatePair_spec _ _ _ _).1 ((pairAccepts_congr f1 w1 _ _ _).1.mpr hB)] at h
        cases h
      · obtain ⟨e', he, h'⟩ := (updatePair_spec ((s.legAt l).pin.toNat + 2) l (tnpcSplit d).2
          (s.afterUpdate (s.legAt l).pin.toNat
            (s.pairCompare (s.legAt l).pin.toNat l (tnpcSplit d).1))).2
            fun g => hB ((pairAccepts_congr f1 w1 _ _ _).1.mp g)
        rw [h'] at h; cases h
        refine ⟨he, f1, fun g => ?_⟩
        rcases g.2 with g | g
        · rw [hc] at g; exact absurd g.1 (by decide)
        · exact hB g.2.2
    · obtain ⟨e', he, h'⟩ := (updatePair_spec (s.legAt l).pin.toNat l (tnpcSplit d).1 s).2 hA
      rw [h'] at h; cases h
      refine ⟨he, sameButChannels_refl s, fun g => ?_⟩
      rcases g.2 with g | g
      · rw [hc] at g; exact absurd g.1 (by decide)
      · exact hA g.2.1
  · next hc =>
    cases h
    refine ⟨by decide, sameButChannels_refl s, fun g => ?_⟩
    rcases g.2 with g | g <;> (rw [hc] at g; exact absurd g.1 (by decide))

/-! ### Configuring a leg (R201) -/

/-- Everything but the trace, the instances, the slots, roles and polarities, and the capability of
leg l is unchanged. -/
def sameButConfig (s t : State) (l : Nat) (cap : Capability) : Prop :=
  sameInputs s t ∧ sameGlb s t ∧ (∀ m, (t.chAt m).cmps = (s.chAt m).cmps) ∧
  t.legAt l = { s.legAt l with cap := cap } ∧ (∀ m, m ≠ l → t.legAt m = s.legAt m) ∧
  sameInv s t ∧ samePsfb s t ∧ sameVf s t

theorem calledOk_trans {s t u : State} {a b : List ExtCall} (h : calledOk s t a)
    (g : calledOk t u b) : calledOk s u (a ++ b) := by
  refine ⟨?_, ?_⟩
  · rw [g.1, h.1]; simp
  · rw [g.2, h.2]; simp; omega

theorem calledOk_nil (s : State) : calledOk s s [] := ⟨by simp, by simp⟩

theorem emitPwmRoles_eq (s : State) (qs : List Nat) :
    s.emitPwmRoles qs = s.emits (qs.map .setPinAsPwmRole) := by
  induction qs generalizing s with
  | nil => rfl
  | cons q qs ih => exact ih _

theorem emitDisablePins_eq (s : State) (qs : List Nat) :
    s.emitDisablePins qs = s.emits (qs.map fun q => .setPinAsDigitalOutput q 0) := by
  induction qs generalizing s with
  | nil => rfl
  | cons q qs ih => exact ih _

theorem refsGood_of_ready {s : State} {refs : List (Nat × Nat)} (h : s.pairsReady refs) :
    refsGood s refs := fun r hr => ⟨(h r hr).2.2.1, (h r hr).2.2.2.2⟩

/-- A leg can be configured (R201). -/
def State.legConfigures (s : State) (l : Nat) : Prop :=
  l < s.params.nleg ∧
  ((s.legAt l).kind = .tnpc → (s.legAt l).pin.toNat + 3 ≤ s.params.npwm) ∧
  s.pairsReady (s.legRefs l) ∧ s.callsAnswered (s.refsCalls [] (s.legRefs l))

/-- `CFGLEG` completes when its pairs can be configured (R201). -/
theorem configLeg_ok {s : State} {l : Nat} (h : s.legConfigures l)
    (hp : s.params.timer0.nch % 2 = 0) :
    ∃ t, configLeg l s = .ok (capOf (s.legAt l).kind) t ∧ Configured s (s.legRefs l) t ∧
      sameButConfig s t l (capOf (s.legAt l).kind) ∧
      calledOk s t (s.refsCalls [] (s.legRefs l) ++ s.roleCalls l) := by
  obtain ⟨hl, h3, hr, hb⟩ := h
  unfold configLeg
  rw [if_neg (by omega)]
  cases hk : (s.legAt l).kind with
  | default =>
    simp only [State.legRefs, hk] at hr hb ⊢
    obtain ⟨a1, a2, a3, a4, a5⟩ := hr ((s.legAt l).pin.toNat, l) (by simp)
    simp only [State.configuredTim, if_true] at a5
    rw [refsCalls_first] at hb ⊢
    have e1 := configPair_ok a4 a1 a2 a3 a5 (hb.lazy a5)
    have c1 := configured_afterPair s (s.legAt l).pin.toNat l a3 hp
    simp only at e1
    rw [e1]
    refine ⟨_, rfl, c1.of_eq rfl (fun _ => rfl) (fun _ => rfl) (fun _ => rfl), ⟨?_, ?_, ?_, ?_, ?_,
      ?_, ?_, ?_⟩, ?_⟩
    · exact ⟨by simp, by simp, by simp, by simp⟩
    · exact ⟨by simp, by simp⟩
    · intro m
      simp only [State.setCap_chAt, State.chAt_afterPair]
      split <;> [rfl; (split <;> rfl)]
    · simp [State.legAt_setCap, capOf]
    · intro m hm; simp [State.legAt_setCap, hm]
    · intro m; simp
    · intro m; simp
    · intro m; simp
    · simp only [State.roleCalls, hk]
      exact calledOk_trans (s.calledOk_afterPair _ l) (calledOk_nil _)
  | tnpc =>
    simp only [State.legRefs, hk] at hr hb ⊢
    obtain ⟨a1, a2, a3, a4, a5⟩ := hr ((s.legAt l).pin.toNat, l) (by simp)
    obtain ⟨b1, b2, b3, b4, b5⟩ := hr ((s.legAt l).pin.toNat + 2, l) (by simp)
    simp only [State.configuredTim, if_true] at a5
    have h3' := h3 hk
    rw [show [((s.legAt l).pin.toNat, l), ((s.legAt l).pin.toNat + 2, l)] =
      [((s.legAt l).pin.toNat, l)] ++ [((s.legAt l).pin.toNat + 2, l)] from rfl,
      refsCalls_append, refsCalls_first] at hb ⊢
    have e1 := configPair_ok a4 a1 a2 a3 a5 (hb.left.lazy a5)
    have c1 := configured_afterPair s (s.legAt l).pin.toNat l a3 hp
    have g1 : refsGood s [((s.legAt l).pin.toNat, l)] := by
      intro r hr
      rw [List.mem_singleton] at hr; subst hr
      exact ⟨a3, by simp only [State.configuredTim, if_true]; exact a5⟩
    generalize hs1 : s.afterPair (s.legAt l).pin.toNat l = s1 at *
    have p1 : s1.params = s.params := c1.1
    have k1 : s1.env = s.env := by subst hs1; simp
    have o1 : calledOk s s1 (s.lazyCalls (instOf s.params (s.legAt l).pin.toNat) l) := by
      subst hs1; exact s.calledOk_afterPair _ l
    have i2 : (s1.lazyTim (instOf s1.params ((s.legAt l).pin.toNat + 2)) l).init = true := by
      have hx := c1.tim g1 [((s.legAt l).pin.toNat + 2, l)]
        (instOf s.params ((s.legAt l).pin.toNat + 2))
      simp only [State.configuredTim, p1, if_true, List.cons_append, List.nil_append] at hx
      rw [p1, hx]
      simpa only [State.configuredTim, if_true] using b5
    have hc2 := c1.calls g1 [] [((s.legAt l).pin.toNat + 2, l)]
    rw [refsCalls_first, List.append_nil] at hc2
    have hb2 := hb.right k1 o1
    rw [List.nil_append, ← hc2] at hb2
    have e2 := configPair_ok (s := s1) (sl := l) (by rw [p1]; exact a4) b1 (by rw [p1]; exact b2) b3
      i2 (hb2.lazy i2)
    have c2 := configured_afterPair s1 ((s.legAt l).pin.toNat + 2) l b3 (by rw [p1]; exact hp)
    have c3 := c1.append c2 g1 (by intro r hr; rw [List.mem_singleton] at hr; subst hr; exact b3) hp
    rw [if_neg (by simp only at a1; omega), if_neg (by simp only at a3; omega)]
    simp only at e1 e2
    rw [e1, Done.andThen_ok, e2, Done.andThen_ok]
    have o2 := s1.calledOk_afterPair ((s.legAt l).pin.toNat + 2) l
    have F : sameInputs s (s1.afterPair ((s.legAt l).pin.toNat + 2) l) ∧
        sameGlb s (s1.afterPair ((s.legAt l).pin.toNat + 2) l) ∧
        (∀ m, ((s1.afterPair ((s.legAt l).pin.toNat + 2) l).chAt m).cmps = (s.chAt m).cmps) ∧
        sameLeg s (s1.afterPair ((s.legAt l).pin.toNat + 2) l) ∧
        sameInv s (s1.afterPair ((s.legAt l).pin.toNat + 2) l) ∧
        samePsfb s (s1.afterPair ((s.legAt l).pin.toNat + 2) l) ∧
        sameVf s (s1.afterPair ((s.legAt l).pin.toNat + 2) l) := by
      subst hs1
      refine ⟨⟨by simp, by simp, by simp, by simp⟩, ⟨by simp, by simp⟩, fun m => ?_,
        fun m => by simp, fun m => by simp, fun m => by simp, fun m => by simp⟩
      rw [State.chAt_afterPair]
      have : ((s.afterPair (s.legAt l).pin.toNat l).chAt m).cmps = (s.chAt m).cmps := by
        rw [State.chAt_afterPair]; split <;> [rfl; (split <;> rfl)]
      split <;> [exact this; (split <;> exact this)]
    generalize hs2 : s1.afterPair ((s.legAt l).pin.toNat + 2) l = s2 at *
    have o3 : calledOk s2 (s2.emitPwmRoles (tnpcPins (s.legAt l).pin.toNat)) (s.roleCalls l) := by
      simp only [State.roleCalls, hk, emitPwmRoles_eq]; exact calledOk_emits _ _
    refine ⟨_, rfl, c3.of_eq ?_ (fun _ => ?_) (fun _ => ?_) (fun _ => ?_), ⟨?_, ?_, ?_, ?_, ?_, ?_,
      ?_, ?_⟩, ?_⟩
    · simp [emitPwmRoles_eq]
    · simp [emitPwmRoles_eq]
    · simp [emitPwmRoles_eq]
    · simp [emitPwmRoles_eq]
    · exact ⟨by simp [emitPwmRoles_eq, F.1.1], by simp [emitPwmRoles_eq, F.1.2.1],
        by simp [emitPwmRoles_eq, F.1.2.2.1], by simp [emitPwmRoles_eq, F.1.2.2.2]⟩
    · exact ⟨by simp [emitPwmRoles_eq, F.2.1.1], by simp [emitPwmRoles_eq, F.2.1.2]⟩
    · intro m; simp [emitPwmRoles_eq, F.2.2.1 m]
    · rw [State.legAt_setCap, if_pos rfl, emitPwmRoles_eq, State.emits_legAt, F.2.2.2.1 l]; rfl
    · intro m hm
      rw [State.legAt_setCap, if_neg hm, emitPwmRoles_eq, State.emits_legAt, F.2.2.2.1 m]
    · intro m; simp [emitPwmRoles_eq, F.2.2.2.2.1 m]
    · intro m; simp [emitPwmRoles_eq, F.2.2.2.2.2.1 m]
    · intro m; simp [emitPwmRoles_eq, F.2.2.2.2.2.2 m]
    · rw [List.nil_append, ← hc2]
      exact calledOk_trans (calledOk_trans o1 o2) o3

end Sys2Proof.Machine
end

