-- ==== Sys2Proof/Laws/Start.lean ====
section
/-! SUPPORT. Starting legs at 50% duty, one after another, as `INVINIT` and `PSFBINIT` do
(43_inverter_psfb.md rules R220, R230). -/

namespace Sys2Proof.Machine

/-- Legs configured and given their start duty: everything but `STATE` and the mirror. -/
def legsUp (s t : State) (ls : List Nat) : Prop :=
  Configured s (s.refsOf ls) t ∧
  (∀ m, (t.chAt m).cmps = latest (s.startWrites ls) m (s.chAt m).cmps) ∧
  (∀ l ∈ ls, t.legAt l = { s.legAt l with cap := capOf (s.legAt l).kind }) ∧
  (∀ l, l ∉ ls → t.legAt l = s.legAt l) ∧
  sameInputs s t ∧ sameGlb s t ∧ sameInv s t ∧ samePsfb s t ∧ sameVf s t

theorem tnpcSplit_half : tnpcSplit (.rat (1 / 2)) = (.rat 0, .rat 1) := by decide +kernel

theorem refsOf_single (s : State) (l : Nat) : s.refsOf [l] = s.legRefs l := by
  simp [State.refsOf]

theorem startWrites_single (s : State) (l : Nat) : s.startWrites [l] =
    (s.startDuties l).map fun e =>
      (e.1, appliedCompare (s.configuredTim (instOf s.params e.1) (s.legRefs l))
        (s.configuredSlot (s.legRefs l) l) (clampedDuty (s.configuredSlot (s.legRefs l) l) e.2)) := by
  simp [State.startWrites, refsOf_single]

/-- The pairs of a leg that is started are configured as pairs. -/
theorem configuredCh_role {s : State} {refs : List (Nat × Nat)} {n : Nat}
    (h : ∃ sl, (n, sl) ∈ refs) : (s.configuredCh refs n).role = .pairRef := by
  obtain ⟨sl, h⟩ := h
  have : (refs.any fun r => r.1 == n) = true := List.any_eq_true.mpr ⟨_, h, by simp⟩
  simp [State.configuredCh, this]

theorem startLeg_ok {s : State} {l : Nat} (h : s.legsStart [l])
    (hb : s.callsAnswered (s.refsCalls [] (s.legRefs l)))
    (hp : s.params.timer0.nch % 2 = 0) :
    ∃ t, startLeg l s = .ok () t ∧ legsUp s t [l] ∧
      calledOk s t (s.refsCalls [] (s.legRefs l) ++ s.roleCalls l) := by
  obtain ⟨h1, h2, h3, h4⟩ := h
  rw [refsOf_single] at h3 h4
  have hl := h1 l (by simp)
  have hd := h4 l (by simp)
  obtain ⟨t1, e1, c1, ⟨f1, f2, f3, f4, f5, f6, f7, f8⟩, o1⟩ :=
    configLeg_ok ⟨hl, h2 l (by simp), h3, hb⟩ hp
  obtain ⟨q1, q2, q3, q4⟩ := c1
  -- the 50% update is accepted
  have acc : ∀ n d, (n, d) ∈ s.startDuties l → t1.pairAccepts n l d ∧
      t1.pairCompare n l d = appliedCompare (s.configuredTim (instOf s.params n) (s.legRefs l))
        (s.configuredSlot (s.legRefs l) l) (clampedDuty (s.configuredSlot (s.legRefs l) l) d) := by
    intro n d hnd
    have href : (n, l) ∈ s.legRefs l := by
      unfold State.startDuties at hnd
      unfold State.legRefs
      cases hk : (s.legAt l).kind <;> rw [hk] at hnd <;> simp only [List.mem_cons, Prod.mk.injEq,
        List.not_mem_nil, or_false] at hnd ⊢ <;> tauto
    obtain ⟨g1, g2, g3, g4, g5⟩ := h3 _ href
    refine ⟨⟨by rw [q1]; exact g4, g1, by rw [q1]; exact g2, g3, ?_, ?_, ?_⟩, ?_⟩
    · rw [q2, q1]; exact g5
    · rw [q4]; exact configuredCh_role ⟨l, href⟩
    · rw [q2, q3, q1]; exact hd _ hnd
    · unfold State.pairCompare; rw [q2, q3, q1]
  have hacc : t1.legAccepts l (.rat (1 / 2)) := by
    refine ⟨by rw [q1]; exact hl, ?_⟩
    rw [f4]
    cases hk : (s.legAt l).kind with
    | default =>
      exact .inl ⟨rfl, (acc (s.legAt l).pin.toNat (.rat (1 / 2)) (by simp [State.startDuties, hk])).1⟩
    | tnpc =>
      rw [tnpcSplit_half]
      exact .inr ⟨rfl, (acc (s.legAt l).pin.toNat (.rat 0) (by simp [State.startDuties, hk])).1,
        (acc ((s.legAt l).pin.toNat + 2) (.rat 1) (by simp [State.startDuties, hk])).1⟩
  have hw : t1.legWrites l (.rat (1 / 2)) = s.startWrites [l] := by
    rw [startWrites_single]
    have hcap : (t1.legAt l).cap = capOf (s.legAt l).kind := by rw [f4]
    have hpin : (t1.legAt l).pin = (s.legAt l).pin := by rw [f4]
    unfold State.legWrites
    simp only [hcap, hpin, tnpcSplit_half]
    cases hk : (s.legAt l).kind with
    | default =>
      simp only [State.startDuties, hk, List.map_cons, List.map_nil]
      rw [if_neg (by decide),
        (acc (s.legAt l).pin.toNat (.rat (1 / 2)) (by simp [State.startDuties, hk])).2]
    | tnpc =>
      simp only [State.startDuties, hk, List.map_cons, List.map_nil]
      rw [if_pos (by decide), (acc (s.legAt l).pin.toNat (.rat 0) (by simp [State.startDuties, hk])).2,
        (acc ((s.legAt l).pin.toNat + 2) (.rat 1) (by simp [State.startDuties, hk])).2]
  obtain ⟨t, e2, g, w⟩ := capabilityUpdate_ok hacc
  obtain ⟨⟨k1, k2, k3, k4⟩, ⟨k5, k6⟩, ⟨k7, k8⟩, k9, k10, k11, k12, k13, k14⟩ := g
  rw [hw] at w
  refine ⟨t, ?_, ⟨?_, ?_, ?_, ?_, ?_, ?_, ?_, ?_, ?_⟩, ?_⟩
  · unfold startLeg
    rw [e1, Done.andThen_ok, e2]; rfl
  · rw [refsOf_single]
    exact Configured.of_eq ⟨q1, q2, q3, q4⟩ k1 k9 k10 fun m => by rw [w m]
  · intro m; rw [w m]; simp only [f3 m]
  · intro m hm
    rw [List.mem_singleton] at hm; subst hm
    rw [k11, f4]
  · intro m hm
    rw [k11, f5 m (by simpa using hm)]
  · exact ⟨k1.trans f1.1, k2.trans f1.2.1, k3.trans f1.2.2.1, k4.trans f1.2.2.2⟩
  · exact ⟨k7.trans f2.1, k8.trans f2.2⟩
  · exact fun m => (k12 m).trans (f6 m)
  · exact fun m => (k13 m).trans (f7 m)
  · exact fun m => (k14 m).trans (f8 m)
  · exact ⟨k5.trans o1.1, k6.trans o1.2⟩

theorem legRefs_congr {s t : State} {l : Nat} (h : t.legAt l = s.legAt l) :
    t.legRefs l = s.legRefs l := by unfold State.legRefs; rw [h]

theorem roleCalls_congr {s t : State} {l : Nat} (h : t.legAt l = s.legAt l) :
    t.roleCalls l = s.roleCalls l := by unfold State.roleCalls; rw [h]

/-- What configuring the next legs calls depends on the state before through the pairs already
configured only. -/
theorem Configured.legsCalls {s t : State} {refs : List (Nat × Nat)} (h : Configured s refs t)
    (hg : refsGood s refs) (ls : List Nat) (hl : ∀ l ∈ ls, t.legAt l = s.legAt l)
    (e : List (Nat × Nat)) : t.legsCalls e ls = s.legsCalls (refs ++ e) ls := by
  induction ls generalizing e with
  | nil => rfl
  | cons l ls ih =>
    have h0 := hl l (by simp)
    rw [State.legsCalls, State.legsCalls, ih (fun m hm => hl m (by simp [hm])), legRefs_congr h0,
      roleCalls_congr h0, h.calls hg, List.append_assoc refs]

theorem startDuties_congr {s t : State} {l : Nat} (h : t.legAt l = s.legAt l) :
    t.startDuties l = s.startDuties l := by unfold State.startDuties; rw [h]

theorem refsOf_congr {s t : State} {ls : List Nat} (h : ∀ l ∈ ls, t.legAt l = s.legAt l) :
    t.refsOf ls = s.refsOf ls := by
  unfold State.refsOf
  exact List.flatMap_congr fun l hl => legRefs_congr (h l hl)

theorem refsOf_cons (s : State) (l : Nat) (ls : List Nat) :
    s.refsOf (l :: ls) = s.legRefs l ++ s.refsOf ls := rfl

theorem legRefs_slot {s : State} {l : Nat} {r : Nat × Nat} (h : r ∈ s.legRefs l) : r.2 = l := by
  unfold State.legRefs at h
  cases hk : (s.legAt l).kind <;> rw [hk] at h <;> simp only [List.mem_cons, List.not_mem_nil,
    or_false] at h
  · rw [h]
  · rcases h with rfl | rfl <;> rfl

theorem startDuties_ref {s : State} {l : Nat} {e : Nat × NUM} (h : e ∈ s.startDuties l) :
    (e.1, l) ∈ s.legRefs l := by
  unfold State.startDuties at h
  unfold State.legRefs
  cases hk : (s.legAt l).kind <;> rw [hk] at h <;> simp only [List.mem_cons, Prod.mk.injEq,
    List.not_mem_nil, or_false] at h ⊢
  · rw [h]; simp
  · rcases h with rfl | rfl <;> simp

/-- A slot is limited only by its own leg's pairs. -/
theorem configuredSlot_head {s : State} {l : Nat} {ls : List Nat} (hl : l ∉ ls)
    : s.configuredSlot (s.refsOf (l :: ls)) l = s.configuredSlot (s.legRefs l) l := by
  rw [refsOf_cons, configuredSlot_eq, configuredSlot_eq, limitFold_append]
  rw [limitFold_absent]
  · apply limitFold_congr
    intro r hr
    exact configuredTim_of_present ⟨r, hr, rfl⟩ _
  · intro r hr e
    obtain ⟨l', hl', hr'⟩ := List.mem_flatMap.mp hr
    rw [legRefs_slot hr'] at e
    subst e; exact hl hl'

/-- A list of legs starts when every leg can (R220, R230). -/
theorem startLegs_ok (ls : List Nat) (hd : ls.Nodup) (s : State) (h : s.legsStart ls)
    (hb : s.callsAnswered (s.legsCalls [] ls)) (hp : s.params.timer0.nch % 2 = 0) :
    ∃ t, forUnits startLeg ls s = .ok () t ∧ legsUp s t ls ∧ calledOk s t (s.legsCalls [] ls) := by
  induction ls generalizing s with
  | nil =>
    refine ⟨s, rfl, ⟨⟨rfl, fun _ => rfl, fun _ => rfl, fun m => ?_⟩, fun m => rfl, fun l hl => ?_,
      fun _ _ => rfl, ⟨rfl, rfl, rfl, rfl⟩, ⟨rfl, rfl⟩, fun _ => rfl, fun _ => rfl, fun _ => rfl⟩,
      calledOk_nil s⟩
    · simp [State.refsOf, State.configuredCh]
    · cases hl
  | cons l ls ih =>
    obtain ⟨hnl, hd'⟩ := List.nodup_cons.mp hd
    obtain ⟨h1, h2, h3, h4⟩ := h
    -- the first leg starts
    have hpres : ∀ e ∈ s.startDuties l, s.configuredTim (instOf s.params e.1) (s.refsOf (l :: ls)) =
        s.configuredTim (instOf s.params e.1) (s.legRefs l) := fun e he =>
      configuredTim_of_present ⟨_, startDuties_ref he, rfl⟩ _
    have hfirst : s.legsStart [l] := by
      refine ⟨fun m hm => h1 m (by simp at hm; simp [hm]), fun m hm => h2 m (by simp at hm; simp [hm]),
        ?_, ?_⟩
      · rw [refsOf_single]
        intro r hr
        obtain ⟨a1, a2, a3, a4, a5⟩ := h3 r (by simp [refsOf_cons, hr])
        refine ⟨a1, a2, a3, a4, ?_⟩
        rwa [refsOf_cons, configuredTim_of_present ⟨r, hr, rfl⟩] at a5
      · intro m hm e he
        rw [List.mem_singleton] at hm; subst hm
        rw [refsOf_single]
        have := h4 m (by simp) e he
        rwa [hpres e he, configuredSlot_head hnl] at this
    rw [State.legsCalls] at hb ⊢
    obtain ⟨t1, e1, ⟨c1, w1, g1, g2, g3, g4, g5, g6, g7⟩, o1⟩ :=
      startLeg_ok hfirst hb.left.left hp
    rw [refsOf_single] at c1
    -- the rest starts from there
    have hsame : ∀ m ∈ ls, t1.legAt m = s.legAt m := fun m hm =>
      g2 m (by simp only [List.mem_singleton]; rintro rfl; exact hnl hm)
    have hgood : refsGood s (s.legRefs l) := by
      intro r hr
      obtain ⟨a1, a2, a3, a4, a5⟩ := h3 r (by simp [refsOf_cons, hr])
      rw [refsOf_cons, configuredTim_of_present ⟨r, hr, rfl⟩] at a5
      exact ⟨a3, a5⟩
    have hrefs : t1.refsOf ls = s.refsOf ls := refsOf_congr hsame
    have htim : ∀ u, t1.configuredTim u (t1.refsOf ls) = s.configuredTim u (s.refsOf (l :: ls)) := by
      intro u; rw [hrefs, c1.tim hgood, refsOf_cons]
    have hslot : ∀ m, t1.configuredSlot (t1.refsOf ls) m =
        s.configuredSlot (s.refsOf (l :: ls)) m := by
      intro m; rw [hrefs, c1.slot hgood, refsOf_cons]
    have hrest : t1.legsStart ls := by
      refine ⟨fun m hm => by rw [c1.1]; exact h1 m (by simp [hm]), fun m hm hk => ?_, ?_, ?_⟩
      · rw [hsame m hm] at hk ⊢; rw [c1.1]; exact h2 m (by simp [hm]) hk
      · intro r hr
        rw [htim, c1.1]
        rw [hrefs] at hr
        exact h3 r (List.mem_append_right _ hr)
      · intro m hm e he
        rw [htim, hslot, c1.1]
        rw [startDuties_congr (hsame m hm)] at he
        exact h4 m (by simp [hm]) e he
    have hcalls := c1.legsCalls hgood ls hsame []
    rw [List.append_nil] at hcalls
    rw [List.nil_append, ← hcalls] at hb ⊢
    obtain ⟨t, e2, ⟨c2, w2, k1, k2, k3, k4, k5, k6, k7⟩, o2⟩ :=
      ih hd' t1 hrest (hb.right g3.2.1 o1) (by rw [c1.1]; exact hp)
    rw [hrefs] at c2
    refine ⟨t, ?_, ⟨?_, ?_, ?_, ?_, ?_, ?_, ?_, ?_, ?_⟩, calledOk_trans o1 o2⟩
    · rw [forUnits_cons, e1]; exact e2
    · exact c1.append c2 hgood (fun r hr => (h3 r (List.mem_append_right _ hr)).2.2.1) hp
    · intro m
      rw [w2, w1, ← latest_append]
      congr 1
      rw [startWrites_single]
      unfold State.startWrites
      rw [List.flatMap_cons]
      congr 1
      · apply List.map_congr_left
        intro e he
        rw [hpres e he, configuredSlot_head hnl]
      · apply List.flatMap_congr
        intro m hm
        rw [startDuties_congr (hsame m hm)]
        apply List.map_congr_left
        intro e he
        rw [htim, hslot, c1.1]
    · intro m hm
      rcases List.mem_cons.mp hm with rfl | hm
      · rw [k2 _ hnl, g1 _ (by simp)]
      · rw [k1 m hm, hsame m hm]
    · intro m hm
      rw [k2 m fun hx => hm (by simp [hx]), g2 m fun hx => hm (by simp at hx; simp [hx])]
    · exact ⟨k3.1.trans g3.1, k3.2.1.trans g3.2.1, k3.2.2.1.trans g3.2.2.1,
        k3.2.2.2.trans g3.2.2.2⟩
    · exact ⟨k4.1.trans g4.1, k4.2.trans g4.2⟩
    · exact fun m => (k5 m).trans (g5 m)
    · exact fun m => (k6 m).trans (g6 m)
    · exact fun m => (k7 m).trans (g7 m)

end Sys2Proof.Machine
end

