-- ==== Sys2Proof/Laws/Units.lean ====
section
/-! SUPPORT. Inverters, full bridges and ramp controllers: what each operation leaves when it
completes (43_inverter_psfb.md, 44_vf_ramp_controller.md). -/

namespace Sys2Proof.Machine

/-! ### Inverter duties (R222, R223) -/

/-- An inverter update completes when every leg accepts (R222). -/
theorem inverterUpdate_ok {s : State} {i : Nat} {d0 d1 d2 : NUM}
    (h : s.inverterAccepts i d0 d1 d2) :
    ∃ t, inverterUpdate i d0 d1 d2 s =
        .ok ⟨s.legApplied (4 * i) d0, s.legApplied (4 * i + 1) d1, s.legApplied (4 * i + 2) d2,
          if (s.invAt i).dup then s.legApplied (4 * i + 3) d2 else .rat 0⟩ t ∧
      sameButChannels s t ∧ shadowsWritten s t (s.inverterWrites i d0 d1 d2) := by
  obtain ⟨hi, hn, h0, h1, h2, h3⟩ := h
  obtain ⟨t0, e0, f0, w0⟩ := capabilityUpdate_ok h0
  obtain ⟨c1, g1, a1⟩ := legAccepts_congr f0 w0 (4 * i + 1) d1
  obtain ⟨t1, e1, f1, w1⟩ := capabilityUpdate_ok (c1.mpr h1)
  have F1 := sameButChannels_trans f0 f1
  have W1 := shadowsWritten_trans w0 w1
  obtain ⟨c2, g2, a2⟩ := legAccepts_congr F1 W1 (4 * i + 2) d2
  obtain ⟨t2, e2, f2, w2⟩ := capabilityUpdate_ok (c2.mpr h2)
  have F2 := sameButChannels_trans F1 f2
  have W2 := shadowsWritten_trans W1 w2
  have hd : (t2.invAt i).dup = (s.invAt i).dup := by rw [F2.2.2.2.2.2.2.1 i]
  rw [a1] at e1
  rw [a2] at e2
  unfold inverterUpdate State.inverterWrites
  rw [if_neg (by omega), if_neg (by rw [hn]; decide), e0, Done.andThen_ok, e1, Done.andThen_ok, e2,
    Done.andThen_ok]
  unfold duplicateUpdate
  rw [hd]
  cases hdup : (s.invAt i).dup with
  | false =>
    refine ⟨t2, by simp, F2, ?_⟩
    rw [← g1, ← g2]; simpa using W2
  | true =>
    obtain ⟨c3, g3, a3⟩ := legAccepts_congr F2 W2 (4 * i + 3) d2
    obtain ⟨t3, e3, f3, w3⟩ := capabilityUpdate_ok (c3.mpr (h3 hdup))
    refine ⟨t3, by simp [e3, a3], sameButChannels_trans F2 f3, ?_⟩
    rw [← g1, ← g2, ← g3]
    simpa using shadowsWritten_trans W2 w3

/-- The generator's answer as an entry of the trace (R320). -/
def State.spwmEntry (s : State) (theta mi : NUM) (dir : Direction) : ExtEntry :=
  ⟨.spwm theta mi dir, .duties (s.spwm theta mi dir).1 (s.spwm theta mi dir).2.1
    (s.spwm theta mi dir).2.2⟩

/-- Everything but the trace and the channels is unchanged. -/
def sameButDuties (s t : State) : Prop :=
  sameInputs s t ∧ sameGlb s t ∧ sameTim s t ∧ sameCfg s t ∧ sameLeg s t ∧ sameInv s t ∧
  samePsfb s t ∧ sameVf s t

/-- A sinusoidal update completes when every leg accepts the generator's duty (R223). -/
theorem inverterSpwm_ok {s : State} {i : Nat} {dir : Direction} {theta mi : NUM}
    (h : s.inverterAccepts i (s.spwm theta mi dir).1 (s.spwm theta mi dir).2.1
      (s.spwm theta mi dir).2.2) :
    ∃ t, inverterSpwm i dir theta mi s =
        .ok ⟨s.legApplied (4 * i) (s.spwm theta mi dir).1,
          s.legApplied (4 * i + 1) (s.spwm theta mi dir).2.1,
          s.legApplied (4 * i + 2) (s.spwm theta mi dir).2.2,
          if (s.invAt i).dup then s.legApplied (4 * i + 3) (s.spwm theta mi dir).2.2 else .rat 0⟩ t ∧
      sameButDuties s t ∧
      t.ext = s.ext ++ [s.spwmEntry theta mi dir] ∧ t.callNo = s.callNo + 1 ∧
      shadowsWritten s t (s.inverterWrites i (s.spwm theta mi dir).1 (s.spwm theta mi dir).2.1
        (s.spwm theta mi dir).2.2) := by
  obtain ⟨t, e, ⟨f1, ⟨o1, o2⟩, f3, f4, f5, f6, f7, f8, f9⟩, w⟩ :=
    inverterUpdate_ok (s := s.emitSpwm theta mi dir) (i := i) h
  refine ⟨t, ?_, ⟨f1, f3, f4, f5, f6, f7, f8, f9⟩, o1, o2, w⟩
  unfold inverterSpwm
  rw [if_neg (by have := h.1; omega), if_neg (by rw [h.2.1]; decide)]
  exact e

/-! ### Inverter and full-bridge enabling (R226, R233) -/

theorem invLegs_nodup (i : Nat) (d : Bool) : (invLegs i d).Nodup := by
  unfold invLegs
  split <;> simp

theorem psfbLegs_nodup (p : Params) (j : Nat) : (psfbLegs p j).Nodup := by
  unfold psfbLegs; simp

theorem inverterEnable_ok {s : State} {i : Nat} (e : Bool)
    (h : ∀ l ∈ s.inverterLegs i, s.legEnables l) :
    ∃ t, inverterEnable i e s = .ok () t ∧ legsEnabled s t (s.inverterLegs i) e ∧
      t.invAt i = { s.invAt i with state := Activity.ofFlag e } ∧
      (∀ m, m ≠ i → t.invAt m = s.invAt m) ∧
      sameInputs s t ∧ sameTim s t ∧ sameCh s t ∧ sameCfg s t ∧ samePsfb s t ∧ sameVf s t ∧
      calledOk s t ((s.inverterLegs i).map fun l => s.enableCall l e) := by
  obtain ⟨t, ht, hl, ⟨f1, f2, f3, f4, f5, f6, f7⟩, ho⟩ :=
    forUnits_enable e _ (invLegs_nodup i (s.invAt i).dup) s h
  refine ⟨t.setInv i { t.invAt i with state := Activity.ofFlag e }, ?_, hl, ?_, ?_, f1, f2, f3, f4,
    f6, f7, ho⟩
  · unfold inverterEnable; rw [ht]; rfl
  · rw [State.invAt_setInv_same, f5]
  · intro m hm; rw [State.invAt_setInv_other _ _ _ _ hm, f5]

theorem inverterActivate_ok {s : State} {i : Nat} (e : Bool) (hi : i < s.params.ninv)
    (hn : (s.invAt i).init = true) :
    inverterActivate i e s = inverterEnable i e s := by
  unfold inverterActivate
  rw [if_neg (by omega), if_neg (by rw [hn]; decide)]

theorem psfbEnable_ok {s : State} {j : Nat} (e : Bool)
    (h : ∀ l ∈ psfbLegs s.params j, s.legEnables l) :
    ∃ t, psfbEnable j e s = .ok () t ∧ legsEnabled s t (psfbLegs s.params j) e ∧
      t.psfbAt j = { s.psfbAt j with state := Activity.ofFlag e } ∧
      (∀ m, m ≠ j → t.psfbAt m = s.psfbAt m) ∧
      sameInputs s t ∧ sameTim s t ∧ sameCh s t ∧ sameCfg s t ∧ sameInv s t ∧ sameVf s t ∧
      calledOk s t ((psfbLegs s.params j).map fun l => s.enableCall l e) := by
  obtain ⟨t, ht, hl, ⟨f1, f2, f3, f4, f5, f6, f7⟩, ho⟩ :=
    forUnits_enable e _ (psfbLegs_nodup s.params j) s h
  refine ⟨t.setPsfb j { t.psfbAt j with state := Activity.ofFlag e }, ?_, hl, ?_, ?_, f1, f2, f3, f4,
    f5, f7, ho⟩
  · unfold psfbEnable; rw [ht]; rfl
  · rw [State.psfbAt_setPsfb_same, f6]
  · intro m hm; rw [State.psfbAt_setPsfb_other _ _ _ _ hm, f6]

/-! ### Initialisation (R220, R230) -/

/-- A started leg passes the enable checks: its pairs are bound and `NPWM` is even. -/
theorem legEnables_of_started {s t : State} {ls : List Nat} (h : s.legsStart ls)
    (hu : legsUp s t ls) (he : s.params.npwm % 2 = 0) : ∀ l ∈ ls, t.legEnables l := by
  intro l hl
  obtain ⟨h1, h2, h3, -⟩ := h
  have hleg := hu.2.2.1 l hl
  have hpar : t.params = s.params := hu.1.1
  have hr : ((s.legAt l).pin.toNat, l) ∈ s.refsOf ls := by
    refine List.mem_flatMap.mpr ⟨l, hl, ?_⟩
    unfold State.legRefs
    cases (s.legAt l).kind <;> simp
  obtain ⟨a1, a2, a3, -⟩ := h3 _ hr
  simp only at a1 a2 a3
  unfold State.legEnables
  rw [hleg, hpar]
  refine ⟨h1 l hl, ?_, a1, ?_⟩
  · simp only; cases (s.legAt l).kind <;> decide
  · cases hk : (s.legAt l).kind with
    | default => simp only [legWidth]; omega
    | tnpc => have := h2 l hl hk; simp only [legWidth]; omega

/-- Legs started and then disabled (R220, R230). -/
theorem legsStarted_of {s t u : State} {ls : List Nat} (hu : legsUp s t ls)
    (he : legsEnabled t u ls false) (h1 : sameTim t u) (h2 : sameCh t u) (h3 : sameCfg t u) :
    legsStarted s u ls := by
  obtain ⟨⟨q1, q2, q3, q4⟩, w, g1, g2, -, g4, -⟩ := hu
  obtain ⟨k0, k1, k2, k3, k4⟩ := he
  have hpin : ∀ l q, t.ownsPin l q ↔ s.ownsPin l q := by
    intro l q
    by_cases hl : l ∈ ls
    · unfold State.ownsPin; rw [g1 l hl]
    · unfold State.ownsPin; rw [g2 l hl]
  refine ⟨fun v => (h1 v).trans (q2 v), fun m => (h3 m).trans (q3 m), fun n => ?_, fun l hl => ?_,
    fun l hl => ?_, k0.trans g4.1, fun b hb ⟨l, hl, ho⟩ => ?_, fun b hb ho => ?_⟩
  · rw [h2 n, q4 n, w n]
  · rw [k3 l hl, g1 l hl]; rfl
  · rw [k4 l hl, g2 l hl]
  · exact k1 b hb ⟨l, hl, (hpin l _).mpr ho⟩
  · rw [k2 b hb fun ⟨l, hl, ho'⟩ => ho ⟨l, hl, (hpin l _).mp ho'⟩, g4.2]

theorem validateLegs_none {s : State} {ls : List Nat}
    (h : ∀ l ∈ ls, 1 ≤ (s.legAt l).pin.toNat ∧
      (s.legAt l).pin.toNat + legWidth (s.legAt l).kind - 1 ≤ s.params.npwm ∧
      (s.legAt l).pin.toNat % 2 = 1) : validateLegs s ls = none := by
  induction ls with
  | nil => rfl
  | cons l ls ih =>
    obtain ⟨h1, h2, h3⟩ := h l (by simp)
    unfold validateLegs
    simp only
    rw [if_neg (by omega), if_neg (by omega)]
    exact ih fun m hm => h m (by simp [hm])

theorem psfbPinCheck_none {s : State} {ls : List Nat}
    (h : ∀ l ∈ ls, 1 ≤ (s.legAt l).pin.toNat ∧ (s.legAt l).pin.toNat + 1 ≤ s.params.npwm ∧
      (s.legAt l).pin.toNat % 2 = 1) : psfbPinCheck s ls = none := by
  induction ls with
  | nil => rfl
  | cons l ls ih =>
    obtain ⟨h1, h2, h3⟩ := h l (by simp)
    unfold psfbPinCheck
    simp only
    rw [if_neg (by omega), if_neg (by omega)]
    exact ih fun m hm => h m (by simp [hm])

theorem legsStart_pins {s : State} {ls : List Nat} (h : s.legsStart ls)
    (he : s.params.npwm % 2 = 0) : ∀ l ∈ ls, 1 ≤ (s.legAt l).pin.toNat ∧
      (s.legAt l).pin.toNat + legWidth (s.legAt l).kind - 1 ≤ s.params.npwm ∧
      (s.legAt l).pin.toNat % 2 = 1 := by
  intro l hl
  obtain ⟨h1, h2, h3, -⟩ := h
  have hr : ((s.legAt l).pin.toNat, l) ∈ s.refsOf ls := by
    refine List.mem_flatMap.mpr ⟨l, hl, ?_⟩
    unfold State.legRefs
    cases (s.legAt l).kind <;> simp
  obtain ⟨a1, a2, a3, -⟩ := h3 _ hr
  simp only at a1 a2 a3
  refine ⟨a1, ?_, a3⟩
  cases hk : (s.legAt l).kind with
  | default => simp only [legWidth]; omega
  | tnpc => have := h2 l hl hk; simp only [legWidth]; omega

theorem npwm_even {p : Params} (h : p.valid = true) : p.npwm % 2 = 0 := by
  obtain ⟨h1, h2, -⟩ := Params.valid_facts h
  unfold Params.npwm; omega

/-- The disable-pin calls of an inverter (R225). -/
def disableCalls (r : Inv) : List ExtCall :=
  (disablePins r).map fun q => .setPinAsDigitalOutput q 0

/-- `INVINIT` completes when its legs can be started (R220). -/
theorem inverterInit_ok {s : State} {i : Nat} (hp : s.params.valid = true)
    (hi : i < s.params.ninv)
    (hdis : (s.invAt i).disCount.toNat = 0 ∨
      (s.invAt i).disFirst.toNat + (s.invAt i).disCount.toNat ≤ 256)
    (h : s.legsStart (invLegs i (s.invAt i).dupEn))
    (hb : s.callsAnswered (s.legsCalls [] (invLegs i (s.invAt i).dupEn))) :
    ∃ t, inverterInit i s = .ok () t ∧ legsStarted s t (invLegs i (s.invAt i).dupEn) ∧
      t.invAt i = { s.invAt i with state := .inactive, init := true, dup := (s.invAt i).dupEn } ∧
      (∀ m, m ≠ i → t.invAt m = s.invAt m) ∧ sameInputs s t ∧ samePsfb s t ∧ sameVf s t ∧
      calledOk s t (s.legsCalls [] (invLegs i (s.invAt i).dupEn) ++ disableCalls (s.invAt i) ++
        (invLegs i (s.invAt i).dupEn).map fun l => s.enableCall l false) := by
  have hev := npwm_even hp
  obtain ⟨t1, e1, u1, o1⟩ := startLegs_ok _ (invLegs_nodup i (s.invAt i).dupEn) s h hb
    (Params.valid_facts hp).1
  have hen := legEnables_of_started h u1 hev
  have hv : validateInv i (invLegs i (s.invAt i).dupEn) s = none := by
    unfold validateInv
    rw [validateLegs_none (legsStart_pins h hev)]
    simp only
    rw [if_neg (by omega)]
  obtain ⟨⟨q1, q2, q3, q4⟩, w, g1, g2, g3, g4, g5, g6, g7⟩ := id u1
  have hinv : t1.invAt i = s.invAt i := g5 i
  generalize hs3 : (t1.emitDisablePins (disablePins (t1.invAt i))).setInv i
    { (t1.emitDisablePins (disablePins (t1.invAt i))).invAt i with
      dup := ((t1.emitDisablePins (disablePins (t1.invAt i))).invAt i).dupEn } = s3
  have hl3 : s3.inverterLegs i = invLegs i (s.invAt i).dupEn := by
    subst hs3; unfold State.inverterLegs
    rw [State.invAt_setInv_same]
    simp only [emitDisablePins_eq, State.emits_invAt, hinv]
  have hleg3 : ∀ l, s3.legAt l = t1.legAt l := by
    intro l; subst hs3; simp only [State.setInv_legAt, emitDisablePins_eq, State.emits_legAt]
  have hpar3 : s3.params = t1.params := by
    subst hs3; simp only [State.setInv_params, emitDisablePins_eq, State.emits_params]
  have hi3 : s3.invAt i = { s.invAt i with dup := (s.invAt i).dupEn } := by
    subst hs3; rw [State.invAt_setInv_same]
    simp only [emitDisablePins_eq, State.emits_invAt, hinv]
  have ho3 : ∀ m, m ≠ i → s3.invAt m = s.invAt m := by
    intro m hm; subst hs3; rw [State.invAt_setInv_other _ _ _ _ hm]
    simp only [emitDisablePins_eq, State.emits_invAt]; exact g5 m
  have hc3 : calledOk t1 s3 (disableCalls (s.invAt i)) := by
    subst hs3
    have := calledOk_emits t1 (disableCalls (t1.invAt i))
    rw [hinv] at this
    simp only [emitDisablePins_eq]
    rw [hinv]
    exact this
  have hf3 : sameInputs t1 s3 ∧ sameGlb t1 s3 ∧ sameTim t1 s3 ∧ sameCh t1 s3 ∧ sameCfg t1 s3 ∧
      samePsfb t1 s3 ∧ sameVf t1 s3 := by
    subst hs3
    simp only [emitDisablePins_eq]
    refine ⟨⟨?_, ?_, ?_, ?_⟩, ⟨?_, ?_⟩, fun m => ?_, fun m => ?_, fun m => ?_, fun m => ?_,
      fun m => ?_⟩ <;> simp
  have hen3 : ∀ l ∈ s3.inverterLegs i, s3.legEnables l := by
    intro l hl
    rw [hl3] at hl
    have := hen l hl
    unfold State.legEnables at this ⊢
    rw [hleg3, hpar3]; exact this
  obtain ⟨t, e2, k1, k2, k3, k4, k5, k6, k7, k8, k9, k10⟩ := inverterEnable_ok false hen3
  rw [hl3] at k1 k10
  refine ⟨t.setInv i { t.invAt i with init := true }, ?_, ?_, ?_, ?_, ?_, ?_, ?_, ?_⟩
  · unfold inverterInit
    rw [if_neg (by omega)]
    simp only [hv, e1, Done.andThen_ok, hs3, e2]
  · have hE : legsEnabled t1 t (invLegs i (s.invAt i).dupEn) false := by
      obtain ⟨x0, x1, x2, x3, x4⟩ := k1
      have hown : ∀ l q, s3.ownsPin l q ↔ t1.ownsPin l q := by
        intro l q; unfold State.ownsPin; rw [hleg3]
      refine ⟨x0.trans hf3.2.1.1, fun b hb ⟨l, hl, ho⟩ => x1 b hb ⟨l, hl, (hown l _).mpr ho⟩,
        fun b hb ho => ?_, fun l hl => ?_, fun l hl => ?_⟩
      · rw [x2 b hb fun ⟨l, hl, ho'⟩ => ho ⟨l, hl, (hown l _).mp ho'⟩, hf3.2.1.2]
      · rw [x3 l hl, hleg3]
      · rw [x4 l hl, hleg3]
    exact legsStarted_of u1 hE (fun m => (k5 m).trans (hf3.2.2.1 m))
      (fun m => (k6 m).trans (hf3.2.2.2.1 m)) fun m => (k7 m).trans (hf3.2.2.2.2.1 m)
  · rw [State.invAt_setInv_same, k2, hi3]; rfl
  · intro m hm
    rw [State.invAt_setInv_other _ _ _ _ hm, k3 m hm, ho3 m hm]
  · exact ⟨k4.1.trans (hf3.1.1.trans g3.1), k4.2.1.trans (hf3.1.2.1.trans g3.2.1),
      k4.2.2.1.trans (hf3.1.2.2.1.trans g3.2.2.1), k4.2.2.2.trans (hf3.1.2.2.2.trans g3.2.2.2)⟩
  · exact fun m => (k8 m).trans ((hf3.2.2.2.2.2.1 m).trans (g6 m))
  · exact fun m => (k9 m).trans ((hf3.2.2.2.2.2.2 m).trans (g7 m))
  · have hcall : (invLegs i (s.invAt i).dupEn).map (fun l => s3.enableCall l false) =
        (invLegs i (s.invAt i).dupEn).map fun l => s.enableCall l false := by
      apply List.map_congr_left
      intro l hl
      unfold State.enableCall
      rw [hleg3, g1 l hl]
    rw [hcall] at k10
    exact calledOk_trans (calledOk_trans o1 hc3) k10

/-- `PSFBINIT` completes when its two legs are Default legs that can be started (R230). -/
theorem psfbInit_ok {s : State} {j : Nat} (hp : s.params.valid = true)
    (hj : j < s.params.npsfb) (hk : ∀ l ∈ psfbLegs s.params j, (s.legAt l).kind = .default)
    (h : s.legsStart (psfbLegs s.params j))
    (hb : s.callsAnswered (s.legsCalls [] (psfbLegs s.params j))) :
    ∃ t, psfbInit j s = .ok () t ∧ legsStarted s t (psfbLegs s.params j) ∧
      t.psfbAt j = { s.psfbAt j with state := .inactive, init := true } ∧
      (∀ m, m ≠ j → t.psfbAt m = s.psfbAt m) ∧ sameInputs s t ∧ sameInv s t ∧ sameVf s t ∧
      calledOk s t (s.legsCalls [] (psfbLegs s.params j) ++ (psfbLegs s.params j).map fun l => s.enableCall l false) := by
  have hev := npwm_even hp
  obtain ⟨t1, e1, u1, o1⟩ := startLegs_ok _ (psfbLegs_nodup s.params j) s h hb
    (Params.valid_facts hp).1
  have hen := legEnables_of_started h u1 hev
  have hpins := legsStart_pins h hev
  obtain ⟨⟨q1, q2, q3, q4⟩, w, g1, g2, g3, g4, g5, g6, g7⟩ := id u1
  obtain ⟨t, e2, k1, k2, k3, k4, k5, k6, k7, k8, k9, k10⟩ :=
    psfbEnable_ok (s := t1) (j := j) false (by rw [q1]; exact hen)
  rw [q1] at k1 k10
  refine ⟨t.setPsfb j { t.psfbAt j with init := true }, ?_, ?_, ?_, ?_, ?_, ?_, ?_, ?_⟩
  · unfold psfbInit
    rw [if_neg (by omega)]
    simp only
    rw [psfbPinCheck_none fun l hl => by
      have := hpins l hl; rw [hk l hl] at this; simpa [legWidth] using this]
    simp only
    rw [if_neg (by simpa [psfbTypesOk] using hk), e1]
    simp only [Done.andThen_ok, e2]
  · exact legsStarted_of u1 k1 k5 k6 k7
  · rw [State.psfbAt_setPsfb_same, k2, g6]; rfl
  · intro m hm; rw [State.psfbAt_setPsfb_other _ _ _ _ hm, k3 m hm, g6]
  · exact ⟨k4.1.trans g3.1, k4.2.1.trans g3.2.1, k4.2.2.1.trans g3.2.2.1,
      k4.2.2.2.trans g3.2.2.2⟩
  · exact fun m => (k8 m).trans (g5 m)
  · exact fun m => (k9 m).trans (g7 m)
  · have hcall : (psfbLegs s.params j).map (fun l => t1.enableCall l false) =
        (psfbLegs s.params j).map fun l => s.enableCall l false := by
      apply List.map_congr_left
      intro l hl
      unfold State.enableCall
      rw [g1 l hl]
    rw [hcall] at k10
    exact calledOk_trans o1 k10

/-! ### The ramp controller (R262 to R268) -/

theorem rampConfigOk_iff {v : Vf} :
    rampConfigOk v = true ↔ v.configured := by
  simp only [rampConfigOk, Vf.configured, Bool.and_eq_true, and_assoc]

/-- The inverter and its legs after a step: enabled or disabled by a commit, else unchanged. -/
def rampSwitched (s t : State) (k i : Nat) : Prop :=
  (∀ m, m ≠ i → t.invAt m = s.invAt m) ∧
  ((s.vfAt k).commitsState = true →
    legsEnabled s t (s.inverterLegs i) (s.vfAt k).reqState.flag ∧
    t.invAt i = { s.invAt i with state := (s.vfAt k).reqState }) ∧
  ((s.vfAt k).commitsState = false → sameGlb s t ∧ sameLeg s t ∧ t.invAt i = s.invAt i)

theorem ofFlag_flag (a : Activity) : Activity.ofFlag a.flag = a := by cases a <;> rfl

/-- The record after the arbitration: frequency, activation and direction (R264 to R266). -/
def Vf.arbitrated (v : Vf) : Vf :=
  { v with
    curFreq := v.nextFreq
    curState := if v.commitsState then v.reqState else v.curState
    curDir := if v.commitsDir then v.reqDir else v.curDir }

/-- The arbitration completes when its commit, if it makes one, can enable the legs. -/
theorem rampArbitrate_ok {s : State} {k i : Nat} (hi : i < s.params.ninv)
    (hn : (s.invAt i).init = true)
    (hl : (s.vfAt k).commitsState = true → ∀ l ∈ s.inverterLegs i, s.legEnables l) :
    ∃ t, rampArbitrate k i ((s.vfAt k).accel.div (s.vfAt k).pwmFreq) s = .ok () t ∧
      t.vfAt k = (s.vfAt k).arbitrated ∧ (∀ m, m ≠ k → t.vfAt m = s.vfAt m) ∧
      rampSwitched s t k i ∧ sameInputs s t ∧ sameTim s t ∧ sameCh s t ∧ sameCfg s t ∧
      samePsfb s t ∧
      calledOk s t (if (s.vfAt k).commitsState then
        (s.inverterLegs i).map fun l => s.enableCall l (s.vfAt k).reqState.flag else []) := by
  unfold rampArbitrate
  simp only
  generalize hv : s.vfAt k = v at *
  by_cases hq : v.reqState ≠ v.curState
  · have hf : toward0 v.curFreq (v.accel.div v.pwmFreq) = v.nextFreq := by
      unfold Vf.nextFreq Vf.goal; rw [if_pos (.inl hq)]; rfl
    have hnd : v.commitsDir = false := by simp [Vf.commitsDir, hq]
    rw [if_pos hq]
    unfold rampActivation
    simp only [hv, hf]
    by_cases h0 : v.nextFreq = .rat 0
    · have hcs : v.commitsState = true := by simp [Vf.commitsState, hq, h0]
      rw [if_pos h0]
      have hl1 : ∀ l ∈ (s.setVf k { v with curFreq := v.nextFreq }).inverterLegs i,
          (s.setVf k { v with curFreq := v.nextFreq }).legEnables l := hl hcs
      obtain ⟨t, e, k1, k2, k3, k4, k5, k6, k7, k8, k9, k10⟩ :=
        inverterEnable_ok v.reqState.flag hl1
      rw [inverterActivate_ok (s := s.setVf k { v with curFreq := v.nextFreq }) v.reqState.flag hi hn,
        e]
      refine ⟨_, rfl, ?_, ?_, ⟨k3, fun _ => ⟨by rw [hv]; exact k1, ?_⟩, fun hx => ?_⟩, k4, k5, k6, k7, k8, ?_⟩
      · rw [State.vfAt_setVf_same, k9 k, State.vfAt_setVf_same]
        simp [Vf.arbitrated, hcs, hnd]
      · intro m hm
        rw [State.vfAt_setVf_other _ _ _ _ hm, k9 m, State.vfAt_setVf_other _ _ _ _ hm]
      · rw [hv]; exact k2.trans (by rw [ofFlag_flag]; rfl)
      · rw [hv, hcs] at hx; cases hx
      · rw [if_pos hcs]; exact k10
    · have hcs : v.commitsState = false := by simp [Vf.commitsState, h0]
      rw [if_neg h0]
      refine ⟨_, rfl, ?_, fun m hm => State.vfAt_setVf_other _ _ _ _ hm, ⟨fun _ _ => rfl, fun hx => ?_,
        fun _ => ⟨⟨rfl, rfl⟩, fun _ => rfl, rfl⟩⟩, ⟨rfl, rfl, rfl, rfl⟩, fun _ => rfl, fun _ => rfl,
        fun _ => rfl, fun _ => rfl, ?_⟩
      · rw [State.vfAt_setVf_same]; simp [Vf.arbitrated, hcs, hnd]
      · rw [hv, hcs] at hx; cases hx
      · rw [if_neg (by rw [hcs]; decide)]; exact calledOk_nil s
  · have hcs : v.commitsState = false := by simp [Vf.commitsState]; intro h; exact absurd h hq
    have hqe : v.reqState = v.curState := not_not.mp hq
    rw [if_neg hq]
    by_cases hd : v.reqDir ≠ v.curDir
    · have hf : toward0 v.curFreq (v.accel.div v.pwmFreq) = v.nextFreq := by
        unfold Vf.nextFreq Vf.goal; rw [if_pos (.inr hd)]; rfl
      rw [if_pos hd]
      refine ⟨_, rfl, ?_, fun m hm => State.vfAt_setVf_other _ _ _ _ hm, ⟨fun _ _ => rfl, fun hx => ?_,
        fun _ => ⟨⟨rfl, rfl⟩, fun _ => rfl, rfl⟩⟩, ⟨rfl, rfl, rfl, rfl⟩, fun _ => rfl, fun _ => rfl,
        fun _ => rfl, fun _ => rfl, ?_⟩
      · unfold rampDirection
        rw [State.vfAt_setVf_same]
        simp only [hv, hf, Vf.arbitrated, hcs, Bool.false_eq_true, if_false]
        by_cases h0 : v.nextFreq = .rat 0
        · simp [Vf.commitsDir, hqe, hd, h0]
        · simp [Vf.commitsDir, h0]
      · rw [hv, hcs] at hx; cases hx
      · rw [if_neg (by rw [hcs]; decide)]; exact calledOk_nil s
    · have hf : toward v.curFreq v.outFreq (v.accel.div v.pwmFreq) = v.nextFreq := by
        unfold Vf.nextFreq Vf.goal; rw [if_neg (by tauto)]
      have hnd : v.commitsDir = false := by
        simp [Vf.commitsDir]; intro _ h; exact absurd h hd
      rw [if_neg hd]
      refine ⟨_, rfl, ?_, fun m hm => State.vfAt_setVf_other _ _ _ _ hm, ⟨fun _ _ => rfl, fun hx => ?_,
        fun _ => ⟨⟨rfl, rfl⟩, fun _ => rfl, rfl⟩⟩, ⟨rfl, rfl, rfl, rfl⟩, fun _ => rfl, fun _ => rfl,
        fun _ => rfl, fun _ => rfl, ?_⟩
      · unfold rampTracking
        rw [State.vfAt_setVf_same]
        simp [hv, hf, Vf.arbitrated, hcs, hnd]
      · rw [hv, hcs] at hx; cases hx
      · rw [if_neg (by rw [hcs]; decide)]; exact calledOk_nil s

/-- What a duty update needs and computes depends on instances, slots, channels, capabilities, pins,
and the latched duplicate flag only. -/
theorem inverterAccepts_congr {s t : State} {i : Nat} (hp : t.params = s.params)
    (ht : sameTim s t) (hc : sameCh s t) (hs : sameCfg s t)
    (hl : ∀ l, (t.legAt l).cap = (s.legAt l).cap ∧ (t.legAt l).pin = (s.legAt l).pin)
    (hi : (t.invAt i).init = (s.invAt i).init ∧ (t.invAt i).dup = (s.invAt i).dup) (d0 d1 d2 : NUM) :
    (t.inverterAccepts i d0 d1 d2 ↔ s.inverterAccepts i d0 d1 d2) ∧
    t.inverterWrites i d0 d1 d2 = s.inverterWrites i d0 d1 d2 := by
  have hpa : ∀ n sl d, (t.pairAccepts n sl d ↔ s.pairAccepts n sl d) ∧
      t.pairCompare n sl d = s.pairCompare n sl d := by
    intro n sl d
    unfold State.pairAccepts State.pairCompare
    rw [hp, ht, hc, hs]; exact ⟨Iff.rfl, rfl⟩
  have hla : ∀ l d, (t.legAccepts l d ↔ s.legAccepts l d) ∧ t.legWrites l d = s.legWrites l d := by
    intro l d
    unfold State.legAccepts State.legWrites
    simp only [hp, (hl l).1, (hl l).2, (hpa _ _ _).1, (hpa _ _ _).2, and_self]
  unfold State.inverterAccepts State.inverterWrites
  simp only [hp, hi.1, hi.2, (hla _ _).1, (hla _ _).2, and_self]

/-- `SPWM`'s answer does not depend on the banks. -/
theorem State.spwm_congr {s t : State} (h : t.env = s.env) : t.spwm = s.spwm := by
  funext a b c; unfold State.spwm; rw [h]

/-- A ramp step completes when its commit, if any, can enable the legs, and its update is accepted
(R262 to R268). -/
theorem rampStep_ok {s : State} {k : Nat} (v : Vf) (i : Nat) (w : Vf) (d : NUM × NUM × NUM)
    (hv : s.vfAt k = v) (hvi : v.inv.toNat = i) (hw : v.stepped = w)
    (hd : s.spwm w.theta v.nextMi w.curDir = d)
    (hk : k < s.params.nvf) (hinit : v.init = true) (hi : i < s.params.ninv)
    (hcfg : v.configured)
    (hl : v.commitsState = true → ∀ l ∈ s.inverterLegs i, s.legEnables l)
    (ha : s.inverterAccepts i d.1 d.2.1 d.2.2) :
    ∃ t, rampStep k s =
        .ok ⟨0, v.nextFreq, v.nextMi, w.theta, .rat 0⟩ t ∧ t.vfAt k = w ∧
      (∀ m, m ≠ k → t.vfAt m = s.vfAt m) ∧ rampSwitched s t k i ∧
      sameInputs s t ∧ sameTim s t ∧ sameCfg s t ∧ samePsfb s t ∧
      shadowsWritten s t (s.inverterWrites i d.1 d.2.1 d.2.2) ∧
      t.ext = s.ext ++ ((if v.commitsState then
        (s.inverterLegs i).map fun l => s.enableCall l v.reqState.flag else []).map
          fun c => ⟨c, .ok⟩) ++ [⟨.spwm w.theta v.nextMi w.curDir, .duties d.1 d.2.1 d.2.2⟩] ∧
      t.callNo = s.callNo + (if v.commitsState then (s.inverterLegs i).length else 0) + 1 := by
  subst hv hvi hw hd
  obtain ⟨t1, e1, a1, a2, a3, a4, a5, a6, a7, a8, a9⟩ := rampArbitrate_ok hi ha.2.1 hl
  have hleg : ∀ l, (t1.legAt l).cap = (s.legAt l).cap ∧ (t1.legAt l).pin = (s.legAt l).pin := by
    intro l
    cases hc : (s.vfAt k).commitsState with
    | false => rw [(a3.2.2 hc).2.1 l]; exact ⟨rfl, rfl⟩
    | true =>
      obtain ⟨⟨-, -, -, x, y⟩, -⟩ := a3.2.1 hc
      by_cases hm : l ∈ s.inverterLegs (s.vfAt k).inv.toNat
      · rw [x l hm]; exact ⟨rfl, rfl⟩
      · rw [y l hm]; exact ⟨rfl, rfl⟩
  have hinv : (t1.invAt (s.vfAt k).inv.toNat).init = (s.invAt (s.vfAt k).inv.toNat).init ∧
      (t1.invAt (s.vfAt k).inv.toNat).dup = (s.invAt (s.vfAt k).inv.toNat).dup := by
    cases hc : (s.vfAt k).commitsState with
    | false => rw [(a3.2.2 hc).2.2]; exact ⟨rfl, rfl⟩
    | true => rw [(a3.2.1 hc).2]; exact ⟨rfl, rfl⟩
  obtain ⟨c1, c2⟩ := inverterAccepts_congr (s := s)
    (t := t1.setVf k (s.vfAt k).stepped) (i := (s.vfAt k).inv.toNat)
    a4.1 a5 a6 a7 hleg hinv
    (s.spwm (s.vfAt k).stepped.theta (s.vfAt k).nextMi
      (s.vfAt k).stepped.curDir).1
    (s.spwm (s.vfAt k).stepped.theta (s.vfAt k).nextMi
      (s.vfAt k).stepped.curDir).2.1
    (s.spwm (s.vfAt k).stepped.theta (s.vfAt k).nextMi
      (s.vfAt k).stepped.curDir).2.2
  have hsp : (t1.setVf k (s.vfAt k).stepped).spwm = s.spwm := by
    exact State.spwm_congr a4.2.1
  obtain ⟨t, e2, ⟨f1, f2, f3, f4, f5, f6, f7, f8⟩, o1, o2, w1⟩ :=
    inverterSpwm_ok (s := t1.setVf k (s.vfAt k).stepped)
      (i := (s.vfAt k).inv.toNat)
      (dir := (s.vfAt k).stepped.curDir)
      (theta := (s.vfAt k).stepped.theta) (mi := (s.vfAt k).nextMi)
      (by rw [hsp]; exact c1.mpr ha)
  rw [hsp, c2] at w1
  refine ⟨t, ?_, ?_, fun m hm => ?_, ⟨fun m hm => ?_, fun hc => ?_, fun hc => ?_⟩, ?_, ?_, ?_, ?_,
    ?_, ?_, ?_⟩
  · unfold rampStep
    simp only
    rw [if_neg (by omega), if_neg (by rw [hinit]; decide), if_neg (by omega),
      if_neg (by rw [ha.2.1]; decide), if_neg (by rw [rampConfigOk_iff.mpr hcfg]; decide), e1,
      Done.andThen_ok]
    unfold rampEmit
    simp only [a1, modulationIndex, nextTheta]
    exact congrArg (fun r : Done Duties => r.andThen fun _ s2 =>
      Done.ok (⟨0, (s.vfAt k).nextFreq, (s.vfAt k).nextMi,
        (s.vfAt k).stepped.theta, .rat 0⟩ : Results) s2) e2
  · rw [f8 k, State.vfAt_setVf_same]
  · rw [f8 m, State.vfAt_setVf_other _ _ _ _ hm, a2 m hm]
  · exact (f6 m).trans (a3.1 m hm)
  · obtain ⟨⟨x0, x1, x2, x3, x4⟩, y⟩ := a3.2.1 hc
    exact ⟨⟨f2.1.trans x0, fun b hb ho => by rw [f2.2]; exact x1 b hb ho,
      fun b hb ho => by rw [f2.2]; exact x2 b hb ho, fun l hl => (f5 l).trans (x3 l hl),
      fun l hl => (f5 l).trans (x4 l hl)⟩, (f6 _).trans y⟩
  · obtain ⟨x0, x1, y⟩ := a3.2.2 hc
    exact ⟨⟨f2.1.trans x0.1, f2.2.trans x0.2⟩, fun l => (f5 l).trans (x1 l), (f6 _).trans y⟩
  · exact ⟨f1.1.trans a4.1, f1.2.1.trans a4.2.1, f1.2.2.1.trans a4.2.2.1,
      f1.2.2.2.trans a4.2.2.2⟩
  · exact fun m => (f3 m).trans (a5 m)
  · exact fun m => (f4 m).trans (a7 m)
  · exact fun m => (f7 m).trans (a8 m)
  · exact fun n => (w1 n).trans (by rw [State.setVf_chAt, a6 n])
  · rw [o1, State.setVf_ext, a9.1]; unfold State.spwmEntry; rw [hsp]
  · rw [o2, State.setVf_callNo, a9.2]; split <;> simp

/-- `VFINIT` completes on a legal configuration (R261). -/
theorem rampInit_ok {s : State} {k : Nat} (hk : k < s.params.nvf)
    (hi : (s.vfAt k).inv.toNat < s.params.ninv)
    (hc : (s.vfAt k).configured) :
    rampInit k s = .ok () (s.setVf k
      { s.vfAt k with
        curFreq := .rat 0
        theta := .rat 0
        curState := .inactive
        reqState := .inactive
        curDir := (s.vfAt k).reqDir
        init := true }) := by
  unfold rampInit
  simp only
  rw [if_neg (by omega), if_neg (by omega), if_neg (by rw [rampConfigOk_iff.mpr hc]; decide)]

/-! ### The shadow commit (R172) -/

theorem commitAll_chAt (ns : List Nat) (s : State) (n : Nat) :
    (s.commitAll ns).chAt n =
      if n ∈ ns then { s.chAt n with cmpa := (s.chAt n).cmps } else s.chAt n := by
  induction ns generalizing s with
  | nil => rfl
  | cons m ms ih =>
    unfold State.commitAll
    rw [ih]
    unfold State.commitChannel
    by_cases hm : n = m
    · subst hm
      rw [State.chAt_setCh_same]; simp
    · rw [State.chAt_setCh_other _ _ _ _ hm]; simp [hm]

/-- The channels of an instance, as a range (R73). -/
theorem mem_channelsOf (p : Params) (t n : Nat) :
    n ∈ channelsOf p t ↔ base p t ≤ n ∧ n < base p t + (p.timer t).nch := by
  unfold channelsOf
  rw [List.mem_map]
  constructor
  · rintro ⟨c, hc, rfl⟩
    rw [List.mem_range] at hc; omega
  · rintro ⟨h1, h2⟩
    exact ⟨n - base p t, by rw [List.mem_range]; omega, by omega⟩

/-- A shadow commit changes channels only. -/
theorem commitAll_same (ns : List Nat) (s : State) :
    sameInputs s (s.commitAll ns) ∧ sameCalls s (s.commitAll ns) ∧ sameGlb s (s.commitAll ns) ∧
    sameTim s (s.commitAll ns) ∧ sameCfg s (s.commitAll ns) ∧ sameLeg s (s.commitAll ns) ∧
    sameInv s (s.commitAll ns) ∧ samePsfb s (s.commitAll ns) ∧ sameVf s (s.commitAll ns) ∧
    samePort s (s.commitAll ns) := by
  induction ns generalizing s with
  | nil =>
    exact ⟨⟨rfl, rfl, rfl, rfl⟩, ⟨rfl, rfl⟩, ⟨rfl, rfl⟩, fun _ => rfl, fun _ => rfl, fun _ => rfl,
      fun _ => rfl, fun _ => rfl, fun _ => rfl, ⟨rfl, rfl, rfl, rfl, rfl, rfl⟩⟩
  | cons m ms ih => exact ih (s.commitChannel m)

end Sys2Proof.Machine
end

