-- ==== Sys2Proof/Laws/Events.lean ====
section
/-! SUPPORT. The period event, case by case (41_pwm_driver.md rule R172). -/

namespace Sys2Proof.Machine

/-- A shadow commit changes channels only. -/
theorem commit_same (s : State) (u : Nat) :
    sameInputs s (s.commit u) ∧ sameCalls s (s.commit u) ∧ sameGlb s (s.commit u) ∧
    sameTim s (s.commit u) ∧ sameCfg s (s.commit u) ∧ sameLeg s (s.commit u) ∧
    sameInv s (s.commit u) ∧ samePsfb s (s.commit u) ∧ sameVf s (s.commit u) ∧
    samePort s (s.commit u) := commitAll_same _ s

/-- The channels that a shadow commit writes: the logical numbers bound to the instance (R73). -/
theorem commit_chAt (s : State) {u : Nat} (hu : u ≤ 1) (n : Nat) :
    (s.commit u).chAt n =
      if 1 ≤ n ∧ n ≤ s.params.npwm ∧ instOf s.params n = u then
        { s.chAt n with cmpa := (s.chAt n).cmps }
      else s.chAt n := by
  unfold State.commit
  rw [commitAll_chAt]
  have e : n ∈ channelsOf s.params u ↔
      1 ≤ n ∧ n ≤ s.params.npwm ∧ instOf s.params n = u := by
    rw [mem_channelsOf]
    unfold base instOf Params.timer Params.npwm
    rcases Nat.le_one_iff_eq_zero_or_eq_one.mp hu with rfl | rfl
    · simp only [if_true]
      split <;> omega
    · simp only [Nat.one_ne_zero, if_false]
      split <;> omega
  by_cases h : n ∈ channelsOf s.params u
  · rw [if_pos h, if_pos (e.mp h)]
  · rw [if_neg h, if_neg fun x => h (e.mpr x)]

theorem perElapsed_idle {s : State} {u : Nat} (h : s.halted = true ∨ (s.timAt u).init = false) :
    perElapsed u s = .next s := by
  unfold perElapsed
  rw [if_pos h]

theorem perElapsed_active {s : State} {u : Nat} (h : s.halted = false)
    (hi : (s.timAt u).init = true) : perElapsed u s = runCallback u (s.commit u) := by
  unfold perElapsed
  rw [if_neg (by simp [h, hi])]

/-- What an active period event does, by its callback slot (R172). -/
theorem perElapsed_callback {s : State} {u : Nat} (h : s.halted = false)
    (hi : (s.timAt u).init = true) :
    ((s.timAt u).cb = 0 → perElapsed u s = .next (s.commit u)) ∧
    ((s.timAt u).cb ≠ 0 → (s.timAt u).cb.toNat ≤ s.params.nvf →
      perElapsed u s = .next (rampStep ((s.timAt u).cb.toNat - 1) (s.commit u)).state) ∧
    (s.params.nvf < (s.timAt u).cb.toNat → s.callNo ∉ s.env.callbackHangs →
      perElapsed u s = .next ((s.commit u).emit (.callback u (s.timAt u).cb))) ∧
    (s.params.nvf < (s.timAt u).cb.toNat → s.callNo ∈ s.env.callbackHangs →
      perElapsed u s = .fault (.callbackNeverReturned u (s.timAt u).cb)) := by
  obtain ⟨a, b, -, d, -⟩ := commit_same s u
  rw [perElapsed_active h hi]
  unfold runCallback externalCallback
  simp only [d u, a.1, a.2.1, b.2]
  have hz : ∀ c : Byte, c = 0 → c.toNat = 0 := fun c e => by rw [e]; rfl
  refine ⟨fun h0 => by rw [if_pos h0], fun h0 h1 => by rw [if_neg h0, if_pos h1],
    fun h1 h2 => ?_, fun h1 h2 => ?_⟩
  all_goals
    rw [if_neg fun e => by have := hz _ e; omega, if_neg (by omega)]
    simp [h2]

end Sys2Proof.Machine
end

