-- ==== Sys2Proof/Laws/RegAccess.lean ====
section
/-! SUPPORT. Register access: which writes land, and that a write that lands changes one cell
(45_register_access.md). -/

namespace Sys2Proof.Machine

theorem flagValue_of {v : NUM} (h : isFlag v) : ∃ b, flagValue v = some b ∧
    NUM.rat (flagCode b) = v := by
  rcases h with rfl | rfl
  · exact ⟨false, by simp [flagValue], by simp [flagCode]⟩
  · exact ⟨true, by simp [flagValue], by simp [flagCode]⟩

theorem flagValue_none {v : NUM} (h : ¬ isFlag v) : flagValue v = none := by
  unfold isFlag at h
  unfold flagValue
  rw [if_neg fun e => h (.inl e), if_neg fun e => h (.inr e)]

theorem byteValue_of {v : NUM} (h : isByte v) : ∃ b, byteValue v = some b ∧
    NUM.rat b.toNat = v := by
  obtain ⟨n, hn, rfl⟩ := h
  refine ⟨BitVec.ofNat 8 n, ?_, ?_⟩
  · have hc : ((n : Ratio).den = 1 ∧ 0 ≤ (n : Ratio).num ∧ (n : Ratio).num < 256) := by
      refine ⟨rfl, ?_, ?_⟩ <;> rw [Rat.num_natCast] <;> omega
    simp only [byteValue]
    rw [if_pos hc, Rat.num_natCast, Int.toNat_natCast]
  · rw [BitVec.toNat_ofNat, Nat.mod_eq_of_lt (by omega)]

theorem byteValue_none {v : NUM} (h : ¬ isByte v) : byteValue v = none := by
  cases v with
  | tau f => rfl
  | rat q =>
    simp only [byteValue]
    rw [if_neg]
    rintro ⟨h1, h2, h3⟩
    refine h ⟨q.num.toNat, by omega, ?_⟩
    have e : ((q.num.toNat : Int) : Rat) = q := by
      rw [Int.toNat_of_nonneg h2]; exact Rat.coe_int_num_of_den_eq_one h1
    exact congrArg NUM.rat e.symm

theorem putIf_some {α β : Type} {v : Option β} {b : β} (f : β → α) (h : v = some b) :
    putIf v f = .ok (f b) := by rw [h]; rfl

theorem ofFlag_code (b : Bool) : (Align.ofFlag b).code = flagCode b ∧
    (DutyMode.ofFlag b).code = flagCode b ∧ (LegType.ofFlag b).code = flagCode b ∧
    (Activity.ofFlag b).code = flagCode b ∧ directionCode (directionOfFlag b) = flagCode b := by
  cases b <;> decide

/-- A write to a slot's field (R291). -/
theorem cfgWith_ok {r : Slot} {v : NUM} {f : CfgField} {sl : Nat}
    (h : (Cell.cfg sl f).accepts v) :
    ∃ r', cfgWith r v f = .ok r' ∧ (cfgValue r' f).number = v ∧
      ∀ g, g ≠ f → cfgValue r' g = cfgValue r g := by
  cases f
  case align | dtEn | bal | dutyMode =>
    obtain ⟨b, h1, h2⟩ := flagValue_of h
    refine ⟨_, putIf_some _ h1, ?_, fun g hg => ?_⟩
    · simpa [cfgValue, CellValue.number, ofFlag_code] using h2
    · cases g <;> first | rfl | exact absurd rfl hg
  all_goals
    refine ⟨_, rfl, rfl, fun g hg => ?_⟩
    cases g <;> first | rfl | exact absurd rfl hg

/-- A write to a leg's field (R291). -/
theorem legWith_ok {r : Leg} {v : NUM} {f : LegField} {l : Nat} (h : (Cell.leg l f).accepts v) :
    ∃ r', legWith r v f = .ok r' ∧ (legValue r' f).number = v ∧
      ∀ g, g ≠ f → legValue r' g = legValue r g := by
  cases f
  case state | cap => exact absurd h id
  case kind =>
    obtain ⟨b, h1, h2⟩ := flagValue_of h
    refine ⟨_, putIf_some _ h1, ?_, fun g hg => ?_⟩
    · simpa [legValue, CellValue.number, ofFlag_code] using h2
    · cases g <;> first | rfl | exact absurd rfl hg
  all_goals
    obtain ⟨b, h1, h2⟩ := byteValue_of h
    refine ⟨_, putIf_some _ h1, h2, fun g hg => ?_⟩
    cases g <;> first | rfl | exact absurd rfl hg

/-- A write to an inverter's field (R291). -/
theorem invWith_ok {r : Inv} {v : NUM} {f : InvField} {i : Nat} (h : (Cell.inv i f).accepts v) :
    ∃ r', invWith r v f = .ok r' ∧ (invValue r' f).number = v ∧
      ∀ g, g ≠ f → invValue r' g = invValue r g := by
  cases f
  case state | init | dup => exact absurd h id
  case dupEn =>
    obtain ⟨b, h1, h2⟩ := flagValue_of h
    refine ⟨_, putIf_some _ h1, ?_, fun g hg => ?_⟩
    · simpa [invValue, CellValue.number] using h2
    · cases g <;> first | rfl | exact absurd rfl hg
  all_goals
    obtain ⟨b, h1, h2⟩ := byteValue_of h
    refine ⟨_, putIf_some _ h1, h2, fun g hg => ?_⟩
    cases g <;> first | rfl | exact absurd rfl hg

/-- A write to a controller's field (R291). -/
theorem vfWith_ok {r : Vf} {v : NUM} {f : VfField} {k : Nat} (h : (Cell.vf k f).accepts v) :
    ∃ r', vfWith r v f = .ok r' ∧ (vfValue r' f).number = v ∧
      ∀ g, g ≠ f → vfValue r' g = vfValue r g := by
  cases f
  case init | curFreq | curState | curDir | theta => exact absurd h id
  case reqState | reqDir =>
    obtain ⟨b, h1, h2⟩ := flagValue_of h
    refine ⟨_, putIf_some _ h1, ?_, fun g hg => ?_⟩
    · simpa [vfValue, CellValue.number, ofFlag_code] using h2
    · cases g <;> first | rfl | exact absurd rfl hg
  case inv =>
    obtain ⟨b, h1, h2⟩ := byteValue_of h
    refine ⟨_, putIf_some _ h1, h2, fun g hg => ?_⟩
    cases g <;> first | rfl | exact absurd rfl hg
  all_goals
    refine ⟨_, rfl, rfl, fun g hg => ?_⟩
    cases g <;> first | rfl | exact absurd rfl hg

/-- A legal write replaces the one cell; every other cell of the register file keeps its value
(R291, R292). -/
theorem memWrite_ok {s : State} {c : Cell} {v : NUM} (h : c.accepts v) :
    ∃ t, memWrite v s c = .ok () t ∧ (memRead t c).number = v ∧
      (∀ c', c' ≠ c → memRead t c' = memRead s c') ∧ sameInputs s t ∧ sameCalls s t := by
  cases c with
  | glb _ | tim _ _ | ch _ _ | psfb _ _ => exact absurd h id
  | cfg m f =>
    obtain ⟨r, h1, h2, h3⟩ := cfgWith_ok (r := s.cfgAt m) h
    refine ⟨s.setCfg m r, by simp only [memWrite]; rw [h1]; rfl, ?_, ?_, ⟨rfl, rfl, rfl, rfl⟩, ⟨rfl, rfl⟩⟩
    · simp only [memRead]; rw [State.cfgAt_setCfg_same]; exact h2
    · intro c' hc
      cases c' with
      | cfg m' f' =>
        by_cases hm : m' = m
        · subst hm
          simp only [memRead]; rw [State.cfgAt_setCfg_same]; exact h3 f' fun e => hc (by rw [e])
        · simp only [memRead]; rw [State.cfgAt_setCfg_other _ _ _ _ hm]
      | glb f' => cases f' <;> rfl
      | _ => rfl
  | leg m f =>
    obtain ⟨r, h1, h2, h3⟩ := legWith_ok (r := s.legAt m) h
    refine ⟨s.setLeg m r, by simp only [memWrite]; rw [h1]; rfl, ?_, ?_, ⟨rfl, rfl, rfl, rfl⟩, ⟨rfl, rfl⟩⟩
    · simp only [memRead]; rw [State.legAt_setLeg_same]; exact h2
    · intro c' hc
      cases c' with
      | leg m' f' =>
        by_cases hm : m' = m
        · subst hm
          simp only [memRead]; rw [State.legAt_setLeg_same]; exact h3 f' fun e => hc (by rw [e])
        · simp only [memRead]; rw [State.legAt_setLeg_other _ _ _ _ hm]
      | glb f' => cases f' <;> rfl
      | _ => rfl
  | inv m f =>
    obtain ⟨r, h1, h2, h3⟩ := invWith_ok (r := s.invAt m) h
    refine ⟨s.setInv m r, by simp only [memWrite]; rw [h1]; rfl, ?_, ?_, ⟨rfl, rfl, rfl, rfl⟩, ⟨rfl, rfl⟩⟩
    · simp only [memRead]; rw [State.invAt_setInv_same]; exact h2
    · intro c' hc
      cases c' with
      | inv m' f' =>
        by_cases hm : m' = m
        · subst hm
          simp only [memRead]; rw [State.invAt_setInv_same]; exact h3 f' fun e => hc (by rw [e])
        · simp only [memRead]; rw [State.invAt_setInv_other _ _ _ _ hm]
      | glb f' => cases f' <;> rfl
      | _ => rfl
  | vf m f =>
    obtain ⟨r, h1, h2, h3⟩ := vfWith_ok (r := s.vfAt m) h
    refine ⟨s.setVf m r, by simp only [memWrite]; rw [h1]; rfl, ?_, ?_, ⟨rfl, rfl, rfl, rfl⟩, ⟨rfl, rfl⟩⟩
    · simp only [memRead]; rw [State.vfAt_setVf_same]; exact h2
    · intro c' hc
      cases c' with
      | vf m' f' =>
        by_cases hm : m' = m
        · subst hm
          simp only [memRead]; rw [State.vfAt_setVf_same]; exact h3 f' fun e => hc (by rw [e])
        · simp only [memRead]; rw [State.vfAt_setVf_other _ _ _ _ hm]
      | glb f' => cases f' <;> rfl
      | _ => rfl

theorem putIf_none {α β : Type} {v : Option β} (f : β → α) (h : v = none) :
    putIf v f = .error .errValue := by rw [h]; rfl

/-- A write to a read-only field raises `ERR_RO`; to a writable one with a value it does not accept,
`ERR_VALUE` (R291). -/
theorem memWrite_err {s : State} {c : Cell} {v : NUM} :
    (c.writable = false → memWrite v s c = .err .errRo s) ∧
    (c.writable = true → ¬ c.accepts v → memWrite v s c = .err .errValue s) := by
  refine ⟨fun h => ?_, fun h hn => ?_⟩
  · cases c with
    | glb _ | tim _ _ | ch _ _ | psfb _ _ => rfl
    | cfg _ _ => cases h
    | leg _ f => cases f <;> first | rfl | cases h
    | inv _ f => cases f <;> first | rfl | cases h
    | vf _ f => cases f <;> first | rfl | cases h
  · cases c with
    | glb _ | tim _ _ | ch _ _ | psfb _ _ => cases h
    | cfg _ f =>
      cases f
      case align | dtEn | bal | dutyMode =>
        simp only [memWrite, cfgWith, putIf_none _ (flagValue_none hn), landIn]
      all_goals exact absurd trivial hn
    | leg _ f =>
      cases f
      case state | cap => cases h
      case kind => simp only [memWrite, legWith, putIf_none _ (flagValue_none hn), landIn]
      all_goals simp only [memWrite, legWith, putIf_none _ (byteValue_none hn), landIn]
    | inv _ f =>
      cases f
      case state | init | dup => cases h
      case dupEn => simp only [memWrite, invWith, putIf_none _ (flagValue_none hn), landIn]
      all_goals simp only [memWrite, invWith, putIf_none _ (byteValue_none hn), landIn]
    | vf _ f =>
      cases f
      case init | curFreq | curState | curDir | theta => cases h
      case reqState | reqDir =>
        simp only [memWrite, vfWith, putIf_none _ (flagValue_none hn), landIn]
      case inv => simp only [memWrite, vfWith, putIf_none _ (byteValue_none hn), landIn]
      all_goals exact absurd trivial hn

end Sys2Proof.Machine
end

