-- ==== Sys2Proof/Laws/Status.lean ====
section
/-! SUPPORT. A command ends with `OK` exactly when its operation completes: no operation raises `OK`
(60_exceptions.md rule R300). -/

namespace Sys2Proof.Machine

variable {α β : Type}

/-- An operation that raises raises a status other than `OK` (R300). -/
def Sound (r : Done α) : Prop := ∀ t, r ≠ .err .ok t

theorem sound_ok (a : α) (s : State) : Sound (.ok a s) := fun _ h => by cases h

theorem sound_err {e : Status} (h : e ≠ .ok) (s : State) : Sound (.err e s : Done α) :=
  fun _ he => by cases he; exact h rfl

theorem Sound.andThen {r : Done α} {k : α → State → Done β} (h : Sound r)
    (hk : ∀ a t, Sound (k a t)) : Sound (r.andThen k) := by
  cases r with
  | ok a t => exact hk a t
  | err e t => exact sound_err (fun he => h t (by rw [he])) t

theorem sound_forUnits {f : Nat → State → Done Unit} (hf : ∀ l s, Sound (f l s)) (ls : List Nat)
    (s : State) : Sound (forUnits f ls s) := by
  induction ls generalizing s with
  | nil => exact sound_ok _ _
  | cons l ls ih => exact (hf l s).andThen fun _ t => ih t

theorem sound_timerCall (c : ExtCall) (s : State) : Sound (timerCall c s) := by
  rcases timerCall_cases c s with ⟨-, h⟩ | ⟨-, h⟩ <;> rw [h]
  · exact sound_err (by decide) _
  · exact sound_ok _ _

theorem sound_timerInit (t sl : Nat) (s : State) : Sound (timerInit t sl s) := by
  unfold timerInit
  split
  · exact sound_err (by decide) _
  split
  · exact sound_ok _ _
  simp only
  split
  · next e h => exact sound_err (by rcases timingOf_err h with rfl | rfl <;> decide) _
  · exact Sound.andThen ((sound_timerCall _ _).andThen fun _ _ => (sound_timerCall _ _).andThen
      fun _ _ => (sound_timerCall _ _).andThen fun _ _ => sound_timerCall _ _) fun _ _ => sound_ok _ _

theorem sound_configPair (n sl : Nat) (s : State) : Sound (configPair n sl s) := by
  unfold configPair
  split_ifs
  all_goals first | exact sound_err (by decide) _ | skip
  exact (sound_timerInit _ _ _).andThen fun _ _ => sound_ok _ _

theorem sound_configChannel (n sl : Nat) (s : State) : Sound (configChannel n sl s) := by
  unfold configChannel
  split_ifs
  all_goals first | exact sound_err (by decide) _ | skip
  exact (sound_timerInit _ _ _).andThen fun _ _ => sound_ok _ _

theorem sound_updatePair (n sl : Nat) (d : NUM) (s : State) : Sound (updatePair n sl d s) := by
  unfold updatePair
  simp only
  split_ifs
  all_goals first | exact sound_err (by decide) _ | skip
  split
  · exact sound_err (by decide) _
  · exact sound_ok _ _

theorem sound_updateChannel (n sl : Nat) (d : NUM) (s : State) : Sound (updateChannel n sl d s) := by
  unfold updateChannel
  simp only
  split_ifs
  all_goals first | exact sound_err (by decide) _ | skip
  split
  · exact sound_err (by decide) _
  · exact sound_ok _ _

theorem sound_configLeg (l : Nat) (s : State) : Sound (configLeg l s) := by
  unfold configLeg
  split
  · exact sound_err (by decide) _
  simp only
  split
  · exact (sound_configPair _ _ _).andThen fun _ _ => sound_ok _ _
  · split_ifs
    all_goals first | exact sound_err (by decide) _ | skip
    exact (sound_configPair _ _ _).andThen fun _ _ => (sound_configPair _ _ _).andThen
      fun _ _ => sound_ok _ _

theorem sound_capabilityUpdate (l : Nat) (d : NUM) (s : State) :
    Sound (capabilityUpdate l d s) := by
  unfold capabilityUpdate
  split
  · exact sound_err (by decide) _
  split
  · exact sound_err (by decide) _
  · exact sound_updatePair _ _ _ _
  · exact (sound_updatePair _ _ _ _).andThen fun _ _ => (sound_updatePair _ _ _ _).andThen
      fun _ _ => sound_ok _ _
  · exact sound_err (by decide) _

theorem sound_enableLeg (l : Nat) (e : Bool) (s : State) : Sound (enableLeg l e s) := by
  unfold enableLeg
  simp only
  split_ifs
  all_goals first | exact sound_err (by decide) _ | skip
  exact sound_ok _ _

theorem sound_startLeg (l : Nat) (s : State) : Sound (startLeg l s) :=
  (sound_configLeg _ _).andThen fun _ _ => (sound_capabilityUpdate _ _ _).andThen
    fun _ _ => sound_ok _ _

theorem sound_inverterEnable (i : Nat) (e : Bool) (s : State) : Sound (inverterEnable i e s) :=
  (sound_forUnits (fun l s => sound_enableLeg l e s) _ _).andThen fun _ _ => sound_ok _ _

theorem sound_psfbEnable (j : Nat) (e : Bool) (s : State) : Sound (psfbEnable j e s) :=
  (sound_forUnits (fun l s => sound_enableLeg l e s) _ _).andThen fun _ _ => sound_ok _ _

theorem validateLegs_raises {s : State} {ls : List Nat} {e : Status}
    (h : validateLegs s ls = some e) : e = .errPinRange ∨ e = .errPinParity := by
  induction ls with
  | nil => cases h
  | cons l ls ih =>
    unfold validateLegs at h
    simp only at h
    split_ifs at h
    · cases h; exact .inl rfl
    · cases h; exact .inr rfl
    · exact ih h

theorem validateInv_raises {i : Nat} {ls : List Nat} {s : State} {e : Status}
    (h : validateInv i ls s = some e) :
    e = .errPinRange ∨ e = .errPinParity ∨ e = .errValue := by
  unfold validateInv at h
  split at h
  · next x hx =>
    cases h
    rcases validateLegs_raises hx with h | h
    · exact .inl h
    · exact .inr (.inl h)
  · simp only at h
    split_ifs at h
    cases h; exact .inr (.inr rfl)

theorem psfbPinCheck_raises {s : State} {ls : List Nat} {e : Status}
    (h : psfbPinCheck s ls = some e) : e = .errPinRange ∨ e = .errPinParity := by
  induction ls with
  | nil => cases h
  | cons l ls ih =>
    unfold psfbPinCheck at h
    simp only at h
    split_ifs at h
    · cases h; exact .inl rfl
    · cases h; exact .inr rfl
    · exact ih h

theorem sound_inverterInit (i : Nat) (s : State) : Sound (inverterInit i s) := by
  unfold inverterInit
  split
  · exact sound_err (by decide) _
  simp only
  split
  · next e h => exact sound_err (by rcases validateInv_raises h with rfl | rfl | rfl <;> decide) _
  · exact (sound_forUnits sound_startLeg _ _).andThen fun _ _ =>
      (sound_inverterEnable _ _ _).andThen fun _ _ => sound_ok _ _

theorem sound_inverterUpdate (i : Nat) (d0 d1 d2 : NUM) (s : State) :
    Sound (inverterUpdate i d0 d1 d2 s) := by
  unfold inverterUpdate
  split
  · exact sound_err (by decide) _
  split
  · exact sound_err (by decide) _
  refine (sound_capabilityUpdate _ _ _).andThen fun _ _ => (sound_capabilityUpdate _ _ _).andThen
    fun _ _ => (sound_capabilityUpdate _ _ _).andThen fun _ _ => Sound.andThen ?_
    fun _ _ => sound_ok _ _
  unfold duplicateUpdate
  split
  · exact sound_capabilityUpdate _ _ _
  · exact sound_ok _ _

theorem sound_inverterSpwm (i : Nat) (dir : Direction) (theta mi : NUM) (s : State) :
    Sound (inverterSpwm i dir theta mi s) := by
  unfold inverterSpwm
  split
  · exact sound_err (by decide) _
  split
  · exact sound_err (by decide) _
  exact sound_inverterUpdate _ _ _ _ _

theorem sound_inverterActivate (i : Nat) (e : Bool) (s : State) :
    Sound (inverterActivate i e s) := by
  unfold inverterActivate
  split
  · exact sound_err (by decide) _
  split
  · exact sound_err (by decide) _
  exact sound_inverterEnable _ _ _

theorem sound_psfbInit (j : Nat) (s : State) : Sound (psfbInit j s) := by
  unfold psfbInit
  split
  · exact sound_err (by decide) _
  simp only
  split
  · next e h => exact sound_err (by rcases psfbPinCheck_raises h with rfl | rfl <;> decide) _
  split
  · exact sound_err (by decide) _
  exact (sound_forUnits sound_startLeg _ _).andThen fun _ _ =>
    (sound_psfbEnable _ _ _).andThen fun _ _ => sound_ok _ _

theorem sound_psfbActivate (j : Nat) (e : Bool) (s : State) : Sound (psfbActivate j e s) := by
  unfold psfbActivate
  split
  · exact sound_err (by decide) _
  split
  · exact sound_err (by decide) _
  exact sound_psfbEnable _ _ _

theorem sound_rampArbitrate (k i : Nat) (a : NUM) (s : State) : Sound (rampArbitrate k i a s) := by
  unfold rampArbitrate rampActivation
  simp only
  split_ifs
  · exact (sound_inverterActivate _ _ _).andThen fun _ _ => sound_ok _ _
  all_goals exact sound_ok _ _

theorem sound_rampStep (k : Nat) (s : State) : Sound (rampStep k s) := by
  unfold rampStep
  simp only
  split_ifs
  all_goals first | exact sound_err (by decide) _ | skip
  exact (sound_rampArbitrate _ _ _ _).andThen fun _ _ =>
    (sound_inverterSpwm _ _ _ _ _).andThen fun _ _ => sound_ok _ _

theorem sound_withArg0 {op : NUM → State → Done Results} {s : State}
    (h : ∀ a, Sound (op a s)) : Sound (withArg0 op s) := by
  rcases withArg0_cases op s with ⟨-, e⟩ | ⟨a, -, e⟩ <;> rw [e]
  · exact sound_err (by decide) _
  · exact h a

theorem sound_memWrite (v : NUM) (s : State) (c : Cell) : Sound (memWrite v s c) := by
  obtain ⟨h1, h2⟩ := memWrite_err (s := s) (c := c) (v := v)
  cases hw : c.writable with
  | false => rw [h1 hw]; exact sound_err (by decide) _
  | true =>
    by_cases ha : c.accepts v
    · obtain ⟨t, ht, -⟩ := memWrite_ok (s := s) ha
      rw [ht]; exact sound_ok _ _
    · rw [h2 hw ha]; exact sound_err (by decide) _

/-- A command's operation that raises raises a status other than `OK` (R300): `STATUS` is `OK` exactly
when the operation completes. -/
theorem sound_opOf (i : Instr) (s : State) : Sound (opOf i s) := by
  have fin : ∀ {α : Type} {r : Done α} {f : α → Results}, Sound r →
      Sound (r.andThen fun a s => .ok (f a) s) := fun h => h.andThen fun _ _ => sound_ok _ _
  cases i <;> simp only [opOf]
  case wrf addr =>
    refine sound_withArg0 fun v => ?_
    unfold writeField
    split
    · exact sound_err (by decide) _
    · exact fin (sound_memWrite _ _ _)
  case rdf addr =>
    unfold readField
    split
    · exact sound_err (by decide) _
    · exact sound_ok _ _
  case dtenc =>
    rcases withArgs_cases encodeDeadTime s with ⟨-, e⟩ | ⟨a, b, c, -, -, -, e⟩ <;> rw [e]
    · exact sound_err (by decide) _
    · unfold encodeDeadTime
      split
      · exact sound_err (by decide) _
      · split
        · exact sound_err (by decide) _
        · exact sound_ok _ _
  case tinit => exact fin (sound_timerInit _ _ _)
  case cfgpair => exact fin (sound_configPair _ _ _)
  case cfgch => exact fin (sound_configChannel _ _ _)
  case updpair => exact sound_withArg0 fun v => fin (sound_updatePair _ _ _ _)
  case updch => exact sound_withArg0 fun v => fin (sound_updateChannel _ _ _ _)
  case cfgirq t cb prio e =>
    refine fin ?_
    unfold configIrq
    split_ifs
    all_goals first | exact sound_ok _ _ | exact sound_err (by decide) _
  case cfgleg => exact (sound_configLeg _ _).andThen fun _ _ => sound_ok _ _
  case enleg => exact fin (sound_enableLeg _ _ _)
  case capupd => exact sound_withArg0 fun v => fin (sound_capabilityUpdate _ _ _)
  case invinit => exact fin (sound_inverterInit _ _)
  case invupd u =>
    rcases withArgs_cases (fun d0 d1 d2 s => dutiesResult (inverterUpdate u d0 d1 d2 s)) s with
      ⟨-, e⟩ | ⟨a, b, c, -, -, -, e⟩ <;> rw [e]
    · exact sound_err (by decide) _
    · exact fin (sound_inverterUpdate _ _ _ _ _)
  case invspwm u dir =>
    rcases withArg01_cases (fun theta mi s => dutiesResult (inverterSpwm u dir theta mi s)) s with
      ⟨-, e⟩ | ⟨a, b, -, -, e⟩ <;> rw [e]
    · exact sound_err (by decide) _
    · exact fin (sound_inverterSpwm _ _ _ _ _)
  case invact => exact fin (sound_inverterActivate _ _ _)
  case psfbinit => exact fin (sound_psfbInit _ _)
  case psfbupd j =>
    refine sound_withArg0 fun v => fin ?_
    unfold psfbUpdate
    split_ifs
    all_goals first | exact sound_ok _ _ | exact sound_err (by decide) _
  case psfbact => exact fin (sound_psfbActivate _ _ _)
  case vfinit k =>
    refine fin ?_
    unfold rampInit
    simp only
    split_ifs
    all_goals first | exact sound_ok _ _ | exact sound_err (by decide) _
  case vfstep => exact sound_rampStep _ _

end Sys2Proof.Machine
end

