-- ==== Sys2Proof/Laws/Halt.lean ====
section
/-! SUPPORT. When a command halts CORE (60_exceptions.md rules R305, R309, R322): only a timer-base call
answered `fail` does, and it is then the last call made. -/

namespace Sys2Proof.Machine

variable {α β : Type}

/-- The calls made since were all answered, and none with `fail`. -/
def noFail (s t : State) : Prop := ∃ new, t.ext = s.ext ++ new ∧ ∀ x ∈ new, x.answer ≠ .fail

/-- CORE goes on: still as it was, no call failed. -/
def goesOn (s t : State) : Prop := t.halted = s.halted ∧ noFail s t

/-- CORE has just been halted by a failed call. -/
def justHalted (s t : State) : Prop :=
  t.halted = true ∧ ∃ c older, t.ext = older ++ [⟨c, .fail⟩] ∧ s.ext.length ≤ older.length

/-- An operation either goes on, with any status but `FATAL_HWINIT`, or halts with that one. -/
def Tame (s : State) : Done α → Prop
  | .ok _ t => goesOn s t
  | .err e t => (e ≠ .fatalHwinit ∧ goesOn s t) ∨ (e = .fatalHwinit ∧ justHalted s t)

theorem noFail_refl (s : State) : noFail s s := ⟨[], by simp, by simp⟩

theorem goesOn_refl (s : State) : goesOn s s := ⟨rfl, noFail_refl s⟩

theorem goesOn.trans {s t u : State} (h : goesOn s t) (g : goesOn t u) : goesOn s u := by
  obtain ⟨h1, n, h2, h3⟩ := h
  obtain ⟨g1, m, g2, g3⟩ := g
  refine ⟨g1.trans h1, n ++ m, by rw [g2, h2, List.append_assoc], fun x hx => ?_⟩
  rcases List.mem_append.mp hx with hx | hx
  · exact h3 x hx
  · exact g3 x hx

/-- An update without calls goes on. -/
theorem goesOn_of_same {s t : State} (h1 : t.halted = s.halted) (h2 : t.ext = s.ext) :
    goesOn s t := ⟨h1, [], by simp [h2], by simp⟩

theorem goesOn_record (s : State) (c : ExtCall) {a : ExtAnswer} (ha : a ≠ .fail) :
    goesOn s (s.record c a) :=
  ⟨rfl, [⟨c, a⟩], rfl, fun x hx => by rw [List.mem_singleton] at hx; subst hx; exact ha⟩

theorem goesOn_emits (s : State) (cs : List ExtCall) : goesOn s (s.emits cs) := by
  induction cs generalizing s with
  | nil => exact goesOn_refl s
  | cons c cs ih => exact (goesOn_record s c (a := .ok) (by decide)).trans (ih _)

theorem Tame.andThen {s : State} {r : Done α} {k : α → State → Done β} (h : Tame s r)
    (hk : ∀ a t, r = .ok a t → Tame t (k a t)) : Tame s (r.andThen k) := by
  cases r with
  | err e t => exact h
  | ok a t =>
    have g := hk a t rfl
    simp only [Done.andThen_ok]
    cases hx : k a t with
    | ok b u => rw [hx] at g; exact goesOn.trans h g
    | err e u =>
      rw [hx] at g
      rcases g with ⟨g1, g2⟩ | ⟨g1, g2, c, older, g3, g4⟩
      · exact .inl ⟨g1, goesOn.trans h g2⟩
      · refine .inr ⟨g1, g2, c, older, g3, ?_⟩
        obtain ⟨-, n, h2, -⟩ := h
        rw [h2, List.length_append] at g4
        omega

theorem Tame.of_goesOn {s t : State} {r : Done α} (h : goesOn s t) (g : Tame t r) : Tame s r := by
  have := Tame.andThen (s := s) (r := .ok () t) (k := fun _ _ => r) h fun _ u hu => by
    cases hu; exact g
  simpa using this

theorem tame_forUnits {f : Nat → State → Done Unit} (hf : ∀ l s, Tame s (f l s)) (ls : List Nat)
    (s : State) : Tame s (forUnits f ls s) := by
  induction ls generalizing s with
  | nil => exact goesOn_refl s
  | cons l ls ih => exact (hf l s).andThen fun _ t _ => ih t

theorem tame_err {s : State} {e : Status} (h : e ≠ .fatalHwinit) : Tame s (.err e s : Done α) :=
  .inl ⟨h, goesOn_refl s⟩

/-- An operation that is refused without effect or halts, and else goes on. -/
theorem tame_of_spec {s : State} {r : Done α} (ho : ∀ a t, r = .ok a t → goesOn s t)
    (he : ∀ e t, r = .err e t → (e ≠ .fatalHwinit ∧ t = s) ∨
      (e = .fatalHwinit ∧ ∃ cs c, t = ((s.emits cs).record c .fail).halt)) : Tame s r := by
  cases hr : r with
  | ok a t => exact ho a t hr
  | err e t =>
    rcases he e t hr with ⟨h, rfl⟩ | ⟨h, cs, c, rfl⟩
    · exact tame_err h
    · refine .inr ⟨h, rfl, c, (s.emits cs).ext, rfl, ?_⟩
      rw [State.emits_eq]; simp

theorem goesOn_calledOk {s t : State} {cs : List ExtCall} (h : t.halted = s.halted)
    (hc : calledOk s t cs) : goesOn s t := by
  refine ⟨h, _, hc.1, fun x hx => ?_⟩
  obtain ⟨c, -, rfl⟩ := List.mem_map.mp hx
  exact (by decide : ExtAnswer.ok ≠ .fail)

theorem tame_timerInit (t sl : Nat) (s : State) : Tame s (timerInit t sl s) := by
  obtain ⟨h1, h2⟩ := timerInit_spec t sl s
  refine tame_of_spec (fun a u hu => ?_) h2
  obtain ⟨-, -, -, rfl⟩ := h1 u hu
  exact goesOn_calledOk (by simp) (s.calledOk_lazyInit t sl)

theorem tame_configPair (n sl : Nat) (s : State) : Tame s (configPair n sl s) := by
  obtain ⟨h1, h2⟩ := configPair_spec n sl s
  refine tame_of_spec (fun a u hu => ?_) h2
  obtain ⟨-, -, -, -, -, rfl⟩ := h1 u hu
  exact goesOn_calledOk (by simp) (s.calledOk_afterPair n sl)

theorem tame_configChannel (n sl : Nat) (s : State) : Tame s (configChannel n sl s) := by
  obtain ⟨h1, h2⟩ := configChannel_spec n sl s
  refine tame_of_spec (fun a u hu => ?_) h2
  obtain ⟨-, -, -, -, rfl⟩ := h1 u hu
  exact goesOn_calledOk (by simp) (s.calledOk_afterChannel n sl)

theorem tame_updatePair (n sl : Nat) (d : NUM) (s : State) : Tame s (updatePair n sl d s) := by
  obtain ⟨h1, h2⟩ := updatePair_spec n sl d s
  by_cases h : s.pairAccepts n sl d
  · rw [h1 h]; exact goesOn_of_same (by simp) (by simp)
  · obtain ⟨e, he, hr⟩ := h2 h
    rw [hr]; exact tame_err he

theorem tame_updateChannel (n sl : Nat) (d : NUM) (s : State) :
    Tame s (updateChannel n sl d s) := by
  obtain ⟨h1, h2⟩ := updateChannel_spec n sl d s
  by_cases h : s.channelAccepts n sl d
  · rw [h1 h]; exact goesOn_of_same rfl rfl
  · obtain ⟨e, he, hr⟩ := h2 h
    rw [hr]; exact tame_err he

theorem tame_configIrq (t : Nat) (cb : Byte) (prio : Nibble) (e : Bool) (s : State) :
    Tame s (configIrq t cb prio e s) := by
  unfold configIrq
  split
  · exact tame_err (by decide)
  · split
    · split
      · exact goesOn_refl s
      · split
        · exact tame_err (by decide)
        · exact (goesOn_of_same rfl rfl).trans (goesOn_record _ _ (a := .ok) (by decide))
    · exact (goesOn_of_same rfl rfl).trans (goesOn_record _ _ (a := .ok) (by decide))

theorem tame_configLeg (l : Nat) (s : State) : Tame s (configLeg l s) := by
  unfold configLeg
  split
  · exact tame_err (by decide)
  · simp only
    split
    · exact (tame_configPair _ _ _).andThen fun _ t _ => goesOn_of_same rfl rfl
    · split
      · exact tame_err (by decide)
      · split
        · exact tame_err (by decide)
        · refine (tame_configPair _ _ _).andThen fun _ t _ => ?_
          refine (tame_configPair _ _ _).andThen fun _ u _ => ?_
          rw [emitPwmRoles_eq]
          exact (goesOn_emits u _).trans (goesOn_of_same rfl rfl)

theorem tame_capabilityUpdate (l : Nat) (d : NUM) (s : State) :
    Tame s (capabilityUpdate l d s) := by
  unfold capabilityUpdate
  split
  · exact tame_err (by decide)
  · split
    · exact tame_err (by decide)
    · exact tame_updatePair _ _ _ _
    · exact (tame_updatePair _ _ _ _).andThen fun _ t _ =>
        (tame_updatePair _ _ _ _).andThen fun _ u _ => goesOn_refl u
    · exact tame_err (by decide)

theorem tame_enableLeg (l : Nat) (e : Bool) (s : State) : Tame s (enableLeg l e s) := by
  obtain ⟨h1, h2⟩ := enableLeg_spec l e s
  by_cases h : s.legEnables l
  · rw [h1 h]
    exact goesOn_calledOk (cs := [s.enableCall l e]) (by simp) ⟨by simp, by simp⟩
  · obtain ⟨x, hx, hr⟩ := h2 h
    rw [hr]; exact tame_err hx

theorem tame_startLeg (l : Nat) (s : State) : Tame s (startLeg l s) :=
  (tame_configLeg l s).andThen fun _ t _ =>
    (tame_capabilityUpdate l _ t).andThen fun _ u _ => goesOn_refl u

theorem tame_inverterEnable (i : Nat) (e : Bool) (s : State) : Tame s (inverterEnable i e s) :=
  (tame_forUnits (fun l s => tame_enableLeg l e s) _ s).andThen fun _ _ _ =>
    goesOn_of_same rfl rfl

theorem tame_psfbEnable (j : Nat) (e : Bool) (s : State) : Tame s (psfbEnable j e s) :=
  (tame_forUnits (fun l s => tame_enableLeg l e s) _ s).andThen fun _ _ _ =>
    goesOn_of_same rfl rfl

theorem tame_inverterInit (i : Nat) (s : State) : Tame s (inverterInit i s) := by
  unfold inverterInit
  split
  · exact tame_err (by decide)
  · simp only
    split
    · next e he =>
      exact tame_err (by rcases validateInv_raises he with rfl | rfl | rfl <;> decide)
    · refine (tame_forUnits tame_startLeg _ s).andThen fun _ t _ => ?_
      refine Tame.of_goesOn ?_ ((tame_inverterEnable i false _).andThen fun _ u _ =>
        goesOn_of_same rfl rfl)
      rw [emitDisablePins_eq]
      exact (goesOn_emits t _).trans (goesOn_of_same rfl rfl)

theorem tame_inverterUpdate (i : Nat) (d0 d1 d2 : NUM) (s : State) :
    Tame s (inverterUpdate i d0 d1 d2 s) := by
  unfold inverterUpdate
  split
  · exact tame_err (by decide)
  · split
    · exact tame_err (by decide)
    · refine (tame_capabilityUpdate _ _ _).andThen fun _ t _ => ?_
      refine (tame_capabilityUpdate _ _ _).andThen fun _ u _ => ?_
      refine (tame_capabilityUpdate _ _ _).andThen fun _ v _ => ?_
      refine Tame.andThen ?_ fun _ w _ => goesOn_refl w
      unfold duplicateUpdate
      split
      · exact tame_capabilityUpdate _ _ _
      · exact goesOn_refl v

theorem tame_inverterSpwm (i : Nat) (dir : Direction) (theta mi : NUM) (s : State) :
    Tame s (inverterSpwm i dir theta mi s) := by
  unfold inverterSpwm
  split
  · exact tame_err (by decide)
  · split
    · exact tame_err (by decide)
    · exact Tame.of_goesOn (goesOn_record s _ (by intro h; cases h))
        (tame_inverterUpdate i _ _ _ (s.emitSpwm theta mi dir))

theorem tame_inverterActivate (i : Nat) (e : Bool) (s : State) :
    Tame s (inverterActivate i e s) := by
  unfold inverterActivate
  split
  · exact tame_err (by decide)
  · split
    · exact tame_err (by decide)
    · exact tame_inverterEnable i e s

theorem tame_psfbInit (j : Nat) (s : State) : Tame s (psfbInit j s) := by
  unfold psfbInit
  split
  · exact tame_err (by decide)
  · simp only
    split
    · next e he => exact tame_err (by rcases psfbPinCheck_raises he with rfl | rfl <;> decide)
    · split
      · exact tame_err (by decide)
      · refine (tame_forUnits tame_startLeg _ s).andThen fun _ t _ => ?_
        exact (tame_psfbEnable j false t).andThen fun _ u _ => goesOn_of_same rfl rfl

theorem tame_psfbUpdate (j : Nat) (d : NUM) (s : State) : Tame s (psfbUpdate j d s) := by
  unfold psfbUpdate
  split
  · exact tame_err (by decide)
  · split
    · exact tame_err (by decide)
    · exact goesOn_record s _ (a := .ok) (by decide)

theorem tame_psfbActivate (j : Nat) (e : Bool) (s : State) : Tame s (psfbActivate j e s) := by
  unfold psfbActivate
  split
  · exact tame_err (by decide)
  · split
    · exact tame_err (by decide)
    · exact tame_psfbEnable j e s

theorem tame_rampInit (k : Nat) (s : State) : Tame s (rampInit k s) := by
  unfold rampInit
  split
  · exact tame_err (by decide)
  · simp only
    split
    · exact tame_err (by decide)
    · split
      · exact tame_err (by decide)
      · exact goesOn_of_same rfl rfl

theorem tame_rampArbitrate (k i : Nat) (a : NUM) (s : State) : Tame s (rampArbitrate k i a s) := by
  unfold rampArbitrate
  simp only
  split
  · unfold rampActivation
    simp only
    split
    · exact Tame.of_goesOn (goesOn_of_same rfl rfl)
        ((tame_inverterActivate i _ (s.setVf k _)).andThen fun _ u _ => goesOn_of_same rfl rfl)
    · exact goesOn_of_same rfl rfl
  · split
    · exact goesOn_of_same rfl rfl
    · exact goesOn_of_same rfl rfl

theorem tame_rampStep (k : Nat) (s : State) : Tame s (rampStep k s) := by
  unfold rampStep
  split
  · exact tame_err (by decide)
  · simp only
    split
    · exact tame_err (by decide)
    · split
      · exact tame_err (by decide)
      · split
        · exact tame_err (by decide)
        · split
          · exact tame_err (by decide)
          · refine (tame_rampArbitrate _ _ _ _).andThen fun _ t _ => ?_
            exact Tame.of_goesOn (goesOn_of_same rfl rfl)
              ((tame_inverterSpwm _ _ _ _ (t.setVf k _)).andThen fun _ u _ => goesOn_refl u)

/-- Every command is tame (R305). -/
theorem tame_opOf (i : Instr) (s : State) : Tame s (opOf i s) := by
  cases i <;> simp only [opOf]
  case wrf addr =>
    rcases withArg0_cases (writeField addr) s with ⟨-, e⟩ | ⟨a, -, e⟩ <;> rw [e]
    · exact tame_err (by decide)
    · unfold writeField
      split
      · exact tame_err (by decide)
      · next c hc =>
        refine Tame.andThen ?_ fun _ t _ => goesOn_refl t
        obtain ⟨h1, h2⟩ := memWrite_err (s := s) (c := c) (v := a)
        cases hw : c.writable with
        | false => rw [h1 hw]; exact tame_err (by decide)
        | true =>
          by_cases ha : c.accepts a
          · obtain ⟨t, ht, -, hf, -, hx, -⟩ := memWrite_ok (s := s) ha
            rw [ht]
            refine goesOn_of_same ?_ hx
            have hg := hf (.glb .halted) (by rintro rfl; exact ha)
            unfold memRead at hg
            simp only [CellValue.int.injEq] at hg
            revert hg
            cases t.halted <;> cases s.halted <;> simp [flagCode]
          · rw [h2 hw ha]; exact tame_err (by decide)
  case rdf addr =>
    unfold readField
    split
    · exact tame_err (by decide)
    · exact goesOn_refl s
  case dtenc =>
    rcases withArgs_cases encodeDeadTime s with ⟨-, e⟩ | ⟨a, b, c, -, -, -, e⟩ <;> rw [e]
    · exact tame_err (by decide)
    · unfold encodeDeadTime
      split
      · exact tame_err (by decide)
      · split
        · exact tame_err (by decide)
        · exact goesOn_refl s
  case tinit => exact (tame_timerInit _ _ _).andThen fun _ t _ => goesOn_refl t
  case cfgpair => exact (tame_configPair _ _ _).andThen fun _ t _ => goesOn_refl t
  case cfgch => exact (tame_configChannel _ _ _).andThen fun _ t _ => goesOn_refl t
  case updpair n sl =>
    rcases withArg0_cases (fun d s => dutyResult (updatePair n sl d s)) s with ⟨-, e⟩ | ⟨a, -, e⟩ <;>
      rw [e]
    · exact tame_err (by decide)
    · exact (tame_updatePair _ _ _ _).andThen fun _ t _ => goesOn_refl t
  case updch n sl =>
    rcases withArg0_cases (fun d s => dutyResult (updateChannel n sl d s)) s with
      ⟨-, e⟩ | ⟨a, -, e⟩ <;> rw [e]
    · exact tame_err (by decide)
    · exact (tame_updateChannel _ _ _ _).andThen fun _ t _ => goesOn_refl t
  case cfgirq => exact (tame_configIrq _ _ _ _ _).andThen fun _ t _ => goesOn_refl t
  case cfgleg => exact (tame_configLeg _ _).andThen fun _ t _ => goesOn_refl t
  case enleg => exact (tame_enableLeg _ _ _).andThen fun _ t _ => goesOn_refl t
  case capupd l =>
    rcases withArg0_cases (fun d s => dutyResult (capabilityUpdate l d s)) s with
      ⟨-, e⟩ | ⟨a, -, e⟩ <;> rw [e]
    · exact tame_err (by decide)
    · exact (tame_capabilityUpdate _ _ _).andThen fun _ t _ => goesOn_refl t
  case invinit => exact (tame_inverterInit _ _).andThen fun _ t _ => goesOn_refl t
  case invupd u =>
    rcases withArgs_cases (fun d0 d1 d2 s => dutiesResult (inverterUpdate u d0 d1 d2 s)) s with
      ⟨-, e⟩ | ⟨a, b, c, -, -, -, e⟩ <;> rw [e]
    · exact tame_err (by decide)
    · exact (tame_inverterUpdate _ _ _ _ _).andThen fun _ t _ => goesOn_refl t
  case invspwm u dir =>
    rcases withArg01_cases (fun theta mi s => dutiesResult (inverterSpwm u dir theta mi s)) s with
      ⟨-, e⟩ | ⟨a, b, -, -, e⟩ <;> rw [e]
    · exact tame_err (by decide)
    · exact (tame_inverterSpwm _ _ _ _ _).andThen fun _ t _ => goesOn_refl t
  case invact => exact (tame_inverterActivate _ _ _).andThen fun _ t _ => goesOn_refl t
  case psfbinit => exact (tame_psfbInit _ _).andThen fun _ t _ => goesOn_refl t
  case psfbupd j =>
    rcases withArg0_cases (fun d s => dutyResult (psfbUpdate j d s)) s with
      ⟨-, e⟩ | ⟨a, -, e⟩ <;> rw [e]
    · exact tame_err (by decide)
    · exact (tame_psfbUpdate _ _ _).andThen fun _ t _ => goesOn_refl t
  case psfbact => exact (tame_psfbActivate _ _ _).andThen fun _ t _ => goesOn_refl t
  case vfinit => exact (tame_rampInit _ _).andThen fun _ t _ => goesOn_refl t
  case vfstep => exact tame_rampStep _ _

end Sys2Proof.Machine
end

