-- ==== Sys2Proof/Laws/PartWay.lean ====
section
/-! SUPPORT. What a composite command leaves where one of its parts fails (60_exceptions.md rule R314):
duty updates, output enables, the start of a list of legs, and a ramp step. -/

namespace Sys2Proof.Machine

/-! ### Duty updates (R204 to R206, R222) -/

/-- A pair update that is refused has no effect (R161). -/
theorem updatePair_refused {s : State} {n sl : Nat} {duty : NUM} {e : Status}
    (hh : s.halted = false) (h : s.pairDutyRefusal n sl duty e) :
    updatePair n sl duty s = .err e s := by
  unfold State.pairDutyRefusal at h
  rw [if_neg (by rw [hh]; decide)] at h
  unfold updatePair
  split at h
  · next h1 => subst h; rw [if_pos h1]
  next h1 =>
  rw [if_neg h1]
  split at h
  · next h2 => subst h; rw [if_pos (by simp [bound_iff]; omega)]
  next h2 =>
  rw [if_neg (by simp [bound_iff]; omega)]
  split at h
  · next h3 => subst h; rw [if_pos h3]
  next h3 =>
  rw [if_neg h3]
  simp only
  split at h
  · next h4 => subst h; rw [if_pos h4]
  next h4 =>
  rw [if_neg h4]
  obtain ⟨h5, rfl⟩ := h
  have := (dutyCompare_eq _ _ _).2 h5
  unfold clampedDuty at this
  rw [this]

/-- A pair's refusal depends on instances, slots and roles only. -/
theorem pairDutyRefusal_congr {s t : State} {w : List (Nat × Nat)} (h : sameButChannels s t)
    (hw : shadowsWritten s t w) (n sl : Nat) (d : NUM) (e : Status) :
    t.pairDutyRefusal n sl d e ↔ s.pairDutyRefusal n sl d e := by
  obtain ⟨⟨hp, -, -, -⟩, -, ⟨hh, -⟩, ht, hc, -⟩ := h
  unfold State.pairDutyRefusal
  rw [hp, hh, ht, hc, hw n]

/-- A leg update that is refused ends with its status and the writes it has made (R204 to R206). -/
theorem capabilityUpdate_refused {s : State} {l : Nat} {d : NUM} {w : List (Nat × Nat)} {e : Status}
    (hh : s.halted = false) (h : s.legDutyRefusal l d w e) :
    ∃ t, capabilityUpdate l d s = .err e t ∧ sameButChannels s t ∧ shadowsWritten s t w := by
  unfold State.legDutyRefusal at h
  unfold capabilityUpdate
  simp only at h
  split at h
  · next hl =>
    obtain ⟨rfl, rfl⟩ := h
    rw [if_pos hl]
    exact ⟨s, rfl, sameButChannels_refl s, shadowsWritten_nil s⟩
  next hl =>
  rw [if_neg hl]
  cases hc : (s.legAt l).cap <;> simp only [hc] at h ⊢
  · obtain ⟨rfl, rfl⟩ := h
    exact ⟨s, rfl, sameButChannels_refl s, shadowsWritten_nil s⟩
  · obtain ⟨h, rfl⟩ := h
    exact ⟨s, updatePair_refused hh h, sameButChannels_refl s, shadowsWritten_nil s⟩
  · unfold tnpcSplitUpdate
    rcases h with ⟨h, rfl⟩ | ⟨ha, h, rfl⟩
    · refine ⟨s, ?_, sameButChannels_refl s, shadowsWritten_nil s⟩
      simp only
      rw [updatePair_refused hh h]
      rfl
    · have f := sameButChannels_afterUpdate s (s.legAt l).pin.toNat
        (s.pairCompare (s.legAt l).pin.toNat l (tnpcSplit d).1)
      have w := shadowsWritten_afterUpdate s (s.legAt l).pin.toNat
        (s.pairCompare (s.legAt l).pin.toNat l (tnpcSplit d).1)
      refine ⟨_, ?_, f, w⟩
      simp only
      rw [(updatePair_spec _ _ _ _).1 ha, Done.andThen_ok,
        updatePair_refused (by rw [f.2.2.1.1]; exact hh) ((pairDutyRefusal_congr f w _ _ _ _).mpr h)]
      rfl
  · obtain ⟨rfl, rfl⟩ := h
    exact ⟨s, rfl, sameButChannels_refl s, shadowsWritten_nil s⟩

theorem legDutyRefusal_congr {s t : State} {w : List (Nat × Nat)} (h : sameButChannels s t)
    (hw : shadowsWritten s t w) (l : Nat) (d : NUM) (v : List (Nat × Nat)) (e : Status) :
    t.legDutyRefusal l d v e ↔ s.legDutyRefusal l d v e := by
  have hl := h.2.2.2.2.2.1 l
  unfold State.legDutyRefusal
  simp only [hl, h.1.1, (pairAccepts_congr h hw _ _ _).1, (pairAccepts_congr h hw _ _ _).2,
    pairDutyRefusal_congr h hw]

/-- Leg updates in order, each with its requested duty, ending at the first that is refused. -/
def updateLegs : List (Nat × NUM) → State → Done Unit
  | [], s => .ok () s
  | r :: rs, s => (capabilityUpdate r.1 r.2 s).andThen fun _ s' => updateLegs rs s'

theorem updateLegs_append (a b : List (Nat × NUM)) (s : State) :
    updateLegs (a ++ b) s = (updateLegs a s).andThen fun _ t => updateLegs b t := by
  induction a generalizing s with
  | nil => rfl
  | cons r a ih =>
    simp only [List.cons_append, updateLegs]
    cases capabilityUpdate r.1 r.2 s with
    | ok x t => exact ih t
    | err e t => rfl

theorem dutyWrites_congr {s t : State} {w : List (Nat × Nat)} (h : sameButChannels s t)
    (hw : shadowsWritten s t w) (rs : List (Nat × NUM)) : t.dutyWrites rs = s.dutyWrites rs :=
  List.flatMap_congr fun r _ => (legAccepts_congr h hw r.1 r.2).2.1

/-- Updates before a refused one stand (R314). -/
theorem updateLegs_refused (before after : List (Nat × NUM)) {l : Nat} {d : NUM}
    {w : List (Nat × Nat)} {e : Status} (s : State) (hh : s.halted = false)
    (hb : ∀ r ∈ before, s.legAccepts r.1 r.2) (h : s.legDutyRefusal l d w e) :
    ∃ t, updateLegs (before ++ (l, d) :: after) s = .err e t ∧ sameButChannels s t ∧
      shadowsWritten s t (s.dutyWrites before ++ w) := by
  induction before generalizing s with
  | nil =>
    obtain ⟨t, e1, f, v⟩ := capabilityUpdate_refused hh h
    exact ⟨t, by simp only [List.nil_append, updateLegs, e1]; rfl, f, v⟩
  | cons r rs ih =>
    obtain ⟨u, e1, f, v⟩ := capabilityUpdate_ok (hb r (by simp))
    obtain ⟨t, e2, g, x⟩ := ih u (by rw [f.2.2.1.1]; exact hh)
      (fun q hq => (legAccepts_congr f v _ _).1.mpr (hb q (by simp [hq])))
      ((legDutyRefusal_congr f v _ _ _ _).mpr h)
    rw [dutyWrites_congr f v] at x
    refine ⟨t, by simp only [List.cons_append, updateLegs, e1, Done.andThen_ok, e2],
      sameButChannels_trans f g, ?_⟩
    have := shadowsWritten_trans v x
    rwa [← List.append_assoc] at this

/-- No leg update touches an inverter. -/
theorem capabilityUpdate_invAt {s t : State} {l : Nat} {d a : NUM}
    (h : capabilityUpdate l d s = .ok a t) : t.invAt = s.invAt := by
  have key : ∀ {n sl : Nat} {x b : NUM} {u v : State}, updatePair n sl x u = .ok b v →
      v.invAt = u.invAt := by
    intro n sl x b u v hx
    by_cases hp : u.pairAccepts n sl x
    · rw [(updatePair_spec _ _ _ _).1 hp] at hx; cases hx; rfl
    · obtain ⟨e, -, he⟩ := (updatePair_spec _ _ _ _).2 hp
      rw [he] at hx; cases hx
  unfold capabilityUpdate at h
  split at h
  · cases h
  split at h
  · cases h
  · exact key h
  · unfold tnpcSplitUpdate at h
    simp only [Done.andThen_eq_ok] at h
    obtain ⟨_, s1, h1, _, s2, h2, h3⟩ := h
    cases h3
    rw [key h2, key h1]
  · cases h

/-- An inverter update ends where its list of leg updates does (R222). -/
theorem inverterUpdate_refused {s t : State} {i : Nat} {d0 d1 d2 : NUM} {e : Status}
    (hi : i < s.params.ninv) (hn : (s.invAt i).init = true)
    (h : updateLegs (s.inverterUpdates i d0 d1 d2) s = .err e t) :
    inverterUpdate i d0 d1 d2 s = .err e t := by
  unfold State.inverterUpdates at h
  unfold inverterUpdate
  rw [if_neg (by omega), if_neg (by rw [hn]; decide)]
  simp only [List.cons_append, List.nil_append, updateLegs] at h
  cases h0 : capabilityUpdate (4 * i) d0 s with
  | err e0 t0 => rw [h0] at h; cases h; rfl
  | ok a0 s1 =>
    rw [h0] at h
    simp only [Done.andThen_ok] at h ⊢
    cases h1 : capabilityUpdate (4 * i + 1) d1 s1 with
    | err e1 t1 => rw [h1] at h; cases h; rfl
    | ok a1 s2 =>
      rw [h1] at h
      simp only [Done.andThen_ok] at h ⊢
      cases h2 : capabilityUpdate (4 * i + 2) d2 s2 with
      | err e2 t2 => rw [h2] at h; cases h; rfl
      | ok a2 s3 =>
        rw [h2] at h
        simp only [Done.andThen_ok] at h ⊢
        unfold duplicateUpdate
        rw [capabilityUpdate_invAt h2, capabilityUpdate_invAt h1, capabilityUpdate_invAt h0]
        cases hd : (s.invAt i).dup with
        | false => rw [hd] at h; cases h
        | true =>
          rw [hd] at h
          simp only [if_true, updateLegs] at h ⊢
          cases h3 : capabilityUpdate (4 * i + 3) d2 s3 with
          | err e3 t3 => rw [h3] at h; cases h; rfl
          | ok a3 s4 => rw [h3] at h; cases h

/-- A sinusoidal update with a refused leg keeps the generator's call and the earlier writes (R223,
R314). -/
theorem inverterSpwm_refused {s : State} {i : Nat} {dir : Direction} {theta mi : NUM}
    {a b c d : NUM} {before after : List (Nat × NUM)} {l : Nat} {w : List (Nat × Nat)}
    {e : Status} (hh : s.halted = false) (hi : i < s.params.ninv) (hn : (s.invAt i).init = true)
    (hs : s.spwm theta mi dir = (a, b, c))
    (hu : s.inverterUpdates i a b c = before ++ (l, d) :: after)
    (hb : ∀ r ∈ before, s.legAccepts r.1 r.2) (h : s.legDutyRefusal l d w e) :
    ∃ t, inverterSpwm i dir theta mi s = .err e t ∧ sameButDuties s t ∧
      t.ext = s.ext ++ [⟨.spwm theta mi dir, .duties a b c⟩] ∧ t.callNo = s.callNo + 1 ∧
      shadowsWritten s t (s.dutyWrites before ++ w) := by
  obtain ⟨t, e1, ⟨f1, ⟨o1, o2⟩, f3, f4, f5, f6, f7, f8, f9⟩, v⟩ :=
    updateLegs_refused before after (s.emitSpwm theta mi dir) hh hb h
  rw [← hu] at e1
  refine ⟨t, ?_, ⟨f1, f3, f4, f5, f6, f7, f8, f9⟩, ?_, o2, v⟩
  · unfold inverterSpwm
    rw [if_neg (by omega), if_neg (by rw [hn]; decide), hs]
    exact inverterUpdate_refused (s := s.emitSpwm theta mi dir) hi hn e1
  · rw [o1]
    unfold State.emitSpwm
    rw [hs]
    rfl

/-! ### Output enables (R207, R226, R233) -/

/-- An enable that is refused has no effect (R207). -/
theorem enableLeg_refused {s : State} {l : Nat} {b : Bool} {x : Status} (hh : s.halted = false)
    (h : s.enableRefusal l x) : enableLeg l b s = .err x s := by
  unfold State.enableRefusal at h
  rw [if_neg (by rw [hh]; decide)] at h
  unfold enableLeg
  split at h
  · next h1 => subst h; rw [if_pos h1]
  next h1 =>
  rw [if_neg h1]
  split at h
  · next h2 => subst h; rw [if_pos h2]
  next h2 =>
  obtain ⟨h3, rfl⟩ := h
  rw [if_neg h2]
  simp only
  rw [if_pos h3]

theorem forUnits_append (f : Nat → State → Done Unit) (a b : List Nat) (s : State) :
    forUnits f (a ++ b) s = (forUnits f a s).andThen fun _ t => forUnits f b t := by
  induction a generalizing s with
  | nil => rfl
  | cons l a ih =>
    simp only [List.cons_append, forUnits_cons]
    cases f l s with
    | ok x t => exact ih t
    | err e t => rfl

/-- Legs switched before a refused one stay switched (R314). -/
theorem forUnits_enable_refused {s : State} {before after : List Nat} {l : Nat} {b : Bool}
    {x : Status} (hh : s.halted = false) (hd : (before ++ l :: after).Nodup)
    (hb : ∀ m ∈ before, s.legEnables m) (h : s.enableRefusal l x) :
    ∃ t, forUnits (fun l s => enableLeg l b s) (before ++ l :: after) s = .err x t ∧
      legsEnabled s t before b ∧ sameButEnables s t ∧
      calledOk s t (before.map fun m => s.enableCall m b) := by
  have hnl : l ∉ before := fun hl =>
    (List.nodup_append.mp hd).2.2 l hl l (by simp) rfl
  obtain ⟨t, e1, g, f, o⟩ := forUnits_enable b before (List.nodup_append.mp hd).1 s hb
  refine ⟨t, ?_, g, f, o⟩
  have hx : t.enableRefusal l x := by
    unfold State.enableRefusal at h ⊢
    rw [g.1, f.1.1, g.2.2.2.2 l hnl]
    exact h
  rw [forUnits_append, e1, Done.andThen_ok, forUnits_cons, enableLeg_refused (by rw [g.1]; exact hh) hx]
  rfl

/-! ### Starting legs (R220, R230) -/

/-- An operation that starts legs touches no output enable, no `STATE`, pin or type of a leg, no
inverter, bridge or controller; its calls are timer-base and pin-role calls. -/
def onlyStarts (s t : State) : Prop :=
  t.oen = s.oen ∧
  (∀ l, (t.legAt l).state = (s.legAt l).state ∧ (t.legAt l).pin = (s.legAt l).pin ∧
    (t.legAt l).kind = (s.legAt l).kind ∧
    ((s.legAt l).cap ≠ .none → (t.legAt l).cap ≠ .none)) ∧
  sameInv s t ∧ samePsfb s t ∧ sameVf s t ∧ sameInputs s t ∧
  ∃ calls, t.ext = s.ext ++ calls ∧
    ∀ x ∈ calls, x.call.isTimerBase = true ∨ ∃ q, x.call = .setPinAsPwmRole q

theorem onlyStarts_refl (s : State) : onlyStarts s s :=
  ⟨rfl, fun _ => ⟨rfl, rfl, rfl, id⟩, fun _ => rfl, fun _ => rfl, fun _ => rfl, ⟨rfl, rfl, rfl, rfl⟩,
    [], by simp, by simp⟩

theorem onlyStarts.trans {s t u : State} (h : onlyStarts s t) (g : onlyStarts t u) :
    onlyStarts s u := by
  obtain ⟨h1, h2, h3, h4, h5, ⟨a1, a2, a3, a4⟩, c, hc, hx⟩ := h
  obtain ⟨g1, g2, g3, g4, g5, ⟨b1, b2, b3, b4⟩, d, gc, gx⟩ := g
  refine ⟨g1.trans h1, fun l => ?_, fun l => (g3 l).trans (h3 l), fun l => (g4 l).trans (h4 l),
    fun l => (g5 l).trans (h5 l), ⟨b1.trans a1, b2.trans a2, b3.trans a3, b4.trans a4⟩, c ++ d,
    by rw [gc, hc, List.append_assoc], fun x hxx => ?_⟩
  · obtain ⟨x1, x2, x3, x4⟩ := h2 l
    obtain ⟨y1, y2, y3, y4⟩ := g2 l
    exact ⟨y1.trans x1, y2.trans x2, y3.trans x3, fun z => y4 (x4 z)⟩
  · rcases List.mem_append.mp hxx with hxx | hxx
    · exact hx x hxx
    · exact gx x hxx

/-- The operation only starts legs, however it ends. -/
def Starts {α : Type} (s : State) (r : Done α) : Prop := onlyStarts s r.state

theorem Starts.andThen {α β : Type} {s : State} {r : Done α} {k : α → State → Done β}
    (h : Starts s r) (hk : ∀ a t, r = .ok a t → Starts t (k a t)) : Starts s (r.andThen k) := by
  cases r with
  | err e t => exact h
  | ok a t => exact onlyStarts.trans h (hk a t rfl)

theorem starts_ok {α : Type} (a : α) (s : State) : Starts s (.ok a s) := onlyStarts_refl s

theorem starts_err {α : Type} (e : Status) (s : State) : Starts s (.err e s : Done α) :=
  onlyStarts_refl s

theorem onlyStarts_record (s : State) (c : ExtCall) (a : ExtAnswer)
    (h : c.isTimerBase = true ∨ ∃ q, c = .setPinAsPwmRole q) : onlyStarts s (s.record c a) :=
  ⟨rfl, fun _ => ⟨rfl, rfl, rfl, id⟩, fun _ => rfl, fun _ => rfl, fun _ => rfl, ⟨rfl, rfl, rfl, rfl⟩,
    [⟨c, a⟩], rfl, fun x hx => by rw [List.mem_singleton] at hx; subst hx; exact h⟩

theorem starts_timerCall {c : ExtCall} (h : c.isTimerBase = true) (s : State) :
    Starts s (timerCall c s) := by
  rcases timerCall_cases c s with ⟨-, e⟩ | ⟨-, e⟩ <;> rw [e]
  · exact onlyStarts.trans (onlyStarts_record s c .fail (.inl h)) (onlyStarts_refl _)
  · exact onlyStarts_record s c .ok (.inl h)

theorem starts_timerInit (t sl : Nat) (s : State) : Starts s (timerInit t sl s) := by
  unfold timerInit
  split
  · exact starts_err _ s
  split
  · exact starts_ok _ s
  simp only
  split
  · exact starts_err _ s
  · refine Starts.andThen ?_ fun _ u _ => onlyStarts_refl u
    unfold timerBaseCalls
    exact (starts_timerCall rfl s).andThen fun _ u _ => (starts_timerCall rfl u).andThen fun _ u _ =>
      (starts_timerCall rfl u).andThen fun _ u _ => starts_timerCall rfl u

theorem starts_configPair (n sl : Nat) (s : State) : Starts s (configPair n sl s) := by
  unfold configPair
  split
  · exact starts_err _ s
  split
  · exact starts_err _ s
  split
  · exact starts_err _ s
  · exact (starts_timerInit _ sl s).andThen fun _ u _ => onlyStarts_refl u

theorem onlyStarts_setCap (s : State) (l : Nat) {cap : Capability} (h : cap ≠ .none) :
    onlyStarts s (s.setCap l cap) := by
  refine ⟨rfl, fun m => ?_, fun _ => rfl, fun _ => rfl, fun _ => rfl, ⟨rfl, rfl, rfl, rfl⟩, [], by simp,
    by simp⟩
  rw [State.legAt_setCap]
  split
  · next e => subst e; exact ⟨rfl, rfl, rfl, fun _ => h⟩
  · exact ⟨rfl, rfl, rfl, id⟩

theorem onlyStarts_roles (s : State) (qs : List Nat) : onlyStarts s (s.emitPwmRoles qs) := by
  induction qs generalizing s with
  | nil => exact onlyStarts_refl s
  | cons q qs ih => exact (onlyStarts_record s (.setPinAsPwmRole q) .ok (.inr ⟨q, rfl⟩)).trans (ih _)

/-- `CFGLEG` only starts its leg, and where it completes the leg has a capability (R201). -/
theorem starts_configLeg (l : Nat) (s : State) : Starts s (configLeg l s) ∧
    ∀ cap t, configLeg l s = .ok cap t → l < s.params.nleg ∧ (t.legAt l).cap ≠ .none := by
  unfold configLeg
  split
  · exact ⟨starts_err _ s, fun cap t h => by cases h⟩
  next hl =>
  simp only
  split
  · refine ⟨(starts_configPair _ l s).andThen fun _ u _ => onlyStarts_setCap u l (by decide),
      fun cap t h => ?_⟩
    simp only [Done.andThen_eq_ok] at h
    obtain ⟨_, u, -, h⟩ := h
    cases h
    exact ⟨by omega, by rw [State.legAt_setCap, if_pos rfl]; exact fun h => by cases h⟩
  · split
    · exact ⟨starts_err _ s, fun cap t h => by cases h⟩
    split
    · exact ⟨starts_err _ s, fun cap t h => by cases h⟩
    · refine ⟨(starts_configPair _ l s).andThen fun _ u _ => (starts_configPair _ l u).andThen
        fun _ v _ => (onlyStarts_roles v _).trans (onlyStarts_setCap _ l (by decide)), fun cap t h => ?_⟩
      simp only [Done.andThen_eq_ok] at h
      obtain ⟨_, u, -, _, v, -, h⟩ := h
      cases h
      exact ⟨by omega, by rw [State.legAt_setCap, if_pos rfl]; exact fun h => by cases h⟩

theorem starts_updatePair (n sl : Nat) (d : NUM) (s : State) : Starts s (updatePair n sl d s) := by
  by_cases h : s.pairAccepts n sl d
  · rw [(updatePair_spec n sl d s).1 h]; exact onlyStarts_refl s
  · obtain ⟨e, -, he⟩ := (updatePair_spec n sl d s).2 h
    rw [he]; exact onlyStarts_refl s

theorem starts_capabilityUpdate (l : Nat) (d : NUM) (s : State) :
    Starts s (capabilityUpdate l d s) := by
  unfold capabilityUpdate
  split
  · exact starts_err _ s
  split
  · exact starts_err _ s
  · exact starts_updatePair _ l d s
  · exact (starts_updatePair _ l _ s).andThen fun _ u _ => (starts_updatePair _ l _ u).andThen
      fun _ v _ => onlyStarts_refl v
  · exact starts_err _ s

/-- Starting legs in order only starts them, and where it completes each has a capability. -/
theorem starts_startLegs (ls : List Nat) (s : State) : Starts s (forUnits startLeg ls s) ∧
    ∀ t, forUnits startLeg ls s = .ok () t →
      ∀ l ∈ ls, l < s.params.nleg ∧ (t.legAt l).cap ≠ .none := by
  induction ls generalizing s with
  | nil => exact ⟨starts_ok _ s, fun t _ l hl => by cases hl⟩
  | cons l ls ih =>
    obtain ⟨c1, c2⟩ := starts_configLeg l s
    have hs : Starts s (startLeg l s) := c1.andThen fun _ u _ =>
      (starts_capabilityUpdate l (.rat (1 / 2)) u).andThen fun _ v _ => onlyStarts_refl v
    rw [forUnits_cons]
    refine ⟨hs.andThen fun _ u _ => (ih u).1, fun t h m hm => ?_⟩
    simp only [Done.andThen_eq_ok] at h
    obtain ⟨_, u, h1, h2⟩ := h
    have hsu : onlyStarts s u := by have := hs; rw [h1] at this; exact this
    have hut : onlyStarts u t := by have := (ih u).1; rw [h2] at this; exact this
    rcases List.mem_cons.mp hm with rfl | hm
    · unfold startLeg at h1
      simp only [Done.andThen_eq_ok] at h1
      obtain ⟨cap, v, g1, _, w, g2, g3⟩ := h1
      cases g3
      obtain ⟨k1, k2⟩ := c2 cap v g1
      have hvu : onlyStarts v u := by
        have := starts_capabilityUpdate m (.rat (1 / 2)) v; rw [g2] at this; exact this
      exact ⟨k1, (hut.2.1 m).2.2.2 ((hvu.2.1 m).2.2.2 k2)⟩
    · have := (ih u).2 t h2 m hm
      rw [hsu.2.2.2.2.2.1.1] at this
      exact this

/-! ### Legs as a command of their own sees them -/

/-- The same state with other operand lanes and another result port. -/
def State.withPort (s : State) (p : Lanes) (e : Status) (r : Results) : State :=
  { s.drive e r with lanes := p }

/-- The state an operation leaves, with other operand lanes and another result port. -/
def Done.withPort {α : Type} (p : Lanes) (e : Status) (r : Results) : Done α → Done α
  | .ok a s => .ok a (s.withPort p e r)
  | .err x s => .err x (s.withPort p e r)

theorem updatePair_withPort (n sl : Nat) (d : NUM) (s : State) (p : Lanes) (e : Status)
    (r : Results) :
    updatePair n sl d (s.withPort p e r) = (updatePair n sl d s).withPort p e r := by
  unfold updatePair
  have h1 : (s.withPort p e r).params = s.params := rfl
  have h2 : (s.withPort p e r).timAt = s.timAt := rfl
  have h3 : (s.withPort p e r).cfgAt = s.cfgAt := rfl
  have h4 : (s.withPort p e r).chAt = s.chAt := rfl
  simp only [h1, h2, h3, h4]
  split_ifs
  case neg =>
    cases dutyCompare (s.timAt (instOf s.params n)) (s.cfgAt sl)
      (clamp d (s.cfgAt sl).min (s.cfgAt sl).max) <;> rfl
  all_goals rfl

/-- A leg's update does not depend on lanes and port. -/
theorem capabilityUpdate_withPort (l : Nat) (d : NUM) (s : State) (p : Lanes) (e : Status)
    (r : Results) :
    capabilityUpdate l d (s.withPort p e r) = (capabilityUpdate l d s).withPort p e r := by
  unfold capabilityUpdate singlePairUpdate tnpcSplitUpdate
  have h1 : (s.withPort p e r).params = s.params := rfl
  have h2 : (s.withPort p e r).legAt = s.legAt := rfl
  simp only [h1, h2]
  split_ifs
  · rfl
  · cases (s.legAt l).cap with
    | none => rfl
    | phaseShift => rfl
    | singlePair => exact updatePair_withPort _ _ _ _ _ _ _
    | tnpcSplit =>
      simp only [updatePair_withPort]
      cases updatePair (s.legAt l).pin.toNat l (tnpcSplit d).1 s with
      | err x u => rfl
      | ok a u =>
        simp only [Done.withPort, Done.andThen_ok, updatePair_withPort]
        cases updatePair ((s.legAt l).pin.toNat + 2) l (tnpcSplit d).2 u <;> rfl

end Sys2Proof.Machine
end

