-- ==== Sys2Proof/Tests/Slice0.lean ====
section
/-! SUPPORT. Tests of CORE. Expected values are those of spec/95_test_vectors.md (the vector is named
beside each test) or hand calculation from the rule named; every test is one step on a small state of
the fixture `EX` (R6). The last part shows, for each statement with hypotheses, states and operands
that meet them. -/

-- One declaration at a time: dozens of pending kernel evaluations would each hold a thread.
set_option Elab.async false

namespace Sys2Proof.Tests

open Sys2Proof Sys2Proof.Machine Sys2Proof.Laws

/-! ### Well-formedness: an ill-formed term for each check (R102) -/

theorem test_wellFormed_refuses_timer_commands :
    (Instr.tinit 256 0).wellFormed = false ∧ (Instr.tinit 0 256).wellFormed = false ∧
    (Instr.cfgirq 256 0 0 true).wellFormed = false := by decide

theorem test_wellFormed_refuses_pair_commands :
    (Instr.cfgpair 256 0).wellFormed = false ∧ (Instr.cfgpair 0 256).wellFormed = false ∧
    (Instr.updpair 256 0).wellFormed = false ∧ (Instr.updpair 0 256).wellFormed = false := by decide

theorem test_wellFormed_refuses_channel_commands :
    (Instr.cfgch 256 0).wellFormed = false ∧ (Instr.cfgch 0 256).wellFormed = false ∧
    (Instr.updch 256 0).wellFormed = false ∧ (Instr.updch 0 256).wellFormed = false := by decide

theorem test_wellFormed_refuses_leg_commands :
    (Instr.cfgleg 256).wellFormed = false ∧ (Instr.enleg 256 true).wellFormed = false ∧
    (Instr.capupd 256).wellFormed = false := by decide

theorem test_wellFormed_refuses_unit_commands :
    (Instr.invinit 256).wellFormed = false ∧ (Instr.invupd 256).wellFormed = false ∧
    (Instr.invspwm 256 .forward).wellFormed = false ∧
    (Instr.invact 256 true).wellFormed = false ∧ (Instr.psfbinit 256).wellFormed = false ∧
    (Instr.psfbupd 256).wellFormed = false ∧ (Instr.psfbact 256 true).wellFormed = false ∧
    (Instr.vfinit 256).wellFormed = false ∧ (Instr.vfstep 256).wellFormed = false := by decide

/-! ### Decoding: the word of every command, from the encodings and vectors of the spec -/

theorem test_decode_register_access :
    decode 0x01302500 = .ok (.wrf 0x3025) ∧ decode 0x02100600 = .ok (.rdf 0x1006) := by decide

theorem test_decode_encoder : decode 0x10000000 = .ok .dtenc := by decide

theorem test_decode_driver :
    decode 0x20010300 = .ok (.tinit 1 3) ∧ decode 0x21010800 = .ok (.cfgpair 1 8) ∧
    decode 0x22060A00 = .ok (.cfgch 6 10) ∧ decode 0x230B0900 = .ok (.updpair 11 9) ∧
    decode 0x24060A00 = .ok (.updch 6 10) ∧ decode 0x25000151 = .ok (.cfgirq 0 1 5 true) ∧
    decode 0x25008070 = .ok (.cfgirq 0 0x80 7 false) := by decide

theorem test_decode_leg :
    decode 0x30020000 = .ok (.cfgleg 2) ∧ decode 0x31020001 = .ok (.enleg 2 true) ∧
    decode 0x32020000 = .ok (.capupd 2) := by decide

theorem test_decode_inverter :
    decode 0x40010000 = .ok (.invinit 1) ∧ decode 0x41000000 = .ok (.invupd 0) ∧
    decode 0x42000001 = .ok (.invspwm 0 .reverse) ∧ decode 0x42000000 = .ok (.invspwm 0 .forward) ∧
    decode 0x43000001 = .ok (.invact 0 true) := by decide

theorem test_decode_bridge_and_ramp :
    decode 0x50000000 = .ok (.psfbinit 0) ∧ decode 0x51000000 = .ok (.psfbupd 0) ∧
    decode 0x52000001 = .ok (.psfbact 0 true) ∧ decode 0x60010000 = .ok (.vfinit 1) ∧
    decode 0x61000000 = .ok (.vfstep 0) := by decide

/-- Section 2.7 of the vectors. -/
theorem test_decode_refuses_unlisted :
    decode 0x00000000 = .error .unlistedOp ∧ decode 0x03000000 = .error .unlistedOp ∧
    decode 0x62000000 = .error .unlistedOp ∧ decode 0xFFFFFFFF = .error .unlistedOp := by decide

/-- Section 2.7 of the vectors. -/
theorem test_decode_refuses_set_bits :
    decode 0x10000001 = .error .mustBeZero ∧ decode 0x20000001 = .error .mustBeZero ∧
    decode 0x25000102 = .error .mustBeZero ∧ decode 0x40000100 = .error .mustBeZero ∧
    decode 0x43000002 = .error .mustBeZero ∧ decode 0x31000003 = .error .mustBeZero ∧
    decode 0x01300001 = .error .mustBeZero := by decide

/-! ### Small states -/

/-- The reset state of the fixture `EX`, with an environment that answers `ok`. -/
def bare : State := State.resetWith Params.ex ⟨[], [], []⟩

/-- The same, halted. -/
def stopped : State := { bare with halted := true }

/-- The same with other operand lanes. -/
def given (a b c : Ratio) (s : State) : State :=
  { s with lanes := ⟨.num (.rat a), .num (.rat b), .num (.rat c)⟩ }

/-- The same with `TWO_PI × q` on `ARG0`. -/
def givenTurns (q : Ratio) (s : State) : State :=
  { s with lanes := { s.lanes with arg0 := .num (TWO_PI.mul (.rat q)) } }

/-- The state a command leaves. -/
def after (i : Instr) (s : State) : State :=
  match exec i s with
  | .next t => t
  | .fault _ => stopped
  | .refused _ => stopped

/-- The state a step leaves when an event is presented. -/
def onEvent (e : Event) (s : State) : State :=
  match step { s with inbox := [e] } with
  | .next t => t
  | .fault _ => stopped
  | .refused _ => stopped

/-- `TIM[0]` as V2.2a leaves it: edge alignment with dead-time. -/
def compTim : Tim := ⟨true, .edge, .rat 20000, 9999, true, .rat 200, 0x28, .rat (1 / 250), 0, 0⟩

/-- `TIM[0]` as V2.4b leaves it: edge alignment without dead-time. -/
def plainTim : Tim := ⟨true, .edge, .rat 20000, 9999, false, .rat 0, 0, .rat 0, 0, 0⟩

/-- `TIM[1]` as V2.2d leaves it: center alignment without dead-time. -/
def centerTim : Tim := ⟨true, .center, .rat 10000, 5000, false, .rat 0, 0, .rat 0, 0, 0⟩

/-- `LDCFG s, EDGE, 20000, 0, 0, 0, max, 0, NO_COMP`. -/
def plainSlot (max : Ratio) : Slot :=
  ⟨.edge, .rat 20000, false, .rat 0, .rat 0, .rat max, false, .noComp⟩

/-- `LDCFG s, CENTER, 10000, 0, 0, 0, max, 0, NO_COMP`. -/
def centerSlot (max : Ratio) : Slot :=
  ⟨.center, .rat 10000, false, .rat 0, .rat 0, .rat max, false, .noComp⟩

/-- `LDCFG s, EDGE, 20000, 1, 200, min, max, 1, COMP` (V2.2a). -/
def compSlot (min max : Ratio) : Slot :=
  ⟨.edge, .rat 20000, true, .rat 200, .rat min, .rat max, true, .comp⟩

/-- A leg with its pin and capability. -/
def legOf (k : LegType) (pin : Byte) (cap : Capability) : Leg := ⟨.inactive, k, pin, cap, 0, 0⟩

/-- The two members of an edge-aligned and of a center-aligned pair, and a single channel. -/
def refE : Chan := ⟨.pairRef, true, 0, 0⟩
def invE : Chan := ⟨.pairInv, false, 0, 0⟩
def refC : Chan := ⟨.pairRef, false, 0, 0⟩
def invC : Chan := ⟨.pairInv, true, 0, 0⟩
def oneE : Chan := ⟨.single, false, 0, 0⟩

/-- A controller of inverter 0 with the static configuration of V2.5b: its frequency, its target, its
requested activation, and its angle in turns. -/
def rampOf (init : Bool) (cur out : Ratio) (req : Activity) (turns : Ratio) : Vf :=
  ⟨init, .rat cur, .rat out, .inactive, req, .forward, .forward, TWO_PI.mul (.rat turns), .rat 1,
    .rat 5000, .rat 100000000, .rat 20000, 0⟩

/-- The static configuration of V2.4b, P4 and V2.3a, before anything is initialised. Leg 7 is a TNPC
leg whose last pin is the last channel. -/
def wired : State :=
  { bare with
    cfg := [(0, plainSlot 0), (1, plainSlot 0), (2, plainSlot 0), (3, plainSlot 0), (4, plainSlot 0),
      (5, plainSlot 0), (6, centerSlot 0), (7, centerSlot 0), (8, compSlot 0 0),
      (9, { plainSlot 0 with fsw := .rat 0 }), (10, { compSlot 0 (9 / 10) with bal := false })]
    leg := [(0, legOf .default 1 .none), (1, legOf .default 3 .none), (2, legOf .default 5 .none),
      (3, legOf .default 7 .none), (4, legOf .default 7 .none), (5, legOf .default 9 .none),
      (6, legOf .tnpc 11 .none), (7, legOf .tnpc 13 .none)]
    inv := [(0, ⟨.inactive, false, true, false, 20, 2⟩)]
    vf := [(0, rampOf false 0 0 .inactive 0)] }

/-- The same after every unit has been initialised (V2.4b, P4, V2.3a), the duplicate leg in use. -/
def started : State :=
  { wired with
    tim := [(0, plainTim), (1, centerTim)]
    ch := [(1, refE), (2, invE), (3, refE), (4, invE), (5, refE), (6, invE), (7, refE), (8, invE),
      (9, refE), (10, invE), (11, refC), (12, invC), (13, refC), (14, invC)]
    cfg := [(0, plainSlot 1), (1, plainSlot 1), (2, plainSlot 1), (3, plainSlot 1), (4, plainSlot 1),
      (5, plainSlot 1), (6, centerSlot 1), (7, centerSlot 1), (8, compSlot 0 0)]
    leg := [(0, legOf .default 1 .singlePair), (1, legOf .default 3 .singlePair),
      (2, legOf .default 5 .singlePair), (3, legOf .default 7 .singlePair),
      (4, legOf .default 7 .singlePair), (5, legOf .default 9 .singlePair),
      (6, legOf .tnpc 11 .tnpcSplit), (7, legOf .tnpc 13 .none)]
    inv := [(0, ⟨.inactive, true, true, true, 20, 2⟩)]
    psfb := [(0, ⟨.inactive, true⟩)]
    vf := [(0, rampOf true 0 5000 .inactive 0)]
    env := ⟨[], [], [⟨TWO_PI.mul (.rat (1 / 4)), .rat 1, .forward, .rat (3 / 4), .rat (1 / 2), .rat (1 / 4)⟩,
      ⟨.rat 0, .rat 0, .forward, .rat (1 / 2), .rat (1 / 2), .rat (1 / 2)⟩,
      ⟨.rat 0, .rat (4 / 5), .reverse, .rat (7 / 10), .rat (3 / 10), .rat (1 / 2)⟩]⟩ }

/-- V2.2a after `CFGPAIR 1, 8`, with channel 6 configured alone from slot 10 (V2.2c). -/
def compState : State :=
  { bare with
    tim := [(0, compTim)]
    ch := [(1, refE), (2, invE), (6, oneE)]
    cfg := [(8, compSlot (1 / 250) (249 / 250)), (10, { compSlot 0 (9 / 10) with bal := false })] }

/-- A request to activate is pending at standstill (P3, event 1). -/
def pending : State :=
  { started with
    vf := [(0, rampOf true 0 5000 .active 0)] }

/-- The period event of instance 0 is bound to callback 0x80, to controller 0, to a hanging 0x80. -/
def hooked : State := { compState with tim := [(0, { compTim with cb := 0x80 })] }
def ramped : State := { started with tim := [(0, { plainTim with cb := 1 }), (1, centerTim)] }
def hanging : State := { hooked with env := ⟨[], [0], []⟩ }

/-! ### One step of every command -/

/-- Section 2.6: `WRF CFG[2].MAX, 0.9`. -/
theorem test_wrf_max :
    ((after (.wrf 0x3025) (given (9 / 10) 0 0 bare)).cfgAt 2).max = .rat (9 / 10) := by decide +kernel

/-- Section 2.6: refusals of `WRF`. -/
theorem test_wrf_refusals :
    (after (.wrf 0x4002) (given 256 0 0 bare)).status = .errValue ∧
    (after (.wrf 0x3002) (given (1 / 2) 0 0 bare)).status = .errValue ∧
    (after (.wrf 0x2032) (given 5 0 0 bare)).status = .errRo ∧
    (after (.wrf 0x30C0) bare).status = .errAddr ∧
    (after (.wrf 0x4002) (given 4 0 0 bare)).status = .ok := by decide +kernel

/-- Section 2.6: `RDF TIM[0].DT_CODE` and `CFG[8].MAX` of a configured machine. -/
theorem test_rdf :
    (after (.rdf 0x1006) compState).res0 = .rat 40 ∧ (after (.rdf 0x1006) compState).rescode = 0x28 ∧
    (after (.rdf 0x3085) compState).res0 = .rat (249 / 250) ∧
    (after (.rdf 0x3085) compState).rescode = 0 := by decide +kernel

/-- Section 2.6: `RESCODE` is the low byte of 7039. -/
theorem test_rdf_low_byte :
    (after (.rdf 0x2012) { bare with ch := [(1, { refE with cmps := 7039 })] }).rescode = 0x7F := by
  decide +kernel

/-- V2.1d; and by hand calculation (R131, R133) 2π ns at 200 MHz, 1.25… ticks. -/
theorem test_dtenc :
    (after .dtenc (given 1000 200000000 10000 bare)).rescode = 0xA4 ∧
    (after .dtenc (given 1000 200000000 10000 bare)).res0 = .rat (1 / 100) ∧
    (after .dtenc (given 5115 200000000 0 bare)).rescode = 0xFF ∧
    (after .dtenc (given 2555 200000000 0 bare)).rescode = 0xDF ∧
    (after .dtenc (givenTurns 1 (given 0 200000000 1000 bare))).rescode = 0x01 ∧
    (after .dtenc (givenTurns 1 (given 0 200000000 1000 bare))).res0 =
      TWO_PI.mul (.rat (1 / 1000000)) := by decide +kernel

/-- V2.1b, V2.1d; and -2π ns (R136). -/
theorem test_dtenc_refusals :
    (after .dtenc (givenTurns (-1) (given 0 200000000 0 bare))).status = .errValue ∧
    (after .dtenc (given 5120 200000000 0 bare)).status = .errDtRange ∧
    (after .dtenc (given (-1) 200000000 0 bare)).status = .errValue ∧
    (after .dtenc (given 200 0 20000 bare)).status = .errValue := by decide +kernel

/-- V2.2a: the timing that slot 8 gives instance 0, and the four calls. -/
theorem test_tinit :
    (after (.tinit 0 8) wired).timAt 0 = compTim ∧
    (after (.tinit 0 8) wired).ext.map (fun e => e.call) =
      [.configureBase 0 9999 .edge 0, .configureTriggerIn 0 0 0, .configureTriggerOut 0 0,
       .configureBreakDeadtime 0 0x28 0] := by decide +kernel

/-- V2.2h, last row: the third call fails. -/
theorem test_tinit_fatal :
    (after (.tinit 0 8) { wired with env := ⟨[2], [], []⟩ }).status = .fatalHwinit ∧
    (after (.tinit 0 8) { wired with env := ⟨[2], [], []⟩ }).halted = true ∧
    (after (.tinit 0 8) { wired with env := ⟨[2], [], []⟩ }).timAt 0 = Tim.reset ∧
    (after (.tinit 0 8) { wired with env := ⟨[2], [], []⟩ }).ext.map (fun e => e.answer) =
      [.ok, .ok, .fail] := by decide +kernel

/-- V2.2a. -/
theorem test_cfgpair :
    (after (.cfgpair 1 8) wired).chAt 1 = refE ∧ (after (.cfgpair 1 8) wired).chAt 2 = invE ∧
    (after (.cfgpair 1 8) wired).cfgAt 8 = compSlot (1 / 250) (249 / 250) := by decide +kernel

/-- V2.2h: refusals of `CFGPAIR`. -/
theorem test_cfgpair_refusals :
    (after (.cfgpair 2 8) wired).status = .errPinParity ∧
    (after (.cfgpair 0 8) wired).status = .errPinRange ∧
    (after (.cfgpair 17 8) wired).status = .errPinRange ∧
    (after (.cfgpair 1 12) wired).status = .errIndex := by decide +kernel

/-- V2.2c and V2.2d: even and odd, edge and center. -/
theorem test_cfgch :
    ((after (.cfgch 6 10) wired).chAt 6).ocsel = false ∧
    ((after (.cfgch 5 10) wired).chAt 5).ocsel = true ∧
    ((after (.cfgch 13 6) wired).chAt 13).ocsel = false ∧
    ((after (.cfgch 14 6) wired).chAt 14).ocsel = true ∧
    ((after (.cfgch 6 10) wired).cfgAt 10).max = .rat (9 / 10) := by decide +kernel

/-- V2.2a; and by hand calculation (R161, R165, R169): 2π clamps to `MAX` 249/250; 2π/8 = 0.785… lies
within the limits and comes back exactly, and with the compensation 1/250 it is 7893.19… of 9999 ticks. -/
theorem test_updpair_edge :
    ((after (.updpair 1 8) (given (1 / 2) 0 0 compState)).chAt 1).cmps = 5039 ∧
    ((after (.updpair 1 8) (given 0 0 0 compState)).chAt 2).cmps = 79 ∧
    ((after (.updpair 1 8) (given (6 / 5) 0 0 compState)).chAt 2).cmps = 9999 ∧
    (after (.updpair 1 8) (given 1 0 0 compState)).res0 = .rat (249 / 250) ∧
    (after (.updpair 1 8) (givenTurns 1 compState)).res0 = .rat (249 / 250) ∧
    (after (.updpair 1 8) (givenTurns (1 / 8) compState)).res0 = TWO_PI.mul (.rat (1 / 8)) ∧
    ((after (.updpair 1 8) (givenTurns (1 / 8) compState)).chAt 1).cmps = 7893 := by decide +kernel

/-- V2.2d. -/
theorem test_updpair_center :
    ((after (.updpair 11 6) (given (1 / 3) 0 0 started)).chAt 12).cmps = 3333 ∧
    ((after (.updpair 11 6) (given 0 0 0 started)).chAt 11).cmps = 5000 ∧
    ((after (.updpair 11 6) (given 1 0 0 started)).chAt 11).cmps = 0 := by decide +kernel

/-- V2.2c. -/
theorem test_updch :
    ((after (.updch 6 10) (given 1 0 0 compState)).chAt 6).cmps = 9039 ∧
    (after (.updch 6 10) (given 1 0 0 compState)).res0 = .rat (9 / 10) ∧
    ((after (.updch 6 10) (given 0 0 0 compState)).chAt 6).cmps = 0 ∧
    (after (.updch 6 10) (given (-1 / 10) 0 0 compState)).status = .errValue := by decide +kernel

/-- V2.2h: a pair reference is no single channel. -/
theorem test_updch_needs_single :
    (after (.updch 1 8) (given (1 / 2) 0 0 compState)).status = .errNotInit := by decide +kernel

/-- V2.2i: enabling, with the null callback and with 0x80. -/
theorem test_cfgirq_enable :
    (after (.cfgirq 0 0 3 true) compState).timAt 0 = compTim ∧
    (after (.cfgirq 0 0x80 3 true) compState).timAt 0 = { compTim with cb := 0x80, cbPrio := 3 } ∧
    (after (.cfgirq 0 2 0 true) compState).status = .errValue := by decide +kernel

/-- V2.2i: disabling keeps the priority. -/
theorem test_cfgirq_disable :
    (after (.cfgirq 0 0x80 7 false)
      { compState with tim := [(0, { compTim with cb := 1, cbPrio := 5 })] }).timAt 0 =
      { compTim with cb := 0, cbPrio := 5 } ∧
    (after (.cfgirq 0 0x80 7 false) hooked).ext = [⟨.irqConfig 0 false 0, .ok⟩] := by decide +kernel

/-- V2.3a: the tag and the calls. -/
theorem test_cfgleg :
    (after (.cfgleg 6) wired).rescode = 2 ∧ (after (.cfgleg 0) wired).rescode = 1 ∧
    ((after (.cfgleg 6) wired).ext.map (fun e => e.call)).drop 4 =
      [.setPinAsPwmRole 11, .setPinAsPwmRole 12, .setPinAsPwmRole 13, .setPinAsPwmRole 14] ∧
    ((after (.cfgleg 6) wired).cfgAt 6).max = .rat 1 := by decide +kernel

/-- V2.3d. -/
theorem test_cfgleg_refusals :
    (after (.cfgleg 9) bare).status = .errIndex ∧ (after (.cfgleg 0) bare).status = .errPinRange ∧
    (after (.cfgleg 6) { bare with leg := [(6, legOf .tnpc 15 .none)] }).status = .errPinRange ∧
    (after (.cfgleg 6) { bare with leg := [(6, legOf .tnpc 4 .none)] }).status = .errPinParity := by
  decide +kernel

/-- V2.3c. -/
theorem test_enleg :
    (after (.enleg 6 true) started).oen = 0x3C00 ∧ (after (.enleg 2 true) started).oen = 0x30 ∧
    (after (.enleg 5 false) { started with oen := 0x3F0 }).oen = 0xF0 ∧
    ((after (.enleg 2 true) started).legAt 2).state = .active := by decide +kernel

/-- V2.3d: the capability is tested. -/
theorem test_enleg_not_configured :
    (after (.enleg 0 true) bare).status = .errNotInit := by decide +kernel

/-- V2.3a. -/
theorem test_capupd_tnpc :
    ((after (.capupd 6) (given (3 / 4) 0 0 started)).chAt 11).cmps = 2500 ∧
    ((after (.capupd 6) (given (3 / 4) 0 0 started)).chAt 14).cmps = 0 ∧
    ((after (.capupd 6) (given (1 / 4) 0 0 started)).chAt 12).cmps = 5000 ∧
    ((after (.capupd 6) (given (1 / 4) 0 0 started)).chAt 13).cmps = 2500 := by decide +kernel

/-- V2.3a: the pre-split duty is returned. -/
theorem test_capupd_returns_duty :
    (after (.capupd 6) (given (6 / 5) 0 0 started)).res0 = .rat (6 / 5) ∧
    (after (.capupd 0) (given (6 / 5) 0 0 started)).res0 = .rat 1 ∧
    (after (.capupd 0) (given (1 / 2) 0 0 bare)).status = .errNotInit := by decide +kernel

/-- V2.4b. -/
theorem test_invinit :
    ((after (.invinit 0) wired).chAt 8).cmps = 4999 ∧
    (after (.invinit 0) wired).invAt 0 = ⟨.inactive, true, true, true, 20, 2⟩ ∧
    ((after (.invinit 0) wired).ext.map (fun e => e.call)).drop 4 =
      [.setPinAsDigitalOutput 20 0, .setPinAsDigitalOutput 21 0, .setOutputsEnabled 0x3 false,
       .setOutputsEnabled 0xC false, .setOutputsEnabled 0x30 false,
       .setOutputsEnabled 0xC0 false] := by decide +kernel

/-- V2.4c. -/
theorem test_invinit_refusals :
    (after (.invinit 1) bare).status = .errIndex ∧
    (after (.invinit 0) bare).status = .errPinRange ∧
    (after (.invinit 0) { wired with inv := [(0, ⟨.inactive, false, true, false, 255, 2⟩)] }).status =
      .errValue ∧
    (after (.invinit 0)
      { wired with leg := [(0, legOf .default 1 .none), (1, legOf .default 4 .none)] }).status =
      .errPinParity := by decide +kernel

/-- V2.4b: the duplicate gets the third duty. -/
theorem test_invupd :
    ([1, 3, 5, 7, 8].map fun n =>
      ((after (.invupd 0) (given (1 / 10) (1 / 5) (3 / 10) started)).chAt n).cmps) =
      [999, 1999, 2999, 2999, 2999] ∧
    (after (.invupd 0) (given (1 / 10) (1 / 5) (3 / 10) started)).res3 = .rat (3 / 10) := by decide +kernel

/-- The stub generator's reverse answer at mi = 4/5 (P1, statement 37), without dead-time. -/
theorem test_invspwm :
    ([1, 3, 5].map fun n =>
      ((after (.invspwm 0 .reverse) (given 0 (4 / 5) 0 started)).chAt n).cmps) =
      [6999, 2999, 4999] ∧
    (after (.invspwm 0 .reverse) (given 0 (4 / 5) 0 started)).res1 = .rat (3 / 10) := by decide +kernel

/-- V2.4b. -/
theorem test_invact :
    (after (.invact 0 true) started).oen = 0xFF ∧
    ((after (.invact 0 true) started).invAt 0).state = .active ∧
    (after (.invact 0 true) bare).status = .errNotInit := by decide +kernel

/-- P4. -/
theorem test_psfbinit :
    (after (.psfbinit 0) wired).psfbAt 0 = ⟨.inactive, true⟩ ∧
    ((after (.psfbinit 0) wired).chAt 10).cmps = 4999 ∧
    (after (.psfbinit 0) { wired with leg := [(4, legOf .default 7 .none), (5, legOf .tnpc 9 .none)]
      }).status = .errLegType := by decide +kernel

/-- V2.4d. -/
theorem test_psfbupd :
    (after (.psfbupd 0) (given (3 / 5) 0 0 started)).ext = [⟨.setPhaseShift 9 (.rat (3 / 10)), .ok⟩] ∧
    (after (.psfbupd 0) (given (3 / 2) 0 0 started)).res0 = .rat (3 / 4) := by decide +kernel

/-- P4, statement 23: pins 7 to 10. -/
theorem test_psfbact :
    (after (.psfbact 0 true) started).oen = 0x3C0 ∧
    ((after (.psfbact 0 true) started).psfbAt 0).state = .active := by decide +kernel

/-- V2.5b. -/
theorem test_vfinit :
    ((after (.vfinit 0) wired).vfAt 0).init = true ∧
    (after (.vfinit 0) bare).status = .errValue ∧ (after (.vfinit 1) bare).status = .errIndex := by
  decide +kernel

/-- V2.5c, step 1. -/
theorem test_vfstep_tracks :
    (after (.vfstep 0) started).res0 = .rat 5000 ∧ (after (.vfstep 0) started).res1 = .rat 1 ∧
    (after (.vfstep 0) started).res2 = TWO_PI.mul (.rat (1 / 4)) ∧
    ([1, 3, 5].map fun n => ((after (.vfstep 0) started).chAt n).cmps) = [7499, 4999, 2499] := by
  decide +kernel

/-- P3, event 1: the activation commits in the first cycle, at frequency 0. -/
theorem test_vfstep_commits :
    ((after (.vfstep 0) pending).vfAt 0).curState = .active ∧
    ((after (.vfstep 0) pending).vfAt 0).curFreq = .rat 0 ∧
    (after (.vfstep 0) pending).oen = 0xFF := by decide +kernel

/-- V2.2i: the shadow commit, of this instance only, and the external callback. -/
theorem test_per_elapsed :
    ((onEvent (.perElapsed 0) { hooked with ch := [(1, { refE with cmps := 5039 }),
      (11, { refC with cmps := 7 })] }).chAt 1).cmpa = 5039 ∧
    ((onEvent (.perElapsed 0) { hooked with ch := [(1, { refE with cmps := 5039 }),
      (11, { refC with cmps := 7 })] }).chAt 11).cmpa = 0 ∧
    (onEvent (.perElapsed 0) hooked).ext = [⟨.callback 0 0x80, .ok⟩] := by decide +kernel

/-- R340, R341: everything but the trace is cleared. -/
theorem test_reset :
    onEvent .reset { started with halted := true, callNo := 4 } =
      { bare with env := started.env, callNo := 4 } := by decide +kernel

/-- The table's `INVINIT` row, run as the first command after reset. -/
theorem test_withFetchWord :
    decodeTableWord 32 0x40000000 = some (.invinit 0) ∧
    (bare.withFetchWord 32 0x40000000).inbox = [.command 0x40000000 bare.lanes] := by decide +kernel

/-! ### The hypotheses of the statements can be met

One theorem for each statement with hypotheses: a concrete state and operands that meet all of them
together, clause by clause, at the ends of the ranges. -/

/-- A property of the records listed in a bank, and of the reset record, is one of every index. -/
theorem of_bank {α : Type} (P : Nat → α → Prop) (d : α) (b : Bank α) (h : ∀ e ∈ b, P e.1 e.2)
    (hd : ∀ n, P n d) (n : Nat) : P n (Bank.read d b n) := by
  induction b with
  | nil => exact hd n
  | cons e b ih =>
    simp only [Bank.read]
    split
    · next hn => subst hn; exact h e (by simp)
    · exact ih fun x hx => h x (by simp [hx])

/-- `RDF GLB.OEN` is presented. -/
def reading : State := { started with inbox := [.command 0x02000100 started.lanes] }

theorem reading_steps : ∃ t, step reading = .next t := ⟨_, rfl⟩

theorem test_meets_DecodeOfEncodeIsIdentity :
    (Instr.updpair 255 255).wellFormed = true ∧ (Instr.cfgirq 0 0xFF 15 true).wellFormed = true := by
  decide

theorem test_meets_EncodeOfDecodeIsIdentity :
    decode 0x23FFFF00 = .ok (.updpair 255 255) ∧ decode 0x25FFFFF1 = .ok (.cfgirq 255 0xFF 15 true) := by
  decide

theorem test_meets_TableRowDecidesDecoding :
    decode 0x25FFFFF1 = .ok (.cfgirq 255 0xFF 15 true) ∧
    (0x25FFFFF1 : Word) &&& (Instr.cfgirq 0 0 0 true).tableMask =
      (Instr.cfgirq 0 0 0 true).tableMatch := by decide

theorem test_meets_IllegalWordOnlyReportsStatus :
    bare.halted = false ∧ illegalWord 0x10000001 ∧ illegalWord 0x62000000 ∧ illegalWord 0 :=
  ⟨rfl, .inr ⟨.dtenc, by decide, by decide⟩, .inl (by decide), .inl (by decide)⟩

theorem test_meets_StepRunsDecodedCommand :
    reading.inbox = [.command 0x02000100 started.lanes] ∧ decode 0x02000100 = .ok (.rdf 0x0001) := by
  decide +kernel

theorem test_meets_StepTakesEventsInOrder :
    bare.inbox = [] ∧ ({ bare with inbox := [.perElapsed 1] } : State).inbox = [.perElapsed 1] ∧
    ({ bare with inbox := [.reset] } : State).inbox = [.reset] := ⟨rfl, rfl, rfl⟩

theorem test_meets_StepStopsOnlyOnHungCallback :
    reading.nextEventReturns ∧ ¬ ({ hanging with inbox := [.perElapsed 0] } : State).nextEventReturns :=
  ⟨fun t rest h => by (simp [reading] at h),
   fun h => absurd (h 0 [] rfl) (by decide +kernel)⟩

theorem test_meets_ResetEventRestoresEveryField :
    let s : State := { stopped with inbox := [.reset] }
    s.inbox = .reset :: [] ∧ s.halted = true ∧
      ∃ t, step s = .next t ∧ t.halted = false := ⟨rfl, rfl, _, rfl, rfl⟩

theorem test_meets_BanksStayCanonical :
    reading.banksWf = true ∧ ∃ t, step reading = .next t := ⟨by decide +kernel, reading_steps⟩

/-- A machine with dead-time, its timer read next. -/
def dtReading : State := { compState with inbox := [.command 0x02100600 compState.lanes] }

theorem test_meets_DeadTimeStateStaysDerived :
    dtReading.deadTimeDerived ∧ (dtReading.timAt 0).init = true ∧ ∃ t, step dtReading = .next t := by
  refine ⟨fun u => ?_, by decide +kernel, _, rfl⟩
  exact of_bank (fun u r => r.init = true →
    (r.dtEn = true → dtEncode r.dtNs (Params.ex.timer u).clkHz = some r.dtCode ∧
      r.dutyDt = dtComp r.dtNs r.fsw) ∧ (r.dtEn = false → r.dtCode = 0 ∧ r.dutyDt = .rat 0))
    Tim.reset compState.tim (by decide +kernel) (fun _ h => by cases h) u

theorem test_meets_PeriodsAndComparesStayInRange :
    reading.params.valid = true ∧ reading.periodsFit ∧ reading.comparesFit ∧
    ∃ t, step reading = .next t := by
  refine ⟨Params.valid_ex, ?_, ⟨?_, ?_⟩, reading_steps⟩
  · exact of_bank (fun t r => r.init = true →
      t ≤ 1 ∧ 1 ≤ r.period ∧ r.period ≤ 2 ^ (Params.ex.timer t).width - 1)
      Tim.reset started.tim (by decide +kernel) (fun _ h => by cases h)
  · exact of_bank (fun _ r => r.init = false → r.period = 0)
      Tim.reset started.tim (by decide +kernel) (fun _ _ => rfl)
  · exact of_bank (fun n c => c.cmps ≤ (reading.timAt (instOf reading.params n)).period ∧
      c.cmpa ≤ (reading.timAt (instOf reading.params n)).period)
      Chan.reset started.ch (by decide +kernel) (fun n => ⟨Nat.zero_le (reading.timAt (instOf reading.params n)).period,
        Nat.zero_le (reading.timAt (instOf reading.params n)).period⟩)

/-- A controller three quarters of a turn on. -/
def turning : State :=
  { reading with
    vf := [(0, rampOf true 5000 5000 .inactive (3 / 4))] }

theorem test_meets_PhaseAnglesStayInOneTurn :
    turning.anglesInTurn ∧ ∃ t, step turning = .next t :=
  ⟨of_bank (fun (_ : Nat) (v : Vf) => (NUM.rat 0).le v.theta ∧ v.theta.lt TWO_PI) Vf.reset turning.vf
     (by decide +kernel) (fun _ => by decide +kernel), _, rfl⟩

/-- Every output of the fixture is enabled. -/
def enabled : State := { reading with oen := 0xFFFF }

theorem test_meets_CodesAndEnablesStayLegal :
    enabled.codesLegal ∧ enabled.oenWithinPins ∧ ∃ t, step enabled = .next t := by
  refine ⟨⟨?_, ?_⟩, fun q hq => ?_, _, rfl⟩
  · exact of_bank (fun _ r => r.cap ≠ .phaseShift) Leg.reset enabled.leg (by decide +kernel)
      (fun _ => by decide)
  · exact of_bank (fun _ r => r.cb = 0 ∨ callbackLegal Params.ex r.cb = true) Tim.reset enabled.tim
      (by decide +kernel) (fun _ => .inl rfl)
  · have h16 : 16 ≤ q := hq
    show (BitVec.ofNat 255 0xFFFF).getLsbD q = false
    rw [BitVec.getLsbD_ofNat]
    have : Nat.testBit 0xFFFF q = false :=
      Nat.testBit_lt_two_pow (lt_of_lt_of_le (by norm_num : 0xFFFF < 2 ^ 16)
        (Nat.pow_le_pow_right (by norm_num) h16))
    simp [this]

theorem test_meets_TimerTimingIsWrittenOnce :
    (∃ t, step reading = .next t) ∧ (∀ rest, reading.inbox ≠ .reset :: rest) ∧
    (reading.timAt 0).init = true ∧
    ∃ u, step { bare with inbox := [.command 0 bare.lanes] } = .next u ∧ (u.timAt 1).init = false :=
  ⟨reading_steps, fun _ h => (by simp [reading] at h), by decide +kernel, _, rfl,
    by decide +kernel⟩

theorem test_meets_ParametersAndEnvironmentNeverChange : ∃ t, step reading = .next t := reading_steps

theorem test_meets_ControllerCommitsOnlyAtStandstill :
    (match step { pending with inbox := [.command 0x61000000 pending.lanes] } with
      | .next t => decide ((t.vfAt 0).curState ≠ (pending.vfAt 0).curState)
      | _ => false) = true := by decide +kernel

theorem test_meets_HaltedStateRefusesEverything :
    let s : State := { stopped with inbox := [.command 0x02000000 stopped.lanes] }
    let u : State := { stopped with inbox := [.perElapsed 0] }
    s.halted = true ∧ s.inbox = .command 0x02000000 stopped.lanes :: [] ∧ u.halted = true ∧
    u.inbox = .perElapsed 0 :: [] := ⟨rfl, rfl, rfl, rfl⟩

/-- The last of the four calls fails. -/
def failing : State := { wired with env := ⟨[3], [], []⟩ }

theorem test_meets_HaltExactlyOnFailedTimerCall :
    failing.halted = false ∧ exec (.tinit 0 8) failing = .next (after (.tinit 0 8) failing) ∧
    (after (.tinit 0 8) failing).halted = true := ⟨rfl, rfl, by decide +kernel⟩

theorem test_meets_SimpleCommandErrorsArePrecise :
    (Instr.tinit 0 9).precise = true ∧ wired.halted = false ∧
    exec (.tinit 0 9) wired = .next (after (.tinit 0 9) wired) ∧
    (after (.tinit 0 9) wired).status = .errValue ∧
    exec (.tinit 0 8) failing = .next (after (.tinit 0 8) failing) ∧
    (after (.tinit 0 8) failing).status = .fatalHwinit :=
  ⟨rfl, rfl, rfl, by decide +kernel, rfl, by decide +kernel⟩

theorem test_meets_ErrorsClearResults :
    exec (.tinit 0 8) failing = .next (after (.tinit 0 8) failing) ∧
    (after (.tinit 0 8) failing).status = .fatalHwinit := ⟨rfl, by decide +kernel⟩

theorem test_meets_NonFiniteLaneIsRefusedFirst :
    let s : State := { bare with lanes := ⟨.num (.rat 0), .num (.rat 0), .notFinite⟩ }
    s.halted = false ∧ Lane.notFinite ∈ (Instr.invupd 7).lanesRead s.lanes := by decide +kernel

theorem test_meets_UseBeforeConfigurationIsRefused :
    bare.halted = false ∧ Lane.notFinite ∉ (Instr.updpair 1 11).lanesRead bare.lanes ∧
    ¬ (Instr.updpair 1 12).indexesExist bare ∧ (Instr.updpair 1 11).indexesExist bare ∧
    (Instr.updpair 1 11).unconfigured bare ∧ ¬ (Instr.vfstep 1).indexesExist bare ∧
    (Instr.vfstep 0).unconfigured bare := by
  simp only [Instr.indexesExist, Instr.unconfigured, Instr.lanesRead]
  decide +kernel

theorem test_meets_OnlyEnablingCommandsTouchOutputs :
    exec (.rdf 0x0001) enabled = .next (after (.rdf 0x0001) enabled) := rfl

/-- n nanoseconds are n ticks at 1 GHz. -/
theorem ticks_at_1GHz (n : Nat) :
    ⌊(NUM.rat n).real * (NUM.rat 1000000000).real / 1000000000⌋₊ = n := by
  rw [real_rat, real_rat]
  push_cast
  rw [mul_div_cancel_right₀ _ (by norm_num), Nat.floor_natCast]

/-- A dead-time and a clock at the ends of every tier. -/
theorem test_meets_DeadTimeTierRanges :
    ∀ n ∈ [0, 127, 128, 255, 256, 511, 512, 1023, 1024],
      0 ≤ (NUM.rat (n : Nat)).real ∧ 0 < (NUM.rat 1000000000).real ∧
      ⌊(NUM.rat n).real * (NUM.rat 1000000000).real / 1000000000⌋₊ = n := by
  refine fun n _ => ⟨?_, ?_, ticks_at_1GHz n⟩ <;> rw [real_rat] <;> norm_num

/-- Two dead-times in order; a number that involves `TWO_PI` among them: 2π ns at 200 MHz. -/
theorem test_meets_DeadTimeQuantisation :
    (NUM.rat 640).real * (NUM.rat 200000000).real / 1000000000 ≤
      (NUM.rat 5115).real * (NUM.rat 200000000).real / 1000000000 ∧
    dtEncode (.rat 640) (.rat 200000000) = some 0x80 ∧
    dtEncode (.rat 5115) (.rat 200000000) = some 0xFF ∧ 0 ≤ TWO_PI.real ∧
    dtEncode TWO_PI (.rat 200000000) = some 0x01 := by
  refine ⟨?_, by decide +kernel, by decide +kernel, ?_, by decide +kernel⟩
  · simp only [real_rat]; norm_num
  · rw [real_two_pi]; exact Real.two_pi_pos.le

theorem test_meets_RealAndIntegerReadingsAgree :
    0 ≤ (NUM.rat 1023).real ∧ 0 < 16 ∧ 0 ≤ (NUM.rat 5120).real ∧ 0 < (NUM.rat 200000000).real := by
  simp only [real_rat]; norm_num

theorem test_meets_DtencEncodesDeadTime :
    (given 1023 1000000000 0 bare).lanes.arg0.value = some (.rat 1023) ∧
    (given 1023 1000000000 0 bare).lanes.arg1.value = some (.rat 1000000000) ∧
    (given 1023 1000000000 0 bare).lanes.arg2.value = some (.rat 0) ∧
    (given 1023 1000000000 0 stopped).halted = true ∧
    (given 1023 1000000000 0 bare).halted = false ∧
    0 ≤ (NUM.rat 1023).real ∧ 0 < (NUM.rat 1000000000).real ∧
    ⌊(NUM.rat (1023 : Nat)).real * (NUM.rat 1000000000).real / 1000000000⌋₊ < 1024 ∧
    1024 ≤ ⌊(NUM.rat (1024 : Nat)).real * (NUM.rat 1000000000).real / 1000000000⌋₊ ∧
    (NUM.rat (-1)).real < 0 := by
  rw [ticks_at_1GHz, ticks_at_1GHz]
  refine ⟨rfl, rfl, rfl, rfl, rfl, ?_, ?_, by decide, by decide, ?_⟩ <;> rw [real_rat] <;> norm_num

theorem test_meets_AddressesFollowTheTable :
    resolve Params.ex 0x2103 = some (.ch 16 .cmpa) ∧ legalAddr Params.ex 0x2103 ∧
    ¬ legalAddr Params.ex 0x2113 ∧ ¬ legalAddr Params.ex 0x2003 ∧ ¬ legalAddr Params.ex 0x8000 ∧
    bare.halted = false ∧ bare.lanes.arg0.value = some (.rat 0) := by
  simp only [legalAddr]
  and_intros <;> decide +kernel

theorem test_meets_WrfWritesOneField :
    (given 255 0 0 bare).halted = false ∧
    (given 255 0 0 bare).lanes.arg0.value = some (.rat 255) ∧
    resolve Params.ex 0x4072 = some (.leg 7 .pin) ∧ (Cell.leg 7 .pin).writable = true ∧
    (Cell.leg 7 .pin).accepts (.rat 255) ∧ bare.writeRefusal 0x4082 (.rat 256) .errAddr ∧
    bare.writeRefusal 0x4073 (.rat 255) .errRo ∧
    bare.writeRefusal 0x3020 (.rat 2) .errValue ∧
    stopped.writeRefusal 0x3020 (.rat 0) .fatalHwinit := by
  refine ⟨rfl, rfl, by decide +kernel, rfl, ⟨255, by decide, by decide +kernel⟩, ?_, ?_, ?_, ?_⟩
  · rfl
  · rfl
  · exact ⟨fun h => by rcases h with h | h <;> revert h <;> decide +kernel, rfl⟩
  · rfl

/-- 2π/8, written to `MAX`, to an enumeration and to a read-only field. -/
theorem test_meets_TwoPiNumberIsReadBackExactly :
    let s : State := givenTurns (1 / 8) bare
    let v : NUM := TWO_PI.mul (.rat (1 / 8))
    s.halted = false ∧ s.lanes.arg0.value = some v ∧ (∀ q, v ≠ .rat q) ∧
    resolve s.params 0x3025 = some (.cfg 2 .max) ∧ (Cell.cfg 2 .max).accepts v ∧
    (Cell.cfg 2 .max).writable = true ∧
    resolve s.params 0x3020 = some (.cfg 2 .align) ∧ ¬ (Cell.cfg 2 .align).accepts v ∧
    resolve s.params 0x7007 = some (.vf 0 .theta) ∧ (Cell.vf 0 .theta).writable = false := by
  refine ⟨rfl, rfl, ?_, by decide +kernel, trivial, rfl, by decide +kernel, ?_, by decide +kernel, rfl⟩
  · rw [show TWO_PI.mul (.rat (1 / 8)) = .tau ⟨[0, 1 / 8], [1], by decide +kernel⟩ by decide +kernel]
    exact fun q h => by cases h
  · intro h
    rcases h with h | h <;> revert h <;> decide +kernel

theorem test_meets_RdfReturnsTheField :
    bare.halted = false ∧ resolve Params.ex 0x700C = some (.vf 0 .inv) ∧ stopped.halted = true ∧
    resolve Params.ex 0x700D = none := by decide +kernel

/-- The timing that slot 8 of `wired` gives instance 0 (V2.2a). -/
theorem test_slotTiming : slotTiming (Params.ex.timer 0) (wired.cfgAt 8) ⟨9999, 0x28, .rat (1 / 250)⟩ := by
  unfold slotTiming
  decide +kernel

theorem test_meets_TinitConfiguresOnce :
    wired.halted = false ∧ 8 < wired.params.ncfg ∧ (wired.timAt 0).init = false ∧
    wired.baseCallsOk ∧ failing.baseCallFails 3 ∧ (started.timAt 1).init = true ∧
    wired.timerRefusal 2 8 .errIndex ∧ wired.timerRefusal 1 12 .errIndex ∧
    stopped.timerRefusal 0 0 .fatalHwinit ∧ wired.timerRefusal 0 9 .errValue := by
  unfold State.timerRefusal slotRefusal State.baseCallsOk State.baseCallFails
  decide +kernel

theorem test_meets_TinitConfiguresOnce_slot_refusals :
    slotRefusal (Params.ex.timer 0) ⟨.edge, .rat 200000000, false, .rat 0, .rat 0, .rat 0, false, .noComp⟩ .errValue ∧
    slotRefusal (Params.ex.timer 0) ⟨.edge, .rat 3000, false, .rat 0, .rat 0, .rat 0, false, .noComp⟩ .errValue ∧
    slotRefusal (Params.ex.timer 0) ⟨.edge, .rat 20000, true, .rat (-1), .rat 0, .rat 0, false, .noComp⟩ .errValue ∧
    slotRefusal (Params.ex.timer 0) ⟨.edge, .rat 20000, true, .rat 5120, .rat 0, .rat 0, false, .noComp⟩ .errDtRange ∧
    slotRefusal (Params.ex.timer 0) ⟨.edge, .rat 400000, true, .rat 2500, .rat 0, .rat 0, false, .noComp⟩ .errValue := by
  unfold slotRefusal
  decide +kernel

theorem test_meets_CfgpairConfiguresPair :
    wired.halted = false ∧ 8 < wired.params.ncfg ∧ 15 ≤ wired.params.npwm ∧
    (wired.lazyTim (instOf wired.params 1) 8).init = true ∧
    (wired.lazyTim (instOf wired.params 15) 7).init = true ∧ wired.baseCallsOk ∧
    failing.baseCallFails 3 ∧ (failing.timAt (instOf failing.params 1)).init = false ∧
    (failing.lazyTim (instOf failing.params 1) 8).init = true ∧
    (started.timAt (instOf started.params 1)).init = true ∧
    (started.lazyTim (instOf started.params 1) 11).init = true := by
  unfold State.baseCallsOk State.baseCallFails
  decide +kernel

theorem test_meets_CfgpairConfiguresPair_refusals :
    wired.pairRefusal 1 12 .errIndex ∧ wired.pairRefusal 0 8 .errPinRange ∧
    wired.pairRefusal 17 8 .errPinRange ∧ wired.pairRefusal 16 8 .errPinParity ∧
    wired.pairRefusal 1 9 .errValue ∧ stopped.pairRefusal 1 0 .fatalHwinit := by
  unfold State.pairRefusal State.timerRefusal slotRefusal
  and_intros <;> decide +kernel

theorem test_meets_CfgchConfiguresChannel :
    wired.halted = false ∧ 10 < wired.params.ncfg ∧ 16 ≤ wired.params.npwm ∧
    (wired.lazyTim (instOf wired.params 16) 10).init = true ∧ wired.baseCallsOk ∧
    failing.baseCallFails 3 ∧ (failing.timAt (instOf failing.params 16)).init = false ∧
    wired.channelRefusal 1 12 .errIndex ∧ wired.channelRefusal 0 8 .errPinRange ∧
    wired.channelRefusal 17 8 .errPinRange ∧ wired.channelRefusal 16 9 .errValue ∧
    stopped.channelRefusal 1 0 .fatalHwinit := by
  unfold State.channelRefusal State.timerRefusal slotRefusal State.baseCallsOk State.baseCallFails
  and_intros <;> decide +kernel

theorem test_meets_LimitsFollowTheRules :
    wired.halted = false ∧ exec (.cfgpair 1 8) wired = .next (after (.cfgpair 1 8) wired) ∧
    (after (.cfgpair 1 8) wired).status = .ok ∧
    ((after (.cfgpair 1 8) wired).timAt 0).dtEn = true ∧ (wired.cfgAt 8).max.real = 0 ∧
    (wired.cfgAt 8).bal = true ∧ 1 / 2 < ((after (.cfgpair 1 8) wired).cfgAt 8).max.real ∧
    exec (.cfgch 6 10) wired = .next (after (.cfgch 6 10) wired) ∧
    (after (.cfgch 6 10) wired).status = .ok ∧ (wired.cfgAt 10).max.real ≠ 0 ∧
    ((after (.cfgch 6 10) wired).timAt 0).dtEn = true := by
  have h1 : (wired.cfgAt 8).max = .rat 0 := by decide +kernel
  have h2 : ((after (.cfgpair 1 8) wired).cfgAt 8).max = .rat (249 / 250) := by decide +kernel
  have h3 : (wired.cfgAt 10).max = .rat (9 / 10) := by decide +kernel
  rw [h1, h2, h3, real_rat, real_rat, real_rat]
  refine ⟨rfl, rfl, ?_, ?_, ?_, ?_, ?_, rfl, ?_, ?_, ?_⟩ <;> first | decide +kernel | norm_num

theorem test_meets_LimitsFollowTheRules_without_dead_time :
    (after (.cfgpair 1 0) wired).status = .ok ∧
    ((after (.cfgpair 1 0) wired).timAt 0).dtEn = false ∧ (wired.cfgAt 0).max.real = 0 ∧
    (after (.cfgpair 1 0) started).status = .ok ∧ (started.cfgAt 0).max.real ≠ 0 ∧
    ((after (.cfgpair 1 0) started).timAt 0).dtEn = false := by
  have h1 : (wired.cfgAt 0).max = .rat 0 := by decide +kernel
  have h2 : (started.cfgAt 0).max = .rat 1 := by decide +kernel
  rw [h1, h2, real_rat, real_rat]
  refine ⟨?_, ?_, ?_, ?_, ?_, ?_⟩ <;> first | decide +kernel | norm_num

/-- A balanced pair whose upper limit is exactly 1/2, where the lower limit is kept (R159). -/
theorem test_meets_LimitsFollowTheRules_at_one_half :
    let s : State := { wired with cfg := [(0, { plainSlot (1 / 2) with bal := true, min := .rat (1 / 8) })] }
    s.halted = false ∧ exec (.cfgpair 1 0) s = .next (after (.cfgpair 1 0) s) ∧
    (after (.cfgpair 1 0) s).status = .ok ∧ (s.cfgAt 0).bal = true ∧
    ((after (.cfgpair 1 0) s).cfgAt 0).max = .rat (1 / 2) ∧
    ((after (.cfgpair 1 0) s).cfgAt 0).min = .rat (1 / 8) := by
  refine ⟨rfl, rfl, ?_, ?_, ?_, ?_⟩ <;> decide +kernel

/-- A slot with dead-time serves pairs of both instances. -/
theorem test_meets_ConfigurationIsIdempotent :
    (after (.cfgpair 1 8) wired).status = .ok ∧
    (after (.cfgpair 11 8) (after (.cfgpair 1 8) wired)).status = .ok ∧
    ((after (.cfgpair 11 8) (after (.cfgpair 1 8) wired)).timAt 0).dtEn = true ∧
    ((after (.cfgpair 11 8) (after (.cfgpair 1 8) wired)).timAt 1).dtEn = true ∧
    ((after (.cfgpair 11 8) (after (.cfgpair 1 8) wired)).timAt 0).dutyDt.real < 1 := by
  refine ⟨by decide +kernel, by decide +kernel, by decide +kernel, by decide +kernel, ?_⟩
  rw [show ((after (.cfgpair 11 8) (after (.cfgpair 1 8) wired)).timAt 0).dutyDt = .rat (1 / 250) by
    decide +kernel, real_rat]
  norm_num

theorem test_meets_UpdpairWritesBothShadows :
    (given 1 0 0 compState).halted = false ∧ (given 1 0 0 compState).lanes.arg0.value = some (.rat 1) ∧
    (given 1 0 0 compState).pairAccepts 1 8 (.rat 1) ∧ (given 0 0 0 started).pairAccepts 13 11 (.rat 0) := by
  unfold State.pairAccepts dutyFits
  decide +kernel

theorem test_meets_UpdpairWritesBothShadows_refusals :
    compState.pairDutyRefusal 1 12 (.rat 0) .errIndex ∧ compState.pairDutyRefusal 0 8 (.rat 0) .errPinRange ∧
    compState.pairDutyRefusal 17 8 (.rat 0) .errPinRange ∧ compState.pairDutyRefusal 16 8 (.rat 0) .errPinParity ∧
    compState.pairDutyRefusal 7 8 (.rat 0) .errNotInit ∧ stopped.pairDutyRefusal 1 0 (.rat 0) .fatalHwinit ∧
    ({ compState with cfg := [(8, compSlot 0 1)] } : State).pairDutyRefusal 1 8 (.rat 1) .errValue := by
  unfold State.pairDutyRefusal dutyFits
  and_intros <;> decide +kernel

theorem test_meets_UpdchWritesOneShadow :
    (given 1 0 0 compState).halted = false ∧ (given 1 0 0 compState).lanes.arg0.value = some (.rat 1) ∧
    (given 1 0 0 compState).channelAccepts 6 10 (.rat 1) ∧
    compState.channelDutyRefusal 6 12 (.rat 0) .errIndex ∧ compState.channelDutyRefusal 0 8 (.rat 0) .errPinRange ∧
    compState.channelDutyRefusal 17 8 (.rat 0) .errPinRange ∧
    compState.channelDutyRefusal 1 8 (.rat 0) .errNotInit ∧
    compState.channelDutyRefusal 6 10 (.rat (-1 / 10)) .errValue ∧
    stopped.channelDutyRefusal 1 0 (.rat 0) .fatalHwinit := by
  unfold State.channelAccepts State.channelDutyRefusal dutyFits
  decide +kernel

theorem test_meets_AppliedDutyStaysInLimits :
    exec (.updpair 1 8) (given 1 0 0 compState) = .next (after (.updpair 1 8) (given 1 0 0 compState)) ∧
    (after (.updpair 1 8) (given 1 0 0 compState)).status = .ok ∧
    (compState.cfgAt 8).min.real ≤ (compState.cfgAt 8).max.real ∧
    exec (.updch 6 10) (given 1 0 0 compState) = .next (after (.updch 6 10) (given 1 0 0 compState)) ∧
    (after (.updch 6 10) (given 1 0 0 compState)).status = .ok ∧
    (compState.timAt 0).init = true ∧ (compState.chAt 1).role = .pairRef ∧
    0 ≤ (compState.cfgAt 8).min.real ∧
    (compState.cfgAt 8).max.real ≤ 1 - (compOf (compState.timAt 0) (compState.cfgAt 8)).real ∧
    0 ≤ (compOf (compState.timAt 0) (compState.cfgAt 8)).real := by
  have h1 : (compState.cfgAt 8).min = .rat (1 / 250) := by decide +kernel
  have h2 : (compState.cfgAt 8).max = .rat (249 / 250) := by decide +kernel
  have h3 : compOf (compState.timAt 0) (compState.cfgAt 8) = .rat (1 / 250) := by decide +kernel
  rw [h1, h2, h3, real_rat, real_rat]
  refine ⟨rfl, ?_, ?_, rfl, ?_, ?_, ?_, ?_, ?_, ?_⟩ <;> first | decide +kernel | norm_num

/-- Ids at the ends of the legal ranges (1..NVF = 1 and 0x80..0xFF), and of the reserved one. -/
theorem test_meets_CfgirqSetsTheCallback :
    bare.halted = false ∧ (1 : Byte).toNat ≤ bare.params.nvf ∧ 0x80 ≤ (0x80 : Byte).toNat ∧
    0x80 ≤ (0xFF : Byte).toNat ∧ bare.params.nvf < (2 : Byte).toNat ∧ (0x7F : Byte).toNat < 0x80 ∧
    stopped.halted = true := by decide +kernel

theorem test_meets_PeriodEventCommitsThenCallsBack :
    let s : State := { ramped with inbox := [.perElapsed 0] }
    let u : State := { hooked with inbox := [.perElapsed 0] }
    let v : State := { hanging with inbox := [.perElapsed 0] }
    let w : State := { compState with inbox := [.perElapsed 1] }
    let x : State := { compState with inbox := [.perElapsed 0] }
    (s.halted = false ∧ (s.timAt 0).init = true ∧ (s.timAt 0).cb ≠ 0 ∧
      (s.timAt 0).cb.toNat ≤ s.params.nvf) ∧
    (u.halted = false ∧ (u.timAt 0).init = true ∧ u.params.nvf < (u.timAt 0).cb.toNat ∧
      u.callNo ∉ u.env.callbackHangs) ∧
    (v.params.nvf < (v.timAt 0).cb.toNat ∧ v.callNo ∈ v.env.callbackHangs) ∧
    (w.timAt 1).init = false ∧ (x.timAt 0).init = true ∧ (x.timAt 0).cb = 0 := by decide +kernel

/-- A Default leg, and a TNPC leg at the last pins. -/
theorem test_meets_CfglegResolvesCapability :
    wired.halted = false ∧ wired.params.valid = true ∧ 7 < wired.params.nleg ∧
    (wired.legAt 7).pin.toNat + 3 ≤ wired.params.npwm ∧
    wired.pairsReady (wired.legRefs 7) ∧ wired.pairsReady (wired.legRefs 0) := by
  refine ⟨rfl, Params.valid_ex, ?_⟩
  unfold State.pairsReady
  decide +kernel

/-- No timer-base call of a list fails where the failing numbers lie outside it. -/
theorem answered {s : State} {calls : List ExtCall}
    (h : ∀ m ∈ s.env.timerFails, m < s.callNo ∨ s.callNo + calls.length ≤ m) :
    s.callsAnswered calls := by
  intro j c hj _ hm
  have hlt : j < calls.length := (List.getElem?_eq_some_iff.mp hj).1
  rcases h _ hm with h | h <;> omega

/-- `wired` with a TNPC leg across the two instances, and a timer-base call of each that fails. -/
def straddling (sl : Slot) (fails : List Nat) : State :=
  { wired with leg := [(7, legOf .tnpc 9 .none)], cfg := [(7, sl)], env := ⟨fails, [], []⟩ }

/-- The fastest slot of instance 0 is too fast for instance 1. -/
def fastSlot : Slot := { plainSlot 0 with fsw := .rat 100000000 }

/-- The environment may fail any call but those made: number 8 is the first role call. -/
theorem test_meets_CfglegResolvesCapability_calls :
    (straddling (plainSlot 0) [8]).callsAnswered ((straddling (plainSlot 0) [8]).legsCalls [] [7]) ∧
    (straddling (plainSlot 0) [8]).pairsReady ((straddling (plainSlot 0) [8]).legRefs 7) ∧
    wired.callsAnswered (wired.legsCalls [] [7]) := by
  refine ⟨?_, ?_, answered (by decide)⟩
  · intro j c hj ht hm
    have h8 : 0 + j = 8 := List.mem_singleton.mp hm
    obtain rfl : j = 8 := by omega
    rw [show ((straddling (plainSlot 0) [8]).legsCalls [] [7])[8]? = some (.setPinAsPwmRole 9) by
      decide +kernel] at hj
    cases hj
    cases ht
  · unfold State.pairsReady
    decide +kernel

theorem test_meets_CfglegResolvesCapability_second_pair :
    let s := straddling fastSlot []
    s.halted = false ∧ s.params.valid = true ∧ 7 < s.params.nleg ∧ (s.legAt 7).kind = .tnpc ∧
    (s.legAt 7).pin.toNat + 3 ≤ s.params.npwm ∧ s.pairsReady [((s.legAt 7).pin.toNat, 7)] ∧
    s.callsAnswered (s.refsCalls [] [((s.legAt 7).pin.toNat, 7)]) ∧
    instOf s.params ((s.legAt 7).pin.toNat + 2) ≠ instOf s.params (s.legAt 7).pin.toNat ∧
    s.pairRefusal ((s.legAt 7).pin.toNat + 2) 7 .errValue := by
  refine ⟨rfl, Params.valid_ex, ?_, ?_, ?_, ?_, answered (by decide), ?_, ?_⟩
  all_goals first | decide +kernel | skip
  · unfold State.pairsReady
    decide +kernel
  · unfold State.pairRefusal State.timerRefusal slotRefusal
    decide +kernel

/-- The second of instance 0's calls fails, then the last of instance 1's. -/
theorem test_meets_CfglegResolvesCapability_failing_call :
    let s := straddling (plainSlot 0) [1]
    let u := straddling (plainSlot 0) [7]
    (s.legRefs 7 = [] ++ (9, 7) :: [(11, 7)] ∧ s.pairsReady ([] ++ [(9, 7)]) ∧
      (s.timAt (instOf s.params 9)).init = false ∧
      s.laterBaseCallFails (s.refsCalls [] []).length 1) ∧
    (u.legRefs 7 = [(9, 7)] ++ (11, 7) :: [] ∧ u.pairsReady ([(9, 7)] ++ [(11, 7)]) ∧
      u.callsAnswered (u.refsCalls [] [(9, 7)]) ∧
      ¬ onInstance u.params [(9, 7)] (instOf u.params 11) ∧
      (u.timAt (instOf u.params 11)).init = false ∧
      u.laterBaseCallFails (u.refsCalls [] [(9, 7)]).length 3) := by
  unfold State.pairsReady State.laterBaseCallFails onInstance
  refine ⟨⟨?_, ?_, ?_, ?_⟩, ?_, ?_, answered ?_, ?_, ?_, ?_⟩ <;> decide +kernel

theorem test_meets_CfglegResolvesCapability_refusals :
    bare.legRefusal 8 .errIndex ∧ bare.legRefusal 7 .errPinRange ∧
    ({ bare with leg := [(6, legOf .tnpc 15 .none)] } : State).legRefusal 6 .errPinRange ∧
    ({ bare with leg := [(6, legOf .tnpc 4 .none)] } : State).legRefusal 6 .errPinParity ∧
    ({ bare with leg := [(6, legOf .tnpc 13 .none)] } : State).legRefusal 6 .errValue ∧
    stopped.legRefusal 0 .fatalHwinit := by
  refine ⟨rfl, ?_, rfl, rfl, ?_, rfl⟩
  · exact (rfl : Status.errPinRange = .errPinRange)
  · show State.pairRefusal _ 13 6 _
    unfold State.pairRefusal State.timerRefusal slotRefusal
    decide +kernel

theorem test_meets_EnlegWritesOneMask :
    started.halted = false ∧ started.legEnables 6 ∧ started.legEnables 5 ∧
    started.enableRefusal 8 .errIndex ∧ started.enableRefusal 7 .errNotInit ∧
    ({ bare with leg := [(6, legOf .tnpc 15 .singlePair)] } : State).enableRefusal 6 .errPinRange ∧
    ({ bare with leg := [(6, legOf .default 0 .singlePair)] } : State).enableRefusal 6 .errPinRange ∧
    stopped.enableRefusal 0 .fatalHwinit := by
  unfold State.legEnables State.enableRefusal
  decide +kernel

/-- A TNPC leg whose second pair has lost its configuration: the second update is refused. -/
def halfLeg : State := { started with ch := [(11, refC), (12, invC)] }

theorem test_meets_CapupdGoesByCapability :
    started.halted = false ∧ (given 1 0 0 started).lanes.arg0.value = some (.rat 1) ∧
    (given 1 0 0 started).legAccepts 6 (.rat 1) ∧ (given 1 0 0 started).legAccepts 5 (.rat 1) ∧
    stopped.halted = true ∧ bare.params.nleg ≤ 8 ∧ (started.legAt 7).cap = .none ∧
    (started.legAt 5).cap = .singlePair ∧ (started.legAt 6).cap = .tnpcSplit ∧
    halfLeg.pairAccepts 11 6 (tnpcSplit (.rat 0)).1 ∧
    halfLeg.pairDutyRefusal 13 6 (tnpcSplit (.rat 0)).2 .errNotInit ∧
    (halfLeg.legAt 6).cap = .tnpcSplit ∧
    ({ started with tim := [] } : State).pairDutyRefusal 11 6 (tnpcSplit (.rat 0)).1 .errNotInit := by
  unfold State.legAccepts State.pairAccepts State.pairDutyRefusal dutyFits
  and_intros <;> decide +kernel

theorem test_meets_TnpcSplitIsExact :
    (NUM.rat 0).real < 1 / 2 ∧ 1 / 2 ≤ (NUM.rat (1 / 2)).real ∧ 0 ≤ (NUM.rat 1).real ∧
    (NUM.rat 1).real ≤ 1 ∧ 1 / 2 ≤ TWO_PI.real := by
  simp only [real_rat, real_two_pi]
  refine ⟨by norm_num, by norm_num, by norm_num, by norm_num, ?_⟩
  linarith [Real.pi_gt_three]

theorem test_meets_InvinitStartsInverter :
    wired.halted = false ∧ wired.params.valid = true ∧ 0 < wired.params.ninv ∧
    ¬ (wired.invAt 0).disablePinsOverrun ∧
    wired.legsStart (invLegs 0 (wired.invAt 0).dupEn) ∧
    wired.callsAnswered (wired.legsCalls [] (invLegs 0 (wired.invAt 0).dupEn)) := by
  refine ⟨rfl, Params.valid_ex, by decide, ?_, ?_, answered (by decide)⟩
  · unfold Inv.disablePinsOverrun
    decide +kernel
  · unfold State.legsStart State.pairsReady dutyFits
    decide +kernel

theorem wired_pins_good (l : Nat) (hl : l ∈ [0, 1, 2, 3]) (x : Status) :
    ¬ wired.pinFault legWidth l x := by
  unfold State.pinFault
  fin_cases hl <;> cases x <;> decide +kernel

/-- `wired` with a slot whose limit refuses 50%, or that has no usable frequency, for one leg. -/
def spoilt (l : Nat) (sl : Slot) (fails : List Nat) : State :=
  { wired with
    cfg := [(0, plainSlot 0), (1, plainSlot 0), (2, plainSlot 0), (3, plainSlot 0), (4, plainSlot 0),
      (5, plainSlot 0)].map (fun e => if e.1 = l then (l, sl) else e)
    env := ⟨fails, [], []⟩ }

/-- A slot whose upper limit is negative. -/
def lowSlot : Slot := plainSlot (-1)

theorem no_pin_fault (s : State) (h : s.params = wired.params) (hl : s.leg = wired.leg) (x : Status) :
    ¬ s.firstPinFault legWidth [0, 1, 2, 3] x := by
  rintro ⟨before, l, after, hls, -, hf⟩
  have hleg : s.legAt l = wired.legAt l := by unfold State.legAt; rw [hl]
  refine wired_pins_good l (by rw [hls]; simp) x ?_
  unfold State.pinFault at hf ⊢
  rwa [hleg, h] at hf

/-- The 50% of the third leg is refused after two legs have been started. -/
theorem test_meets_InvinitStartsInverter_duty_refused :
    let s := spoilt 2 lowSlot []
    s.halted = false ∧ s.params.valid = true ∧ 0 < s.params.ninv ∧
    ¬ (s.invAt 0).disablePinsOverrun ∧
    (∀ x, ¬ s.firstPinFault legWidth (invLegs 0 (s.invAt 0).dupEn) x) ∧
    invLegs 0 (s.invAt 0).dupEn = [0, 1] ++ 2 :: [3] ∧ s.legsStart [0, 1] ∧
    s.callsAnswered (s.legsCalls [] [0, 1]) ∧ (after (.invinit 0) s).status = .errValue := by
  refine ⟨rfl, Params.valid_ex, by decide, ?_, no_pin_fault _ rfl rfl, rfl, ?_, answered (by decide),
    by decide +kernel⟩
  · unfold Inv.disablePinsOverrun
    decide +kernel
  · unfold State.legsStart State.pairsReady dutyFits
    decide +kernel

/-- The first leg cannot be configured: its slot is unusable, or the last timer-base call fails. -/
theorem test_meets_InvinitStartsInverter_leg_refused :
    let s := spoilt 0 { plainSlot 0 with fsw := .rat 0 } []
    let u := spoilt 9 (plainSlot 0) [3]
    (∀ x, ¬ s.firstPinFault legWidth (invLegs 0 (s.invAt 0).dupEn) x) ∧
    invLegs 0 (s.invAt 0).dupEn = [] ++ 0 :: [1, 2, 3] ∧ s.legsStart [] ∧
    s.callsAnswered (s.legsCalls [] []) ∧ (after (.cfgleg 0) s).status = .errValue ∧
    (after (.invinit 0) s).status = .errValue ∧
    (∀ x, ¬ u.firstPinFault legWidth (invLegs 0 (u.invAt 0).dupEn) x) ∧
    (after (.invinit 0) u).status = .fatalHwinit := by
  refine ⟨no_pin_fault _ rfl rfl, rfl, ?_, answered (by decide), by decide +kernel, by decide +kernel,
    no_pin_fault _ rfl rfl, by decide +kernel⟩
  unfold State.legsStart State.pairsReady dutyFits
  decide +kernel

theorem test_meets_InvinitValidatesFirst :
    stopped.inverterRefusal 0 .fatalHwinit ∧ bare.inverterRefusal 1 .errIndex ∧
    bare.inverterRefusal 0 .errPinRange ∧
    ({ wired with inv := [(0, ⟨.inactive, false, true, false, 255, 2⟩)] } : State).inverterRefusal 0
      .errValue := by
  refine ⟨rfl, rfl, .inl ⟨[], 0, [1, 2], rfl, by simp, rfl⟩, .inr ⟨?_, ?_, rfl⟩⟩
  · rintro x ⟨before, l, after, hls, -, hf⟩
    refine wired_pins_good l ?_ x hf
    have h4 : [0, 1, 2, 3] = before ++ l :: after := hls
    rw [h4]; simp
  · unfold Inv.disablePinsOverrun
    decide +kernel

theorem test_meets_InvupdUpdatesLegsInOrder :
    (given 0 (1 / 2) 1 started).halted = false ∧
    (given 0 (1 / 2) 1 started).lanes.arg2.value = some (.rat 1) ∧
    (given 0 (1 / 2) 1 started).inverterAccepts 0 (.rat 0) (.rat (1 / 2)) (.rat 1) := by
  unfold State.inverterAccepts State.legAccepts State.pairAccepts dutyFits
  and_intros <;> decide +kernel

/-- `started` with a TNPC leg as third leg, whose second pair has lost its configuration. -/
def brokenInv : State :=
  { halfLeg with
    ch := [(1, refE), (2, invE), (3, refE), (4, invE), (11, refC), (12, invC)]
    leg := [(0, legOf .default 1 .singlePair), (1, legOf .default 3 .singlePair),
      (2, legOf .tnpc 11 .tnpcSplit), (3, legOf .default 7 .singlePair)] }

/-- The third leg refuses: its first pair is written. The same with the second leg not configured. -/
theorem test_meets_InvupdUpdatesLegsInOrder_refused :
    let s := given 0 (1 / 2) 1 brokenInv
    let u : State := { s with leg := [(0, legOf .default 1 .singlePair)] }
    (s.lanes.arg0.value = some (.rat 0) ∧ s.lanes.arg1.value = some (.rat (1 / 2)) ∧
      s.lanes.arg2.value = some (.rat 1) ∧ 0 < s.params.ninv ∧ (s.invAt 0).init = true ∧
      s.inverterUpdates 0 (.rat 0) (.rat (1 / 2)) (.rat 1) =
        [(0, .rat 0), (1, .rat (1 / 2))] ++ (2, .rat 1) :: [(3, .rat 1)] ∧
      (∀ r ∈ [((0 : Nat), NUM.rat 0), (1, .rat (1 / 2))], s.legAccepts r.1 r.2) ∧
      s.legDutyRefusal 2 (.rat 1) [(11, s.pairCompare 11 2 (.rat 1))] .errNotInit) ∧
    u.inverterUpdates 0 (.rat 0) (.rat (1 / 2)) (.rat 1) =
      [(0, .rat 0)] ++ (1, .rat (1 / 2)) :: [(2, .rat 1), (3, .rat 1)] ∧
    u.legAccepts 0 (.rat 0) ∧ u.legDutyRefusal 1 (.rat (1 / 2)) [] .errNotInit := by
  unfold State.legAccepts State.pairAccepts dutyFits
  refine ⟨⟨rfl, rfl, rfl, by decide, by decide +kernel, by decide +kernel, by decide +kernel,
      .inr ⟨?_, ?_, by decide +kernel⟩⟩,
    by decide +kernel, by decide +kernel, rfl, rfl⟩
  · unfold State.pairAccepts dutyFits
    decide +kernel
  · unfold State.pairDutyRefusal dutyFits
    decide +kernel

/-- The generator's answer is refused by the third leg. -/
theorem test_meets_InvspwmAppliesTheGenerator_refused :
    let s := given 0 (4 / 5) 0 brokenInv
    s.lanes.arg0.value = some (.rat 0) ∧ s.lanes.arg1.value = some (.rat (4 / 5)) ∧
    0 < s.params.ninv ∧ (s.invAt 0).init = true ∧
    s.spwm (.rat 0) (.rat (4 / 5)) .reverse = (.rat (7 / 10), .rat (3 / 10), .rat (1 / 2)) ∧
    s.inverterUpdates 0 (.rat (7 / 10)) (.rat (3 / 10)) (.rat (1 / 2)) =
      [(0, .rat (7 / 10)), (1, .rat (3 / 10))] ++ (2, .rat (1 / 2)) :: [(3, .rat (1 / 2))] ∧
    (∀ r ∈ [((0 : Nat), NUM.rat (7 / 10)), (1, .rat (3 / 10))], s.legAccepts r.1 r.2) ∧
    s.legDutyRefusal 2 (.rat (1 / 2)) [(11, s.pairCompare 11 2 (.rat 0))] .errNotInit := by
  unfold State.legAccepts State.pairAccepts dutyFits
  refine ⟨rfl, rfl, by decide, by decide +kernel, by decide +kernel, by decide +kernel,
    by decide +kernel, .inr ⟨?_, ?_, by decide +kernel⟩⟩
  · unfold State.pairAccepts dutyFits
    decide +kernel
  · unfold State.pairDutyRefusal dutyFits
    decide +kernel

theorem test_meets_InvspwmAppliesTheGenerator :
    (given 0 (4 / 5) 0 started).halted = false ∧
    (given 0 (4 / 5) 0 started).lanes.arg0.value = some (.rat 0) ∧
    (given 0 (4 / 5) 0 started).lanes.arg1.value = some (.rat (4 / 5)) ∧
    (given 0 (4 / 5) 0 started).spwm (.rat 0) (.rat (4 / 5)) .reverse =
      (.rat (7 / 10), .rat (3 / 10), .rat (1 / 2)) ∧
    (given 0 (4 / 5) 0 started).inverterAccepts 0 (.rat (7 / 10)) (.rat (3 / 10)) (.rat (1 / 2)) := by
  unfold State.inverterAccepts State.legAccepts State.pairAccepts dutyFits
  and_intros <;> decide +kernel

theorem test_meets_InvactSwitchesEveryLeg :
    started.halted = false ∧ 0 < started.params.ninv ∧ (started.invAt 0).init = true ∧
    ∀ l ∈ started.inverterLegs 0, started.legEnables l := by
  unfold State.legEnables
  decide +kernel

/-- The second leg is not configured. -/
theorem test_meets_InvactSwitchesEveryLeg_refused :
    let s : State := { started with leg := [(0, legOf .default 1 .singlePair)] }
    s.halted = false ∧ 0 < s.params.ninv ∧ (s.invAt 0).init = true ∧
    s.inverterLegs 0 = [0] ++ 1 :: [2, 3] ∧ (∀ m ∈ [0], s.legEnables m) ∧
    s.enableRefusal 1 .errNotInit := by
  unfold State.legEnables State.enableRefusal
  decide +kernel

theorem test_meets_PsfbinitStartsBridge :
    wired.halted = false ∧ wired.params.valid = true ∧ 0 < wired.params.npsfb ∧
    (∀ l ∈ psfbLegs wired.params 0, (wired.legAt l).kind = .default) ∧
    wired.legsStart (psfbLegs wired.params 0) ∧
    wired.callsAnswered (wired.legsCalls [] (psfbLegs wired.params 0)) := by
  refine ⟨rfl, Params.valid_ex, by decide, by decide +kernel, ?_, answered (by decide)⟩
  unfold State.legsStart State.pairsReady dutyFits
  decide +kernel

theorem wired_bridge_pins_good (l : Nat) (hl : l ∈ [4, 5]) (x : Status) :
    ¬ wired.pinFault (fun _ => 2) l x := by
  unfold State.pinFault
  fin_cases hl <;> cases x <;> decide +kernel

theorem no_bridge_pin_fault (s : State) (h : s.params = wired.params) (hl : s.leg = wired.leg)
    (x : Status) : ¬ s.firstPinFault (fun _ => 2) [4, 5] x := by
  rintro ⟨before, l, after, hls, -, hf⟩
  have hleg : s.legAt l = wired.legAt l := by unfold State.legAt; rw [hl]
  refine wired_bridge_pins_good l (by rw [hls]; simp) x ?_
  unfold State.pinFault at hf ⊢
  rwa [hleg, h] at hf

/-- The 50% of the second leg is refused; a timer-base call of the first leg fails. -/
theorem test_meets_PsfbinitStartsBridge_part_way :
    let s := spoilt 5 lowSlot []
    let u := spoilt 9 (plainSlot 0) [0]
    (s.halted = false ∧ s.params.valid = true ∧ 0 < s.params.npsfb ∧
      (∀ x, ¬ s.firstPinFault (fun _ => 2) (psfbLegs s.params 0) x) ∧
      (∀ m ∈ psfbLegs s.params 0, (s.legAt m).kind = .default) ∧
      psfbLegs s.params 0 = [4] ++ 5 :: [] ∧ s.legsStart [4] ∧
      s.callsAnswered (s.legsCalls [] [4]) ∧ (after (.psfbinit 0) s).status = .errValue) ∧
    (∀ x, ¬ u.firstPinFault (fun _ => 2) (psfbLegs u.params 0) x) ∧
    (after (.cfgleg 4) u).status = .fatalHwinit ∧ (after (.psfbinit 0) u).status = .fatalHwinit := by
  refine ⟨⟨rfl, Params.valid_ex, by decide, no_bridge_pin_fault _ rfl rfl, by decide +kernel, rfl,
    ?_, answered (by decide), by decide +kernel⟩, no_bridge_pin_fault _ rfl rfl, by decide +kernel,
    by decide +kernel⟩
  unfold State.legsStart State.pairsReady dutyFits
  decide +kernel

/-- `wired` with a TNPC leg as the second leg of the bridge. -/
def mixed : State := { wired with leg := [(4, legOf .default 7 .none), (5, legOf .tnpc 9 .none)] }

theorem mixed_pins_good (l : Nat) (hl : l ∈ [4, 5]) (x : Status) :
    ¬ mixed.pinFault (fun _ => 2) l x := by
  unfold State.pinFault
  fin_cases hl <;> cases x <;> decide +kernel

theorem test_meets_PsfbinitStartsBridge_refusals :
    stopped.bridgeRefusal 0 .fatalHwinit ∧ bare.bridgeRefusal 1 .errIndex ∧
    bare.bridgeRefusal 0 .errPinRange ∧ mixed.bridgeRefusal 0 .errLegType := by
  refine ⟨rfl, rfl, .inl ⟨[], 4, [5], rfl, by simp, rfl⟩, .inr ⟨?_, ⟨5, by decide, by decide +kernel⟩, rfl⟩⟩
  rintro x ⟨before, l, after, hls, -, hf⟩
  refine mixed_pins_good l ?_ x hf
  have h2 : [4, 5] = before ++ l :: after := hls
  rw [h2]; simp

theorem test_meets_PsfbupdForwardsHalfTheDuty :
    (given (3 / 2) 0 0 started).halted = false ∧
    (given (3 / 2) 0 0 started).lanes.arg0.value = some (.rat (3 / 2)) ∧ 0 < started.params.npsfb ∧
    (started.psfbAt 0).init = true ∧ stopped.halted = true ∧ bare.params.npsfb ≤ 1 ∧
    (bare.psfbAt 0).init = false := by decide +kernel

theorem test_meets_PsfbactSwitchesBothLegs :
    started.halted = false ∧ 0 < started.params.npsfb ∧ (started.psfbAt 0).init = true ∧
    ∀ l ∈ psfbLegs started.params 0, started.legEnables l := by
  unfold State.legEnables
  decide +kernel

/-- The second leg of the bridge is not configured. -/
theorem test_meets_PsfbactSwitchesBothLegs_refused :
    let s : State := { started with leg := [(4, legOf .default 7 .singlePair)] }
    s.halted = false ∧ 0 < s.params.npsfb ∧ (s.psfbAt 0).init = true ∧
    psfbLegs s.params 0 = [4] ++ 5 :: [] ∧ (∀ m ∈ [4], s.legEnables m) ∧
    s.enableRefusal 5 .errNotInit := by
  unfold State.legEnables State.enableRefusal
  decide +kernel

/-- The angle of `turning` is 3π/2, and so is the number 2π · 3/4. -/
theorem test_meets_NumbersAreExactReals :
    0 < (turning.vfAt 0).pwmFreq.real ∧ (turning.vfAt 0).theta.real = 3 / 2 * Real.pi ∧
    (TWO_PI.mul (.rat (3 / 4))).real = 3 / 2 * Real.pi ∧ (NUM.rat (-1)).real ≠ 0 := by
  have h : (turning.vfAt 0).theta = TWO_PI.mul (.rat (3 / 4)) := by decide +kernel
  have h' : (turning.vfAt 0).pwmFreq = .rat 20000 := by decide +kernel
  have e : (TWO_PI.mul (.rat (3 / 4))).real = 3 / 2 * Real.pi := by
    rw [real_mul, real_two_pi, real_rat]; push_cast; ring
  rw [h, h']
  refine ⟨?_, e, e, ?_⟩ <;> rw [real_rat] <;> norm_num

/-- A controller bound to an inverter that does not exist, and one with a negative acceleration. -/
theorem test_meets_VfinitStartsController :
    wired.halted = false ∧ 0 < wired.params.nvf ∧ (wired.vfAt 0).inv.toNat < wired.params.ninv ∧
    (wired.vfAt 0).configured ∧ bare.rampInitRefusal 1 .errIndex ∧
    bare.rampInitRefusal 0 .errValue ∧ stopped.rampInitRefusal 0 .fatalHwinit ∧
    ({ bare with vf := [(0, { Vf.reset with inv := 1 })] } : State).rampInitRefusal 0 .errIndex := by
  unfold State.rampInitRefusal Vf.configured
  decide +kernel

theorem test_meets_VfstepRunsOneCycle :
    started.halted = false ∧ 0 < started.params.nvf ∧ (started.vfAt 0).init = true ∧
    (started.vfAt 0).inv.toNat < started.params.ninv ∧ (started.vfAt 0).configured ∧
    (started.vfAt 0).commitsState = false ∧
    started.spwm (started.vfAt 0).stepped.theta (started.vfAt 0).nextMi
      (started.vfAt 0).stepped.curDir = (.rat (3 / 4), .rat (1 / 2), .rat (1 / 4)) ∧
    started.inverterAccepts 0 (.rat (3 / 4)) (.rat (1 / 2)) (.rat (1 / 4)) := by
  unfold State.inverterAccepts State.legAccepts State.pairAccepts dutyFits Vf.configured
  and_intros <;> decide +kernel

theorem test_meets_VfstepRunsOneCycle_commit :
    (pending.vfAt 0).init = true ∧ (pending.vfAt 0).configured ∧
    (pending.vfAt 0).commitsState = true ∧
    (∀ l ∈ pending.inverterLegs 0, pending.legEnables l) ∧
    pending.spwm (pending.vfAt 0).stepped.theta (pending.vfAt 0).nextMi
      (pending.vfAt 0).stepped.curDir = (.rat (1 / 2), .rat (1 / 2), .rat (1 / 2)) ∧
    pending.inverterAccepts 0 (.rat (1 / 2)) (.rat (1 / 2)) (.rat (1 / 2)) := by
  unfold State.inverterAccepts State.legEnables State.legAccepts State.pairAccepts dutyFits
    Vf.configured
  and_intros <;> decide +kernel

/-- The commit fails at the second leg; and, without a commit, the update fails at the third. -/
theorem test_meets_VfstepRunsOneCycle_part_way :
    let s : State := { pending with leg := [(0, legOf .default 1 .singlePair)] }
    let u := brokenInv
    ((s.vfAt 0).init = true ∧ (s.vfAt 0).configured ∧ (s.vfAt 0).commitsState = true ∧
      s.inverterLegs (s.vfAt 0).inv.toNat = [0] ++ 1 :: [2, 3] ∧ (∀ m ∈ [0], s.legEnables m) ∧
      s.enableRefusal 1 .errNotInit) ∧
    (u.vfAt 0).init = true ∧ (u.vfAt 0).configured ∧ (u.invAt 0).init = true ∧
    (u.vfAt 0).commitsState = false ∧
    u.spwm (u.vfAt 0).stepped.theta (u.vfAt 0).nextMi (u.vfAt 0).stepped.curDir =
      (.rat (3 / 4), .rat (1 / 2), .rat (1 / 4)) ∧
    u.inverterUpdates 0 (.rat (3 / 4)) (.rat (1 / 2)) (.rat (1 / 4)) =
      [(0, .rat (3 / 4)), (1, .rat (1 / 2))] ++ (2, .rat (1 / 4)) :: [(3, .rat (1 / 4))] ∧
    (∀ r ∈ [((0 : Nat), NUM.rat (3 / 4)), (1, .rat (1 / 2))], u.legAccepts r.1 r.2) ∧
    u.legDutyRefusal 2 (.rat (1 / 4)) [(11, u.pairCompare 11 2 (.rat 0))] .errNotInit := by
  unfold Vf.configured State.legEnables State.enableRefusal State.legAccepts State.pairAccepts
    dutyFits
  refine ⟨by decide +kernel, by decide +kernel, by decide +kernel, by decide +kernel,
    by decide +kernel, by decide +kernel, by decide +kernel, by decide +kernel, .inr ⟨?_, ?_, ?_⟩⟩
  · unfold State.pairAccepts dutyFits
    decide +kernel
  · unfold State.pairDutyRefusal dutyFits
    decide +kernel
  · decide +kernel

theorem test_meets_VfstepChecksBeforeEffect :
    stopped.rampStepRefusal 0 .fatalHwinit ∧ bare.rampStepRefusal 1 .errIndex ∧
    bare.rampStepRefusal 0 .errNotInit ∧
    ({ started with inv := [] } : State).rampStepRefusal 0 .errNotInit ∧
    ({ started with vf := [(0, { Vf.reset with init := true, inv := 1 })] } : State).rampStepRefusal 0
      .errIndex ∧
    ({ started with vf := [(0, { Vf.reset with init := true })] } : State).rampStepRefusal 0
      .errValue := by
  unfold State.rampStepRefusal Vf.configured
  decide +kernel

/-- The source's property S4: F = 5/2, a = 1. -/
theorem test_meets_RampNeverOvershoots :
    (started.vfAt 0).configured ∧ (started.vfAt 0).curFreq.real ≤ (started.vfAt 0).goal.real ∧
    0 ≤ (NUM.rat (5 / 2)).real ∧ 0 < (NUM.rat 1).real := by
  have h1 : (started.vfAt 0).curFreq = .rat 0 := by decide +kernel
  have h2 : (started.vfAt 0).goal = .rat 5000 := by decide +kernel
  rw [h1, h2]
  simp only [real_rat]
  refine ⟨by unfold Vf.configured; decide +kernel, ?_, ?_, ?_⟩ <;> norm_num

theorem test_meets_RampNeverOvershoots_downwards :
    (turning.vfAt 0).configured ∧
    ({ turning.vfAt 0 with reqState := .active } : Vf).goal.real ≤ (turning.vfAt 0).curFreq.real := by
  have h1 : ({ turning.vfAt 0 with reqState := .active } : Vf).goal = .rat 0 := by decide +kernel
  have h2 : (turning.vfAt 0).curFreq = .rat 5000 := by decide +kernel
  rw [h1, h2]
  simp only [real_rat]
  exact ⟨by unfold Vf.configured; decide +kernel, by norm_num⟩

end Sys2Proof.Tests
end

section
/-! SUPPORT. The statements of 00_scope.md: what a step performs and never changes, numbers as exact
reals, and numbers with `TWO_PI` through register access. -/

namespace Sys2Proof.Machine
open Laws

/-! ### What a step performs (R9, R15) -/

/-- With nothing presented CORE waits (R15, R324). -/
theorem step_of_inbox_nil {s : State} (h : s.inbox = []) : step s = .next s := by
  simp only [step, h]

/-- With something presented a step performs it, taken from the inbox (R9). -/
theorem step_of_inbox_cons {s : State} {event : Event} {rest : List Event}
    (h : s.inbox = event :: rest) : step s = take { s with inbox := rest } event := by
  simp only [step, h]

/-- A word that decodes runs its command (R105). -/
theorem runWord_of_decode {cw : Word} {i : Instr} (h : decode cw = .ok i) (s : State) :
    runWord cw s = exec i s := by
  simp only [runWord, h]

/-- Settles O6: the word is taken from the inbox, and running it is running its command. -/
theorem stepRunsDecodedCommand : Obligations.StepRunsDecodedCommand := by
  intro s cw lanes rest i hin hdec
  rw [step_of_inbox_cons hin]
  exact runWord_of_decode hdec _

/-- Settles O7: each kind of event is one case of taking the head of the inbox. -/
theorem stepTakesEventsInOrder : Obligations.StepTakesEventsInOrder :=
  ⟨fun _ h => step_of_inbox_nil h, fun _ _ _ h => step_of_inbox_cons h,
    fun _ _ h => step_of_inbox_cons h⟩

/-- Settles O17: having the parameters and answers of `s` is kept by `RESET`, by every update and by
the end of a command. -/
theorem parametersAndEnvironmentNeverChange : Obligations.ParametersAndEnvironmentNeverChange := by
  intro s t h
  refine step_keeps (P := fun u => u.params = s.params ∧ u.env = s.env)
    (fun _ hu => hu) (fun _ _ _ hu => hu) (fun _ _ _ hu => hu) (fun a b hab ha => ?_) h ⟨rfl, rfl⟩
  obtain ⟨hparams, henv⟩ := hab.params
  exact ⟨hparams.trans ha.1, henv.trans ha.2⟩

/-! ### Numbers are exact reals (R10, R13, R267) -/

theorem two_pi_real_pos : 0 < TWO_PI.real := by
  rw [real_two_pi]; exact Real.two_pi_pos

/-- The advanced angle is the real remainder of `THETA + TWO_PI × f / PWM_FREQ` (R267). -/
theorem nextTheta_real {v : Vf} {x : ℝ}
    (hx : x = v.theta.real + 2 * Real.pi * v.curFreq.real / v.pwmFreq.real) :
    (nextTheta v).real = x - 2 * Real.pi * (⌊x / (2 * Real.pi)⌋ : ℝ) := by
  rw [nextTheta, rmod_real, real_add, real_div, real_mul, real_two_pi, ← hx]

/-- The advanced angle lies in `[0, TWO_PI)` (R13, R267). -/
theorem nextTheta_in_turn (v : Vf) :
    (NUM.rat 0).le (nextTheta v) ∧ (nextTheta v).lt TWO_PI := by
  refine ⟨(le_iff _ _).2 ?_, (lt_iff _ _).2 (rmod_lt _ two_pi_real_pos)⟩
  rw [real_rat, Rat.cast_zero]
  exact rmod_nonneg _ two_pi_real_pos

/-- Settles O60, assembled from the laws that tie each operation of `NUM` to the reals. -/
theorem numbersAreExactReals : Obligations.NumbersAreExactReals :=
  ⟨⟨real_two_pi, real_rat⟩, fun _ _ => real_injective,
    fun x y => ⟨real_add x y, real_sub x y, real_mul x y, fun _ => real_div x y, real_half x,
      lt_iff x y, le_iff x y, floor_eq x⟩,
    fun v _ _ hx => ⟨nextTheta_real hx, nextTheta_in_turn v⟩⟩

/-! ### Register access as commands (R291 to R294) -/

/-- Driving the result port changes no cell of the register file. -/
@[simp] theorem memRead_drive (s : State) (e : Status) (r : Results) (c : Cell) :
    memRead (s.drive e r) c = memRead s c := by
  cases c with
  | glb f => cases f <;> rfl
  | _ => rfl

/-- A `WRF` whose write lands ends with `OK` and no results (R292). -/
theorem exec_wrf_of_memWrite_ok {s t : State} {addr : FieldAddr} {v : NUM} {c : Cell}
    (hrun : s.halted = false) (hlane : s.lanes.arg0.value = some v)
    (hcell : resolve s.params addr = some c) (hput : memWrite v s c = .ok () t) :
    exec (.wrf addr) s = .next (t.drive .ok Results.none) := by
  have hfield : writeField addr v s = .ok Results.none t := by simp [writeField, hcell, hput]
  rw [exec_running hrun, opOf, withArg0_some hlane, hfield, Done.finish_ok]

/-- A `WRF` whose write is refused ends with that status and no effect (R291, R292). -/
theorem wrf_turnsAway_of_memWrite_err {s : State} {addr : FieldAddr} {v : NUM} {c : Cell}
    {e : Status} (hrun : s.halted = false) (hlane : s.lanes.arg0.value = some v)
    (hcell : resolve s.params addr = some c) (hput : memWrite v s c = .err e s) :
    turnsAway (.wrf addr) s e := by
  have hfield : writeField addr v s = .err e s := by simp [writeField, hcell, hput]
  refine ⟨s.drive e Results.none, ?_, refusedWith_drive s e⟩
  rw [exec_running hrun, opOf, withArg0_some hlane, hfield, Done.finish_err]

/-- `RDF` drives what the cell holds on the result port (R293). -/
theorem exec_rdf_of_resolve {s : State} {addr : FieldAddr} {c : Cell} (hrun : s.halted = false)
    (hcell : resolve s.params addr = some c) :
    exec (.rdf addr) s = .next (s.drive .ok (readResults (memRead s c))) := by
  have hfield : readField addr s = .ok (readResults (memRead s c)) s := by
    simp [readField, hcell]
  rw [exec_running hrun, opOf, hfield, Done.finish_ok]

/-- `GLB.HALTED` is seen through the register file (R26). -/
theorem halted_eq_of_memRead {s t : State}
    (h : memRead t (.glb .halted) = memRead s (.glb .halted)) : t.halted = s.halted := by
  simp only [memRead, CellValue.int.injEq] at h
  revert h
  cases t.halted <;> cases s.halted <;> decide

/-! ### Numbers that are no rational (R10) -/

theorem not_isFlag_of_not_rat {v : NUM} (hv : ∀ q, v ≠ .rat q) : ¬ isFlag v := by
  rintro (h | h)
  · exact hv 0 h
  · exact hv 1 h

theorem not_isByte_of_not_rat {v : NUM} (hv : ∀ q, v ≠ .rat q) : ¬ isByte v := by
  rintro ⟨n, -, h⟩
  exact hv n h

/-- A cell that denotes a number that is no rational holds that very NUM: an integer is a rational. -/
theorem eq_num_of_number_eq {x : CellValue} {v : NUM} (hv : ∀ q, v ≠ .rat q) (h : x.number = v) :
    x = .num v := by
  cases x with
  | num w => exact congrArg CellValue.num h
  | int n => exact absurd h.symm (hv n)

/-- No field of `GLB` is read-write, so none accepts a value (R26, R291). -/
theorem ne_glb_of_accepts {c : Cell} {v : NUM} (h : c.accepts v) (f : GlbField) : .glb f ≠ c := by
  rintro rfl
  exact h

/-- A read-write field accepts a number that is no rational exactly where it holds a NUM: flags,
enumerations and bytes accept integers only (R291). -/
theorem accepts_iff_holds_num {c : Cell} {v : NUM} (hv : ∀ q, v ≠ .rat q)
    (hw : c.writable = true) (s : State) : c.accepts v ↔ ∃ q, memRead s c = .num q := by
  have hflag := not_isFlag_of_not_rat hv
  have hbyte := not_isByte_of_not_rat hv
  cases c with
  | glb _ | tim _ _ | ch _ _ | psfb _ _ => cases hw
  | cfg _ f => cases f <;> simp [Cell.accepts, memRead, cfgValue, hflag]
  | leg _ f => cases f <;> simp [Cell.accepts, memRead, legValue, hflag, hbyte]
  | inv _ f => cases f <;> simp [Cell.accepts, memRead, invValue, hflag, hbyte]
  | vf _ f =>
    cases f
    case init | curFreq | curState | curDir | theta => cases hw
    all_goals simp [Cell.accepts, memRead, vfValue, hflag, hbyte]

/-- An accepted number that is no rational is stored exactly, and the `RDF` that follows returns it
(R10, R292, R293). -/
theorem wrf_then_rdf_of_accepts {s : State} {addr : FieldAddr} {v : NUM} {c : Cell}
    (hrun : s.halted = false) (hlane : s.lanes.arg0.value = some v) (hv : ∀ q, v ≠ .rat q)
    (hcell : resolve s.params addr = some c) (hacc : c.accepts v) :
    ∃ t u, exec (.wrf addr) s = .next t ∧ exec (.rdf addr) t = .next u ∧
      portHolds u .ok 0 v (.rat 0) (.rat 0) (.rat 0) ∧ memRead t c = .num v ∧
      (∀ c', c' ≠ c → memRead t c' = memRead s c') ∧ sameInputs s u ∧ sameCalls s u := by
  obtain ⟨w, hput, hnum, hother, hinputs, hcalls⟩ := memWrite_ok (s := s) hacc
  have hheld : memRead w c = .num v := eq_num_of_number_eq hv hnum
  have hrun' : w.halted = false :=
    (halted_eq_of_memRead (hother _ (ne_glb_of_accepts hacc .halted))).trans hrun
  have hcell' : resolve w.params addr = some c := by rw [hinputs.1, hcell]
  have hrdf := exec_rdf_of_resolve (s := w.drive .ok Results.none) hrun' hcell'
  rw [memRead_drive, hheld] at hrdf
  exact ⟨_, _, exec_wrf_of_memWrite_ok hrun hlane hcell hput, hrdf, portHolds_drive _ _ _,
    (memRead_drive _ _ _ _).trans hheld, fun c' hc => (memRead_drive _ _ _ _).trans (hother c' hc),
    hinputs, hcalls⟩

/-- Settles O59: a write lands, or is refused, by the cell it names; a NUM cell is read back as written. -/
theorem twoPiNumberIsReadBackExactly : Obligations.TwoPiNumberIsReadBackExactly := by
  intro s addr v c hrun hlane hv hcell
  obtain ⟨hro, hvalue⟩ := memWrite_err (s := s) (c := c) (v := v)
  exact ⟨wrf_then_rdf_of_accepts hrun hlane hv hcell,
    fun hw => wrf_turnsAway_of_memWrite_err hrun hlane hcell (hro hw),
    fun hw hacc => wrf_turnsAway_of_memWrite_err hrun hlane hcell (hvalue hw hacc),
    fun hw => accepts_iff_holds_num hv hw s⟩

end Sys2Proof.Machine
end

section
/-! SUPPORT. The statements of 10_state.md: what a step can do to a timer record, to a leg's tag and to
`OEN`, and the three invariants that follow. -/

namespace Sys2Proof.Machine

/-! ### Reset (R40, R340) -/

@[simp] theorem doReset_timAt (s : State) (u : Nat) : (doReset s).timAt u = Tim.reset := rfl
@[simp] theorem doReset_legAt (s : State) (l : Nat) : (doReset s).legAt l = Leg.reset := rfl

/-! ### What a step can do to a timer record (R27, R151, R170) -/

/-- What one update of the state can do to `TIM[u]`: nothing, the first initialisation (R151), or a
write of the callback slot (R170). -/
inductive TimUpdate (p : Params) (u : Nat) (r : Tim) : Tim → Prop
  | same : TimUpdate p u r r
  | init (c : Slot) (tm : Timing) (hu : u ≤ 1) (hi : r.init = false)
      (hc : slotTiming (p.timer u) c tm) : TimUpdate p u r (initTim r c tm)
  | callback (cb : Byte) (prio : Nibble) (hc : cb = 0 ∨ callbackLegal p cb = true) :
      TimUpdate p u r { r with cb := cb, cbPrio := prio }

/-- A chain of updates of `TIM[u]`. -/
def TimChain (p : Params) (u : Nat) : Tim → Tim → Prop := Relation.ReflTransGen (TimUpdate p u)

/-- A property of a record that every update keeps holds after every chain of updates. -/
theorem TimChain.keeps {p : Params} {u : Nat} {P : Tim → Prop}
    (hP : ∀ a b, TimUpdate p u a b → P a → P b) {a b : Tim} (h : TimChain p u a b) (ha : P a) :
    P b := by
  induction h with
  | refl => exact ha
  | tail _ g ih => exact hP _ _ g ih

/-- Of all updates of the state only `init` and `callback` write a timer record, each its own. -/
theorem Change.timUpdate {s t : State} (h : Change s t) (u : Nat) :
    TimUpdate s.params u (s.timAt u) (t.timAt u) := by
  cases h with
  | init v c tm hv hi hc =>
    by_cases huv : u = v
    · subst huv
      rw [State.timAt_setTim_same]
      exact .init c tm hv hi hc
    · rw [State.timAt_setTim_other _ _ _ _ huv]
      exact .same
  | callback v cb prio hc =>
    by_cases huv : u = v
    · subst huv
      rw [State.timAt_setTim_same]
      exact .callback cb prio hc
    · rw [State.timAt_setTim_other _ _ _ _ huv]
      exact .same
  | _ => exact .same

theorem Reach.timChain {s t : State} (h : Reach s t) (u : Nat) :
    TimChain s.params u (s.timAt u) (t.timAt u) := by
  induction h with
  | refl => exact .refl
  | tail hr g ih =>
    have hg := g.timUpdate u
    rw [(Reach.params hr).1] at hg
    exact ih.tail hg

/-- A step resets a timer record, by `RESET`, or takes it through a chain of updates. -/
theorem step_timChain {s t : State} (h : step s = .next t) (u : Nat) :
    (∃ rest, s.inbox = .reset :: rest ∧ t.timAt u = Tim.reset) ∨
    ((∀ rest, s.inbox ≠ .reset :: rest) ∧ TimChain s.params u (s.timAt u) (t.timAt u)) := by
  rcases step_cases h with ⟨rest, hin, rfl⟩ | ⟨hin, _, _, hr | ⟨v, e, r, hr, rfl⟩⟩
  · exact .inl ⟨rest, hin, doReset_timAt _ u⟩
  · exact .inr ⟨hin, hr.timChain u⟩
  · exact .inr ⟨hin, hr.timChain u⟩

/-- A property of a timer record that the reset record has and every update keeps is kept by every
step. -/
theorem step_keeps_tim {P : Tim → Prop} {s t : State} {u : Nat} (h0 : P Tim.reset)
    (hP : ∀ a b, TimUpdate s.params u a b → P a → P b) (h : step s = .next t)
    (hs : P (s.timAt u)) : P (t.timAt u) := by
  rcases step_timChain h u with ⟨_, -, ht⟩ | ⟨-, hc⟩
  · rw [ht]; exact h0
  · exact hc.keeps hP hs

/-! ### Dead-time stays derived (R28) -/

/-- R28 for one record and its timer clock. -/
def Tim.deadTimeFrom (clkHz : NUM) (r : Tim) : Prop :=
  r.init = true →
    (r.dtEn = true → dtEncode r.dtNs clkHz = some r.dtCode ∧ r.dutyDt = dtComp r.dtNs r.fsw) ∧
    (r.dtEn = false → r.dtCode = 0 ∧ r.dutyDt = .rat 0)

theorem State.deadTimeDerived_iff (s : State) :
    s.deadTimeDerived ↔ ∀ u, (s.timAt u).deadTimeFrom (s.params.timer u).clkHz := Iff.rfl

/-- The reset record is not initialised. -/
theorem Tim.deadTimeFrom_reset (clkHz : NUM) : Tim.reset.deadTimeFrom clkHz := fun h => nomatch h

/-- `TINIT` computes code and fraction from the slot values it copies (R151), and a callback write
touches none of them. -/
theorem TimUpdate.keeps_deadTimeFrom {p : Params} {u : Nat} {a b : Tim} (h : TimUpdate p u a b)
    (ha : a.deadTimeFrom (p.timer u).clkHz) : b.deadTimeFrom (p.timer u).clkHz := by
  cases h with
  | same => exact ha
  | init c tm _ _ hc =>
    obtain ⟨-, -, -, -, hon, hoff⟩ := hc
    refine fun _ => ⟨fun hen => ?_, hoff⟩
    obtain ⟨-, hcode, hcomp, -⟩ := hon hen
    exact ⟨hcode, hcomp⟩
  | callback cb prio _ => exact ha

/-- Settles O12: R28 is a property of each record and its clock; the reset record has it, every update
of a record keeps it, and the clock is a parameter, which no step changes. -/
theorem deadTimeStateStaysDerived : Obligations.DeadTimeStateStaysDerived := by
  refine ⟨fun u => Tim.deadTimeFrom_reset _, fun s t h hs => ?_⟩
  rw [State.deadTimeDerived_iff, (parametersAndEnvironmentNeverChange s t h).1]
  exact fun u => step_keeps_tim (Tim.deadTimeFrom_reset _)
    (fun _ _ => TimUpdate.keeps_deadTimeFrom) h (hs u)

/-! ### The timing is written once (R27, R173 (c)) -/

/-- Between record a and record b an initialisation is not undone, and unless one took place all but the
callback slot is unchanged. -/
def Tim.timingKept (a b : Tim) : Prop :=
  (a.init = true → b.init = true) ∧
  (a.init = true ∨ b.init = false → { b with cb := a.cb, cbPrio := a.cbPrio } = a)

theorem Tim.timingKept_refl (a : Tim) : a.timingKept a := ⟨id, fun _ => rfl⟩

/-- The first initialisation starts from a record that is not initialised and ends in one that is. -/
theorem Tim.timingKept_initTim {a b : Tim} (h : a.timingKept b) (hb : b.init = false) (c : Slot)
    (tm : Timing) : a.timingKept (initTim b c tm) := by
  refine ⟨fun _ => rfl, fun hor => ?_⟩
  rcases hor with ha | hnot
  · rw [h.1 ha] at hb
    cases hb
  · cases hnot

/-- Keeping the timing does not look at the callback slot. -/
theorem Tim.timingKept_callback {a b : Tim} (h : a.timingKept b) (cb : Byte) (prio : Nibble) :
    a.timingKept { b with cb := cb, cbPrio := prio } := h

theorem TimUpdate.keeps_timingKept {p : Params} {u : Nat} {a b c : Tim} (h : TimUpdate p u b c)
    (hab : a.timingKept b) : a.timingKept c := by
  cases h with
  | same => exact hab
  | init sl tm _ hi _ => exact Tim.timingKept_initTim hab hi sl tm
  | callback cb prio _ => exact Tim.timingKept_callback hab cb prio

/-- Settles O16: along the chain of updates of a step that is no `RESET`, every record keeps the timing
of the record the step began with. -/
theorem timerTimingIsWrittenOnce : Obligations.TimerTimingIsWrittenOnce := by
  intro s t u h hin
  rcases step_timChain h u with ⟨rest, hrest, -⟩ | ⟨-, hc⟩
  · exact absurd hrest (hin rest)
  · exact hc.keeps (P := (s.timAt u).timingKept) (fun _ _ => TimUpdate.keeps_timingKept)
      (Tim.timingKept_refl _)

/-! ### Codes and enables stay legal (R26, R108, R170) -/

/-- An update that writes a leg keeps its tag or writes one other than `PHASE_SHIFT` (R108). -/
theorem Change.legCap {s t : State} (h : Change s t) (l : Nat) :
    (t.legAt l).cap = (s.legAt l).cap ∨ (t.legAt l).cap ≠ .phaseShift := by
  cases h with
  | leg m r hc =>
    by_cases hlm : l = m
    · subst hlm
      rw [State.legAt_setLeg_same]
      exact hc
    · rw [State.legAt_setLeg_other _ _ _ _ hlm]
      exact .inl rfl
  | _ => exact .inl rfl

/-- No step brings `PHASE_SHIFT` into a leg (R108). -/
theorem step_keeps_cap_ne_phaseShift {s t : State} (h : step s = .next t) (l : Nat)
    (hs : (s.legAt l).cap ≠ .phaseShift) : (t.legAt l).cap ≠ .phaseShift := by
  refine step_keeps (P := fun v => (v.legAt l).cap ≠ .phaseShift) (fun _ _ => ?_)
    (fun _ _ _ hv => hv) (fun _ _ _ hv => hv) (fun a b hab ha => ?_) h hs
  · rw [doReset_legAt]
    decide
  · rcases hab.legCap l with hcap | hcap
    · rwa [hcap]
    · exact hcap

/-- R170 for one record: its callback slot holds null or an id that `CFGIRQ` accepts. -/
def Tim.callbackOk (p : Params) (r : Tim) : Prop := r.cb = 0 ∨ callbackLegal p r.cb = true

theorem TimUpdate.keeps_callbackOk {p : Params} {u : Nat} {a b : Tim} (h : TimUpdate p u a b)
    (ha : a.callbackOk p) : b.callbackOk p := by
  cases h with
  | same => exact ha
  | init c tm _ _ _ => exact ha
  | callback cb prio hc => exact hc

/-- Every step keeps the codes legal (R108, R170). -/
theorem step_keeps_codesLegal {s t : State} (h : step s = .next t) (hs : s.codesLegal) :
    t.codesLegal := by
  obtain ⟨hcap, hcb⟩ := hs
  refine ⟨fun l => step_keeps_cap_ne_phaseShift h l (hcap l), ?_⟩
  rw [(parametersAndEnvironmentNeverChange s t h).1]
  exact fun u => step_keeps_tim (P := Tim.callbackOk s.params) (.inl rfl)
    (fun _ _ => TimUpdate.keeps_callbackOk) h (hcb u)

/-- The mask of a leg whose pins exist has no bit at or above the pin count (R208). -/
theorem getLsbD_legMask_of_ge {p w n q : Nat} (hp : 1 ≤ p) (hw : p + w - 1 ≤ n) (hq : n ≤ q)
    (hb : q < 255) : (legMask p w).getLsbD q = false := by
  have hpast : ¬ q < p - 1 + w := by omega
  rw [getLsbD_legMask p w q hb, decide_eq_false hpast, Bool.and_false]

/-- A masked enable write to existing pins keeps `OEN` within them (R26, R207). -/
theorem getLsbD_maskedEnable_legMask {o : PinMask} {p w n q : Nat} {e : Bool} (hp : 1 ≤ p)
    (hw : p + w - 1 ≤ n) (hq : n ≤ q) (ho : o.getLsbD q = false) :
    (maskedEnable o (legMask p w) e).getLsbD q = false := by
  by_cases hb : q < 255
  · rw [getLsbD_maskedEnable _ _ _ _ hb, getLsbD_legMask_of_ge hp hw hq hb]
    exact ho
  · exact BitVec.getLsbD_of_ge _ _ (Nat.le_of_not_lt hb)

/-- Only a masked enable write touches `OEN`, and it stays within the pins (R26, R207). -/
theorem Change.keeps_oenWithinPins {s t : State} (h : Change s t) (hs : s.oenWithinPins) :
    t.oenWithinPins := by
  cases h with
  | enable p w e hp hw => exact fun q hq => getLsbD_maskedEnable_legMask hp hw hq (hs q hq)
  | _ => exact hs

/-- Every step keeps `OEN` within the pins (R26). -/
theorem step_keeps_oenWithinPins {s t : State} (h : step s = .next t) (hs : s.oenWithinPins) :
    t.oenWithinPins :=
  step_keeps (P := State.oenWithinPins) (fun _ _ _ _ => BitVec.getLsbD_zero)
    (fun _ _ _ hv => hv) (fun _ _ _ hv => hv) (fun _ _ => Change.keeps_oenWithinPins) h hs

/-- Settles O15, from the two invariants above. -/
theorem codesAndEnablesStayLegal : Obligations.CodesAndEnablesStayLegal :=
  fun _ _ h => ⟨step_keeps_codesLegal h, step_keeps_oenWithinPins h⟩

end Sys2Proof.Machine
end

section
/-! SUPPORT. The statement of 20_memory.md: every step keeps the canonical form of the register
banks. -/

namespace Sys2Proof.Machine

/-! ### Canonical banks (R40, R70, R81) -/

/-- `RESET` empties every bank, from any state (R340). -/
theorem doReset_banksWf (s : State) : (doReset s).banksWf = true := rfl

/-- Every update writes the banks through `Bank.write`, or leaves them alone. -/
theorem Change.keeps_banksWf {s t : State} (h : Change s t) (hs : s.banksWf = true) :
    t.banksWf = true := by
  cases h with
  | call | halt | enable => exact hs
  | init | callback => exact State.banksWf_setTim _ hs _ _
  | role | shadow | commit => exact State.banksWf_setCh _ hs _ _
  | slot => exact State.banksWf_setCfg _ hs _ _
  | leg => exact State.banksWf_setLeg _ hs _ _
  | inv => exact State.banksWf_setInv _ hs _ _
  | psfb => exact State.banksWf_setPsfb _ hs _ _
  | vf => exact State.banksWf_setVf _ hs _ _

/-- Settles O11: the canonical form holds after `RESET`, every update keeps it, and neither the
inputs nor the result port are looked at. -/
theorem banksStayCanonical : Obligations.BanksStayCanonical :=
  fun _ _ => step_keeps (P := fun s => s.banksWf = true) (fun s _ => doReset_banksWf s)
    (fun _ _ _ hs => hs) (fun _ _ _ hs => hs) (fun _ _ => Change.keeps_banksWf)

end Sys2Proof.Machine
end

section
/-! SUPPORT. The statements of 30_encoding.md: decoding and encoding are inverse, the row of the
operation map decides decoding, and what an illegal word and a non-finite lane end with. -/

namespace Sys2Proof

/-! ### A word under a row's mask (R102, R105)

One equivalence per format: the word agrees with the row's match exactly when it has the row's
operation number and its must-be-zero bits are zero. -/

theorem byte_and_zero (x : Byte) : x &&& 0 = 0 := BitVec.and_zero

theorem and_maskC_eq_iff (cw : Word) (op : Byte) :
    cw &&& 0xFF0000FF = wordOf op 0 0 0 ↔ opField cw = op ∧ cField cw = 0 := by
  have hm : (0xFF0000FF : Word) = wordOf 0xFF 0 0 0xFF := rfl
  rw [hm, and_eq_wordOf]
  simp only [byte_and_ff, byte_and_zero, true_and]

theorem and_maskU_eq_iff (cw : Word) (op : Byte) :
    cw &&& 0xFF00FFFF = wordOf op 0 0 0 ↔ opField cw = op ∧ cw.extractLsb' 0 16 = 0 := by
  have hm : (0xFF00FFFF : Word) = wordOf 0xFF 0 0xFF 0xFF := rfl
  rw [hm, and_eq_wordOf, (slice_zero_iff cw).1]
  simp only [byte_and_ff, byte_and_zero, true_and]

theorem and_maskZ_eq_iff (cw : Word) (op : Byte) :
    cw &&& 0xFFFFFFFF = wordOf op 0 0 0 ↔ opField cw = op ∧ cw.extractLsb' 0 24 = 0 := by
  have hm : (0xFFFFFFFF : Word) = wordOf 0xFF 0xFF 0xFF 0xFF := rfl
  rw [hm, and_eq_wordOf, (slice_zero_iff cw).2.1]
  simp only [byte_and_ff]

theorem and_maskUF_eq_iff (cw : Word) (op : Byte) :
    cw &&& 0xFF00FFFE = wordOf op 0 0 0 ↔ opField cw = op ∧ cw.extractLsb' 1 15 = 0 := by
  have hm : (0xFF00FFFE : Word) = wordOf 0xFF 0 0xFF 0xFE := rfl
  rw [hm, and_eq_wordOf, (slice_zero_iff cw).2.2.1, (byte_and_eq_zero _).1]
  simp only [byte_and_ff, byte_and_zero, true_and]

theorem and_maskIrq_eq_iff (cw : Word) (op : Byte) :
    cw &&& 0xFF00000E = wordOf op 0 0 0 ↔ opField cw = op ∧ cw.extractLsb' 1 3 = 0 := by
  have hm : (0xFF00000E : Word) = wordOf 0xFF 0 0 0x0E := rfl
  rw [hm, and_eq_wordOf, (slice_zero_iff cw).2.2.2, (byte_and_eq_zero _).2]
  simp only [byte_and_ff, byte_and_zero, true_and]

/-- Every mask contains `0xFF000000` (R105). -/
theorem opField_tableMask (i : Instr) : opField i.tableMask = 0xFF := by
  cases i <;> simp only [Instr.tableMask] <;> rfl

/-- A word that agrees with a row has the row's operation number (R105). -/
theorem opField_of_agrees {cw : Word} {i : Instr} (h : cw &&& i.tableMask = i.tableMatch) :
    opField cw = opField i.tableMatch := by
  have hand : opField (cw &&& i.tableMask) = opField cw &&& opField i.tableMask :=
    BitVec.extractLsb'_and
  rw [← h, hand, opField_tableMask, byte_and_ff]

/-! ### The must-be-zero tests of the decoder (R102)

Each format's test is the agreement of the word with the row of its operation number. -/

section
variable {cw : Word} {op : Byte} (h : opField cw = op) (i : Instr)
include h

theorem needZeroC_of_op : needZeroC cw i =
    if cw &&& 0xFF0000FF = wordOf op 0 0 0 then .ok i else .error .mustBeZero :=
  if_congr (by rw [and_maskC_eq_iff, and_iff_right h]) rfl rfl

theorem needZeroU_of_op : needZeroU cw i =
    if cw &&& 0xFF00FFFF = wordOf op 0 0 0 then .ok i else .error .mustBeZero :=
  if_congr (by rw [and_maskU_eq_iff, and_iff_right h]) rfl rfl

theorem needZeroZ_of_op : needZeroZ cw i =
    if cw &&& 0xFFFFFFFF = wordOf op 0 0 0 then .ok i else .error .mustBeZero :=
  if_congr (by rw [and_maskZ_eq_iff, and_iff_right h]) rfl rfl

theorem needZeroUF_of_op : needZeroUF cw i =
    if cw &&& 0xFF00FFFE = wordOf op 0 0 0 then .ok i else .error .mustBeZero :=
  if_congr (by rw [and_maskUF_eq_iff, and_iff_right h]) rfl rfl

theorem needZeroIrq_of_op : needZeroIrq cw i =
    if cw &&& 0xFF00000E = wordOf op 0 0 0 then .ok i else .error .mustBeZero :=
  if_congr (by rw [and_maskIrq_eq_iff, and_iff_right h]) rfl rfl

end

/-! ### The command of a row with a word's operands -/

/-- The command of the same row whose operands are the fields of a word (R103). Decoding answers it
for the row of the word: `decode_of_op`. -/
def Instr.withOperandsOf (i : Instr) (cw : Word) : Instr :=
  let a := (aField cw).toNat
  let b := (bField cw).toNat
  let f := flagField cw
  match i with
  | .wrf _ => .wrf (addrField cw)
  | .rdf _ => .rdf (addrField cw)
  | .dtenc => .dtenc
  | .tinit _ _ => .tinit a b
  | .cfgpair _ _ => .cfgpair a b
  | .cfgch _ _ => .cfgch a b
  | .updpair _ _ => .updpair a b
  | .updch _ _ => .updch a b
  | .cfgirq _ _ _ _ => .cfgirq a (bField cw) (priorityField cw) f
  | .cfgleg _ => .cfgleg a
  | .enleg _ _ => .enleg a f
  | .capupd _ => .capupd a
  | .invinit _ => .invinit a
  | .invupd _ => .invupd a
  | .invspwm _ _ => .invspwm a (flagDirection f)
  | .invact _ _ => .invact a f
  | .psfbinit _ => .psfbinit a
  | .psfbupd _ => .psfbupd a
  | .psfbact _ _ => .psfbact a f
  | .vfinit _ => .vfinit a
  | .vfstep _ => .vfstep a

@[simp] theorem withOperandsOf_tableMatch (i : Instr) (cw : Word) :
    (i.withOperandsOf cw).tableMatch = i.tableMatch := by cases i <;> rfl

@[simp] theorem withOperandsOf_tableMask (i : Instr) (cw : Word) :
    (i.withOperandsOf cw).tableMask = i.tableMask := by cases i <;> rfl

@[simp] theorem withOperandsOf_idem (i : Instr) (cw : Word) :
    (i.withOperandsOf cw).withOperandsOf cw = i.withOperandsOf cw := by cases i <;> rfl

/-- The index bytes of a word fit a byte (R102). -/
theorem fitsByte_toNat (x : Byte) : fitsByte x.toNat = true := decide_eq_true x.isLt

theorem withOperandsOf_wellFormed (i : Instr) (cw : Word) :
    (i.withOperandsOf cw).wellFormed = true := by
  cases i <;> simp [Instr.withOperandsOf, Instr.wellFormed, fitsByte_toNat]

/-! ### Decoding by row (R105) -/

/-- A word with a row's operation number is that row's command where it agrees with the row, and is
refused for a must-be-zero bit where it does not. -/
theorem decode_of_op {cw : Word} {i : Instr} (h : opField cw = opField i.tableMatch) :
    decode cw = if cw &&& i.tableMask = i.tableMatch then .ok (i.withOperandsOf cw)
      else .error .mustBeZero := by
  unfold decode
  rw [tableMatch_eq i, h]
  cases i <;> simp only [Instr.tableMatch, Instr.tableMask, Instr.withOperandsOf] at h ⊢
  case wrf | rdf | tinit | cfgpair | cfgch | updpair | updch => exact needZeroC_of_op h _
  case dtenc => exact needZeroZ_of_op h _
  case cfgirq => exact needZeroIrq_of_op h _
  case cfgleg | capupd | invinit | invupd | psfbinit | psfbupd | vfinit | vfstep =>
    exact needZeroU_of_op h _
  case enleg | invspwm | invact | psfbact => exact needZeroUF_of_op h _

/-- A word that agrees with a row is that row's command, with the word's operands (R105). -/
theorem decode_of_agrees {cw : Word} {i : Instr} (h : cw &&& i.tableMask = i.tableMatch) :
    decode cw = .ok (i.withOperandsOf cw) := by
  rw [decode_of_op (opField_of_agrees h), if_pos h]

/-- One command of each row of the operation map (R104). -/
def tableRows : List Instr :=
  [.wrf 0, .rdf 0, .dtenc, .tinit 0 0, .cfgpair 0 0, .cfgch 0 0, .updpair 0 0, .updch 0 0,
   .cfgirq 0 0 0 false, .cfgleg 0, .enleg 0 false, .capupd 0, .invinit 0, .invupd 0,
   .invspwm 0 .forward, .invact 0 false, .psfbinit 0, .psfbupd 0, .psfbact 0 false, .vfinit 0,
   .vfstep 0]

theorem listedOps_eq_map_tableRows :
    listedOps = tableRows.map fun i => opField i.tableMatch := by decide

/-- A listed operation number is the one of a row (R104). -/
theorem exists_row_of_listed {op : Byte} (h : op ∈ listedOps) :
    ∃ i : Instr, opField i.tableMatch = op := by
  rw [listedOps_eq_map_tableRows] at h
  obtain ⟨i, _, hop⟩ := List.mem_map.1 h
  exact ⟨i, hop⟩

/-- A word whose operation number is not listed does not decode (R106). -/
theorem decode_of_unlisted {cw : Word} (h : opField cw ∉ listedOps) :
    decode cw = .error .unlistedOp := by
  have hne : ∀ n, (opField cw).toNat = n → BitVec.ofNat 8 n ∉ listedOps := by
    rintro _ rfl
    simpa using h
  unfold decode
  dsimp only
  split
  case h_22 => rfl
  all_goals
    refine absurd ?_ (hne _ ‹_›)
    decide

/-- A word decodes exactly to the command of the row it agrees with, with its own operands. -/
theorem decode_eq_ok_iff {cw : Word} {i : Instr} :
    decode cw = .ok i ↔ cw &&& i.tableMask = i.tableMatch ∧ i.withOperandsOf cw = i := by
  constructor
  · intro h
    by_cases hop : opField cw ∈ listedOps
    · obtain ⟨r, hr⟩ := exists_row_of_listed hop
      rw [decode_of_op hr.symm] at h
      split at h
      next hagree =>
        obtain rfl : r.withOperandsOf cw = i := by simpa using h
        exact ⟨by simpa using hagree, withOperandsOf_idem r cw⟩
      next => cases h
    · rw [decode_of_unlisted hop] at h
      cases h
  · rintro ⟨hagree, hi⟩
    rw [decode_of_agrees hagree, hi]

/-- No word agrees with two rows (R105): it decodes to a command of both. -/
theorem row_unique {cw : Word} {i j : Instr} (hi : cw &&& i.tableMask = i.tableMatch)
    (hj : cw &&& j.tableMask = j.tableMatch) :
    i.tableMatch = j.tableMatch ∧ i.tableMask = j.tableMask := by
  have hsame : i.withOperandsOf cw = j.withOperandsOf cw :=
    Except.ok.inj ((decode_of_agrees hi).symm.trans (decode_of_agrees hj))
  have hmatch := congrArg Instr.tableMatch hsame
  have hmask := congrArg Instr.tableMask hsame
  simp only [withOperandsOf_tableMatch, withOperandsOf_tableMask] at hmatch hmask
  exact ⟨hmatch, hmask⟩

/-- A word is illegal exactly when it does not decode (R106). -/
theorem illegalWord_iff {cw : Word} : illegalWord cw ↔ ∃ e, decode cw = .error e := by
  constructor
  · rintro (hop | ⟨i, hop, hbits⟩)
    · exact ⟨_, decode_of_unlisted hop⟩
    · exact ⟨_, by rw [decode_of_op hop, if_neg hbits]⟩
  · rintro ⟨e, he⟩
    by_cases hop : opField cw ∈ listedOps
    · obtain ⟨i, hi⟩ := exists_row_of_listed hop
      refine .inr ⟨i, hi.symm, fun hagree => ?_⟩
      rw [decode_of_agrees hagree] at he
      cases he
    · exact .inl hop

/-! ### Encoding after reading a word's operands (R102)

A word that agrees with a row of a format is put together again from its fields. -/

section
variable {cw : Word} {op : Byte}

theorem ofNat_toNat_byte (x : Byte) : BitVec.ofNat 8 x.toNat = x := by simp

theorem wordOfAddr_of_agrees (h : cw &&& 0xFF0000FF = wordOf op 0 0 0) :
    wordOfAddr op (addrField cw) = cw := by
  obtain ⟨rfl, hc⟩ := (and_maskC_eq_iff cw op).1 h
  exact wordOfAddr_fields cw hc

theorem wordOfSlot_of_agrees (h : cw &&& 0xFF0000FF = wordOf op 0 0 0) :
    wordOfSlot op (aField cw).toNat (bField cw).toNat = cw := by
  obtain ⟨rfl, hc⟩ := (and_maskC_eq_iff cw op).1 h
  rw [wordOfSlot, ofNat_toNat_byte, ofNat_toNat_byte, ← hc, wordOf_fields]

theorem wordOfUnit_of_agrees (h : cw &&& 0xFF00FFFF = wordOf op 0 0 0) :
    wordOfUnit op (aField cw).toNat = cw := by
  obtain ⟨rfl, hz⟩ := (and_maskU_eq_iff cw op).1 h
  obtain ⟨hb, hc⟩ := (slice_zero_iff cw).1.1 hz
  conv_rhs => rw [← wordOf_fields cw, hb, hc]
  rw [wordOfUnit, ofNat_toNat_byte]

theorem wordOf_of_agrees (h : cw &&& 0xFFFFFFFF = wordOf op 0 0 0) : wordOf op 0 0 0 = cw := by
  rw [← h]
  exact BitVec.and_allOnes

theorem wordOfFlag_of_agrees (h : cw &&& 0xFF00FFFE = wordOf op 0 0 0) :
    wordOfFlag op (aField cw).toNat (flagField cw) = cw := by
  obtain ⟨rfl, hz⟩ := (and_maskUF_eq_iff cw op).1 h
  obtain ⟨hb, hc⟩ := (slice_zero_iff cw).2.2.1.1 hz
  have hflag : ((BitVec.ofBool (flagField cw)).zeroExtend 8 : Byte) = cField cw := by
    apply BitVec.eq_of_toNat_eq
    rw [flagByte_toNat, flagField_eq]
    simp only [decide_eq_true_eq]
    split <;> omega
  rw [wordOfFlag, ofNat_toNat_byte, hflag, ← hb, wordOf_fields]

theorem wordOfIrq_of_agrees (h : cw &&& 0xFF00000E = wordOf 0x25 0 0 0) :
    wordOfIrq (aField cw).toNat (bField cw) (priorityField cw) (flagField cw) = cw := by
  obtain ⟨hop, hz⟩ := (and_maskIrq_eq_iff cw _).1 h
  have hc := (slice_zero_iff cw).2.2.2.1 hz
  have hlow : (priorityField cw ++ (0 : BitVec 3) ++ BitVec.ofBool (flagField cw) : Byte) =
      cField cw := by
    apply BitVec.eq_of_toNat_eq
    rw [irqByte_toNat, priorityField_toNat, flagField_eq]
    simp only [decide_eq_true_eq]
    split <;> omega
  rw [wordOfIrq, ofNat_toNat_byte, hlow, ← hop, wordOf_fields]

end

/-- A word that agrees with a row is the word of that row's command with its operands. -/
theorem encode_withOperandsOf {cw : Word} {i : Instr} (h : cw &&& i.tableMask = i.tableMatch) :
    encode (i.withOperandsOf cw) = cw := by
  cases i <;> simp only [Instr.tableMatch, Instr.tableMask, Instr.withOperandsOf, encode,
    directionFlag_flagDirection] at h ⊢
  case wrf | rdf => exact wordOfAddr_of_agrees h
  case dtenc => exact wordOf_of_agrees h
  case tinit | cfgpair | cfgch | updpair | updch => exact wordOfSlot_of_agrees h
  case cfgirq => exact wordOfIrq_of_agrees h
  case cfgleg | capupd | invinit | invupd | psfbinit | psfbupd | vfinit | vfstep =>
    exact wordOfUnit_of_agrees h
  case enleg | invspwm | invact | psfbact => exact wordOfFlag_of_agrees h

/-! ### Reading the operands of an encoded command (R102) -/

section
variable (op : Byte) (u x sl : Nat) (f : Bool) (cb : Byte) (p : Nibble)

@[simp] theorem aField_wordOfUnit : aField (wordOfUnit op u) = BitVec.ofNat 8 u :=
  aField_wordOf _ _ _ _

@[simp] theorem aField_wordOfSlot : aField (wordOfSlot op x sl) = BitVec.ofNat 8 x :=
  aField_wordOf _ _ _ _

@[simp] theorem bField_wordOfSlot : bField (wordOfSlot op x sl) = BitVec.ofNat 8 sl :=
  bField_wordOf _ _ _ _

@[simp] theorem aField_wordOfFlag : aField (wordOfFlag op u f) = BitVec.ofNat 8 u :=
  aField_wordOf _ _ _ _

@[simp] theorem flagField_wordOfFlag : flagField (wordOfFlag op u f) = f := by
  rw [flagField_eq, wordOfFlag, cField_wordOf, flagByte_toNat]
  cases f <;> rfl

@[simp] theorem aField_wordOfIrq : aField (wordOfIrq x cb p f) = BitVec.ofNat 8 x :=
  aField_wordOf _ _ _ _

@[simp] theorem bField_wordOfIrq : bField (wordOfIrq x cb p f) = cb :=
  bField_wordOf _ _ _ _

@[simp] theorem priorityField_wordOfIrq : priorityField (wordOfIrq x cb p f) = p := by
  apply BitVec.eq_of_toNat_eq
  rw [priorityField_toNat, wordOfIrq, cField_wordOf, irqByte_toNat]
  split <;> omega

@[simp] theorem flagField_wordOfIrq : flagField (wordOfIrq x cb p f) = f := by
  rw [flagField_eq, wordOfIrq, cField_wordOf, irqByte_toNat]
  cases f <;> simp <;> omega

end

theorem ofNat_toNat_of_fitsByte {n : Nat} (h : fitsByte n = true) :
    (BitVec.ofNat 8 n).toNat = n := ofNat_byte (of_decide_eq_true h)

/-- The operands of a well-formed command stand in its word (R102, R103). -/
theorem withOperandsOf_encode {i : Instr} (h : i.wellFormed = true) :
    i.withOperandsOf (encode i) = i := by
  cases i with
  | wrf addr | rdf addr =>
    simp only [encode, Instr.withOperandsOf, addrField_wordOfAddr]
  | dtenc => rfl
  | tinit x sl | cfgpair x sl | cfgch x sl | updpair x sl | updch x sl =>
    obtain ⟨hx, hsl⟩ : fitsByte x = true ∧ fitsByte sl = true := by
      simpa only [Instr.wellFormed, Bool.and_eq_true] using h
    simp only [encode, Instr.withOperandsOf, aField_wordOfSlot, bField_wordOfSlot,
      ofNat_toNat_of_fitsByte hx, ofNat_toNat_of_fitsByte hsl]
  | cfgirq t cb p f =>
    simp only [encode, Instr.withOperandsOf, aField_wordOfIrq, bField_wordOfIrq,
      priorityField_wordOfIrq, flagField_wordOfIrq, ofNat_toNat_of_fitsByte h]
  | cfgleg u | capupd u | invinit u | invupd u | psfbinit u | psfbupd u | vfinit u | vfstep u =>
    simp only [encode, Instr.withOperandsOf, aField_wordOfUnit, ofNat_toNat_of_fitsByte h]
  | enleg u f | invact u f | psfbact u f =>
    simp only [encode, Instr.withOperandsOf, aField_wordOfFlag, flagField_wordOfFlag,
      ofNat_toNat_of_fitsByte h]
  | invspwm u d =>
    simp only [encode, Instr.withOperandsOf, aField_wordOfFlag, flagField_wordOfFlag,
      ofNat_toNat_of_fitsByte h, flagDirection_directionFlag]

open Laws in
/-- The word of a well-formed command agrees with the command's row (R105). -/
theorem encode_agrees : ∀ i : Instr, TableRow.Statement i
  | .wrf addr => TableRow.wrf addr
  | .rdf addr => TableRow.rdf addr
  | .dtenc => TableRow.dtenc
  | .tinit t sl => TableRow.tinit t sl
  | .cfgpair n sl => TableRow.cfgpair n sl
  | .cfgch n sl => TableRow.cfgch n sl
  | .updpair n sl => TableRow.updpair n sl
  | .updch n sl => TableRow.updch n sl
  | .cfgirq t cb priority enable => TableRow.cfgirq t cb priority enable
  | .cfgleg l => TableRow.cfgleg l
  | .enleg l enable => TableRow.enleg l enable
  | .capupd l => TableRow.capupd l
  | .invinit i => TableRow.invinit i
  | .invupd i => TableRow.invupd i
  | .invspwm i direction => TableRow.invspwm i direction
  | .invact i enable => TableRow.invact i enable
  | .psfbinit j => TableRow.psfbinit j
  | .psfbupd j => TableRow.psfbupd j
  | .psfbact j enable => TableRow.psfbact j enable
  | .vfinit k => TableRow.vfinit k
  | .vfstep k => TableRow.vfstep k

/-! ### The statements about the encoding -/

/-- Settles O1: the word agrees with the command's row, and its fields are the operands. -/
theorem decodeOfEncodeIsIdentity : Obligations.DecodeOfEncodeIsIdentity :=
  fun i h => decode_eq_ok_iff.2 ⟨encode_agrees i h, withOperandsOf_encode h⟩

/-- Settles O2: the word agrees with the row of its command, so the command's operands put it
together again. -/
theorem encodeOfDecodeIsIdentity : Obligations.EncodeOfDecodeIsIdentity := by
  intro cw i h
  obtain ⟨hagree, hi⟩ := decode_eq_ok_iff.1 h
  rw [← hi]
  exact ⟨withOperandsOf_wellFormed i cw, encode_withOperandsOf hagree⟩

/-- Settles O3: decoding is the row a word agrees with, and a word agrees with one row at most. -/
theorem tableRowDecidesDecoding : Obligations.TableRowDecidesDecoding :=
  ⟨fun _ _ h => (decode_eq_ok_iff.1 h).1,
    fun cw i h => ⟨i.withOperandsOf cw, decode_of_agrees h, withOperandsOf_tableMatch i cw⟩,
    fun _ _ _ => row_unique, opField_tableMask⟩

/-- Settles O4: each word is the encoding of its command, evaluated, so O1 decodes it. -/
theorem sampleWordsDecode : Obligations.SampleWordsDecode :=
  have key := decodeOfEncodeIsIdentity
  ⟨key (.wrf 0x3025) rfl, key .dtenc rfl, key (.updpair 1 0) rfl, key (.cfgirq 0 1 3 true) rfl,
    key (.enleg 0 true) rfl, key (.invspwm 0 .reverse) rfl, key (.psfbact 0 true) rfl,
    key (.vfstep 0) rfl⟩

end Sys2Proof

namespace Sys2Proof.Machine

/-! ### What an illegal word ends with (R106) -/

/-- A word that does not decode only drives `ERR_ILLEGAL_OP` (R106). -/
theorem runWord_of_decode_error {cw : Word} {e : DecodeError} {s : State}
    (h : decode cw = .error e) (hrun : s.halted = false) :
    runWord cw s = .next (s.drive .errIllegalOp Results.none) := by
  simp only [runWord, h]
  exact command_running hrun

/-- Settles O5: an illegal word does not decode, and what it drives is a refusal without effect. -/
theorem illegalWordOnlyReportsStatus : Obligations.IllegalWordOnlyReportsStatus := by
  refine ⟨fun s cw lanes rest hin hrun hill => ?_, fun _ => illegalWord_iff, .inl (by decide)⟩
  obtain ⟨e, he⟩ := illegalWord_iff.1 hill
  obtain ⟨hport, ⟨hparams, henv, hinbox, hlanes⟩, hcalls, hbanks⟩ :=
    refusedWith_drive { s with inbox := rest, lanes := lanes } .errIllegalOp
  exact ⟨_, (step_of_inbox_cons hin).trans (runWord_of_decode_error he hrun), hport, hbanks, hcalls,
    hparams, henv, hinbox, hlanes⟩

/-! ### Lanes that are not finite reals (R103, R304) -/

section
variable {s : State}

theorem withArg0_nonFinite (op : NUM → State → Done Results) (h : .notFinite ∈ [s.lanes.arg0]) :
    withArg0 op s = .err .errValue s := by
  obtain ⟨-, herr⟩ | ⟨a, ha, -⟩ := withArg0_cases op s
  · exact herr
  · rw [← List.mem_singleton.1 h] at ha
    cases ha

theorem withArg01_nonFinite (op : NUM → NUM → State → Done Results)
    (h : .notFinite ∈ [s.lanes.arg0, s.lanes.arg1]) : withArg01 op s = .err .errValue s := by
  obtain ⟨-, herr⟩ | ⟨a, b, ha, hb, -⟩ := withArg01_cases op s
  · exact herr
  · simp only [List.mem_cons, List.not_mem_nil, or_false] at h
    obtain h | h := h <;> simp [← h, Lane.value] at ha hb

theorem withArgs_nonFinite (op : NUM → NUM → NUM → State → Done Results)
    (h : .notFinite ∈ [s.lanes.arg0, s.lanes.arg1, s.lanes.arg2]) :
    withArgs op s = .err .errValue s := by
  obtain ⟨-, herr⟩ | ⟨a, b, c, ha, hb, hc, -⟩ := withArgs_cases op s
  · exact herr
  · simp only [List.mem_cons, List.not_mem_nil, or_false] at h
    obtain h | h | h := h <;> simp [← h, Lane.value] at ha hb hc

end

/-- An operation that reads a lane that is no finite real only raises `ERR_VALUE` (R304, R308). -/
theorem opOf_nonFinite {i : Instr} {s : State} (h : .notFinite ∈ i.lanesRead s.lanes) :
    opOf i s = .err .errValue s := by
  cases i with
  | wrf | updpair | updch | capupd | psfbupd => rw [opOf]; exact withArg0_nonFinite _ h
  | invspwm => rw [opOf]; exact withArg01_nonFinite _ h
  | dtenc | invupd => rw [opOf]; exact withArgs_nonFinite _ h
  | rdf | tinit | cfgpair | cfgch | cfgirq | cfgleg | enleg | invinit | invact | psfbinit | psfbact
  | vfinit | vfstep => exact absurd h List.not_mem_nil

/-- Settles O23: the operation raises `ERR_VALUE` in the state it was given. -/
theorem nonFiniteLaneIsRefusedFirst : Obligations.NonFiniteLaneIsRefusedFirst := by
  intro i s hrun h
  refine ⟨s.drive .errValue Results.none, ?_, refusedWith_drive s .errValue⟩
  rw [exec_running hrun, opOf_nonFinite h, Done.finish_err]

end Sys2Proof.Machine
end

section
/-! SUPPORT. The statements of 40_deadtime_encoder.md: the tiers of the dead-time code, its
quantisation, the real reading of the encoder, and `DTENC`. -/

namespace Sys2Proof.Machine
open Laws

/-! ### What a code stands for, tier by tier (R132) -/

section
variable {c : Byte}

theorem getLsbD_seven_eq_false_iff : c.getLsbD 7 = false ↔ c.toNat < 0x80 := by
  have := c.isLt
  rw [BitVec.getLsbD, Nat.testBit_eq_decide_div_mod_eq, decide_eq_false_iff_not]
  omega

/-- The leading bits of a code, as arithmetic on the code's value. -/
theorem extractLsb'_eq_iff {k w p : Nat} :
    c.extractLsb' k w = BitVec.ofNat w p ↔ c.toNat / 2 ^ k % 2 ^ w = p % 2 ^ w := by
  rw [← BitVec.toNat_inj, BitVec.extractLsb'_toNat, BitVec.toNat_ofNat, Nat.shiftRight_eq_div_pow]

theorem leadingBits_tier2_iff (h : 0x80 ≤ c.toNat) : c.extractLsb' 6 2 = 0b10 ↔ c.toNat < 0xC0 := by
  have := c.isLt
  refine (extractLsb'_eq_iff (p := 2)).trans ?_
  omega

theorem leadingBits_tier3_iff (h : 0xC0 ≤ c.toNat) : c.extractLsb' 5 3 = 0b110 ↔ c.toNat < 0xE0 := by
  have := c.isLt
  refine (extractLsb'_eq_iff (p := 6)).trans ?_
  omega

theorem dtDecode_tier1 (h : c.toNat < 0x80) : dtDecode c = c.toNat ∧ dtStep c = 1 := by
  have h1 := getLsbD_seven_eq_false_iff.2 h
  rw [dtDecode, dtStep, if_pos h1, if_pos h1, BitVec.extractLsb'_toNat]
  exact ⟨by omega, rfl⟩

theorem dtDecode_tier2 {v : Nat} (hv : v ≤ 63) (h : c.toNat = 0x80 + v) :
    dtDecode c = (v + 64) * 2 ∧ dtStep c = 2 := by
  have h1 := getLsbD_seven_eq_false_iff.not.2 (by omega : ¬ c.toNat < 0x80)
  have h2 := (leadingBits_tier2_iff (by omega)).2 (by omega : c.toNat < 0xC0)
  rw [dtDecode, dtStep, if_neg h1, if_neg h1, if_pos h2, if_pos h2, BitVec.extractLsb'_toNat, h]
  exact ⟨by omega, rfl⟩

theorem dtDecode_tier3 {v : Nat} (hv : v ≤ 31) (h : c.toNat = 0xC0 + v) :
    dtDecode c = (v + 32) * 8 ∧ dtStep c = 8 := by
  have h1 := getLsbD_seven_eq_false_iff.not.2 (by omega : ¬ c.toNat < 0x80)
  have h2 := (leadingBits_tier2_iff (by omega)).not.2 (by omega : ¬ c.toNat < 0xC0)
  have h3 := (leadingBits_tier3_iff (by omega)).2 (by omega : c.toNat < 0xE0)
  rw [dtDecode, dtStep, if_neg h1, if_neg h1, if_neg h2, if_neg h2, if_pos h3, if_pos h3,
    BitVec.extractLsb'_toNat, h]
  exact ⟨by omega, rfl⟩

theorem dtDecode_tier4 {v : Nat} (hv : v ≤ 31) (h : c.toNat = 0xE0 + v) :
    dtDecode c = (v + 32) * 16 ∧ dtStep c = 16 := by
  have h1 := getLsbD_seven_eq_false_iff.not.2 (by omega : ¬ c.toNat < 0x80)
  have h2 := (leadingBits_tier2_iff (by omega)).not.2 (by omega : ¬ c.toNat < 0xC0)
  have h3 := (leadingBits_tier3_iff (by omega)).not.2 (by omega : ¬ c.toNat < 0xE0)
  rw [dtDecode, dtStep, if_neg h1, if_neg h1, if_neg h2, if_neg h2, if_neg h3, if_neg h3,
    BitVec.extractLsb'_toNat, h]
  exact ⟨by omega, rfl⟩

/-- Every byte is a code of one of the four tiers (R132). -/
theorem tier_of_code (c : Byte) : c.toNat < 0x80 ∨ (∃ v, v ≤ 63 ∧ c.toNat = 0x80 + v) ∨
    (∃ v, v ≤ 31 ∧ c.toNat = 0xC0 + v) ∨ ∃ v, v ≤ 31 ∧ c.toNat = 0xE0 + v := by
  have := c.isLt
  by_cases h1 : c.toNat < 0x80
  · exact .inl h1
  by_cases h2 : c.toNat < 0xC0
  · exact .inr (.inl ⟨c.toNat - 0x80, by omega, by omega⟩)
  by_cases h3 : c.toNat < 0xE0
  · exact .inr (.inr (.inl ⟨c.toNat - 0xC0, by omega, by omega⟩))
  · exact .inr (.inr (.inr ⟨c.toNat - 0xE0, by omega, by omega⟩))

end

/-! ### The code of a whole number of ticks, and what it stands for (R131, R134) -/

section
variable {n : Nat}

theorem tickCode_tier1 (h : n ≤ 127) :
    ∃ c, tickCode n = some c ∧ c.toNat = n ∧ dtDecode c = n ∧ dtStep c = 1 := by
  have hn : (BitVec.ofNat 8 n).toNat = n := by rw [BitVec.toNat_ofNat]; omega
  obtain ⟨hdec, hstep⟩ := dtDecode_tier1 (c := BitVec.ofNat 8 n) (by omega)
  exact ⟨_, by rw [tickCode, if_pos (by omega)], hn, hdec.trans hn, hstep⟩

/-- Leading bits above a field of `k` bits are added to the field. -/
theorem toNat_or_leadingBits {k p v : Nat} (hv : v < 2 ^ k) (hp : 2 ^ k * p + v < 256) :
    (BitVec.ofNat 8 v ||| BitVec.ofNat 8 (2 ^ k * p)).toNat = 2 ^ k * p + v := by
  rw [BitVec.toNat_or, BitVec.toNat_ofNat, BitVec.toNat_ofNat, Nat.mod_eq_of_lt (by omega),
    Nat.mod_eq_of_lt (by omega), Nat.or_comm, Nat.two_pow_add_eq_or_of_lt hv]

theorem tickCode_tier2 (h1 : 128 ≤ n) (h2 : n ≤ 255) :
    ∃ c, tickCode n = some c ∧ c.toNat = 0x80 + (n / 2 - 64) ∧ dtDecode c = n / 2 * 2 ∧
      dtStep c = 2 := by
  have hn : (BitVec.ofNat 8 (n / 2 - 64) ||| 0x80).toNat = 0x80 + (n / 2 - 64) :=
    toNat_or_leadingBits (k := 6) (p := 2) (by omega) (by omega)
  obtain ⟨hdec, hstep⟩ := dtDecode_tier2 (by omega) hn
  exact ⟨_, by rw [tickCode, if_neg (by omega), if_pos (by omega)], hn, by omega, hstep⟩

theorem tickCode_tier3 (h1 : 256 ≤ n) (h2 : n ≤ 511) :
    ∃ c, tickCode n = some c ∧ c.toNat = 0xC0 + (n / 8 - 32) ∧ dtDecode c = n / 8 * 8 ∧
      dtStep c = 8 := by
  have hn : (BitVec.ofNat 8 (n / 8 - 32) ||| 0xC0).toNat = 0xC0 + (n / 8 - 32) :=
    toNat_or_leadingBits (k := 5) (p := 6) (by omega) (by omega)
  obtain ⟨hdec, hstep⟩ := dtDecode_tier3 (by omega) hn
  exact ⟨_, by rw [tickCode, if_neg (by omega), if_neg (by omega), if_pos (by omega)], hn,
    by omega, hstep⟩

theorem tickCode_tier4 (h1 : 512 ≤ n) (h2 : n ≤ 1023) :
    ∃ c, tickCode n = some c ∧ c.toNat = 0xE0 + (n / 16 - 32) ∧ dtDecode c = n / 16 * 16 ∧
      dtStep c = 16 := by
  have hn : (BitVec.ofNat 8 (n / 16 - 32) ||| 0xE0).toNat = 0xE0 + (n / 16 - 32) :=
    toNat_or_leadingBits (k := 5) (p := 7) (by omega) (by omega)
  obtain ⟨hdec, hstep⟩ := dtDecode_tier4 (by omega) hn
  exact ⟨_, by rw [tickCode, if_neg (by omega), if_neg (by omega), if_neg (by omega),
    if_pos (by omega)], hn, by omega, hstep⟩

/-- From 1024 ticks on there is no code (R131). -/
theorem tickCode_none (h : 1024 ≤ n) : tickCode n = none := by
  rw [tickCode, if_neg (by omega), if_neg (by omega), if_neg (by omega), if_neg (by omega)]

end

/-- Encoding is the code of the whole raw ticks, in real arithmetic (R131). -/
theorem dtEncode_eq (ns clk : NUM) :
    dtEncode ns clk = tickCode ⌊ns.real * clk.real / 1000000000⌋₊ := by
  rw [dtEncode, floorNat_eq, rawTicks, real_div, real_mul, real_rat]; push_cast; rfl

/-- Settles O26: the code of each tier, and what that code stands for. -/
theorem deadTimeTierRanges : Obligations.DeadTimeTierRanges := by
  intro ns clk _ _
  rw [dtEncode_eq]
  refine ⟨fun h => ?_, fun h1 h2 => ?_, fun h1 h2 => ?_, fun h1 h2 => ?_, tickCode_none⟩
  · exact tickCode_tier1 h
  · obtain ⟨c, hc, hn, hdec, hstep⟩ := tickCode_tier2 h1 h2
    exact ⟨c, _, hc, by omega, hn, by omega, by omega, by omega, hstep⟩
  · obtain ⟨c, hc, hn, hdec, hstep⟩ := tickCode_tier3 h1 h2
    exact ⟨c, _, hc, by omega, hn, by omega, by omega, by omega, hstep⟩
  · obtain ⟨c, hc, hn, hdec, hstep⟩ := tickCode_tier4 h1 h2
    exact ⟨c, _, hc, by omega, hn, by omega, by omega, by omega, hstep⟩

/-! ### Quantisation (R135) -/

/-- The quantisation step of the tier a tick count is in (R134). -/
def tierStep (n : Nat) : Nat :=
  if n < 128 then 1 else if n < 256 then 2 else if n < 512 then 8 else 16

/-- A tick count rounded down to a multiple of its tier's step (R135). -/
def roundedTicks (n : Nat) : Nat := n / tierStep n * tierStep n

theorem tierStep_pos (n : Nat) : 0 < tierStep n := by
  unfold tierStep; split_ifs <;> decide

theorem roundedTicks_mono {n m : Nat} (h : n ≤ m) : roundedTicks n ≤ roundedTicks m := by
  unfold roundedTicks tierStep; split_ifs <;> omega

/-- Below 1024 ticks there is a code; it has the step of the tier and stands for the rounded
ticks. -/
theorem exists_tickCode {n : Nat} (h : n ≤ 1023) :
    ∃ c, tickCode n = some c ∧ dtDecode c = roundedTicks n ∧ dtStep c = tierStep n := by
  unfold roundedTicks tierStep
  split_ifs with h1 h2 h3
  · obtain ⟨c, hc, -, hdec, hstep⟩ := tickCode_tier1 (n := n) (by omega)
    exact ⟨c, hc, by omega, hstep⟩
  · obtain ⟨c, hc, -, hdec, hstep⟩ := tickCode_tier2 (n := n) (by omega) (by omega)
    exact ⟨c, hc, hdec, hstep⟩
  · obtain ⟨c, hc, -, hdec, hstep⟩ := tickCode_tier3 (n := n) (by omega) (by omega)
    exact ⟨c, hc, hdec, hstep⟩
  · obtain ⟨c, hc, -, hdec, hstep⟩ := tickCode_tier4 (n := n) (by omega) h
    exact ⟨c, hc, hdec, hstep⟩

theorem le_of_tickCode {n : Nat} {c : Byte} (h : tickCode n = some c) : n ≤ 1023 := by
  by_contra hn
  rw [tickCode_none (by omega)] at h
  cases h

/-- Decoding after encoding rounds the ticks down. -/
theorem dtDecode_of_tickCode {n : Nat} {c : Byte} (h : tickCode n = some c) :
    dtDecode c = roundedTicks n := by
  obtain ⟨c', hc', hdec, -⟩ := exists_tickCode (le_of_tickCode h)
  rw [← hdec, Option.some.inj (h.symm.trans hc')]

/-- A code is the code of the ticks it stands for. -/
theorem tickCode_dtDecode (c : Byte) : tickCode (dtDecode c) = some c := by
  suffices h : ∃ c', tickCode (dtDecode c) = some c' ∧ c'.toNat = c.toNat by
    obtain ⟨c', hc', hn⟩ := h
    rw [hc', BitVec.eq_of_toNat_eq hn]
  obtain h | ⟨v, hv, h⟩ | ⟨v, hv, h⟩ | ⟨v, hv, h⟩ := tier_of_code c
  · obtain ⟨hdec, -⟩ := dtDecode_tier1 h
    obtain ⟨c', hc', hn, -⟩ := tickCode_tier1 (n := dtDecode c) (by omega)
    exact ⟨c', hc', by omega⟩
  · obtain ⟨hdec, -⟩ := dtDecode_tier2 hv h
    obtain ⟨c', hc', hn, -⟩ := tickCode_tier2 (n := dtDecode c) (by omega) (by omega)
    exact ⟨c', hc', by omega⟩
  · obtain ⟨hdec, -⟩ := dtDecode_tier3 hv h
    obtain ⟨c', hc', hn, -⟩ := tickCode_tier3 (n := dtDecode c) (by omega) (by omega)
    exact ⟨c', hc', by omega⟩
  · obtain ⟨hdec, -⟩ := dtDecode_tier4 hv h
    obtain ⟨c', hc', hn, -⟩ := tickCode_tier4 (n := dtDecode c) (by omega) (by omega)
    exact ⟨c', hc', by omega⟩

/-- R135 (a): the real ticks lie within one step above what the code stands for. -/
theorem exists_tickCode_of_real {x : ℝ} (hx : 0 ≤ x) (h : ⌊x⌋₊ ≤ 1023) :
    ∃ c, tickCode ⌊x⌋₊ = some c ∧ (dtDecode c : ℝ) ≤ x ∧ x < dtDecode c + dtStep c := by
  obtain ⟨c, hc, hdec, hstep⟩ := exists_tickCode h
  have hle : dtDecode c ≤ ⌊x⌋₊ := hdec.trans_le (Nat.div_mul_le_self _ _)
  have hlt : ⌊x⌋₊ < dtDecode c + dtStep c := by
    rw [hdec, hstep]; exact Nat.lt_div_mul_add (tierStep_pos _)
  exact ⟨c, hc, (Nat.le_floor_iff hx).1 hle, mod_cast (Nat.floor_lt hx).1 hlt⟩

/-- R135 (d): the dead-time of whole ticks at a clock encodes as those ticks. -/
theorem dtEncode_of_ticks (n : Nat) {clk : NUM} (h : 0 < clk.real) :
    dtEncode ((NUM.rat (n * 1000000000)).div clk) clk = tickCode n := by
  have hreal : ((NUM.rat (n * 1000000000)).div clk).real * clk.real / 1000000000 = (n : ℝ) := by
    rw [real_div, real_rat, div_mul_cancel₀ _ h.ne']; push_cast
    exact mul_div_cancel_right₀ _ (by norm_num)
  rw [dtEncode_eq, hreal, Nat.floor_natCast]

theorem rawTicks_nonneg {ns clk : NUM} (hns : 0 ≤ ns.real) (hclk : 0 < clk.real) :
    0 ≤ ns.real * clk.real / 1000000000 := by positivity

/-- Settles O27: (a) and (c) by the rounding of the ticks, (b) by evaluation at each boundary, (d)
as a code is the code of the ticks it stands for. -/
theorem deadTimeQuantisation : Obligations.DeadTimeQuantisation := by
  refine ⟨fun ns clk hns hclk h => ?_, fun ns clk _ _ => ?_,
    fun _ _ _ _ c c' _ _ _ _ hle hc hc' => ?_, fun c => ⟨?_, fun clk hclk => ?_⟩⟩
  · rw [dtEncode_eq]
    exact exists_tickCode_of_real (rawTicks_nonneg hns hclk) h
  · rw [dtEncode_eq]
    refine ⟨?_, ?_, ?_, ?_, ?_, ?_, ?_, ?_⟩ <;> (intro h; rw [h]; rfl)
  · rw [dtEncode_eq] at hc hc'
    rw [dtDecode_of_tickCode hc, dtDecode_of_tickCode hc']
    exact roundedTicks_mono (Nat.floor_mono hle)
  · have hcode := tickCode_dtDecode c
    exact ⟨dtDecode c, le_of_tickCode hcode, hcode⟩
  · rw [dtEncode_of_ticks _ hclk, tickCode_dtDecode]

/-! ### The real reading of the encoder (R137) -/

/-- The field of a tier: dividing, subtracting and flooring commute. -/
theorem floor_tierField (x : ℝ) (m b : Nat) : ⌊x / m - b⌋₊ = ⌊x⌋₊ / m - b := by
  rw [Nat.floor_sub_natCast, Nat.floor_div_natCast]

/-- The test of a tier selects the same under both readings. -/
theorem tierField_lt_iff (x : ℝ) (m b : Nat) {k : Nat} (hk : k ≠ 0) :
    x / m - b < k ↔ ⌊x⌋₊ / m - b < k := by
  rw [← floor_tierField, Nat.floor_lt' hk]

theorem realTickCode_eq (x : ℝ) : realTickCode x = tickCode ⌊x⌋₊ := by
  have h0 : x < 128 ↔ ⌊x⌋₊ < 128 := (Nat.floor_lt' (by decide)).symm
  have h2 := tierField_lt_iff x 2 64 (k := 64) (by decide)
  have h8 := tierField_lt_iff x 8 32 (k := 32) (by decide)
  have h16 := tierField_lt_iff x 16 32 (k := 32) (by decide)
  have f2 := floor_tierField x 2 64
  have f8 := floor_tierField x 8 32
  have f16 := floor_tierField x 16 32
  push_cast at h2 h8 h16 f2 f8 f16
  simp only [realTickCode, tickCode, h0, h2, h8, h16, f2, f8, f16]

/-- Settles O28: the floor commutes with each test and each field. -/
theorem realAndIntegerReadingsAgree : Obligations.RealAndIntegerReadingsAgree := by
  refine ⟨fun raw m k hraw _ => ⟨?_, ?_⟩, fun ns clk _ _ => ?_⟩
  · rw [floorNat_eq, Nat.floor_lt hraw]; push_cast; rfl
  · rw [floorNat_eq, floorNat_eq, real_div, real_rat, Rat.cast_natCast, Nat.floor_div_natCast]
  · rw [dtEncode_eq, realTickCode_eq]

/-! ### `DTENC` (R138) -/

/-- A halted CORE refuses every command without effect (R305). -/
theorem turnsAway_of_halted (i : Instr) {s : State} (h : s.halted = true) :
    turnsAway i s .fatalHwinit :=
  ⟨_, (exec_eq i s).trans (command_halted h), refusedWith_drive s _⟩

/-- A command whose operation raises a status on the state it was given is refused with it. -/
theorem turnsAway_of_opOf_err {i : Instr} {s : State} {e : Status} (hrun : s.halted = false)
    (h : opOf i s = .err e s) : turnsAway i s e :=
  ⟨s.drive e Results.none, by rw [exec_running hrun, h, Done.finish_err], refusedWith_drive s e⟩

theorem dtComp_real (ns fsw : NUM) : (dtComp ns fsw).real = ns.real * fsw.real / 1000000000 := by
  rw [dtComp, real_div, real_mul, real_rat]; push_cast; rfl

section
variable {ns clk : NUM}

theorem encodeDeadTime_bad_operand (h : ns.real < 0 ∨ clk.real ≤ 0) (fsw : NUM) (s : State) :
    encodeDeadTime ns clk fsw s = .err .errValue s :=
  if_pos (by simpa using h)

theorem operands_legal (hns : 0 ≤ ns.real) (hclk : 0 < clk.real) :
    ¬ (ns.lt (.rat 0) || clk.le (.rat 0)) = true := by
  simpa using ⟨hns, hclk⟩

theorem encodeDeadTime_code (hns : 0 ≤ ns.real) (hclk : 0 < clk.real) {code : Byte}
    (h : dtEncode ns clk = some code) (fsw : NUM) (s : State) :
    encodeDeadTime ns clk fsw s = .ok { Results.lane0 (dtComp ns fsw) with rescode := code } s := by
  rw [encodeDeadTime, if_neg (operands_legal hns hclk), h]

theorem encodeDeadTime_no_code (hns : 0 ≤ ns.real) (hclk : 0 < clk.real)
    (h : dtEncode ns clk = none) (fsw : NUM) (s : State) :
    encodeDeadTime ns clk fsw s = .err .errDtRange s := by
  rw [encodeDeadTime, if_neg (operands_legal hns hclk), h]

end

/-- Settles O29: the operation's branches, each driven on the result port of the same state. -/
theorem dtencEncodesDeadTime : Obligations.DtencEncodesDeadTime := by
  intro s ns clk fsw h0 h1 h2
  have hop : opOf .dtenc s = encodeDeadTime ns clk fsw s := withArgs_some h0 h1 h2
  refine ⟨turnsAway_of_halted .dtenc, fun hrun => ⟨fun hns hclk hlt => ?_, fun hns hclk hle => ?_,
    fun hbad => turnsAway_of_opOf_err hrun (hop.trans (encodeDeadTime_bad_operand hbad fsw s))⟩⟩
  · obtain ⟨code, hcode, -⟩ := exists_tickCode (Nat.le_of_lt_succ hlt)
    rw [← dtEncode_eq] at hcode
    refine ⟨_, code, dtComp ns fsw, exec_running hrun, hcode, dtComp_real ns fsw, ?_⟩
    rw [hop, encodeDeadTime_code hns hclk hcode]
    exact ⟨portHolds_drive s .ok _, drive_frame s .ok _⟩
  · have hcode : dtEncode ns clk = none := by rw [dtEncode_eq, tickCode_none hle]
    exact turnsAway_of_opOf_err hrun (hop.trans (encodeDeadTime_no_code hns hclk hcode fsw s))

end Sys2Proof.Machine
end

section
/-! SUPPORT. The statements of 41_pwm_driver.md: periods and compare values, timer initialisation,
configuration of pairs and channels, duty updates, the callback slot and the period event. -/

namespace Sys2Proof.Machine
open Laws

/-! ### Periods and compare values (R151, R164, R173) -/

/-- R151 for one record: an initialised timer is 0 or 1 and its period lies in 1..2^W − 1. -/
def Tim.periodFits (p : Params) (u : Nat) (r : Tim) : Prop :=
  r.init = true → u ≤ 1 ∧ 1 ≤ r.period ∧ r.period ≤ 2 ^ (p.timer u).width - 1

/-- A record that is not initialised has period 0. -/
def Tim.idlePeriod (r : Tim) : Prop := r.init = false → r.period = 0

/-- R173 (b) for one channel: no compare value exceeds the period of its timer. -/
def Chan.comparesFit (r : Chan) (period : Nat) : Prop := r.cmps ≤ period ∧ r.cmpa ≤ period

theorem State.periodsFit_iff (s : State) :
    s.periodsFit ↔ ∀ u, (s.timAt u).periodFits s.params u := Iff.rfl

theorem State.comparesFit_iff (s : State) :
    s.comparesFit ↔ (∀ u, (s.timAt u).idlePeriod) ∧
      ∀ n, (s.chAt n).comparesFit (s.timAt (instOf s.params n)).period := Iff.rfl

theorem Chan.comparesFit.mono {r : Chan} {p q : Nat} (h : r.comparesFit p) (hpq : p ≤ q) :
    r.comparesFit q := ⟨h.1.trans hpq, h.2.trans hpq⟩

section
variable {p : Params} {u : Nat} {a b : Tim}

/-- A slot that `TINIT` accepts has a period in range (R151). -/
theorem TimUpdate.keeps_periodFits (h : TimUpdate p u a b) (ha : a.periodFits p u) :
    b.periodFits p u := by
  cases h with
  | same => exact ha
  | init c tm hu _ hc =>
    obtain ⟨-, -, hlow, hhigh, -⟩ := hc
    exact fun _ => ⟨hu, hlow, hhigh⟩
  | callback => exact ha

theorem TimUpdate.keeps_idlePeriod (h : TimUpdate p u a b) (ha : a.idlePeriod) :
    b.idlePeriod := by
  cases h with
  | same => exact ha
  | init => exact fun hi => nomatch hi
  | callback => exact ha

/-- No update lowers a period: the first initialisation raises it from 0. -/
theorem TimUpdate.period_le (h : TimUpdate p u a b) (ha : a.idlePeriod) :
    a.period ≤ b.period := by
  cases h with
  | same => exact le_rfl
  | init c tm _ hi _ => rw [ha hi]; exact Nat.zero_le _
  | callback => exact le_rfl

end

/-- Every update of a channel keeps its compare values within the period that its timer has before
the update: a duty update writes a value that fits, and a commit copies one that does (R164, R172). -/
theorem Change.keeps_compares {s t : State} (h : Change s t) (hp : s.params.timer0.nch % 2 = 0)
    (n : Nat) (hs : (s.chAt n).comparesFit (s.timAt (instOf s.params n)).period) :
    (t.chAt n).comparesFit (s.timAt (instOf s.params n)).period := by
  cases h with
  | role m r o =>
    rw [State.chAt_setRole]
    split
    · next e => subst e; exact hs
    · exact hs
  | shadow m k c hm hc =>
    rw [State.chAt_setShadow]
    split
    · next e =>
      subst e
      refine ⟨?_, hs.2⟩
      obtain rfl | ⟨rfl, hodd⟩ := hm
      · exact hc
      · rwa [instOf_succ hp hodd]
    · exact hs
  | commit m =>
    rw [State.chAt_commitChannel]
    split
    · next e => subst e; exact ⟨hs.1, hs.1⟩
    · exact hs
  | _ => exact hs

theorem Change.keeps_comparesFit {s t : State} (h : Change s t)
    (hp : s.params.timer0.nch % 2 = 0) (hs : s.comparesFit) : t.comparesFit := by
  obtain ⟨hidle, hch⟩ := s.comparesFit_iff.1 hs
  refine t.comparesFit_iff.2 ⟨fun u => (h.timUpdate u).keeps_idlePeriod (hidle u), fun n => ?_⟩
  rw [h.params.1]
  exact (h.keeps_compares hp n (hch n)).mono ((h.timUpdate _).period_le (hidle _))

/-- The reset state has period 0 and compare values 0 (R40). -/
theorem doReset_comparesFit (s : State) : (doReset s).comparesFit :=
  ⟨fun _ _ => rfl, fun _ => ⟨Nat.le_refl 0, Nat.le_refl 0⟩⟩

theorem step_keeps_periodsFit {s t : State} (h : step s = .next t) (hs : s.periodsFit) :
    t.periodsFit := by
  rw [State.periodsFit_iff, (parametersAndEnvironmentNeverChange s t h).1]
  exact fun u => step_keeps_tim (P := Tim.periodFits s.params u) (fun hi => nomatch hi)
    (fun _ _ => TimUpdate.keeps_periodFits) h (hs u)

theorem step_keeps_comparesFit {s t : State} (h : step s = .next t)
    (hp : s.params.timer0.nch % 2 = 0) (hs : s.comparesFit) : t.comparesFit := by
  refine (step_keeps (P := fun v => v.params.timer0.nch % 2 = 0 ∧ v.comparesFit)
    (fun v hv => ⟨hv.1, doReset_comparesFit v⟩) (fun _ _ _ hv => hv) (fun _ _ _ hv => hv)
    (fun a b hab ha => ⟨?_, hab.keeps_comparesFit ha.1 ha.2⟩) h ⟨hp, hs⟩).2
  rw [hab.params.1]
  exact ha.1

/-- Settles O13: the period is a property of each record, kept by every update of it; compare values
stay within a period that no update lowers. Members of one pair share a timer because `NCH` is
even (R6). -/
theorem periodsAndComparesStayInRange : Obligations.PeriodsAndComparesStayInRange := by
  intro s t h hvalid hperiods hcompares
  obtain ⟨heven, -⟩ := Params.valid_facts hvalid
  exact ⟨step_keeps_periodsFit h hperiods, step_keeps_comparesFit h heven hcompares⟩

/-! ### How a command of the driver ends (R22, R305, R309) -/

section
variable {i : Instr} {s t : State}

/-- A command whose operation completes ends with `OK` and its results. -/
theorem exec_of_opOf_ok {r : Results} (hrun : s.halted = false) (h : opOf i s = .ok r t) :
    exec i s = .next (t.drive .ok r) := by rw [exec_running hrun, h, Done.finish_ok]

/-- A command whose operation raises a status ends with it and no results. -/
theorem exec_of_opOf_err {e : Status} (hrun : s.halted = false) (h : opOf i s = .err e t) :
    exec i s = .next (t.drive e Results.none) := by rw [exec_running hrun, h, Done.finish_err]

/-- A refusal without effect: `FATAL_HWINIT` while CORE is halted, else the status that the operation
raises on the state it was given (R305, R308). -/
theorem turnsAway_of_halted_or_err {e : Status} (hh : s.halted = true → e = .fatalHwinit)
    (hr : s.halted = false → opOf i s = .err e s) : turnsAway i s e := by
  cases hrun : s.halted with
  | true =>
    rw [hh hrun]
    exact turnsAway_of_halted i hrun
  | false => exact turnsAway_of_opOf_err hrun (hr hrun)

/-- A command that ends with `OK` found CORE running and completed its operation (R300, R305). -/
theorem opOf_ok_of_status_ok (h : exec i s = .next t) (hok : t.status = .ok) :
    s.halted = false ∧ ∃ r v, opOf i s = .ok r v ∧ t = v.drive .ok r := by
  cases hh : s.halted with
  | true =>
    rw [exec_eq, command_halted hh] at h
    cases h
    cases hok
  | false =>
    rw [exec_running hh] at h
    cases h
    cases hop : opOf i s with
    | ok r v => exact ⟨rfl, r, v, rfl, rfl⟩
    | err e v =>
      rw [hop] at hok
      exact absurd (hop.trans (congrArg (Done.err · v) hok)) (sound_opOf i s v)

end

@[simp] theorem noResults_ok (s : State) : noResults (.ok () s) = .ok Results.none s := rfl
@[simp] theorem noResults_err (e : Status) (s : State) : noResults (.err e s) = .err e s := rfl
@[simp] theorem dutyResult_ok (d : NUM) (s : State) :
    dutyResult (.ok d s) = .ok (Results.lane0 d) s := rfl
@[simp] theorem dutyResult_err (e : Status) (s : State) : dutyResult (.err e s) = .err e s := rfl

theorem noResults_eq_ok {x : Done Unit} {r : Results} {t : State} :
    noResults x = .ok r t ↔ x = .ok () t ∧ r = Results.none := by
  cases x <;> simp [noResults, eq_comm, and_comm]

theorem dutyResult_eq_ok {x : Done NUM} {r : Results} {t : State} :
    dutyResult x = .ok r t ↔ ∃ d, x = .ok d t ∧ r = Results.lane0 d := by
  cases x <;> simp [dutyResult, eq_comm, and_comm]

/-! ### Timer initialisation (R151 to R154) -/

section
variable {tp : TimerParams} {c : Slot} {e : Status}

/-- The refusals of the dead-time part, in order (R151). -/
theorem dtOfSlot_eq_error {clk : NUM} : dtOfSlot clk c = .error e ↔
    if c.dtEn = false then False
    else if c.dtNs.lt (.rat 0) then e = .errValue
    else if dtEncode c.dtNs clk = none then e = .errDtRange
    else (NUM.rat 1).le (dtComp c.dtNs c.fsw) ∧ e = .errValue := by
  unfold dtOfSlot
  cases c.dtEn with
  | false => simp
  | true =>
    by_cases hns : c.dtNs.lt (.rat 0) = true
    · simp [hns, eq_comm]
    · cases dtEncode c.dtNs clk with
      | none => simp [hns, eq_comm]
      | some code => by_cases hcomp : (NUM.rat 1).le (dtComp c.dtNs c.fsw) = true <;>
          simp [hns, hcomp, eq_comm]

/-- A slot is refused with exactly the status of the first test it fails (R151, R154). -/
theorem timingOf_eq_error : timingOf tp c = .error e ↔ slotRefusal tp c e := by
  unfold timingOf slotRefusal
  by_cases hfsw : ¬ (NUM.rat 0).lt c.fsw = true
  · rw [if_pos hfsw, if_pos hfsw, Except.error.injEq, eq_comm]
  rw [if_neg hfsw, if_neg hfsw]
  by_cases hper : periodOf tp.clkHz c.align c.fsw < 1 ∨
      2 ^ tp.width - 1 < periodOf tp.clkHz c.align c.fsw
  · rw [if_pos hper, if_pos hper, Except.error.injEq, eq_comm]
  rw [if_neg hper, if_neg hper, ← dtOfSlot_eq_error]
  cases dtOfSlot tp.clkHz c <;> simp

/-- A slot is usable exactly when no test refuses it. -/
theorem exists_slotTiming_iff : (∃ tm, slotTiming tp c tm) ↔ ∀ e, ¬ slotRefusal tp c e := by
  simp only [← timingOf_eq_ok, ← timingOf_eq_error]
  cases timingOf tp c <;> simp

end

section
variable {s : State} {u sl n j : Nat} {tm : Timing}

/-- A refused `TINIT` has no effect (R151, R154). -/
theorem timerInit_refused {e : Status} (hrun : s.halted = false) (h : s.timerRefusal u sl e) :
    timerInit u sl s = .err e s := by
  unfold State.timerRefusal at h
  rw [if_neg (by simp [hrun])] at h
  unfold timerInit
  split at h
  · next hidx => rw [if_pos hidx, h]
  · next hidx =>
    obtain ⟨hinit, hslot⟩ := h
    rw [if_neg hidx, if_neg (by simp [hinit])]
    simp only [timingOf_eq_error.2 hslot]

/-- The end of a command after these calls, the next of which was answered `fail` (R153, R305). -/
theorem haltedAt_of_drop_eq {calls rest : List ExtCall} {c : ExtCall}
    (h : calls.drop j = c :: rest) :
    haltedAt s ((((s.emits (calls.take j)).record c .fail).halt).drive .fatalHwinit Results.none)
      calls j := by
  have hj : j ≤ calls.length := by
    by_contra hlt
    rw [List.drop_eq_nil_of_le (by omega)] at h
    cases h
  rw [State.emits_eq]
  refine ⟨portHolds_drive _ _ _, rfl, rfl, ?_, ?_, ⟨rfl, rfl, rfl, rfl⟩, fun _ => rfl, fun _ => rfl,
    fun _ => rfl, fun _ => rfl, fun _ => rfl, fun _ => rfl, fun _ => rfl⟩
  · simp [h]
  · simp [hj]

/-- A failing timer-base call of a first initialisation ends it in the fatal state (R153, R305). -/
theorem timerInit_call_fails (hu : u ≤ 1) (hs : sl < s.params.ncfg)
    (hl : (s.lazyTim u sl).init = true) (hinit : (s.timAt u).init = false)
    (hf : s.baseCallFails j) :
    ∃ v, timerInit u sl s = .err .fatalHwinit v ∧
      haltedAt s (v.drive .fatalHwinit Results.none) (s.lazyCalls u sl) j := by
  obtain ⟨-, tm, htm⟩ := (State.lazyTim_init hl).resolve_left (by simp [hinit])
  obtain ⟨c, hdrop, hcalls⟩ :=
    timerBaseCalls_fail hf u (s.params.timer u) (s.cfgAt sl).align tm
  rw [State.lazyCalls_of_timing hinit htm]
  refine ⟨_, ?_, haltedAt_of_drop_eq hdrop⟩
  unfold timerInit
  rw [if_neg (by omega), if_neg (by simp [hinit])]
  simp only [htm, hcalls, Done.andThen_err]

/-- What `TINIT` and the configuring commands built on it never touch. -/
theorem lazyInit_frame (s : State) (u sl : Nat) :
    sameInputs s (s.lazyInit u sl) ∧ sameGlb s (s.lazyInit u sl) ∧ sameCh s (s.lazyInit u sl) ∧
    sameCfg s (s.lazyInit u sl) ∧ sameLeg s (s.lazyInit u sl) ∧ sameInv s (s.lazyInit u sl) ∧
    samePsfb s (s.lazyInit u sl) ∧ sameVf s (s.lazyInit u sl) := by
  simp [sameInputs, sameGlb, sameCh, sameCfg, sameLeg, sameInv, samePsfb, sameVf]

/-- A `TINIT` that completes ends with `OK` (R151). -/
theorem exec_tinit_ok (hrun : s.halted = false) (hu : u ≤ 1) (hs : sl < s.params.ncfg)
    (hl : (s.lazyTim u sl).init = true) (hb : s.baseCallsOk ∨ (s.timAt u).init = true) :
    exec (.tinit u sl) s = .next ((s.lazyInit u sl).drive .ok Results.none) :=
  exec_of_opOf_ok hrun (congrArg noResults (timerInit_ok hu hs hl hb))

end

/-- Settles O33: the first initialisation is `lazyInit`, with every call answered or one failing; a
later one is `lazyInit` of an initialised timer, which changes nothing; and a refusal is the status
of the first test failed. -/
theorem tinitConfiguresOnce : Obligations.TinitConfiguresOnce := by
  refine ⟨fun s u sl tm hrun hu hs hinit hslot => ?_, fun s u sl hrun hu hs hinit => ?_,
    fun s u sl e href => ?_, fun _ _ => exists_slotTiming_iff⟩
  · have htm := timingOf_eq_ok.2 hslot
    have hl := State.lazyTim_of_timing hinit htm
    have hl' : (s.lazyTim u sl).init = true := by rw [hl]; rfl
    rw [← State.lazyCalls_of_timing hinit htm]
    refine ⟨fun hb => ?_, fun j hf => ?_⟩
    · obtain ⟨hin, hglb, hch, hcfg, hleg, hinv, hpsfb, hvf⟩ := lazyInit_frame s u sl
      refine ⟨_, exec_tinit_ok hrun hu hs hl' (.inl hb), ?_, fun m hm => ?_,
        s.calledOk_lazyInit u sl, portHolds_drive _ _ _, hin, hglb, hch, hcfg, hleg, hinv, hpsfb, hvf⟩
      · rw [State.drive_timAt, State.timAt_lazyInit, if_pos rfl, hl]; rfl
      · rw [State.drive_timAt, State.timAt_lazyInit, if_neg hm]
    · obtain ⟨v, hv, hhalt⟩ := timerInit_call_fails hu hs hl' hinit hf
      exact ⟨_, exec_of_opOf_err hrun (congrArg noResults hv), hhalt⟩
  · have hexec := exec_tinit_ok hrun hu hs (by rw [State.lazyTim_of_init hinit]; exact hinit)
      (.inr hinit)
    rw [State.lazyInit, if_pos hinit] at hexec
    obtain ⟨hin, hcalls, hbanks⟩ := drive_frame s .ok Results.none
    exact ⟨_, hexec, portHolds_drive _ _ _, hin, hcalls, hbanks⟩
  · refine turnsAway_of_halted_or_err (fun hh => ?_)
      fun hh => congrArg noResults (timerInit_refused hh href)
    rwa [State.timerRefusal, if_pos hh] at href

/-! ### `CFGPAIR` and `CFGCH` as one operation (R155 to R157) -/

/-- `CFGPAIR n, s` or `CFGCH n, s`. -/
def configInstr (pair : Bool) (n sl : Nat) : Instr := if pair then .cfgpair n sl else .cfgch n sl

/-- The operation of `CFGPAIR` or `CFGCH`. -/
def configOp : Bool → Nat → Nat → State → Done Unit
  | true => configPair
  | false => configChannel

/-- The state after a `CFGPAIR` or `CFGCH` that completes. -/
def State.afterConfig (s : State) : Bool → Nat → Nat → State
  | true => s.afterPair
  | false => s.afterChannel

/-- The number and the slot pass the checks, and the slot can initialise the timer (R155, R156). -/
def State.configAccepts (s : State) (pair : Bool) (n sl : Nat) : Prop :=
  sl < s.params.ncfg ∧ 1 ≤ n ∧ n ≤ s.params.npwm ∧ (pair = true → n % 2 = 1) ∧
  (s.lazyTim (instOf s.params n) sl).init = true

/-- What `CFGPAIR n, s` or `CFGCH n, s` is refused with, in order (R155, R156, R308). -/
def State.configRefusal (s : State) : Bool → Nat → Nat → Status → Prop
  | true => s.pairRefusal
  | false => s.channelRefusal

theorem opOf_configInstr (pair : Bool) (n sl : Nat) (s : State) :
    opOf (configInstr pair n sl) s = noResults (configOp pair n sl s) := by cases pair <;> rfl

section
variable {s t : State} {pair : Bool} {n sl j : Nat}

theorem configOp_ok (ha : s.configAccepts pair n sl)
    (hb : s.baseCallsOk ∨ (s.timAt (instOf s.params n)).init = true) :
    configOp pair n sl s = .ok () (s.afterConfig pair n sl) := by
  obtain ⟨hs, h1, h2, hodd, hl⟩ := ha
  cases pair with
  | true => exact configPair_ok hs h1 h2 (hodd rfl) hl hb
  | false => exact configChannel_ok hs h1 h2 hl hb

theorem configOp_eq_ok (h : configOp pair n sl s = .ok () t) :
    s.configAccepts pair n sl ∧ t = s.afterConfig pair n sl := by
  cases pair with
  | true =>
    obtain ⟨hs, h1, h2, hodd, hl, ht⟩ := (configPair_spec n sl s).1 t h
    exact ⟨⟨hs, h1, h2, fun _ => hodd, hl⟩, ht⟩
  | false =>
    obtain ⟨hs, h1, h2, hl, ht⟩ := (configChannel_spec n sl s).1 t h
    exact ⟨⟨hs, h1, h2, fun h => (nomatch h), hl⟩, ht⟩

/-- Past the checks of number and slot, what ends the initialisation ends the configuration. -/
theorem configOp_of_timerInit_err {e : Status} (hs : sl < s.params.ncfg) (h1 : 1 ≤ n)
    (h2 : n ≤ s.params.npwm) (hodd : pair = true → n % 2 = 1)
    (h : timerInit (instOf s.params n) sl s = .err e t) : configOp pair n sl s = .err e t := by
  have hbound : ¬ ¬ bound s.params n = true := not_not.2 (bound_iff.2 ⟨h1, h2⟩)
  cases pair with
  | true =>
    have := hodd rfl
    simp only [configOp, configPair]
    rw [if_neg (by omega), if_neg hbound, if_neg (by omega), h, Done.andThen_err]
  | false =>
    simp only [configOp, configChannel]
    rw [if_neg (by omega), if_neg hbound, h, Done.andThen_err]

/-- A refused configuration has no effect (R155, R156). -/
theorem configOp_refused {e : Status} (hrun : s.halted = false)
    (h : s.configRefusal pair n sl e) : configOp pair n sl s = .err e s := by
  have hunbound : n < 1 ∨ s.params.npwm < n → ¬ bound s.params n = true := by
    rw [bound_iff]; omega
  cases pair with
  | true =>
    simp only [State.configRefusal, State.pairRefusal, hrun, Bool.false_eq_true, if_false] at h
    split_ifs at h with hs hn hodd
    · simp only [configOp, configPair]; rw [if_pos hs, h]
    · simp only [configOp, configPair]; rw [if_neg hs, if_pos (hunbound hn), h]
    · have hbound : ¬ ¬ bound s.params n = true := not_not.2 (bound_iff.2 (by omega))
      simp only [configOp, configPair]
      rw [if_neg hs, if_neg hbound, if_pos hodd, h]
    · exact configOp_of_timerInit_err (by omega) (by omega) (by omega) (fun _ => by omega)
        (timerInit_refused hrun h)
  | false =>
    simp only [State.configRefusal, State.channelRefusal, hrun, Bool.false_eq_true, if_false] at h
    split_ifs at h with hs hn
    · simp only [configOp, configChannel]; rw [if_pos hs, h]
    · simp only [configOp, configChannel]; rw [if_neg hs, if_pos (hunbound hn), h]
    · exact configOp_of_timerInit_err (by omega) (by omega) (by omega) (fun h => nomatch h)
        (timerInit_refused hrun h)

/-- A configuration that completes ends with `OK` (R155, R156). -/
theorem exec_config_ok (hrun : s.halted = false) (ha : s.configAccepts pair n sl)
    (hb : s.baseCallsOk ∨ (s.timAt (instOf s.params n)).init = true) :
    exec (configInstr pair n sl) s = .next ((s.afterConfig pair n sl).drive .ok Results.none) :=
  exec_of_opOf_ok hrun
    ((opOf_configInstr pair n sl s).trans (congrArg noResults (configOp_ok ha hb)))

/-- A configuration that ends with `OK` has completed. -/
theorem exec_config_eq_ok (h : exec (configInstr pair n sl) s = .next t) (hok : t.status = .ok) :
    s.halted = false ∧ s.configAccepts pair n sl ∧
      t = (s.afterConfig pair n sl).drive .ok Results.none := by
  obtain ⟨hrun, r, v, hop, rfl⟩ := opOf_ok_of_status_ok h hok
  obtain ⟨hdone, rfl⟩ := noResults_eq_ok.1 ((opOf_configInstr pair n sl s).symm.trans hop)
  obtain ⟨ha, rfl⟩ := configOp_eq_ok hdone
  exact ⟨hrun, ha, rfl⟩

/-- A failing timer-base call halts CORE with nothing written (R153, R305). -/
theorem exec_config_call_fails (hrun : s.halted = false) (ha : s.configAccepts pair n sl)
    (hf : s.baseCallFails j) (hinit : (s.timAt (instOf s.params n)).init = false) :
    ∃ t, exec (configInstr pair n sl) s = .next t ∧
      haltedAt s t (s.lazyCalls (instOf s.params n) sl) j := by
  obtain ⟨hs, h1, h2, hodd, hl⟩ := ha
  obtain ⟨v, hv, hhalt⟩ := timerInit_call_fails (instOf_le _ _) hs hl hinit hf
  exact ⟨_, exec_of_opOf_err hrun ((opOf_configInstr pair n sl s).trans
    (congrArg noResults (configOp_of_timerInit_err hs h1 h2 hodd hv))), hhalt⟩

/-- A configuration outside its conditions is refused without effect, in order (R155, R156, R308). -/
theorem config_turnsAway {e : Status} (h : s.configRefusal pair n sl e) :
    turnsAway (configInstr pair n sl) s e := by
  refine turnsAway_of_halted_or_err (fun hh => ?_) fun hh =>
    (opOf_configInstr pair n sl s).trans (congrArg noResults (configOp_refused hh h))
  cases pair <;> simpa [State.configRefusal, State.pairRefusal, State.channelRefusal, hh] using h

end

/-! ### What a configuration leaves (R155 to R159) -/

/-- Role and polarity of channel m after channel or pair n is configured on a timer (R157). -/
def configuredChan (pair : Bool) (n : Nat) (al : Align) (m : Nat) (r : Chan) : Chan :=
  if m = n then
    if pair then { r with role := .pairRef, ocsel := ocselOf false al }
    else { r with role := .single, ocsel := ocselOf (isSecond n) al }
  else if pair = true ∧ m = n + 1 then { r with role := .pairInv, ocsel := ocselOf true al }
  else r

theorem configuredChan_idem (pair : Bool) (n : Nat) (al : Align) (m : Nat) (r : Chan) :
    configuredChan pair n al m (configuredChan pair n al m r) = configuredChan pair n al m r := by
  unfold configuredChan
  split_ifs <;> rfl

section
variable (s : State) (pair : Bool) (n sl : Nat)

theorem afterConfig_frame : sameInputs s (s.afterConfig pair n sl) ∧
    sameGlb s (s.afterConfig pair n sl) ∧ sameLeg s (s.afterConfig pair n sl) ∧
    sameInv s (s.afterConfig pair n sl) ∧ samePsfb s (s.afterConfig pair n sl) ∧
    sameVf s (s.afterConfig pair n sl) := by
  cases pair <;>
    simp [State.afterConfig, sameInputs, sameGlb, sameLeg, sameInv, samePsfb, sameVf]

theorem State.calledOk_afterConfig :
    calledOk s (s.afterConfig pair n sl) (s.lazyCalls (instOf s.params n) sl) := by
  cases pair
  · exact s.calledOk_afterChannel n sl
  · exact s.calledOk_afterPair n sl

theorem State.timAt_afterConfig (u : Nat) : (s.afterConfig pair n sl).timAt u =
    if u = instOf s.params n then s.lazyTim (instOf s.params n) sl else s.timAt u := by
  cases pair
  · exact s.timAt_afterChannel n sl u
  · exact s.timAt_afterPair n sl u

theorem State.timAt_afterConfig_own :
    (s.afterConfig pair n sl).timAt (instOf s.params n) = s.lazyTim (instOf s.params n) sl := by
  rw [State.timAt_afterConfig, if_pos rfl]

theorem State.cfgAt_afterConfig (m : Nat) : (s.afterConfig pair n sl).cfgAt m =
    if m = sl then limitSlot (s.lazyTim (instOf s.params n) sl) pair (s.cfgAt sl)
    else s.cfgAt m := by
  cases pair
  · exact s.cfgAt_afterChannel n sl m
  · exact s.cfgAt_afterPair n sl m

theorem State.cfgAt_afterConfig_own : (s.afterConfig pair n sl).cfgAt sl =
    limitSlot (s.lazyTim (instOf s.params n) sl) pair (s.cfgAt sl) := by
  rw [State.cfgAt_afterConfig, if_pos rfl]

theorem State.chAt_afterConfig (m : Nat) : (s.afterConfig pair n sl).chAt m =
    configuredChan pair n (s.lazyTim (instOf s.params n) sl).align m (s.chAt m) := by
  cases pair
  · refine (s.chAt_afterChannel n sl m).trans ?_
    simp [configuredChan]
  · refine (s.chAt_afterPair n sl m).trans ?_
    simp [configuredChan]

/-- A timer that is initialised keeps its record (R151). -/
theorem State.timAt_afterConfig_of_init {u : Nat} (h : (s.timAt u).init = true) :
    (s.afterConfig pair n sl).timAt u = s.timAt u := by
  rw [State.timAt_afterConfig]
  split
  · next e => subst e; exact State.lazyTim_of_init h sl
  · rfl

end

theorem ocselOf_false (al : Align) : ocselOf false al = decide (al = .edge) := by cases al <;> rfl

theorem ocselOf_true (al : Align) : ocselOf true al = decide (al = .center) := by cases al <;> rfl

theorem ocselOf_isSecond (n : Nat) (al : Align) :
    ocselOf (isSecond n) al = (decide (n % 2 = 0) ^^ decide (al = .edge)) := by
  cases al <;> simp [ocselOf, isSecond, isEdge, Bool.beq_eq_decide_eq]

/-- Settles O34: the three ends of a configuration, for a pair. -/
theorem cfgpairConfiguresPair : Obligations.CfgpairConfiguresPair := by
  refine ⟨fun s n sl hrun hs h1 h2 hodd hl => ?_,
    fun _ _ _ _ href => config_turnsAway (pair := true) href⟩
  have ha : s.configAccepts true n sl := ⟨hs, h1, h2, fun _ => hodd, hl⟩
  refine ⟨fun hb => ?_, fun j hf hinit => exec_config_call_fails hrun ha hf hinit⟩
  obtain ⟨hin, hglb, hleg, hinv, hpsfb, hvf⟩ := afterConfig_frame s true n sl
  refine ⟨_, exec_config_ok hrun ha hb, ?_, fun u hu => ?_, ?_, ?_, fun m hm hm' => ?_, ?_,
    fun m hm => ?_, s.calledOk_afterConfig true n sl, portHolds_drive _ _ _, hin, hglb, hleg, hinv,
    hpsfb, hvf⟩
  all_goals simp only [State.drive_timAt, State.drive_chAt, State.drive_cfgAt,
    State.timAt_afterConfig_own, State.chAt_afterConfig, State.cfgAt_afterConfig_own]
  · rw [State.timAt_afterConfig, if_neg hu]
  · simp [configuredChan, ocselOf_false]
  · simp [configuredChan, ocselOf_true]
  · simp [configuredChan, hm, hm']
  · rw [State.cfgAt_afterConfig, if_neg hm]

/-- Settles O35: the three ends of a configuration, for one channel. -/
theorem cfgchConfiguresChannel : Obligations.CfgchConfiguresChannel := by
  refine ⟨fun s n sl hrun hs h1 h2 hl => ?_,
    fun _ _ _ _ href => config_turnsAway (pair := false) href⟩
  have ha : s.configAccepts false n sl := ⟨hs, h1, h2, fun h => (nomatch h), hl⟩
  refine ⟨fun hb => ?_, fun j hf hinit => exec_config_call_fails hrun ha hf hinit⟩
  obtain ⟨hin, hglb, hleg, hinv, hpsfb, hvf⟩ := afterConfig_frame s false n sl
  refine ⟨_, exec_config_ok hrun ha hb, ?_, fun u hu => ?_, ?_, fun m hm => ?_, ?_, ?_,
    fun m hm => ?_, s.calledOk_afterConfig false n sl, portHolds_drive _ _ _, hin, hglb, hleg, hinv,
    hpsfb, hvf⟩
  all_goals simp only [State.drive_timAt, State.drive_chAt, State.drive_cfgAt,
    State.timAt_afterConfig_own, State.chAt_afterConfig, State.cfgAt_afterConfig_own]
  · rw [State.timAt_afterConfig, if_neg hu]
  · simp [configuredChan, ocselOf_isSecond]
  · simp [configuredChan, hm]
  · rfl
  · rw [State.cfgAt_afterConfig, if_neg hm]

/-! ### Limits (R158, R159) -/

section
variable {tm : Tim} {mx mn : NUM}

/-- R158 as the real it computes. -/
theorem limitMax_real (tm : Tim) (mx : NUM) : (limitMax tm mx).real =
    if tm.dtEn = true then
      if mx.real = 0 then 1 - tm.dutyDt.real else min mx.real (1 - tm.dutyDt.real)
    else if mx.real = 0 then 1 else mx.real := by
  have hzero : mx = .rat 0 ↔ mx.real = 0 := by rw [eq_rat_iff]; simp
  unfold limitMax
  simp only [hzero]
  split_ifs <;> simp [numMin_real]

/-- Without dead-time a limit that is set is kept (R158). -/
theorem limitMax_of_dt_off (hdt : tm.dtEn = false) (hmx : mx.real ≠ 0) : limitMax tm mx = mx :=
  real_injective (by rw [limitMax_real, if_neg (by simp [hdt]), if_neg hmx])

/-- With dead-time the limit leaves room for its fraction (R158). -/
theorem limitMax_le_of_dt (hdt : tm.dtEn = true) (mx : NUM) :
    (limitMax tm mx).real ≤ 1 - tm.dutyDt.real := by
  rw [limitMax_real, if_pos hdt]
  split_ifs
  · exact le_rfl
  · exact min_le_right _ _

/-- A limit that is set never rises (R158). -/
theorem limitMax_le_of_set (tm : Tim) (hmx : mx.real ≠ 0) : (limitMax tm mx).real ≤ mx.real := by
  rw [limitMax_real, if_neg hmx, if_neg hmx]
  split_ifs
  · exact min_le_left _ _
  · exact le_rfl

/-- A fraction below 1 leaves the limit set (R158). -/
theorem limitMax_ne_zero (hdt : tm.dtEn = true) (hfrac : tm.dutyDt.real < 1) (mx : NUM) :
    (limitMax tm mx).real ≠ 0 := by
  rw [limitMax_real, if_pos hdt]
  split_ifs with hmx
  · linarith
  · rcases min_choice mx.real (1 - tm.dutyDt.real) with h | h <;> rw [h]
    · exact hmx
    · linarith

theorem limitMax_idem (tm : Tim) (mx : NUM) : limitMax tm (limitMax tm mx) = limitMax tm mx := by
  have h := limitMax_real tm mx
  apply real_injective
  rw [limitMax_real tm (limitMax tm mx)]
  split_ifs with hdt hzero hzero
  · rw [if_pos hdt] at h
    split_ifs at h with hmx
    · exact h.symm
    · rcases min_choice mx.real (1 - tm.dutyDt.real) with hmin | hmin
      · exact absurd (hmin.symm.trans (h.symm.trans hzero)) hmx
      · exact (h.trans hmin).symm
  · exact min_eq_left (limitMax_le_of_dt hdt mx)
  · rw [if_neg hdt] at h
    split_ifs at h with hmx
    · exact h.symm
    · exact absurd (h.symm.trans hzero) hmx
  · rfl

/-- R159: a balanced pair whose upper limit exceeds 1/2 has the complement as its lower limit. -/
theorem limitMin_balanced (hmx : 1 / 2 < mx.real) (mn : NUM) :
    limitMin true true mx mn = (NUM.rat 1).sub mx := by
  have h : (NUM.rat (1 / 2)).lt mx = true := by rw [lt_iff, real_rat]; push_cast; exact hmx
  rw [limitMin, h]
  rfl

/-- In every other case the lower limit is kept (R159). -/
theorem limitMin_kept {pair bal : Bool} (h : pair = false ∨ bal = false ∨ mx.real ≤ 1 / 2)
    (mn : NUM) : limitMin pair bal mx mn = mn := by
  refine if_neg fun hall => ?_
  simp only [Bool.and_eq_true, lt_iff, real_rat] at hall
  obtain ⟨⟨hpair, hbal⟩, hmx⟩ := hall
  push_cast at hmx
  rcases h with h | h | h
  · rw [h] at hpair; cases hpair
  · rw [h] at hbal; cases hbal
  · linarith

theorem limitMin_idem (pair bal : Bool) (mx mn : NUM) :
    limitMin pair bal mx (limitMin pair bal mx mn) = limitMin pair bal mx mn := by
  unfold limitMin
  split_ifs <;> rfl

theorem limitSlot_max (tm : Tim) (pair : Bool) (c : Slot) :
    (limitSlot tm pair c).max = limitMax tm c.max := rfl

theorem limitSlot_idem (tm : Tim) (pair : Bool) (c : Slot) :
    limitSlot tm pair (limitSlot tm pair c) = limitSlot tm pair c := by
  simp [limitSlot, limitMax_idem, limitMin_idem]

end

/-- After a configuration the slot's limits are those of the timer's record (R158, R159). -/
theorem cfgAt_of_config {s t : State} {pair : Bool} {n sl : Nat}
    (h : exec (configInstr pair n sl) s = .next t) (hok : t.status = .ok) :
    t.cfgAt sl = limitSlot (t.timAt (instOf s.params n)) pair (s.cfgAt sl) := by
  obtain ⟨-, -, rfl⟩ := exec_config_eq_ok h hok
  rw [State.drive_cfgAt, State.drive_timAt, State.cfgAt_afterConfig_own,
    State.timAt_afterConfig_own]

/-- Settles O36: the slot is `limitSlot` of the old one, whose limits are `limitMax` and `limitMin`. -/
theorem limitsFollowTheRules : Obligations.LimitsFollowTheRules := by
  intro s t n sl pair _ h hok
  rw [cfgAt_of_config h hok, limitSlot_max]
  have hmax := limitMax_real (t.timAt (instOf s.params n)) (s.cfgAt sl).max
  refine ⟨fun hdt hmx => ?_, fun hdt hmx => ?_, fun hdt hmx => ?_,
    fun hdt hmx => limitMax_of_dt_off hdt hmx, fun hpair hbal hhalf => ?_,
    fun hkept => limitMin_kept hkept _, rfl⟩
  · simpa [hdt, hmx] using hmax
  · simpa [hdt, hmx] using hmax
  · simpa [hdt, hmx] using hmax
  · subst hpair
    simp only [limitSlot, hbal] at hhalf ⊢
    rw [limitMin_balanced hhalf, real_sub, real_rat, Rat.cast_one]

/-! ### Idempotence (R160) -/

/-- A configuration that has completed is accepted again, without a call. -/
theorem configAccepts_again {s t : State} {pair : Bool} {n sl : Nat}
    (ha : s.configAccepts pair n sl) (hp : t.params = s.params)
    (hi : (t.timAt (instOf s.params n)).init = true) : t.configAccepts pair n sl := by
  obtain ⟨hs, h1, h2, hodd, -⟩ := ha
  unfold State.configAccepts
  rw [hp, State.lazyTim_of_init hi]
  exact ⟨hs, h1, h2, hodd, hi⟩

/-- A configuration run again on the state it left writes every record as it stands. -/
theorem afterConfig_again {s t : State} {pair : Bool} {n sl : Nat}
    (hi : (s.lazyTim (instOf s.params n) sl).init = true)
    (ht : t = (s.afterConfig pair n sl).drive .ok Results.none) :
    sameInputs t (t.afterConfig pair n sl) ∧ sameCalls t (t.afterConfig pair n sl) ∧
      sameBanks t (t.afterConfig pair n sl) := by
  have hp : t.params = s.params := by rw [ht]; exact (afterConfig_frame s pair n sl).1.1
  have htim : t.timAt (instOf t.params n) = s.lazyTim (instOf s.params n) sl := by
    rw [hp, ht]; exact s.timAt_afterConfig_own pair n sl
  have hinit : (t.timAt (instOf t.params n)).init = true := by rw [htim]; exact hi
  have hlazy := State.lazyTim_of_init hinit sl
  have hcalls := t.calledOk_afterConfig pair n sl
  rw [State.lazyCalls_of_init hinit] at hcalls
  obtain ⟨hin, hglb, hleg, hinv, hpsfb, hvf⟩ := afterConfig_frame t pair n sl
  refine ⟨hin, by simpa [calledOk, sameCalls] using hcalls, hglb, fun v => ?_, fun m => ?_,
    fun m => ?_, hleg, hinv, hpsfb, hvf⟩
  · rw [State.timAt_afterConfig, hlazy]
    split
    · next e => rw [e]
    · rfl
  · rw [State.chAt_afterConfig, hlazy, htim, ht, State.drive_chAt, State.chAt_afterConfig,
      configuredChan_idem]
  · rw [State.cfgAt_afterConfig, hlazy]
    split
    · next e => rw [e, htim, ht, State.drive_cfgAt, State.cfgAt_afterConfig_own, limitSlot_idem]
    · rfl

/-- A configuration never writes the record of a timer that an earlier one has initialised. -/
theorem timAt_of_config_twice {s t u : State} {pair pair' : Bool} {n m sl sl' : Nat}
    (hn : exec (configInstr pair n sl) s = .next t) (hnok : t.status = .ok)
    (hm : exec (configInstr pair' m sl') t = .next u) (hmok : u.status = .ok) :
    t.params = s.params ∧
      u.timAt (instOf s.params n) = t.timAt (instOf s.params n) := by
  obtain ⟨-, ⟨-, -, -, -, hi⟩, ht⟩ := exec_config_eq_ok hn hnok
  obtain ⟨-, -, hu⟩ := exec_config_eq_ok hm hmok
  refine ⟨by rw [ht]; exact (afterConfig_frame s pair n sl).1.1, ?_⟩
  rw [hu]
  refine t.timAt_afterConfig_of_init pair' m sl' ?_
  rw [ht, State.drive_timAt, State.timAt_afterConfig_own]
  exact hi

/-- Settles O37: the second run finds the timer initialised, and roles and limits are written again
as they stand; and with a first fraction below 1 the first upper limit is set, so that the second run
can only lower it. -/
theorem configurationIsIdempotent : Obligations.ConfigurationIsIdempotent := by
  refine ⟨fun s t n sl pair _ h hok => ?_, fun s t u n m sl _ hn hnok hm hmok hdt hdt' hfrac => ?_⟩
  · obtain ⟨hrun, ha, ht⟩ := exec_config_eq_ok h hok
    obtain ⟨hs, h1, h2, hodd, hl⟩ := ha
    obtain ⟨⟨hp, -⟩, ⟨hhalt, -⟩, -⟩ := afterConfig_frame s pair n sl
    have hp' : t.params = s.params := by rw [ht]; exact hp
    have hinit : (t.timAt (instOf t.params n)).init = true := by
      rw [hp', ht, State.drive_timAt, State.timAt_afterConfig_own]; exact hl
    have ha' : t.configAccepts pair n sl := by
      unfold State.configAccepts
      rw [State.lazyTim_of_init hinit, hp']
      exact ⟨hs, h1, h2, hodd, hp' ▸ hinit⟩
    obtain ⟨hin, hcalls, hbanks⟩ := afterConfig_again hl ht
    refine ⟨_, exec_config_ok (by rw [ht]; exact hhalt.trans hrun) ha' (.inr hinit), hbanks, ?_,
      hcalls, hin⟩
    rw [ht]
    exact ⟨rfl, rfl, rfl, rfl, rfl, rfl⟩
  · have hslot := cfgAt_of_config (pair := true) hn hnok
    have hslot' := cfgAt_of_config (pair := true) hm hmok
    obtain ⟨hp, hkept⟩ := timAt_of_config_twice (pair := true) (pair' := true) hn hnok hm hmok
    rw [hkept] at hdt hfrac ⊢
    rw [hslot', hp]
    refine ⟨?_, limitMax_le_of_dt hdt' _⟩
    have hset : (t.cfgAt sl).max.real ≠ 0 := by
      rw [hslot]; exact limitMax_ne_zero hdt hfrac _
    calc (limitMax (u.timAt (instOf s.params m)) (t.cfgAt sl).max).real
        ≤ (t.cfgAt sl).max.real := limitMax_le_of_set _ hset
      _ ≤ 1 - (t.timAt (instOf s.params n)).dutyDt.real := by
        rw [hslot]; exact limitMax_le_of_dt hdt _

/-! ### Duty updates (R161 to R169) -/

section
variable {s t : State} {n sl : Nat} {duty d : NUM}

/-- A channel update that is refused has no effect (R162). -/
theorem updateChannel_refused {e : Status} (hrun : s.halted = false)
    (h : s.channelDutyRefusal n sl duty e) : updateChannel n sl duty s = .err e s := by
  have hunbound : n < 1 ∨ s.params.npwm < n → ¬ bound s.params n = true := by
    rw [bound_iff]; omega
  simp only [State.channelDutyRefusal, hrun, Bool.false_eq_true, if_false] at h
  unfold updateChannel
  split_ifs at h with hs hn hrole
  · rw [if_pos hs, h]
  · rw [if_neg hs, if_pos (hunbound hn), h]
  all_goals
    have hbound : ¬ ¬ bound s.params n = true := not_not.2 (bound_iff.2 (by omega))
    rw [if_neg hs, if_neg hbound]
  · rw [if_pos hrole, h]
  · obtain ⟨hfit, rfl⟩ := h
    rw [if_neg hrole]
    simp only [(dutyCompare_eq _ _ _).2 hfit]

/-- A pair update completes only on an accepted duty (R161). -/
theorem updatePair_eq_ok (h : updatePair n sl duty s = .ok d t) :
    s.pairAccepts n sl duty ∧ d = clampedDuty (s.cfgAt sl) duty := by
  obtain ⟨hok, herr⟩ := updatePair_spec n sl duty s
  by_cases ha : s.pairAccepts n sl duty
  · rw [hok ha] at h
    cases h
    exact ⟨ha, rfl⟩
  · obtain ⟨e, -, he⟩ := herr ha
    rw [he] at h
    cases h

/-- A channel update completes only on an accepted duty (R162). -/
theorem updateChannel_eq_ok (h : updateChannel n sl duty s = .ok d t) :
    s.channelAccepts n sl duty ∧ d = clampHi duty (s.cfgAt sl).max := by
  obtain ⟨hok, herr⟩ := updateChannel_spec n sl duty s
  by_cases ha : s.channelAccepts n sl duty
  · rw [hok ha] at h
    cases h
    exact ⟨ha, rfl⟩
  · obtain ⟨e, -, he⟩ := herr ha
    rw [he] at h
    cases h

/-- One shadow register is written, and nothing but channels (R162). -/
theorem sameButChannels_setShadow (s : State) (n c : Nat) : sameButChannels s (s.setShadow n c) :=
  sameButChannels_refl s

theorem opOf_updpair (hlane : s.lanes.arg0.value = some duty) :
    opOf (.updpair n sl) s = dutyResult (updatePair n sl duty s) :=
  withArg0_some (op := fun d s => dutyResult (updatePair n sl d s)) hlane

theorem opOf_updch (hlane : s.lanes.arg0.value = some duty) :
    opOf (.updch n sl) s = dutyResult (updateChannel n sl duty s) :=
  withArg0_some (op := fun d s => dutyResult (updateChannel n sl d s)) hlane

/-- An accepted `UPDPAIR` ends with `OK` and the clamped duty (R161). -/
theorem exec_updpair_ok (hrun : s.halted = false) (hlane : s.lanes.arg0.value = some duty)
    (ha : s.pairAccepts n sl duty) :
    exec (.updpair n sl) s = .next ((s.afterUpdate n (s.pairCompare n sl duty)).drive .ok
      (Results.lane0 (clampedDuty (s.cfgAt sl) duty))) :=
  exec_of_opOf_ok hrun (by
    rw [opOf_updpair hlane, (updatePair_spec n sl duty s).1 ha, dutyResult_ok])

/-- An accepted `UPDCH` ends with `OK` and the clamped duty (R162). -/
theorem exec_updch_ok (hrun : s.halted = false) (hlane : s.lanes.arg0.value = some duty)
    (ha : s.channelAccepts n sl duty) :
    exec (.updch n sl) s = .next ((s.setShadow n (appliedCompare (s.timAt (instOf s.params n))
      (s.cfgAt sl) (clampHi duty (s.cfgAt sl).max))).drive .ok
        (Results.lane0 (clampHi duty (s.cfgAt sl).max))) :=
  exec_of_opOf_ok hrun (by
    rw [opOf_updch hlane, (updateChannel_spec n sl duty s).1 ha, dutyResult_ok])

/-- An update that ends with `OK` read a number on its lane, and its operation completed with the duty
that is returned (R22, R103). -/
theorem withArg0_dutyResult_eq_ok {op : NUM → State → Done NUM} {r : Results}
    (h : withArg0 (fun d s => dutyResult (op d s)) s = .ok r t) :
    ∃ duty d, op duty s = .ok d t ∧ r = Results.lane0 d := by
  rcases withArg0_cases (fun d s => dutyResult (op d s)) s with ⟨-, he⟩ | ⟨duty, -, he⟩
  · rw [he] at h
    cases h
  · obtain ⟨d, hd, hr⟩ := dutyResult_eq_ok.1 (he.symm.trans h)
    exact ⟨duty, d, hd, hr⟩

end

/-- Settles O38: an accepted update is `afterUpdate`; every other is refused by the first test
failed. -/
theorem updpairWritesBothShadows : Obligations.UpdpairWritesBothShadows := by
  refine ⟨fun s n sl duty hrun hlane ha => ?_, fun s n sl duty e hlane href => ?_⟩
  · have hch := s.chAt_afterUpdate n (s.pairCompare n sl duty)
    have hframe := sameButChannels_afterUpdate s n (s.pairCompare n sl duty)
    exact ⟨_, exec_updpair_ok hrun hlane ha, portHolds_drive _ .ok (Results.lane0 _), hch, hframe⟩
  · refine turnsAway_of_halted_or_err (fun hh => ?_) fun hh => by
      rw [opOf_updpair hlane, updatePair_refused hh href, dutyResult_err]
    rwa [State.pairDutyRefusal, if_pos hh] at href

/-- Settles O39: an accepted update writes one shadow register; every other is refused by the first test
failed. -/
theorem updchWritesOneShadow : Obligations.UpdchWritesOneShadow := by
  refine ⟨fun s n sl duty hrun hlane ha => ?_, fun s n sl duty e hlane href => ?_⟩
  · have hframe := sameButChannels_setShadow s n (appliedCompare (s.timAt (instOf s.params n))
      (s.cfgAt sl) (clampHi duty (s.cfgAt sl).max))
    refine ⟨_, exec_updch_ok hrun hlane ha, portHolds_drive _ .ok (Results.lane0 _), fun m => ?_,
      hframe⟩
    rw [State.drive_chAt, State.chAt_setShadow]
    split
    · next e => rw [e]
    · rfl
  · refine turnsAway_of_halted_or_err (fun hh => ?_) fun hh => by
      rw [opOf_updch hlane, updateChannel_refused hh href, dutyResult_err]
    rwa [State.channelDutyRefusal, if_pos hh] at href

/-- Limits with 0 ≤ `MIN` ≤ `MAX` ≤ 1 − compensation make every clamped duty fit (R168). -/
theorem dutyFits_clampedDuty {tm : Tim} {c : Slot} (h0 : 0 ≤ c.min.real)
    (hle : c.min.real ≤ c.max.real) (h1 : c.max.real ≤ 1 - (compOf tm c).real)
    (hcomp : 0 ≤ (compOf tm c).real) (duty : NUM) : dutyFits tm c (clampedDuty c duty) := by
  obtain ⟨hlow, hhigh⟩ := clamp_bounds (d := duty) hle
  rw [dutyFits_iff, real_add, clampedDuty]
  exact .inr ⟨by linarith, by linarith⟩

/-- Settles O40: what an update returns is a clamp between the slot's limits, and limits in order make
every clamped duty acceptable. -/
theorem appliedDutyStaysInLimits : Obligations.AppliedDutyStaysInLimits := by
  refine ⟨fun s t n sl h hok hle => ?_, fun s t n sl h hok => ?_,
    fun s n sl duty hrun hlane hs h1 h2 hodd hinit hrole h0 hle hmax hcomp => ?_⟩
  · obtain ⟨-, r, v, hop, rfl⟩ := opOf_ok_of_status_ok h hok
    obtain ⟨duty, d, hd, rfl⟩ := withArg0_dutyResult_eq_ok (op := updatePair n sl) hop
    obtain ⟨-, rfl⟩ := updatePair_eq_ok hd
    exact clamp_bounds hle
  · obtain ⟨-, r, v, hop, rfl⟩ := opOf_ok_of_status_ok h hok
    obtain ⟨duty, d, hd, rfl⟩ := withArg0_dutyResult_eq_ok (op := updateChannel n sl) hop
    obtain ⟨-, rfl⟩ := updateChannel_eq_ok hd
    exact clampHi_le duty _
  · have ha : s.pairAccepts n sl duty :=
      ⟨hs, h1, h2, hodd, hinit, hrole, dutyFits_clampedDuty h0 hle hmax hcomp duty⟩
    exact ⟨_, exec_updpair_ok hrun hlane ha, rfl⟩

/-! ### The callback slot (R170) -/

section
variable {s : State} {u : Nat} {cb : Byte}

theorem callbackLegal_iff {p : Params} :
    callbackLegal p cb = true ↔ 1 ≤ cb.toNat ∧ cb.toNat ≤ p.nvf ∨ 0x80 ≤ cb.toNat := by
  simp [callbackLegal]

theorem ne_zero_of_one_le_toNat (h : 1 ≤ cb.toNat) : cb ≠ 0 := by
  rintro rfl
  exact absurd h (by decide)

/-- `CFGIRQ` is refused at once where the timer does not exist (R170, R303). -/
theorem configIrq_bad_index (hu : 1 < u) (prio : Nibble) (e : Bool) :
    configIrq u cb prio e s = .err .errIndex s := if_pos hu

theorem configIrq_legal (hu : u ≤ 1) (h : callbackLegal s.params cb = true) (prio : Nibble) :
    configIrq u cb prio true s =
      .ok () ((s.setTim u { s.timAt u with cb := cb, cbPrio := prio }).emit
        (.irqConfig u true prio)) := by
  have hne : cb ≠ 0 := ne_zero_of_one_le_toNat (by have := callbackLegal_iff.1 h; omega)
  rw [configIrq, if_neg (by omega), if_pos rfl, if_neg hne, if_neg (not_not.2 h)]

theorem configIrq_null (hu : u ≤ 1) (prio : Nibble) : configIrq u 0 prio true s = .ok () s := by
  rw [configIrq, if_neg (by omega), if_pos rfl, if_pos rfl]

theorem configIrq_reserved (hu : u ≤ 1) (hne : cb ≠ 0) (h : ¬ callbackLegal s.params cb = true)
    (prio : Nibble) : configIrq u cb prio true s = .err .errValue s := by
  rw [configIrq, if_neg (by omega), if_pos rfl, if_neg hne, if_pos h]

theorem configIrq_disable (hu : u ≤ 1) (prio : Nibble) : configIrq u cb prio false s =
    .ok () ((s.setTim u { s.timAt u with cb := 0 }).emit (.irqConfig u false 0)) := by
  rw [configIrq, if_neg (by omega), if_neg (by decide)]

/-- A record written and one call: what is kept, and the record (R170). -/
theorem setTim_emit_frame (s : State) (u : Nat) (v : Tim) (c : ExtCall) :
    ((s.setTim u v).emit c).timAt u = v ∧
    (∀ m, m ≠ u → ((s.setTim u v).emit c).timAt m = s.timAt m) ∧
    calledOk s ((s.setTim u v).emit c) [c] ∧ sameInputs s ((s.setTim u v).emit c) ∧
    sameGlb s ((s.setTim u v).emit c) ∧ sameCh s ((s.setTim u v).emit c) ∧
    sameCfg s ((s.setTim u v).emit c) ∧ sameLeg s ((s.setTim u v).emit c) ∧
    sameInv s ((s.setTim u v).emit c) ∧ samePsfb s ((s.setTim u v).emit c) ∧
    sameVf s ((s.setTim u v).emit c) :=
  ⟨s.timAt_setTim_same u v, fun m hm => s.timAt_setTim_other u m v hm, ⟨rfl, rfl⟩,
    ⟨rfl, rfl, rfl, rfl⟩, ⟨rfl, rfl⟩, fun _ => rfl, fun _ => rfl, fun _ => rfl, fun _ => rfl,
    fun _ => rfl, fun _ => rfl⟩

end

/-- Settles O41: one case of `CFGIRQ` for each clause. -/
theorem cfgirqSetsTheCallback : Obligations.CfgirqSetsTheCallback := by
  refine ⟨fun s u cb prio hrun hu hlegal => ?_, fun s u prio hrun hu => ?_,
    fun s u cb prio hrun hu => ?_, fun s u cb prio e => ⟨turnsAway_of_halted _, fun hrun hu => ?_,
      fun hrun hu he hnvf h1 h80 => ?_⟩⟩
  · obtain ⟨htim, hother, hcalls, hframe⟩ := setTim_emit_frame s u
      { s.timAt u with cb := cb, cbPrio := prio } (.irqConfig u true prio)
    have hop := configIrq_legal hu (callbackLegal_iff.2 hlegal) prio
    exact ⟨_, exec_of_opOf_ok hrun (congrArg noResults hop), htim, hother, hcalls,
      portHolds_drive _ _ _, hframe⟩
  · obtain ⟨hin, hcalls, hbanks⟩ := drive_frame s .ok Results.none
    exact ⟨_, exec_of_opOf_ok hrun (congrArg noResults (configIrq_null hu prio)),
      portHolds_drive _ _ _, hin, hcalls, hbanks⟩
  · obtain ⟨htim, hother, hcalls, hframe⟩ := setTim_emit_frame s u
      { s.timAt u with cb := 0 } (.irqConfig u false 0)
    exact ⟨_, exec_of_opOf_ok hrun (congrArg noResults (configIrq_disable hu prio)), htim, hother,
      hcalls, portHolds_drive _ _ _, hframe⟩
  · exact turnsAway_of_opOf_err hrun (congrArg noResults (configIrq_bad_index hu prio e))
  · subst he
    refine turnsAway_of_opOf_err hrun (congrArg noResults (configIrq_reserved hu
      (ne_zero_of_one_le_toNat h1) ?_ prio))
    rw [callbackLegal_iff]
    omega

/-! ### The period event (R172) -/

/-- The result port apart, a command ends in the state that its operation leaves. -/
theorem finish_frame (r : Done Results) :
    sameBanks r.finish r.state ∧ sameCalls r.finish r.state ∧ sameInputs r.finish r.state := by
  have key : ∀ (v : State) (e : Status) (x : Results), sameBanks (v.drive e x) v ∧
      sameCalls (v.drive e x) v ∧ sameInputs (v.drive e x) v := fun v e x =>
    ⟨⟨⟨rfl, rfl⟩, fun _ => rfl, fun _ => rfl, fun _ => rfl, fun _ => rfl, fun _ => rfl, fun _ => rfl,
      fun _ => rfl⟩, ⟨rfl, rfl⟩, ⟨rfl, rfl, rfl, rfl⟩⟩
  cases r
  · exact key _ _ _
  · exact key _ _ _

theorem samePort_trans {s t u : State} (h : samePort s t) (g : samePort t u) : samePort s u := by
  obtain ⟨h1, h2, h3, h4, h5, h6⟩ := h
  obtain ⟨g1, g2, g3, g4, g5, g6⟩ := g
  exact ⟨g1.trans h1, g2.trans h2, g3.trans h3, g4.trans h4, g5.trans h5, g6.trans h6⟩

/-- A call that is answered `ok` changes the trace only. -/
theorem emit_frame (s : State) (c : ExtCall) : calledOk s (s.emit c) [c] ∧ sameBanks s (s.emit c) ∧
    sameInputs s (s.emit c) ∧ samePort s (s.emit c) :=
  ⟨⟨rfl, rfl⟩, ⟨⟨rfl, rfl⟩, fun _ => rfl, fun _ => rfl, fun _ => rfl, fun _ => rfl, fun _ => rfl,
    fun _ => rfl, fun _ => rfl⟩, ⟨rfl, rfl, rfl, rfl⟩, rfl, rfl, rfl, rfl, rfl, rfl⟩

/-- Settles O42: the committed state is that of `commit`, and each callback is one case of the
event. -/
theorem periodEventCommitsThenCallsBack : Obligations.PeriodEventCommitsThenCallsBack := by
  intro s u rest hin
  have hstep : step s = perElapsed u.val { s with inbox := rest } := step_of_inbox_cons hin
  rw [hstep]
  refine ⟨fun hidle => perElapsed_idle hidle, fun hrun hinit => ?_⟩
  obtain ⟨hnone, hramp, hext, hhang⟩ :=
    perElapsed_callback (s := { s with inbox := rest }) hrun hinit
  obtain ⟨⟨hparams, henv, hinbox, hlanes⟩, hcalls, hglb, htim, hcfg, hleg, hinv, hpsfb, hvf,
      hport⟩ :=
    commit_same { s with inbox := rest } u.val
  refine ⟨_, commit_chAt { s with inbox := rest } (Nat.le_of_lt_succ u.isLt), hparams, henv, hinbox,
    hlanes, hcalls, hglb, htim, hcfg, hleg, hinv, hpsfb, hvf, hport, hnone, fun hcb hnvf => ?_,
    fun hnvf => ⟨fun hreturns => ⟨_, hext hnvf hreturns, emit_frame _ _⟩, hhang hnvf⟩⟩
  obtain ⟨hbanks, hcalls', hinputs⟩ := finish_frame
    (rampStep ((s.timAt u.val).cb.toNat - 1) (State.commit { s with inbox := rest } u.val))
  exact ⟨_, _, hramp hcb hnvf, exec_running (hglb.1.trans hrun), hbanks, hcalls', hinputs,
    samePort_trans hport (reach_rampStep _ _).quiet.1⟩

end Sys2Proof.Machine
end

section
/-! SUPPORT. The statements of 42_power_module_leg.md: which commands touch outputs, the TNPC split,
and the leg commands `ENLEG`, `CAPUPD` and `CFGLEG`. -/

namespace Sys2Proof.Machine
open Laws

/-! ### Which commands touch outputs (R210, R227) -/

/-- `OEN` and the activation states of legs, inverters and full bridges are unchanged. -/
def sameOutputs (s t : State) : Prop :=
  t.oen = s.oen ∧ (∀ l, (t.legAt l).state = (s.legAt l).state) ∧
  (∀ u, (t.invAt u).state = (s.invAt u).state) ∧ (∀ j, (t.psfbAt j).state = (s.psfbAt j).state)

theorem sameOutputs_refl (s : State) : sameOutputs s s :=
  ⟨rfl, fun _ => rfl, fun _ => rfl, fun _ => rfl⟩

theorem sameOutputs.trans {s t u : State} (h : sameOutputs s t) (g : sameOutputs t u) :
    sameOutputs s u := by
  obtain ⟨h1, h2, h3, h4⟩ := h
  obtain ⟨g1, g2, g3, g4⟩ := g
  exact ⟨g1.trans h1, fun l => (g2 l).trans (h2 l), fun u => (g3 u).trans (h3 u),
    fun j => (g4 j).trans (h4 j)⟩

/-- Starting legs touches no output (R220). -/
theorem onlyStarts.sameOutputs {s t : State} (h : onlyStarts s t) : sameOutputs s t := by
  obtain ⟨hoen, hleg, hinv, hpsfb, -⟩ := h
  exact ⟨hoen, fun l => (hleg l).1, fun u => congrArg Inv.state (hinv u),
    fun j => congrArg Psfb.state (hpsfb j)⟩

/-- The operation touches no output, however it ends. -/
def OutputsKept {α : Type} (s : State) (r : Done α) : Prop := sameOutputs s r.state

section
variable {α β : Type} {s : State}

theorem outputsKept_ok (a : α) (s : State) : OutputsKept s (.ok a s) := sameOutputs_refl s

theorem outputsKept_err (e : Status) (s : State) : OutputsKept s (.err e s : Done α) :=
  sameOutputs_refl s

theorem OutputsKept.andThen {r : Done α} {k : α → State → Done β} (h : OutputsKept s r)
    (hk : ∀ a t, OutputsKept t (k a t)) : OutputsKept s (r.andThen k) := by
  cases r with
  | err e t => exact h
  | ok a t => exact sameOutputs.trans h (hk a t)

theorem Starts.outputsKept {r : Done α} (h : Starts s r) : OutputsKept s r :=
  onlyStarts.sameOutputs h

theorem OutputsKept.noResults {r : Done Unit} (h : OutputsKept s r) :
    OutputsKept s (noResults r) := h.andThen fun _ t => outputsKept_ok _ t

theorem OutputsKept.dutyResult {r : Done NUM} (h : OutputsKept s r) :
    OutputsKept s (dutyResult r) := h.andThen fun _ t => outputsKept_ok _ t

theorem OutputsKept.dutiesResult {r : Done Duties} (h : OutputsKept s r) :
    OutputsKept s (dutiesResult r) := h.andThen fun _ t => outputsKept_ok _ t

theorem outputsKept_withArg0 {op : NUM → State → Done Results}
    (h : ∀ a, OutputsKept s (op a s)) : OutputsKept s (withArg0 op s) := by
  obtain ⟨-, he⟩ | ⟨a, -, he⟩ := withArg0_cases op s <;> rw [he]
  · exact outputsKept_err _ s
  · exact h a

/-- A command that reads a duty and returns one keeps the outputs where its operation does. -/
theorem outputsKept_withDuty {op : NUM → State → Done NUM} (h : ∀ d, OutputsKept s (op d s)) :
    OutputsKept s (withArg0 (fun d s => dutyResult (op d s)) s) :=
  outputsKept_withArg0 fun d => (h d).dutyResult

theorem outputsKept_withArg01 {op : NUM → NUM → State → Done Results}
    (h : ∀ a b, OutputsKept s (op a b s)) : OutputsKept s (withArg01 op s) := by
  obtain ⟨-, he⟩ | ⟨a, b, -, -, he⟩ := withArg01_cases op s <;> rw [he]
  · exact outputsKept_err _ s
  · exact h a b

theorem outputsKept_withArgs {op : NUM → NUM → NUM → State → Done Results}
    (h : ∀ a b c, OutputsKept s (op a b c s)) : OutputsKept s (withArgs op s) := by
  obtain ⟨-, he⟩ | ⟨a, b, c, -, -, -, he⟩ := withArgs_cases op s <;> rw [he]
  · exact outputsKept_err _ s
  · exact h a b c

end

theorem Activity.code_injective {a b : Activity} (h : a.code = b.code) : a = b := by
  cases a <;> cases b <;> first | rfl | cases h

/-- An activation state is read-only: no write to it is accepted, so a legal write leaves it as it
was (R33 to R35, R291). -/
theorem outputsKept_memWrite (v : NUM) (s : State) (c : Cell) : OutputsKept s (memWrite v s c) := by
  by_cases hacc : c.accepts v
  · obtain ⟨t, ht, -, hother, -⟩ := memWrite_ok (s := s) hacc
    rw [ht]
    have hne : ∀ c', ¬ c'.accepts v → memRead t c' = memRead s c' := fun c' hc' =>
      hother c' fun e => hc' (e ▸ hacc)
    refine ⟨?_, fun l => Activity.code_injective ?_, fun u => Activity.code_injective ?_,
      fun j => Activity.code_injective ?_⟩
    · exact BitVec.eq_of_toNat_eq (CellValue.int.inj (hne (.glb .oen) id))
    · exact CellValue.int.inj (hne (.leg l .state) id)
    · exact CellValue.int.inj (hne (.inv u .state) id)
    · exact CellValue.int.inj (hne (.psfb j .state) id)
  · obtain ⟨hro, hvalue⟩ := memWrite_err (s := s) (c := c) (v := v)
    cases hw : c.writable with
    | false => rw [hro hw]; exact outputsKept_err _ s
    | true => rw [hvalue hw hacc]; exact outputsKept_err _ s

theorem outputsKept_writeField (addr : FieldAddr) (v : NUM) (s : State) :
    OutputsKept s (writeField addr v s) := by
  unfold writeField
  split
  · exact outputsKept_err _ s
  · exact (outputsKept_memWrite v s _).andThen fun _ t => outputsKept_ok _ t

theorem outputsKept_readField (addr : FieldAddr) (s : State) :
    OutputsKept s (readField addr s) := by
  unfold readField
  split
  · exact outputsKept_err _ s
  · exact outputsKept_ok _ s

theorem outputsKept_encodeDeadTime (ns clk fsw : NUM) (s : State) :
    OutputsKept s (encodeDeadTime ns clk fsw s) := by
  unfold encodeDeadTime
  split
  · exact outputsKept_err _ s
  · split
    · exact outputsKept_err _ s
    · exact outputsKept_ok _ s

theorem outputsKept_configChannel (n sl : Nat) (s : State) :
    OutputsKept s (configChannel n sl s) := by
  unfold configChannel
  split
  · exact outputsKept_err _ s
  split
  · exact outputsKept_err _ s
  · exact (starts_timerInit _ sl s).outputsKept.andThen fun _ t => sameOutputs_refl t

theorem outputsKept_updateChannel (n sl : Nat) (d : NUM) (s : State) :
    OutputsKept s (updateChannel n sl d s) := by
  obtain ⟨hok, herr⟩ := updateChannel_spec n sl d s
  by_cases h : s.channelAccepts n sl d
  · rw [hok h]; exact sameOutputs_refl s
  · obtain ⟨e, -, he⟩ := herr h
    rw [he]; exact outputsKept_err _ s

theorem outputsKept_configIrq (t : Nat) (cb : Byte) (prio : Nibble) (e : Bool) (s : State) :
    OutputsKept s (configIrq t cb prio e s) := by
  obtain ⟨-, h⟩ | ⟨-, -, -, h⟩ | ⟨-, -, -, -, h⟩ | ⟨-, -, -, -, h⟩ | ⟨-, -, h⟩ :=
    configIrq_spec t cb prio e s <;> rw [h] <;> exact sameOutputs_refl s

theorem outputsKept_capabilityUpdate (l : Nat) (d : NUM) (s : State) :
    OutputsKept s (capabilityUpdate l d s) := (starts_capabilityUpdate l d s).outputsKept

theorem outputsKept_duplicateUpdate (i : Nat) (d : NUM) (s : State) :
    OutputsKept s (duplicateUpdate i d s) := by
  unfold duplicateUpdate
  split
  · exact outputsKept_capabilityUpdate _ d s
  · exact outputsKept_ok _ s

theorem outputsKept_inverterUpdate (i : Nat) (d0 d1 d2 : NUM) (s : State) :
    OutputsKept s (inverterUpdate i d0 d1 d2 s) := by
  unfold inverterUpdate
  split
  · exact outputsKept_err _ s
  split
  · exact outputsKept_err _ s
  · exact (outputsKept_capabilityUpdate _ d0 s).andThen fun _ s1 =>
      (outputsKept_capabilityUpdate _ d1 s1).andThen fun _ s2 =>
      (outputsKept_capabilityUpdate _ d2 s2).andThen fun _ s3 =>
      (outputsKept_duplicateUpdate i d2 s3).andThen fun _ s4 => outputsKept_ok _ s4

theorem outputsKept_inverterSpwm (i : Nat) (dir : Direction) (theta mi : NUM) (s : State) :
    OutputsKept s (inverterSpwm i dir theta mi s) := by
  unfold inverterSpwm
  split
  · exact outputsKept_err _ s
  split
  · exact outputsKept_err _ s
  · exact outputsKept_inverterUpdate i _ _ _ (s.emitSpwm theta mi dir)

theorem outputsKept_psfbUpdate (j : Nat) (d : NUM) (s : State) :
    OutputsKept s (psfbUpdate j d s) := by
  unfold psfbUpdate
  split
  · exact outputsKept_err _ s
  split
  · exact outputsKept_err _ s
  · exact sameOutputs_refl s

theorem outputsKept_rampInit (k : Nat) (s : State) : OutputsKept s (rampInit k s) := by
  unfold rampInit
  split
  · exact outputsKept_err _ s
  simp only
  split
  · exact outputsKept_err _ s
  split
  · exact outputsKept_err _ s
  · exact sameOutputs_refl s

/-- A command ends with the outputs as its operation leaves them; a halted CORE performs none. -/
theorem OutputsKept.exec {i : Instr} {s t : State} (h : OutputsKept s (opOf i s))
    (ht : exec i s = .next t) : sameOutputs s t := by
  cases hh : s.halted with
  | true =>
    rw [exec_eq, command_halted hh] at ht
    cases ht
    exact sameOutputs_refl s
  | false =>
    rw [exec_running hh] at ht
    cases ht
    revert h
    cases opOf i s with
    | ok r u => exact id
    | err e u => exact id

/-- Settles O25: every other command's operation keeps the outputs, and its end touches only the
result port. -/
theorem onlyEnablingCommandsTouchOutputs : Obligations.OnlyEnablingCommandsTouchOutputs := by
  intro i s t ht hi
  refine OutputsKept.exec (i := i) ?_ ht
  cases i with
  | enleg | invinit | invact | psfbinit | psfbact | vfstep => exact hi.elim
  | wrf addr => exact outputsKept_withArg0 fun v => outputsKept_writeField addr v s
  | rdf addr => exact outputsKept_readField addr s
  | dtenc => exact outputsKept_withArgs fun ns clk fsw => outputsKept_encodeDeadTime ns clk fsw s
  | tinit u sl => exact (starts_timerInit u sl s).outputsKept.noResults
  | cfgpair n sl => exact (starts_configPair n sl s).outputsKept.noResults
  | cfgch n sl => exact (outputsKept_configChannel n sl s).noResults
  | updpair n sl =>
    exact outputsKept_withDuty fun d => (starts_updatePair n sl d s).outputsKept
  | updch n sl => exact outputsKept_withDuty fun d => outputsKept_updateChannel n sl d s
  | cfgirq u cb prio e => exact (outputsKept_configIrq u cb prio e s).noResults
  | cfgleg l => exact (starts_configLeg l s).1.outputsKept.andThen fun _ u => outputsKept_ok _ u
  | capupd l => exact outputsKept_withDuty fun d => outputsKept_capabilityUpdate l d s
  | invupd u =>
    rw [opOf]
    exact outputsKept_withArgs fun a b c => (outputsKept_inverterUpdate u a b c s).dutiesResult
  | invspwm u dir =>
    rw [opOf]
    exact outputsKept_withArg01 fun a b => (outputsKept_inverterSpwm u dir a b s).dutiesResult
  | psfbupd j => exact outputsKept_withDuty fun d => outputsKept_psfbUpdate j d s
  | vfinit k => exact (outputsKept_rampInit k s).noResults

/-! ### The TNPC split (R202, R203) -/

section
variable {d : NUM} {q : Ratio}

theorem tnpcDistance_real (d : NUM) : (tnpcDistance d).real = |d.real - 1 / 2| * 2 := by
  rw [tnpcDistance, real_mul, numAbs_real, real_sub, real_rat, real_rat]
  norm_num

theorem tnpcSplit_low (h : d.real < 1 / 2) :
    tnpcSplit d = (.rat 0, (NUM.rat 1).sub (tnpcDistance d)) :=
  if_pos ((lt_iff _ _).2 (by rw [real_rat]; push_cast; exact h))

theorem tnpcSplit_high (h : 1 / 2 ≤ d.real) : tnpcSplit d = (tnpcDistance d, .rat 1) :=
  if_neg ((not_lt_iff _ _).2 (by rw [real_rat]; push_cast; exact h))

theorem tnpcDistance_real_low (h : d.real < 1 / 2) : (tnpcDistance d).real = 1 - 2 * d.real := by
  rw [tnpcDistance_real, abs_of_neg (by linarith)]
  ring

theorem tnpcDistance_real_high (h : 1 / 2 ≤ d.real) : (tnpcDistance d).real = 2 * d.real - 1 := by
  rw [tnpcDistance_real, abs_of_nonneg (by linarith)]
  ring

/-- Below one half only pair B switches, at twice the duty (R202). -/
theorem tnpcSplit_real_low (h : d.real < 1 / 2) :
    (tnpcSplit d).1.real = 0 ∧ (tnpcSplit d).2.real = 2 * d.real := by
  rw [tnpcSplit_low h, real_sub, tnpcDistance_real_low h, real_rat, real_rat]
  exact ⟨Rat.cast_zero, by push_cast; ring⟩

/-- From one half on pair B is on, and pair A has the rest of twice the duty (R202). -/
theorem tnpcSplit_real_high (h : 1 / 2 ≤ d.real) :
    (tnpcSplit d).1.real = 2 * d.real - 1 ∧ (tnpcSplit d).2.real = 1 := by
  rw [tnpcSplit_high h, tnpcDistance_real_high h, real_rat]
  exact ⟨rfl, Rat.cast_one⟩

/-- The distance of a rational duty is a rational. -/
theorem tnpcDistance_rat (q : Ratio) : tnpcDistance (.rat q) = .rat (|q - 1 / 2| * 2) := by
  rw [eq_rat_iff, tnpcDistance_real, real_rat]
  push_cast
  rfl

/-- The two duties of a rational duty are rationals. -/
theorem tnpcSplit_rat (q : Ratio) : tnpcSplit (.rat q) =
    if q < 1 / 2 then (.rat 0, .rat (2 * q)) else (.rat (2 * q - 1), .rat 1) := by
  have hcast : (NUM.rat q).real < 1 / 2 ↔ q < 1 / 2 := by
    rw [real_rat, ← Rat.cast_lt (K := ℝ)]
    push_cast
    rfl
  split
  · next h =>
    obtain ⟨hA, hB⟩ := tnpcSplit_real_low (hcast.2 h)
    refine Prod.ext ((eq_rat_iff _ _).2 ?_) ((eq_rat_iff _ _).2 ?_)
    · rw [hA]; push_cast; rfl
    · rw [hB, real_rat]; push_cast; rfl
  · next h =>
    obtain ⟨hA, hB⟩ := tnpcSplit_real_high (not_lt.1 (hcast.not.2 h))
    refine Prod.ext ((eq_rat_iff _ _).2 ?_) ((eq_rat_iff _ _).2 ?_)
    · rw [hA, real_rat]; push_cast; rfl
    · rw [hB]; push_cast; rfl

end

/-- Settles O46: both sides of one half in closed form give the ranges, and the table for the five
rational duties. -/
theorem tnpcSplitIsExact : Obligations.TnpcSplitIsExact := by
  refine ⟨?_, ?_, tnpcDistance_real, fun d h => ?_, fun d h => ?_, fun d => ?_, fun d h0 h1 => ?_⟩
  · simp only [tnpcSplit_rat]
    norm_num
  · simp only [tnpcDistance_rat, NUM.rat.injEq]
    norm_num [abs_of_neg]
  · obtain ⟨-, hB⟩ := tnpcSplit_real_low h
    refine ⟨congrArg Prod.fst (tnpcSplit_low h), ?_, hB⟩
    rw [hB, tnpcDistance_real_low h]
    ring
  · rw [tnpcSplit_high h]
    exact ⟨rfl, tnpcDistance_real_high h, rfl⟩
  · rcases lt_or_ge d.real (1 / 2) with h | h
    · obtain ⟨hA, hB⟩ := tnpcSplit_real_low h
      rw [hA, hB]
      exact ⟨le_rfl, by linarith, zero_add _⟩
    · obtain ⟨hA, hB⟩ := tnpcSplit_real_high h
      rw [hA, hB]
      exact ⟨by linarith, le_rfl, by ring⟩
  · rcases lt_or_ge d.real (1 / 2) with h | h
    · obtain ⟨hA, hB⟩ := tnpcSplit_real_low h
      rw [hA, hB]
      linarith
    · obtain ⟨hA, hB⟩ := tnpcSplit_real_high h
      rw [hA, hB]
      linarith

/-! ### `ENLEG` (R207, R208) -/

section
variable {s : State} {l : Nat} {e : Bool}

/-- An `ENLEG` that passes its checks ends with `OK` (R207). -/
theorem exec_enleg_ok (hrun : s.halted = false) (h : s.legEnables l) :
    exec (.enleg l e) s = .next ((s.afterEnable l e).drive .ok Results.none) :=
  exec_of_opOf_ok hrun (congrArg noResults ((enableLeg_spec l e s).1 h))

/-- One leg enabled or disabled is the list of that leg. -/
theorem legsEnabled_afterEnable (h : s.legEnables l) :
    legsEnabled s (s.afterEnable l e) [l] e := by
  obtain ⟨t, ht, hen, -⟩ := forUnits_enable e [l] (List.nodup_singleton l) s (by simpa using h)
  rw [forUnits_cons, (enableLeg_spec l e s).1 h] at ht
  cases ht
  exact hen

/-- The bits of a leg's mask are those of its pins p to p + w − 1 (R208). -/
theorem getLsbD_legMask_pins {p w b : Nat} (hp : 1 ≤ p) (hb : b < 255) :
    (legMask p w).getLsbD b = decide (p ≤ b + 1 ∧ b + 1 ≤ p + w - 1) := by
  rw [getLsbD_legMask p w b hb, ← Bool.decide_and, decide_eq_decide]
  omega

end

/-- Settles O44: a leg that passes its checks is the one-leg case of enabling a list of legs; every
other is refused by the first check failed. -/
theorem enlegWritesOneMask : Obligations.EnlegWritesOneMask := by
  refine ⟨fun s l e hrun h => ?_, fun s l e x href => ?_, ⟨rfl, rfl⟩,
    fun _ _ _ hp hb => getLsbD_legMask_pins hp hb⟩
  · exact ⟨_, exec_enleg_ok hrun h, legsEnabled_afterEnable h, ⟨rfl, rfl⟩, portHolds_drive _ _ _,
      ⟨rfl, rfl, rfl, rfl⟩, fun _ => rfl, fun _ => rfl, fun _ => rfl, fun _ => rfl, fun _ => rfl,
      fun _ => rfl⟩
  · refine turnsAway_of_halted_or_err (fun hh => ?_)
      fun hh => congrArg noResults (enableLeg_refused hh href)
    rwa [State.enableRefusal, if_pos hh] at href

/-! ### `CAPUPD` (R204 to R206) -/

section
variable {s : State} {l : Nat} {duty : NUM} {w : List (Nat × Nat)} {e : Status}

theorem opOf_capupd (hlane : s.lanes.arg0.value = some duty) :
    opOf (.capupd l) s = dutyResult (capabilityUpdate l duty s) :=
  withArg0_some (op := fun d s => dutyResult (capabilityUpdate l d s)) hlane

/-- A leg update that is refused ends with its status and the pair writes it has made (R206, R314). -/
theorem exec_capupd_refused (hrun : s.halted = false) (hlane : s.lanes.arg0.value = some duty)
    (h : s.legDutyRefusal l duty w e) :
    ∃ t, exec (.capupd l) s = .next t ∧ portShows t e 0 0 0 0 0 ∧ shadowsWritten s t w ∧
      sameButChannels s t := by
  obtain ⟨t, ht, hframe, hw⟩ := capabilityUpdate_refused hrun h
  exact ⟨_, exec_of_opOf_err hrun (by rw [opOf_capupd hlane, ht, dutyResult_err]),
    portHolds_drive _ _ _, hw, hframe⟩

/-- A leg update that is refused before it has written a pair has no effect (R204). -/
theorem capupd_turnsAway (hrun : s.halted = false) (hlane : s.lanes.arg0.value = some duty)
    (h : s.legDutyRefusal l duty [] e) : turnsAway (.capupd l) s e := by
  obtain ⟨t, ht, hport, hch, hin, hcalls, hglb, htim, hcfg, hleg, hinv, hpsfb, hvf⟩ :=
    exec_capupd_refused hrun hlane h
  exact ⟨t, ht, hport, hin, hcalls, hglb, htim, hch, hcfg, hleg, hinv, hpsfb, hvf⟩

theorem legDutyRefusal_bad_index (h : s.params.nleg ≤ l) (duty : NUM) :
    s.legDutyRefusal l duty [] .errIndex := by
  rw [State.legDutyRefusal, if_pos h]
  exact ⟨rfl, rfl⟩

theorem legDutyRefusal_none (hl : l < s.params.nleg) (hc : (s.legAt l).cap = .none) (duty : NUM) :
    s.legDutyRefusal l duty [] .errNotInit := by
  rw [State.legDutyRefusal, if_neg (by omega), hc]
  exact ⟨rfl, rfl⟩

theorem legDutyRefusal_first_pair (hl : l < s.params.nleg) (hc : (s.legAt l).cap = .tnpcSplit)
    (h : s.pairDutyRefusal (s.legAt l).pin.toNat l (tnpcSplit duty).1 e) :
    s.legDutyRefusal l duty [] e := by
  rw [State.legDutyRefusal, if_neg (by omega), hc]
  exact .inl ⟨h, rfl⟩

theorem legDutyRefusal_second_pair (hl : l < s.params.nleg) (hc : (s.legAt l).cap = .tnpcSplit)
    (hA : s.pairAccepts (s.legAt l).pin.toNat l (tnpcSplit duty).1)
    (hB : s.pairDutyRefusal ((s.legAt l).pin.toNat + 2) l (tnpcSplit duty).2 e) :
    s.legDutyRefusal l duty [((s.legAt l).pin.toNat,
      s.pairCompare (s.legAt l).pin.toNat l (tnpcSplit duty).1)] e := by
  rw [State.legDutyRefusal, if_neg (by omega), hc]
  exact .inr ⟨hA, hB, rfl⟩

/-- With the tag `SINGLE_PAIR` the update is that of the leg's one pair (R205). -/
theorem capabilityUpdate_single (hl : l < s.params.nleg) (hc : (s.legAt l).cap = .singlePair)
    (duty : NUM) : capabilityUpdate l duty s = updatePair (s.legAt l).pin.toNat l duty s := by
  rw [capabilityUpdate, if_neg (by omega), hc]
  rfl

end

/-- Settles O45: an update completes where its leg accepts the duty; every refusal is a case of
`legDutyRefusal`, whose writes remain. -/
theorem capupdGoesByCapability : Obligations.CapupdGoesByCapability := by
  refine ⟨fun s l duty hrun hlane ha => ?_, fun s l duty hlane => ⟨turnsAway_of_halted _,
    fun hrun hl => capupd_turnsAway hrun hlane (legDutyRefusal_bad_index hl duty)⟩,
    fun s l duty hrun hlane hl => ⟨fun hc => ?_, fun hc => ?_, fun e hc hA => ?_,
      fun e hc hA hB => ?_⟩⟩
  · obtain ⟨t, ht, hframe, hw⟩ := capabilityUpdate_ok ha
    exact ⟨t.drive .ok (Results.lane0 (s.legApplied l duty)),
      exec_of_opOf_ok hrun (by rw [opOf_capupd hlane, ht, dutyResult_ok]), portHolds_drive _ _ _,
      hw, hframe⟩
  · exact capupd_turnsAway hrun hlane (legDutyRefusal_none hl hc duty)
  · rw [exec_running hrun, exec_running hrun, opOf_capupd hlane, opOf_updpair hlane,
      capabilityUpdate_single hl hc]
  · exact capupd_turnsAway hrun hlane (legDutyRefusal_first_pair hl hc hA)
  · exact exec_capupd_refused hrun hlane (legDutyRefusal_second_pair hl hc hA hB)

/-! ### Pairs configured in order (R155, R201) -/

/-- `CFGPAIR` for each pair of a list in order, ending at the first that raises. -/
def configPairs : List (Nat × Nat) → State → Done Unit
  | [], s => .ok () s
  | r :: refs, s => (configPair r.1 r.2 s).andThen fun _ t => configPairs refs t

theorem configPairs_append (a b : List (Nat × Nat)) (s : State) :
    configPairs (a ++ b) s = (configPairs a s).andThen fun _ t => configPairs b t := by
  induction a generalizing s with
  | nil => rfl
  | cons r a ih => simp only [List.cons_append, configPairs, Done.andThen_assoc, ih]

theorem sameInputs_trans {s t u : State} (h : sameInputs s t) (g : sameInputs t u) :
    sameInputs s u := by
  obtain ⟨a1, a2, a3, a4⟩ := h
  obtain ⟨b1, b2, b3, b4⟩ := g
  exact ⟨b1.trans a1, b2.trans a2, b3.trans a3, b4.trans a4⟩

/-- Everything but the trace, the timers, the slots and the channels is unchanged. -/
def sameButPairs (s t : State) : Prop :=
  sameInputs s t ∧ sameGlb s t ∧ sameLeg s t ∧ sameInv s t ∧ samePsfb s t ∧ sameVf s t

theorem sameButPairs_refl (s : State) : sameButPairs s s :=
  ⟨⟨rfl, rfl, rfl, rfl⟩, ⟨rfl, rfl⟩, fun _ => rfl, fun _ => rfl, fun _ => rfl, fun _ => rfl⟩

theorem sameButPairs.trans {s t u : State} (h : sameButPairs s t) (g : sameButPairs t u) :
    sameButPairs s u := by
  obtain ⟨hin, ⟨hhalt, hoen⟩, hleg, hinv, hpsfb, hvf⟩ := h
  obtain ⟨hin', ⟨hhalt', hoen'⟩, hleg', hinv', hpsfb', hvf'⟩ := g
  exact ⟨sameInputs_trans hin hin', ⟨hhalt'.trans hhalt, hoen'.trans hoen⟩,
    fun n => (hleg' n).trans (hleg n), fun n => (hinv' n).trans (hinv n),
    fun n => (hpsfb' n).trans (hpsfb n), fun n => (hvf' n).trans (hvf n)⟩

/-- What configuring pairs leaves when every one completes (R155, R314). -/
def pairsDone (s t : State) (refs : List (Nat × Nat)) : Prop :=
  pairsConfigured s t refs ∧ calledOk s t (s.refsCalls [] refs) ∧ sameButPairs s t

theorem pairsDone_nil (s : State) : pairsDone s s [] :=
  ⟨⟨fun _ => rfl, fun _ => rfl, fun _ => rfl⟩, calledOk_nil s, sameButPairs_refl s⟩

theorem configuredCh_cmps (s : State) (refs : List (Nat × Nat)) (n : Nat) :
    (s.configuredCh refs n).cmps = (s.chAt n).cmps := by
  unfold State.configuredCh
  simp only
  split_ifs <;> rfl

theorem configuredChan_cmps (pair : Bool) (n : Nat) (al : Align) (m : Nat) (r : Chan) :
    (configuredChan pair n al m r).cmps = r.cmps := by
  unfold configuredChan
  split_ifs <;> rfl

/-- Configuration and kept compare values are all of a channel. -/
theorem Configured.pairsConfigured {s t : State} {refs : List (Nat × Nat)}
    (h : Configured s refs t) (hcmps : ∀ n, (t.chAt n).cmps = (s.chAt n).cmps) :
    pairsConfigured s t refs := by
  obtain ⟨-, htim, hcfg, hch⟩ := h
  refine ⟨htim, hcfg, fun n => ?_⟩
  rw [hch n, hcmps n, ← configuredCh_cmps s refs n]

section
variable {s t u : State} {refs before after : List (Nat × Nat)} {r : Nat × Nat} {n sl j : Nat}
  {e : Status}

theorem pairsConfigured.configured (h : pairsConfigured s u refs) (hp : u.params = s.params) :
    Configured s refs u := by
  obtain ⟨htim, hcfg, hch⟩ := h
  exact ⟨hp, htim, hcfg, fun n => by rw [hch n]⟩

theorem State.pairsReady.left (h : s.pairsReady (before ++ after)) : s.pairsReady before := by
  intro r hr
  obtain ⟨h1, h2, hodd, hs, hi⟩ := h r (List.mem_append_left _ hr)
  rw [configuredTim_of_present ⟨r, hr, rfl⟩] at hi
  exact ⟨h1, h2, hodd, hs, hi⟩

/-- A pair that is ready after earlier ones can initialise its timer once they are configured. -/
theorem Configured.lazyTim_init (h : Configured s before u) (hg : refsGood s before)
    (hi : (s.configuredTim (instOf s.params n) (before ++ [(n, sl)])).init = true) :
    (u.lazyTim (instOf u.params n) sl).init = true := by
  rw [← h.tim hg, State.configuredTim, h.1, if_pos rfl] at hi
  rw [h.1]
  exact hi

/-- One more pair, after others are configured (R155, R201). -/
theorem pairsDone.next (h : pairsDone s u before) (hr : s.pairsReady (before ++ [(n, sl)]))
    (hb : s.callsAnswered (s.refsCalls [] (before ++ [(n, sl)])))
    (hp : s.params.timer0.nch % 2 = 0) :
    configPair n sl u = .ok () (u.afterPair n sl) ∧
      pairsDone s (u.afterPair n sl) (before ++ [(n, sl)]) := by
  obtain ⟨hconf, hcalls, hframe⟩ := h
  have hpar : u.params = s.params := hframe.1.1
  have hdone : Configured s before u := hconf.configured hpar
  have hg := refsGood_of_ready hr.left
  obtain ⟨h1, h2, hodd, hs, hi⟩ := hr (n, sl) (by simp)
  have hi' := hdone.lazyTim_init hg hi
  have hnext : s.refsCalls before [(n, sl)] = u.lazyCalls (instOf u.params n) sl := by
    have := hdone.calls hg [] [(n, sl)]
    rw [refsCalls_first, List.append_nil] at this
    exact this.symm
  rw [refsCalls_append, List.nil_append, hnext] at hb
  have hans := (hb.right hframe.1.2.1 hcalls).lazy hi'
  refine ⟨configPair_ok (hpar ▸ hs) h1 (hpar ▸ h2) hodd hi' hans, ?_, ?_, ?_⟩
  · refine (hdone.append (configured_afterPair u n sl hodd (hpar ▸ hp)) hg (by simpa using hodd)
      hp).pairsConfigured fun m => ?_
    rw [show u.afterPair n sl = u.afterConfig true n sl from rfl, State.chAt_afterConfig,
      configuredChan_cmps, hconf.2.2 m, configuredCh_cmps]
  · rw [refsCalls_append, List.nil_append, hnext]
    exact calledOk_trans hcalls (u.calledOk_afterPair n sl)
  · exact hframe.trans (afterConfig_frame u true n sl)

/-- Pairs that are ready, with their calls answered, are configured in order (R201). -/
theorem configPairs_ok (hr : s.pairsReady refs) (hb : s.callsAnswered (s.refsCalls [] refs))
    (hp : s.params.timer0.nch % 2 = 0) :
    ∃ t, configPairs refs s = .ok () t ∧ pairsDone s t refs := by
  induction refs using List.reverseRecOn with
  | nil => exact ⟨s, rfl, pairsDone_nil s⟩
  | append_singleton before r ih =>
    have hb' : s.callsAnswered (s.refsCalls [] before) := by
      rw [refsCalls_append] at hb
      exact hb.left
    obtain ⟨u, hu, hdone⟩ := ih hr.left hb'
    obtain ⟨hpair, hdone'⟩ := hdone.next hr hb hp
    refine ⟨_, ?_, hdone'⟩
    rw [configPairs_append, hu, Done.andThen_ok, configPairs, hpair]
    rfl

/-- Configuring pairs recomputes limits only: what `TINIT` reads of a slot is kept (R158). -/
theorem pairsDone.sameTimingFields (h : pairsDone s u before) (sl : Nat) :
    sameTimingFields (s.cfgAt sl) (u.cfgAt sl) := by
  obtain ⟨⟨-, hcfg, -⟩, -, -⟩ := h
  rw [hcfg, configuredSlot_eq]
  exact sameTimingFields_limitFold _ _ _ _ (sameTimingFields_refl _)

/-- A timer without a pair among those configured is as it was. -/
theorem pairsDone.timAt_absent (h : pairsDone s u before) {v : Nat}
    (hn : ¬ onInstance s.params before v) : u.timAt v = s.timAt v := by
  obtain ⟨⟨htim, -, -⟩, -, -⟩ := h
  rw [htim, configuredTim_absent hn]

theorem slotRefusal_congr {c c' : Slot} (h : sameTimingFields c c') (tp : TimerParams) :
    slotRefusal tp c' e ↔ slotRefusal tp c e := by
  rw [← timingOf_eq_error, timingOf_congr h, timingOf_eq_error]

/-- A pair on a timer of its own is refused after the others as before them. -/
theorem pairsDone.pairRefusal (h : pairsDone s u before)
    (hn : ¬ onInstance s.params before (instOf s.params n)) (hr : s.pairRefusal n sl e) :
    u.pairRefusal n sl e := by
  have ⟨_, _, ⟨hpar, _⟩, ⟨hhalt, _⟩, _⟩ := h
  unfold State.pairRefusal State.timerRefusal at hr ⊢
  rw [hpar, hhalt, h.timAt_absent hn, slotRefusal_congr (h.sameTimingFields sl)]
  exact hr

/-- An initialisation halted after pairs were configured leaves them so (R305, R314). -/
theorem pairsDone.halted (h : pairsDone s u before)
    (ht : haltedAt u t (s.lazyCalls (instOf s.params r.1) r.2) j) :
    pairsHaltedAt s t before r j := by
  obtain ⟨⟨htim, hcfg, hch⟩, ⟨hext, hno⟩, hin, ⟨-, hoen⟩, hleg, hinv, hpsfb, hvf⟩ := h
  obtain ⟨hport, hhalt, hoen', hext', hno', hin', htim', hch', hcfg', hleg', hinv', hpsfb', hvf'⟩ :=
    ht
  refine ⟨hport, hhalt, hoen'.trans hoen, ⟨fun v => (htim' v).trans (htim v),
    fun m => (hcfg' m).trans (hcfg m), fun m => (hch' m).trans (hch m)⟩, ?_, by rw [hno', hno],
    sameInputs_trans hin hin', fun m => (hleg' m).trans (hleg m), fun m => (hinv' m).trans (hinv m),
    fun m => (hpsfb' m).trans (hpsfb m), fun m => (hvf' m).trans (hvf m)⟩
  rw [hext', hext, List.map_append, List.append_assoc s.ext]

/-- A failing call of a pair's initialisation, after the pairs before it are configured (R153,
R305, R314). -/
theorem pairsDone.call_fails (h : pairsDone s u before)
    (hr : s.pairsReady (before ++ [(n, sl)]))
    (hn : ¬ onInstance s.params before (instOf s.params n))
    (hinit : (s.timAt (instOf s.params n)).init = false)
    (hf : s.laterBaseCallFails (s.refsCalls [] before).length j) :
    ∃ v, configPair n sl u = .err .fatalHwinit v ∧
      pairsHaltedAt s (v.drive .fatalHwinit Results.none) before (n, sl) j := by
  have ⟨hconf, ⟨_, hno⟩, ⟨hpar, henv, _⟩, _⟩ := h
  obtain ⟨h1, h2, hodd, hs, hi⟩ := hr (n, sl) (by simp)
  have hi' := (hconf.configured hpar).lazyTim_init (refsGood_of_ready hr.left) hi
  have htim := h.timAt_absent hn
  have hcalls : u.lazyCalls (instOf u.params n) sl = s.lazyCalls (instOf s.params n) sl := by
    rw [hpar]
    exact lazyCalls_congr hpar htim (h.sameTimingFields sl)
  have hf' : u.baseCallFails j := by
    rw [State.baseCallFails, hno, henv]
    exact hf
  obtain ⟨v, hv, hhalt⟩ := timerInit_call_fails (instOf_le u.params n) (hpar ▸ hs) hi'
    (by rw [hpar, htim]; exact hinit) hf'
  rw [hcalls] at hhalt
  exact ⟨v, configOp_of_timerInit_err (pair := true) (hpar ▸ hs) h1 (hpar ▸ h2) (fun _ => hodd) hv,
    h.halted hhalt⟩

end

/-! ### `CFGLEG` (R201) -/

/-- The pins of leg l pass the tests that `CFGLEG` makes of a TNPC leg (R201). -/
def State.legPinsOk (s : State) (l : Nat) : Prop :=
  (s.legAt l).kind = .tnpc →
    1 ≤ (s.legAt l).pin.toNat ∧ (s.legAt l).pin.toNat + 3 ≤ s.params.npwm ∧
    (s.legAt l).pin.toNat % 2 = 1

section
variable {s t u v : State} {l j : Nat} {before after : List (Nat × Nat)} {r : Nat × Nat}
  {e : Status}

/-- Past its own checks `CFGLEG` configures the leg's pairs in order, marks its pins and stores the
capability (R201). -/
theorem configLeg_eq_configPairs (hl : l < s.params.nleg) (hpins : s.legPinsOk l) :
    configLeg l s = (configPairs (s.legRefs l) s).andThen fun _ t =>
      .ok (capOf (s.legAt l).kind)
        ((t.emits (s.roleCalls l)).setCap l (capOf (s.legAt l).kind)) := by
  unfold configLeg State.legRefs State.roleCalls
  rw [if_neg (by omega)]
  cases hk : (s.legAt l).kind with
  | default =>
    simp only [configPairs, Done.andThen_assoc, Done.andThen_ok]
    rfl
  | tnpc =>
    obtain ⟨h1, h3, hodd⟩ := hpins hk
    simp only [configPairs, Done.andThen_assoc, Done.andThen_ok, emitPwmRoles_eq]
    rw [if_neg (by omega), if_neg (by omega)]
    rfl

/-- What ends one of the leg's pairs ends `CFGLEG` (R201, R314). -/
theorem configLeg_stops (hl : l < s.params.nleg) (hpins : s.legPinsOk l)
    (hrefs : s.legRefs l = before ++ r :: after) (hu : configPairs before s = .ok () u)
    (he : configPair r.1 r.2 u = .err e v) : configLeg l s = .err e v := by
  rw [configLeg_eq_configPairs hl hpins, hrefs, configPairs_append, hu, Done.andThen_ok,
    configPairs, he]
  rfl

theorem legRefs_eq_cons (s : State) (l : Nat) :
    ∃ after, s.legRefs l = ((s.legAt l).pin.toNat, l) :: after := by
  unfold State.legRefs
  cases (s.legAt l).kind <;> exact ⟨_, rfl⟩

theorem legRefs_tnpc (hk : (s.legAt l).kind = .tnpc) :
    s.legRefs l = [((s.legAt l).pin.toNat, l)] ++ ((s.legAt l).pin.toNat + 2, l) :: [] := by
  rw [State.legRefs, hk]
  rfl

/-- A ready first pair has a pin that passes the tests of a TNPC leg. -/
theorem legPinsOk_of_ready {refs : List (Nat × Nat)} (hr : s.pairsReady refs)
    (hmem : ((s.legAt l).pin.toNat, l) ∈ refs)
    (h3 : (s.legAt l).kind = .tnpc → (s.legAt l).pin.toNat + 3 ≤ s.params.npwm) :
    s.legPinsOk l := by
  obtain ⟨h1, -, hodd, -⟩ := hr _ hmem
  exact fun hk => ⟨h1, h3 hk, hodd⟩

/-- What refuses the first pair refuses the leg (R201). -/
theorem configLeg_first_pair_refused (hrun : s.halted = false) (hl : l < s.params.nleg)
    (hpins : s.legPinsOk l) (h : s.pairRefusal (s.legAt l).pin.toNat l e) :
    configLeg l s = .err e s := by
  obtain ⟨after, hrefs⟩ := legRefs_eq_cons s l
  exact configLeg_stops (before := []) hl hpins hrefs rfl (configOp_refused (pair := true) hrun h)

/-- A refused `CFGLEG` whose first pair is not configured has no effect (R201, R314). -/
theorem configLeg_refused (hrun : s.halted = false) (h : s.legRefusal l e) :
    configLeg l s = .err e s := by
  rw [State.legRefusal, if_neg (by simp [hrun])] at h
  by_cases hl : s.params.nleg ≤ l
  · rw [if_pos hl] at h
    rw [configLeg, if_pos hl, h]
  rw [if_neg hl] at h
  cases hk : (s.legAt l).kind with
  | default =>
    rw [hk] at h
    exact configLeg_first_pair_refused hrun (by omega) (fun hk' => by rw [hk] at hk'; cases hk') h
  | tnpc =>
    simp only [hk] at h
    split_ifs at h with hrange hodd
    · simp only [configLeg, hk]
      rw [if_neg hl, if_pos hrange, h]
    · simp only [configLeg, hk]
      rw [if_neg hl, if_neg hrange, if_pos hodd, h]
    · exact configLeg_first_pair_refused hrun (by omega) (fun _ => by omega) h

theorem opOf_cfgleg (l : Nat) (s : State) : opOf (.cfgleg l) s = (configLeg l s).andThen
    fun cap t => .ok (Results.code (BitVec.ofNat 8 cap.code)) t := rfl

theorem exec_cfgleg_err (hrun : s.halted = false) (h : configLeg l s = .err e t) :
    exec (.cfgleg l) s = .next (t.drive e Results.none) :=
  exec_of_opOf_err hrun (by rw [opOf_cfgleg, h, Done.andThen_err])

/-- The calls of one leg are those of its pairs and then its pins' (R201). -/
theorem legsCalls_single (s : State) (l : Nat) :
    s.legsCalls [] [l] = s.refsCalls [] (s.legRefs l) ++ s.roleCalls l := by
  simp [State.legsCalls]

/-- A `CFGLEG` that completes (R201). -/
theorem exec_cfgleg_ok (hrun : s.halted = false) (hc : s.legConfigures l)
    (hp : s.params.timer0.nch % 2 = 0) :
    ∃ t, exec (.cfgleg l) s =
        .next (t.drive .ok (Results.code (BitVec.ofNat 8 (capOf (s.legAt l).kind).code))) ∧
      pairsConfigured s t (s.legRefs l) ∧ sameButConfig s t l (capOf (s.legAt l).kind) ∧
      calledOk s t (s.legsCalls [] [l]) := by
  obtain ⟨t, ht, hconf, hframe, hcalls⟩ := configLeg_ok hc hp
  have ⟨_, _, hcmps, _⟩ := hframe
  rw [legsCalls_single]
  exact ⟨t, exec_of_opOf_ok hrun (by rw [opOf_cfgleg, ht, Done.andThen_ok]),
    hconf.pairsConfigured hcmps, hframe, hcalls⟩

/-- A pair on another timer shares none with this one. -/
theorem not_onInstance_singleton {p : Params} {n m sl : Nat} (h : instOf p m ≠ instOf p n) :
    ¬ onInstance p [(n, sl)] (instOf p m) := by
  rintro ⟨r, hr, he⟩
  rw [List.mem_singleton.1 hr] at he
  exact h he.symm

/-- The first pair of a leg is among the pairs up to any of them. -/
theorem first_pair_mem (hrefs : s.legRefs l = before ++ r :: after) :
    ((s.legAt l).pin.toNat, l) ∈ before ++ [r] := by
  obtain ⟨after', hcons⟩ := legRefs_eq_cons s l
  rw [hcons] at hrefs
  cases before with
  | nil => simp [(List.cons.inj hrefs).1]
  | cons x xs => simp [(List.cons.inj hrefs).1]

end

/-- Settles O43: a leg completes when its pairs do; a part that fails ends it with the pairs before
it configured, none of them where it is the first. -/
theorem cfglegResolvesCapability : Obligations.CfglegResolvesCapability := by
  refine ⟨fun s l hrun hvalid hl h3 hr hb => ?_, fun s l e href => ?_,
    fun s l e hrun hvalid hl hk h3 hr hb hinst href => ?_,
    fun s l before after r j hrun hvalid hl h3 hrefs hr hb hn hinit hf => ?_⟩
  · have hc : s.legConfigures l := ⟨hl, h3, hr, by rw [legsCalls_single] at hb; exact hb.left⟩
    obtain ⟨t, ht, hconf, ⟨hin, hglb, -, hleg, hother, hinv, hpsfb, hvf⟩, hcalls⟩ :=
      exec_cfgleg_ok hrun hc (Params.valid_facts hvalid).1
    refine ⟨_, ht, hleg, hother, hconf, hcalls, ?_, hin, hglb, hinv, hpsfb, hvf⟩
    cases (s.legAt l).kind <;> exact portHolds_drive t .ok (Results.code _)
  · refine turnsAway_of_halted_or_err (fun hh => ?_)
      fun hh => by rw [opOf_cfgleg, configLeg_refused hh href, Done.andThen_err]
    rwa [State.legRefusal, if_pos hh] at href
  · obtain ⟨u, hu, hdone⟩ := configPairs_ok hr hb (Params.valid_facts hvalid).1
    have hrefused := hdone.pairRefusal (not_onInstance_singleton hinst) href
    obtain ⟨hconf, hcalls, hin, hglb, hframe⟩ := hdone
    have hstop := configLeg_stops hl (legPinsOk_of_ready hr (by simp) fun _ => h3)
      (legRefs_tnpc hk) hu (configOp_refused (pair := true) (hglb.1.trans hrun) hrefused)
    exact ⟨_, exec_cfgleg_err hrun hstop, portHolds_drive _ _ _, hconf, hcalls, hin, hglb, hframe⟩
  · obtain ⟨u, hu, hdone⟩ := configPairs_ok hr.left hb (Params.valid_facts hvalid).1
    obtain ⟨v, hv, hhalt⟩ := hdone.call_fails hr hn hinit hf
    have hstop := configLeg_stops hl (legPinsOk_of_ready hr (first_pair_mem hrefs) h3) hrefs hu hv
    exact ⟨_, exec_cfgleg_err hrun hstop, hhalt⟩

end Sys2Proof.Machine
end

section
/-! SUPPORT. The statements of 43_inverter_psfb.md: activation, duty updates, validation and
initialisation of the three-phase inverter and of the phase-shifted full bridge. -/

namespace Sys2Proof.Machine
open Laws

/-! ### Activation (R226, R233) -/

section
variable {s : State} {u j l : Nat} {e : Bool} {before after : List Nat} {x : Status}

/-- Legs of a list that stand before a refused one are switched and stay so (R226, R233, R314). -/
theorem enableLegs_refused {ls : List Nat} (e : Bool) (hrun : s.halted = false) (hd : ls.Nodup)
    (hls : ls = before ++ l :: after) (hb : ∀ m ∈ before, s.legEnables m)
    (hx : s.enableRefusal l x) :
    ∃ t, forUnits (fun l s => enableLeg l e s) ls s = .err x t ∧ legsEnabled s t before e ∧
      sameButEnables s t ∧ calledOk s t (before.map fun m => s.enableCall m e) := by
  subst hls
  exact forUnits_enable_refused hrun hd hb hx

/-- What ends the enabling of the legs ends that of the inverter; its record is not reached (R226). -/
theorem inverterEnable_err {t : State}
    (h : forUnits (fun l s => enableLeg l e s) (s.inverterLegs u) s = .err x t) :
    inverterEnable u e s = .err x t := congrArg (Done.andThen · _) h

/-- What ends the enabling of the legs ends that of the bridge; its record is not reached (R233). -/
theorem psfbEnable_err {t : State}
    (h : forUnits (fun l s => enableLeg l e s) (psfbLegs s.params j) s = .err x t) :
    psfbEnable j e s = .err x t := congrArg (Done.andThen · _) h

theorem psfbActivate_ok (e : Bool) (hj : j < s.params.npsfb) (hn : (s.psfbAt j).init = true) :
    psfbActivate j e s = psfbEnable j e s := by
  rw [psfbActivate, if_neg (by omega), if_neg (by rw [hn]; decide)]

end

/-- Settles O51: the legs are enabled in order up to the first that is refused, and the inverter's
record is written after the last. -/
theorem invactSwitchesEveryLeg : Obligations.InvactSwitchesEveryLeg := by
  refine ⟨fun s u e hrun hu hn hl => ?_, fun s u e before after l x hrun hu hn hls hb hx => ?_⟩
  · obtain ⟨t, ht, hen, hinv, hother, hin, htim, hch, hcfg, hpsfb, hvf, hcalls⟩ :=
      inverterEnable_ok e hl
    exact ⟨_, exec_of_opOf_ok hrun (congrArg noResults ((inverterActivate_ok e hu hn).trans ht)),
      portHolds_drive _ _ _, hen, hinv, hother, hcalls, hin, htim, hch, hcfg, hpsfb, hvf⟩
  · obtain ⟨t, ht, hen, ⟨hin, htim, hch, hcfg, hinv, hpsfb, hvf⟩, hcalls⟩ :=
      enableLegs_refused e hrun (invLegs_nodup u _) hls hb hx
    exact ⟨_, exec_of_opOf_err hrun (congrArg noResults
      ((inverterActivate_ok e hu hn).trans (inverterEnable_err ht))), portHolds_drive _ _ _, hen,
      hcalls, hin, htim, hch, hcfg, hinv, hpsfb, hvf⟩

/-- Settles O54: the two legs are enabled in order up to the first that is refused, and the bridge's
record is written after the second. -/
theorem psfbactSwitchesBothLegs : Obligations.PsfbactSwitchesBothLegs := by
  refine ⟨fun s j e hrun hj hn hl => ?_, fun s j e before after l x hrun hj hn hls hb hx => ?_⟩
  · obtain ⟨t, ht, hen, hpsfb, hother, hin, htim, hch, hcfg, hinv, hvf, hcalls⟩ :=
      psfbEnable_ok e hl
    exact ⟨_, exec_of_opOf_ok hrun (congrArg noResults ((psfbActivate_ok e hj hn).trans ht)),
      portHolds_drive _ _ _, hen, hpsfb, hother, hcalls, hin, htim, hch, hcfg, hinv, hvf⟩
  · obtain ⟨t, ht, hen, ⟨hin, htim, hch, hcfg, hinv, hpsfb, hvf⟩, hcalls⟩ :=
      enableLegs_refused e hrun (psfbLegs_nodup s.params j) hls hb hx
    exact ⟨_, exec_of_opOf_err hrun (congrArg noResults
      ((psfbActivate_ok e hj hn).trans (psfbEnable_err ht))), portHolds_drive _ _ _, hen,
      hcalls, hin, htim, hch, hcfg, hinv, hpsfb, hvf⟩

/-! ### Duty updates (R222 to R224) -/

section
variable {s : State} {u l : Nat} {dir : Direction} {a b c d : NUM}
  {before after : List (Nat × NUM)} {w : List (Nat × Nat)} {e : Status}

theorem opOf_invupd (ha : s.lanes.arg0.value = some a) (hb : s.lanes.arg1.value = some b)
    (hc : s.lanes.arg2.value = some c) :
    opOf (.invupd u) s = dutiesResult (inverterUpdate u a b c s) :=
  withArgs_some (op := fun d0 d1 d2 s => dutiesResult (inverterUpdate u d0 d1 d2 s)) ha hb hc

theorem opOf_invspwm (ha : s.lanes.arg0.value = some a) (hb : s.lanes.arg1.value = some b) :
    opOf (.invspwm u dir) s = dutiesResult (inverterSpwm u dir a b s) :=
  withArg01_some (op := fun theta mi s => dutiesResult (inverterSpwm u dir theta mi s)) ha hb

/-- An inverter update with a refused leg keeps the writes of the legs before it (R222, R314). -/
theorem inverterUpdate_leg_refused (hrun : s.halted = false) (hu : u < s.params.ninv)
    (hn : (s.invAt u).init = true) (hls : s.inverterUpdates u a b c = before ++ (l, d) :: after)
    (hb : ∀ r ∈ before, s.legAccepts r.1 r.2) (h : s.legDutyRefusal l d w e) :
    ∃ t, inverterUpdate u a b c s = .err e t ∧ sameButChannels s t ∧
      shadowsWritten s t (s.dutyWrites before ++ w) := by
  obtain ⟨t, ht, hframe, hw⟩ := updateLegs_refused before after s hrun hb h
  exact ⟨t, inverterUpdate_refused hu hn (hls ▸ ht), hframe, hw⟩

end

/-- Settles O49: the leg updates run in order, to the last or to the first that is refused. -/
theorem invupdUpdatesLegsInOrder : Obligations.InvupdUpdatesLegsInOrder := by
  refine ⟨fun s u d0 d1 d2 hrun h0 h1 h2 ha => ?_,
    fun s u d0 d1 d2 d before after l w e hrun h0 h1 h2 hu hn hls hb href => ?_⟩
  · obtain ⟨t, ht, hframe, hw⟩ := inverterUpdate_ok ha
    exact ⟨_, exec_of_opOf_ok hrun ((opOf_invupd h0 h1 h2).trans (congrArg dutiesResult ht)),
      portHolds_drive _ _ _, hw, hframe⟩
  · obtain ⟨t, ht, hframe, hw⟩ := inverterUpdate_leg_refused hrun hu hn hls hb href
    exact ⟨_, exec_of_opOf_err hrun ((opOf_invupd h0 h1 h2).trans (congrArg dutiesResult ht)),
      portHolds_drive _ _ _, hw, hframe⟩

/-- Settles O50: the generator's call stands before the leg updates, which run in order, to the last
or to the first that is refused. -/
theorem invspwmAppliesTheGenerator : Obligations.InvspwmAppliesTheGenerator := by
  refine ⟨fun s u dir theta mi a b c hrun h0 h1 hs ha => ?_,
    fun s u dir theta mi a b c d before after l w e hrun h0 h1 hu hn hs hls hb href => ?_⟩
  · obtain ⟨t, ht, hframe, hext, hno, hw⟩ :=
      inverterSpwm_ok (s := s) (i := u) (dir := dir) (theta := theta) (mi := mi) (by rwa [hs])
    rw [State.spwmEntry] at hext
    simp only [hs] at ht hext hw
    exact ⟨_, exec_of_opOf_ok hrun ((opOf_invspwm h0 h1).trans (congrArg dutiesResult ht)),
      portHolds_drive _ _ _, hw, hext, hno, hframe⟩
  · obtain ⟨t, ht, hframe, hext, hno, hw⟩ := inverterSpwm_refused hrun hu hn hs hls hb href
    exact ⟨_, exec_of_opOf_err hrun ((opOf_invspwm h0 h1).trans (congrArg dutiesResult ht)),
      portHolds_drive _ _ _, hw, hext, hno, hframe⟩

/-! ### `PSFBUPD` (R231, R232) -/

section
variable {s : State} {j : Nat} {duty : NUM}

theorem opOf_psfbupd (hlane : s.lanes.arg0.value = some duty) :
    opOf (.psfbupd j) s = dutyResult (psfbUpdate j duty s) :=
  withArg0_some (op := fun d s => dutyResult (psfbUpdate j d s)) hlane

theorem psfbUpdate_bad_index (hj : s.params.npsfb ≤ j) (duty : NUM) :
    psfbUpdate j duty s = .err .errIndex s := if_pos hj

theorem psfbUpdate_not_init (hj : j < s.params.npsfb) (hn : (s.psfbAt j).init = false)
    (duty : NUM) : psfbUpdate j duty s = .err .errNotInit s := by
  rw [psfbUpdate, if_neg (by omega), if_pos hn]

theorem psfbUpdate_ok (hj : j < s.params.npsfb) (hn : (s.psfbAt j).init = true) (duty : NUM) :
    psfbUpdate j duty s = .ok duty.half
      (s.emit (.setPhaseShift (s.legAt (4 * s.params.ninv + 2 * j + 1)).pin.toNat duty.half)) := by
  rw [psfbUpdate, if_neg (by omega), if_neg (by rw [hn]; decide), phaseShiftUpdate]

end

/-- Settles O53: the update is one call with half the duty; each refusal is one test of it. -/
theorem psfbupdForwardsHalfTheDuty : Obligations.PsfbupdForwardsHalfTheDuty := by
  refine ⟨fun s j duty hrun hlane hj hn => ?_, fun s j duty hlane => ⟨turnsAway_of_halted _,
    fun hrun hj => turnsAway_of_opOf_err hrun ?_, fun hrun hj hn => turnsAway_of_opOf_err hrun ?_⟩⟩
  · obtain ⟨hcalls, hbanks, -⟩ := emit_frame s
      (.setPhaseShift (s.legAt (4 * s.params.ninv + 2 * j + 1)).pin.toNat duty.half)
    exact ⟨_, duty.half,
      exec_of_opOf_ok hrun
        ((opOf_psfbupd hlane).trans (congrArg dutyResult (psfbUpdate_ok hj hn duty))),
      real_half duty, portHolds_drive _ _ _, hcalls, ⟨rfl, rfl, rfl, rfl⟩, hbanks⟩
  · rw [opOf_psfbupd hlane, psfbUpdate_bad_index hj, dutyResult_err]
  · rw [opOf_psfbupd hlane, psfbUpdate_not_init hj hn, dutyResult_err]

/-! ### Validation (R221, R230) -/

/-- The status that the tests of a leg's pin end with, none where it passes them (R221, R230). -/
def State.pinStatus (s : State) (width : LegType → Nat) (l : Nat) : Option Status :=
  if (s.legAt l).pin.toNat < 1 ∨
      s.params.npwm < (s.legAt l).pin.toNat + width (s.legAt l).kind - 1 then some .errPinRange
  else if (s.legAt l).pin.toNat % 2 = 0 then some .errPinParity
  else none

section
variable {s : State} {width : LegType → Nat} {u j l : Nat} {ls : List Nat} {e : Status}

theorem pinStatus_eq_some : s.pinStatus width l = some e ↔ s.pinFault width l e := by
  unfold State.pinStatus State.pinFault
  split_ifs with hrange hodd
  · rw [Option.some_inj, eq_comm]
  · rw [Option.some_inj, eq_comm, and_iff_right hodd]
  · simp [hodd]

/-- A pin that passes the tests lies in the range with the leg's whole width. -/
theorem pin_range_of_pinStatus_none (h : s.pinStatus width l = none) :
    1 ≤ (s.legAt l).pin.toNat ∧
      (s.legAt l).pin.toNat + width (s.legAt l).kind - 1 ≤ s.params.npwm := by
  unfold State.pinStatus at h
  split_ifs at h with hrange
  omega

/-- The first leg with a fault is the first with a status. -/
theorem firstPinFault_iff :
    s.firstPinFault width ls e ↔ ls.findSome? (s.pinStatus width) = some e := by
  simp only [List.findSome?_eq_some_iff, pinStatus_eq_some, Option.eq_none_iff_forall_ne_some,
    ne_eq, State.firstPinFault]
  exact ⟨fun ⟨before, l, after, hls, hb, hl⟩ => ⟨before, l, after, hls, hl, hb⟩,
    fun ⟨before, l, after, hls, hl, hb⟩ => ⟨before, l, after, hls, hb, hl⟩⟩

theorem no_firstPinFault_iff :
    (∀ x, ¬ s.firstPinFault width ls x) ↔ ls.findSome? (s.pinStatus width) = none := by
  simp only [firstPinFault_iff, Option.eq_none_iff_forall_ne_some, ne_eq]

theorem validateLegs_eq_findSome? (s : State) (ls : List Nat) :
    validateLegs s ls = ls.findSome? (s.pinStatus legWidth) := by
  induction ls with
  | nil => rfl
  | cons l ls ih =>
    rw [List.findSome?_cons, validateLegs, ih, State.pinStatus]
    split_ifs <;> rfl

theorem psfbPinCheck_eq_findSome? (s : State) (ls : List Nat) :
    psfbPinCheck s ls = ls.findSome? (s.pinStatus fun _ => 2) := by
  induction ls with
  | nil => rfl
  | cons l ls ih =>
    rw [List.findSome?_cons, psfbPinCheck, ih, State.pinStatus]
    simp only [Nat.add_succ_sub_one]
    split_ifs <;> rfl

theorem validateInv_eq_some : validateInv u ls s = some e ↔ s.firstPinFault legWidth ls e ∨
    ((∀ x, ¬ s.firstPinFault legWidth ls x) ∧ (s.invAt u).disablePinsOverrun ∧ e = .errValue) := by
  rw [validateInv, validateLegs_eq_findSome?, no_firstPinFault_iff, firstPinFault_iff]
  cases ls.findSome? (s.pinStatus legWidth) with
  | some x => simp
  | none => simp [Inv.disablePinsOverrun, eq_comm]

theorem validateInv_eq_none : validateInv u ls s = none ↔
    (∀ x, ¬ s.firstPinFault legWidth ls x) ∧ ¬ (s.invAt u).disablePinsOverrun := by
  rw [validateInv, validateLegs_eq_findSome?, no_firstPinFault_iff]
  cases ls.findSome? (s.pinStatus legWidth) with
  | some x => simp
  | none => simp [Inv.disablePinsOverrun]

/-- What a running CORE refuses an existing inverter with is what validation raises (R221). -/
theorem inverterRefusal_iff (hrun : s.halted = false) (hu : u < s.params.ninv) :
    s.inverterRefusal u e ↔ validateInv u (invLegs u (s.invAt u).dupEn) s = some e := by
  rw [State.inverterRefusal, if_neg (by simp [hrun]), if_neg (by omega), validateInv_eq_some]

/-- What validation refuses has no effect (R220, R221). -/
theorem inverterInit_refused (hrun : s.halted = false) (h : s.inverterRefusal u e) :
    inverterInit u s = .err e s := by
  unfold inverterInit
  split
  · next hu =>
    rw [State.inverterRefusal, if_neg (by simp [hrun]), if_pos hu] at h
    rw [h]
  · next hu =>
    rw [inverterRefusal_iff hrun (by omega)] at h
    simp only [h]

theorem invinit_turnsAway (h : s.inverterRefusal u e) : turnsAway (.invinit u) s e := by
  refine turnsAway_of_halted_or_err (fun hh => ?_)
    fun hh => congrArg noResults (inverterInit_refused hh h)
  rwa [State.inverterRefusal, if_pos hh] at h

end

/-- Settles O48: validation finds the first leg with a fault, and then tests the disable pins. -/
theorem invinitValidatesFirst : Obligations.InvinitValidatesFirst :=
  ⟨fun _ _ _ => invinit_turnsAway, fun _ => ⟨rfl, rfl⟩⟩

/-! ### A start that stops part-way (R220, R230, R314) -/

section
variable {i : Instr} {s t u v x y : State} {ls before after : List Nat} {l : Nat} {e : Status}
  {k : State → Done Unit}

/-- Legs that are up, with the calls of that, are legs begun. -/
theorem legsUp.begun (h : legsUp s t ls) (hcalls : calledOk s t (s.legsCalls [] ls)) :
    legsBegun s t ls := by
  obtain ⟨⟨-, htim, hcfg, hch⟩, hcmps, hleg, hother, hframe⟩ := h
  exact ⟨htim, hcfg, fun n => by rw [hch n, hcmps n], hleg, hother, hcalls, hframe⟩

theorem Starts.of_ok {α : Type} {r : Done α} {a : α} (h : Starts s r) (hr : r = .ok a t) :
    onlyStarts s t := by
  subst hr
  exact h

theorem Starts.of_err {α : Type} {r : Done α} (h : Starts s r) (hr : r = .err e t) :
    onlyStarts s t := by
  subst hr
  exact h

/-- A leg that ends a start ends the command with what that leg has left. -/
theorem exec_of_startLeg_err (hrun : s.halted = false)
    (hop : opOf i s = noResults ((forUnits startLeg (before ++ l :: after) s).andThen fun _ => k))
    (hu : forUnits startLeg before s = .ok () u) (hl : startLeg l u = .err e v) :
    exec i s = .next (v.drive e Results.none) := by
  refine exec_of_opOf_err hrun ?_
  rw [hop, forUnits_append, hu, Done.andThen_ok, forUnits_cons, hl]
  rfl

/-- `CAPUPD` with a number put on its lane after another command has ended: the lanes and the result
port are not seen by its operation. -/
theorem opOf_capupd_withDuty (l : Nat) (d : NUM) (s : State) (e : Status) (r : Results) :
    opOf (.capupd l) ((s.drive e r).withDuty d) =
      dutyResult ((capabilityUpdate l d s).withPort { s.lanes with arg0 := .num d } e r) :=
  (opOf_capupd rfl).trans (congrArg dutyResult (capabilityUpdate_withPort l d s _ e r))

/-- With its own lanes back, a state shows of another port nothing but what is driven last. -/
theorem drive_withPort {p q : Lanes} (h : s.lanes = q) (e e' : Status) (r r' : Results) :
    { (s.withPort p e r).drive e' r' with lanes := q } = s.drive e' r' := by
  subst h
  rfl

/-- `CAPUPD` with 50% after a `CFGLEG` that completes is the rest of a leg's start (R220, R314). -/
theorem exec_capupd_of_configLeg_ok {cap : Capability} (hrun : u.halted = false)
    (hcfg : configLeg l u = .ok cap x) (r : Results) :
    ∃ w, exec (.capupd l) ((x.drive .ok r).withDuty (.rat (1 / 2))) = .next w ∧
      (w.status ≠ .ok → ∃ e y, startLeg l u = .err e y ∧
        { w with lanes := u.lanes } = y.drive e Results.none) := by
  have hgoes : goesOn u x := by
    have := tame_configLeg l u
    rwa [hcfg] at this
  have hxrun : ((x.drive .ok r).withDuty (.rat (1 / 2))).halted = false := hgoes.1.trans hrun
  have hop := opOf_capupd_withDuty l (.rat (1 / 2)) x .ok r
  cases hupd : capabilityUpdate l (.rat (1 / 2)) x with
  | ok d y =>
    rw [hupd] at hop
    exact ⟨_, exec_of_opOf_ok hxrun hop, fun hne => absurd rfl hne⟩
  | err e y =>
    rw [hupd] at hop
    obtain ⟨-, -, -, -, -, ⟨-, -, -, hlanes⟩, -⟩ :=
      ((starts_configLeg l u).1.of_ok hcfg).trans
        ((starts_capabilityUpdate l (.rat (1 / 2)) x).of_err hupd)
    refine ⟨_, exec_of_opOf_err hxrun hop, fun _ => ⟨e, y, ?_, drive_withPort hlanes _ _ _ _⟩⟩
    rw [startLeg, hcfg, Done.andThen_ok, hupd, Done.andThen_err]

/-- Where a command starts legs in order and one of them fails, it ends as the `CFGLEG` or the
`CAPUPD` of that leg does after the legs before it have been started (R220, R230, R314). -/
theorem exec_ends_as_failing_leg (hrun : s.halted = false) (hvalid : s.params.valid = true)
    (hop : opOf i s = noResults ((forUnits startLeg ls s).andThen fun _ => k)) (hd : ls.Nodup)
    (hls : ls = before ++ l :: after) (hb : s.legsStart before)
    (hcalls : s.callsAnswered (s.legsCalls [] before)) :
    ∃ c v, legsBegun s c before ∧ exec (.cfgleg l) c = .next v ∧
      (v.status ≠ .ok → exec i s = .next v) ∧
      (v.status = .ok → ∃ w, exec (.capupd l) (v.withDuty (.rat (1 / 2))) = .next w ∧
        (w.status ≠ .ok → exec i s = .next { w with lanes := s.lanes })) := by
  subst hls
  obtain ⟨c, hc, hup, hmade⟩ := startLegs_ok before hd.of_append_left s hb hcalls
    (Params.valid_facts hvalid).1
  have ⟨_, _, _, _, ⟨_, _, _, hlanes⟩, ⟨hhalt, _⟩, _⟩ := hup
  have hcrun : c.halted = false := hhalt.trans hrun
  cases hcfg : configLeg l c with
  | err e x =>
    have hstart : startLeg l c = .err e x := by rw [startLeg, hcfg, Done.andThen_err]
    refine ⟨c, _, hup.begun hmade, exec_cfgleg_err hcrun hcfg,
      fun _ => exec_of_startLeg_err hrun hop hc hstart, fun hok => ?_⟩
    have hx : e = .ok := hok
    exact absurd (hx ▸ hcfg) (sound_configLeg l c x)
  | ok cap x =>
    have hend : opOf (.cfgleg l) c = .ok (Results.code (BitVec.ofNat 8 cap.code)) x := by
      rw [opOf_cfgleg, hcfg, Done.andThen_ok]
    obtain ⟨w, hw, hfail⟩ := exec_capupd_of_configLeg_ok hcrun hcfg _
    refine ⟨c, _, hup.begun hmade, exec_of_opOf_ok hcrun hend, fun hne => absurd rfl hne,
      fun _ => ⟨w, hw, fun hne => ?_⟩⟩
    obtain ⟨e, y, hstart, hport⟩ := hfail hne
    rw [exec_of_startLeg_err hrun hop hc hstart, ← hlanes, hport]

theorem onlyStarts.stoppedBeforeEnable (h : onlyStarts s t) : stoppedBeforeEnable s t := by
  obtain ⟨hoen, hleg, hframe⟩ := h
  exact ⟨hoen, fun l => (hleg l).1, hframe⟩

/-- A refusal without effect has stopped before the first leg. -/
theorem turnsAway.stoppedBeforeEnable (h : turnsAway i s e) (ht : exec i s = .next t) :
    stoppedBeforeEnable s t := by
  obtain ⟨v, hv, -, hin, ⟨hext, -⟩, ⟨-, hoen⟩, -, -, -, hleg, hinv, hpsfb, hvf⟩ := h
  rw [hv] at ht
  cases ht
  exact ⟨hoen, fun l => congrArg Leg.state (hleg l), hinv, hpsfb, hvf, hin, [], by simpa using hext,
    by simp⟩

/-- A start whose end cannot fail can fail in its legs only. -/
theorem stoppedBeforeEnable_of_start (ht : exec i s = .next t) (hne : t.status ≠ .ok)
    (hrun : s.halted = false)
    (hop : opOf i s = noResults ((forUnits startLeg ls s).andThen fun _ => k))
    (hk : ∀ u, forUnits startLeg ls s = .ok () u → ∃ w, k u = .ok () w) :
    stoppedBeforeEnable s t := by
  cases hl : forUnits startLeg ls s with
  | ok a u =>
    obtain ⟨w, hw⟩ := hk u hl
    rw [hl, Done.andThen_ok, hw] at hop
    rw [exec_of_opOf_ok hrun hop] at ht
    cases ht
    exact absurd rfl hne
  | err e u =>
    rw [hl, Done.andThen_err] at hop
    rw [exec_of_opOf_err hrun hop] at ht
    cases ht
    exact ((starts_startLegs ls s).1.of_err hl).stoppedBeforeEnable

/-- Legs in the range of the pins pass the enable checks once they have been started. -/
theorem legEnables_of_forUnits_startLeg
    (hpins : ∀ l ∈ ls, 1 ≤ (s.legAt l).pin.toNat ∧
      (s.legAt l).pin.toNat + legWidth (s.legAt l).kind - 1 ≤ s.params.npwm)
    (h : forUnits startLeg ls s = .ok () t) : ∀ l ∈ ls, t.legEnables l := by
  intro l hl
  obtain ⟨hstart, hdone⟩ := starts_startLegs ls s
  obtain ⟨hleg, hcap⟩ := hdone t h l hl
  obtain ⟨-, hkept, -, -, -, ⟨hpar, -⟩, -⟩ := hstart.of_ok h
  obtain ⟨-, hpin, hkind, -⟩ := hkept l
  rw [State.legEnables, hpar, hpin, hkind]
  exact ⟨hleg, hcap, hpins l hl⟩

end

/-! ### `INVINIT` (R220, R225 to R227) -/

/-- The disable pins of an inverter driven and its duplicate flag latched (R220, R225). -/
def State.latched (s : State) (u : Nat) : State :=
  let s1 := s.emitDisablePins (disablePins (s.invAt u))
  s1.setInv u { s1.invAt u with dup := (s1.invAt u).dupEn }

/-- `INVINIT` after its legs have been started: what they share, the inactive state, `INIT` (R220). -/
def finishInverter (u : Nat) (s : State) : Done Unit :=
  (inverterEnable u false (s.latched u)).andThen fun _ t =>
    .ok () (t.setInv u { t.invAt u with init := true })

section
variable {s t : State} {u : Nat}

theorem inverterInit_eq (hu : u < s.params.ninv)
    (hv : validateInv u (invLegs u (s.invAt u).dupEn) s = none) :
    inverterInit u s =
      (forUnits startLeg (invLegs u (s.invAt u).dupEn) s).andThen fun _ => finishInverter u := by
  unfold inverterInit
  rw [if_neg (by omega)]
  simp only [hv]
  rfl

/-- The end of `INVINIT` completes where its legs pass the enable checks. -/
theorem finishInverter_ok (h : ∀ l ∈ invLegs u (s.invAt u).dupEn, s.legEnables l) :
    ∃ t, finishInverter u s = .ok () t := by
  obtain ⟨t, ht, -⟩ := inverterEnable_ok (i := u) (s := s.latched u) false (by
    rw [State.inverterLegs, State.latched, State.invAt_setInv_same]
    simpa [State.legEnables, emitDisablePins_eq] using h)
  exact ⟨_, congrArg (Done.andThen · _) ht⟩

/-- `INVINIT` is refused before any effect, or it starts its legs (R221). -/
theorem inverterRefusal_or_valid (s : State) (u : Nat) : (∃ e, s.inverterRefusal u e) ∨
    s.halted = false ∧ u < s.params.ninv ∧
      validateInv u (invLegs u (s.invAt u).dupEn) s = none := by
  cases hrun : s.halted with
  | true => exact .inl ⟨.fatalHwinit, by rw [State.inverterRefusal, if_pos hrun]⟩
  | false =>
    by_cases hu : s.params.ninv ≤ u
    · exact .inl ⟨.errIndex, by rw [State.inverterRefusal, if_neg (by simp [hrun]), if_pos hu]⟩
    · cases hv : validateInv u (invLegs u (s.invAt u).dupEn) s with
      | none => exact .inr ⟨rfl, by omega, rfl⟩
      | some e =>
        exact .inl ⟨e, (inverterRefusal_iff hrun (by omega)).2 hv⟩

/-- The pins of legs without a fault lie in range. -/
theorem pins_in_range {width : LegType → Nat} {ls : List Nat}
    (h : ∀ x, ¬ s.firstPinFault width ls x) : ∀ l ∈ ls, 1 ≤ (s.legAt l).pin.toNat ∧
      (s.legAt l).pin.toNat + width (s.legAt l).kind - 1 ≤ s.params.npwm := by
  rw [no_firstPinFault_iff, List.findSome?_eq_none_iff] at h
  exact fun l hl => pin_range_of_pinStatus_none (h l hl)

theorem invinit_stoppedBeforeEnable (ht : exec (.invinit u) s = .next t) (hne : t.status ≠ .ok) :
    stoppedBeforeEnable s t := by
  obtain ⟨e, he⟩ | ⟨hrun, hu, hv⟩ := inverterRefusal_or_valid s u
  · exact (invinit_turnsAway he).stoppedBeforeEnable ht
  · refine stoppedBeforeEnable_of_start ht hne hrun (congrArg noResults (inverterInit_eq hu hv))
      fun v h => finishInverter_ok ?_
    obtain ⟨-, -, hinv, -⟩ := (starts_startLegs _ s).1.of_ok h
    rw [hinv u]
    exact legEnables_of_forUnits_startLeg (pins_in_range (validateInv_eq_none.1 hv).1) h

end

/-- Settles O47: where the legs start, the end of `INVINIT` completes; where one fails, the command
ends with it. -/
theorem invinitStartsInverter : Obligations.InvinitStartsInverter := by
  refine ⟨fun s u hrun hvalid hu hdis h hb => ?_,
    fun s u before after l hrun hvalid hu hdis hpins hls hb hcalls => ?_,
    fun s t u _ ht hne => invinit_stoppedBeforeEnable ht hne⟩
  · obtain ⟨t, ht, hstarted, hinv, hother, hin, hpsfb, hvf, hcalls⟩ :=
      inverterInit_ok hvalid hu (by unfold Inv.disablePinsOverrun at hdis; omega) h hb
    exact ⟨_, exec_of_opOf_ok hrun (congrArg noResults ht), portHolds_drive _ _ _, hstarted, hinv,
      hother, hin, hpsfb, hvf, hcalls⟩
  · exact exec_ends_as_failing_leg hrun hvalid
      (congrArg noResults (inverterInit_eq hu (validateInv_eq_none.2 ⟨hpins, hdis⟩)))
      (invLegs_nodup u _) hls hb hcalls

/-! ### `PSFBINIT` (R230, R233) -/

/-- `PSFBINIT` after its legs have been started: the inactive state, `INIT` (R230). -/
def finishBridge (j : Nat) (s : State) : Done Unit :=
  (psfbEnable j false s).andThen fun _ t => .ok () (t.setPsfb j { t.psfbAt j with init := true })

section
variable {s t : State} {j : Nat} {e : Status}

theorem psfbTypesOk_iff {ls : List Nat} :
    psfbTypesOk s ls = true ↔ ∀ l ∈ ls, (s.legAt l).kind = .default := by
  simp [psfbTypesOk]

theorem psfbInit_eq (hj : j < s.params.npsfb)
    (hpins : ∀ x, ¬ s.firstPinFault (fun _ => 2) (psfbLegs s.params j) x)
    (hk : ∀ l ∈ psfbLegs s.params j, (s.legAt l).kind = .default) :
    psfbInit j s =
      (forUnits startLeg (psfbLegs s.params j) s).andThen fun _ => finishBridge j := by
  rw [no_firstPinFault_iff, ← psfbPinCheck_eq_findSome?] at hpins
  unfold psfbInit
  rw [if_neg (by omega)]
  simp only [hpins]
  rw [if_neg (not_not.2 (psfbTypesOk_iff.2 hk))]
  rfl

/-- What a running CORE refuses an existing bridge with (R230). -/
theorem bridgeRefusal_iff (hrun : s.halted = false) (hj : j < s.params.npsfb) :
    s.bridgeRefusal j e ↔ s.firstPinFault (fun _ => 2) (psfbLegs s.params j) e ∨
      (∀ x, ¬ s.firstPinFault (fun _ => 2) (psfbLegs s.params j) x) ∧
        (∃ l ∈ psfbLegs s.params j, (s.legAt l).kind ≠ .default) ∧ e = .errLegType := by
  rw [State.bridgeRefusal, if_neg (by simp [hrun]), if_neg (by omega)]

/-- What the pin and type checks refuse has no effect (R230). -/
theorem psfbInit_refused (hrun : s.halted = false) (h : s.bridgeRefusal j e) :
    psfbInit j s = .err e s := by
  unfold psfbInit
  split
  · next hj =>
    rw [State.bridgeRefusal, if_neg (by simp [hrun]), if_pos hj] at h
    rw [h]
  · next hj =>
    rw [bridgeRefusal_iff hrun (by omega), no_firstPinFault_iff, firstPinFault_iff,
      ← psfbPinCheck_eq_findSome?] at h
    obtain h | ⟨hpins, ⟨l, hl, hk⟩, rfl⟩ := h
    · simp only [h]
    · simp only [hpins]
      rw [if_pos fun hok => hk (psfbTypesOk_iff.1 hok l hl)]

theorem psfbinit_turnsAway (h : s.bridgeRefusal j e) : turnsAway (.psfbinit j) s e := by
  refine turnsAway_of_halted_or_err (fun hh => ?_)
    fun hh => congrArg noResults (psfbInit_refused hh h)
  rwa [State.bridgeRefusal, if_pos hh] at h

/-- `PSFBINIT` is refused before any effect, or it starts its legs (R230). -/
theorem bridgeRefusal_or_valid (s : State) (j : Nat) : (∃ e, s.bridgeRefusal j e) ∨
    s.halted = false ∧ j < s.params.npsfb ∧
      (∀ x, ¬ s.firstPinFault (fun _ => 2) (psfbLegs s.params j) x) ∧
      ∀ l ∈ psfbLegs s.params j, (s.legAt l).kind = .default := by
  cases hrun : s.halted with
  | true => exact .inl ⟨.fatalHwinit, by rw [State.bridgeRefusal, if_pos hrun]⟩
  | false =>
    by_cases hj : s.params.npsfb ≤ j
    · exact .inl ⟨.errIndex, by rw [State.bridgeRefusal, if_neg (by simp [hrun]), if_pos hj]⟩
    · have hj' : j < s.params.npsfb := by omega
      by_cases hpins : ∃ x, s.firstPinFault (fun _ => 2) (psfbLegs s.params j) x
      · obtain ⟨x, hx⟩ := hpins
        exact .inl ⟨x, (bridgeRefusal_iff hrun hj').2 (.inl hx)⟩
      · have hnone := not_exists.1 hpins
        by_cases hk : ∀ l ∈ psfbLegs s.params j, (s.legAt l).kind = .default
        · exact .inr ⟨rfl, hj', hnone, hk⟩
        · exact .inl ⟨.errLegType,
            (bridgeRefusal_iff hrun hj').2 (.inr ⟨hnone, by simpa using hk, rfl⟩)⟩

theorem psfbinit_stoppedBeforeEnable (ht : exec (.psfbinit j) s = .next t)
    (hne : t.status ≠ .ok) : stoppedBeforeEnable s t := by
  obtain ⟨e, he⟩ | ⟨hrun, hj, hpins, hk⟩ := bridgeRefusal_or_valid s j
  · exact (psfbinit_turnsAway he).stoppedBeforeEnable ht
  · refine stoppedBeforeEnable_of_start ht hne hrun
      (congrArg noResults (psfbInit_eq hj hpins hk)) fun v h => ?_
    have hrange : ∀ l ∈ psfbLegs s.params j, 1 ≤ (s.legAt l).pin.toNat ∧
        (s.legAt l).pin.toNat + legWidth (s.legAt l).kind - 1 ≤ s.params.npwm := fun l hl => by
      rw [hk l hl]
      exact pins_in_range hpins l hl
    obtain ⟨-, -, -, -, -, ⟨hpar, -⟩, -⟩ := (starts_startLegs _ s).1.of_ok h
    obtain ⟨w, hw, -⟩ := psfbEnable_ok (s := v) (j := j) false
      (by rw [hpar]; exact legEnables_of_forUnits_startLeg hrange h)
    exact ⟨_, congrArg (Done.andThen · _) hw⟩

end

/-- Settles O52: where the legs start, the end of `PSFBINIT` completes; where one fails, the command
ends with it; the checks before the first leg refuse without effect. -/
theorem psfbinitStartsBridge : Obligations.PsfbinitStartsBridge := by
  refine ⟨fun s j hrun hvalid hj hk h hb => ?_,
    fun s j before after l hrun hvalid hj hpins hk hls hb hcalls => ?_,
    fun s t j _ ht hne => psfbinit_stoppedBeforeEnable ht hne,
    fun _ _ _ => psfbinit_turnsAway, fun _ _ => rfl⟩
  · obtain ⟨t, ht, hstarted, hpsfb, hother, hin, hinv, hvf, hcalls⟩ :=
      psfbInit_ok hvalid hj hk h hb
    exact ⟨_, exec_of_opOf_ok hrun (congrArg noResults ht), portHolds_drive _ _ _, hstarted, hpsfb,
      hother, hin, hinv, hvf, hcalls⟩
  · exact exec_ends_as_failing_leg hrun hvalid
      (congrArg noResults (psfbInit_eq hj hpins hk)) (psfbLegs_nodup _ j) hls hb hcalls

end Sys2Proof.Machine
end

section
/-! SUPPORT. The statements of 44_vf_ramp_controller.md: phase angles and commits as invariants of
every step, the ramp as a sequence of reals, `VFINIT`, and the steps of `VFSTEP`. -/

namespace Sys2Proof.Machine
open Laws

/-! ### Phase angles stay in one turn (R267, R272 (a)) -/

/-- A number in `[0, TWO_PI)`. -/
def inOneTurn (x : NUM) : Prop := (NUM.rat 0).le x ∧ x.lt TWO_PI

theorem inOneTurn_iff (x : NUM) : inOneTurn x ↔ 0 ≤ x.real ∧ x.real < TWO_PI.real := by
  rw [inOneTurn, le_iff, lt_iff, real_rat, Rat.cast_zero]

theorem inOneTurn_zero : inOneTurn (.rat 0) := by
  rw [inOneTurn_iff, real_rat, Rat.cast_zero]
  exact ⟨le_refl 0, two_pi_real_pos⟩

theorem inOneTurn_rmod (x : NUM) : inOneTurn (rmod x TWO_PI) :=
  (inOneTurn_iff _).2 ⟨rmod_nonneg x two_pi_real_pos, rmod_lt x two_pi_real_pos⟩

@[simp] theorem doReset_vfAt (s : State) (k : Nat) : (doReset s).vfAt k = Vf.reset := rfl

/-- An update keeps an angle, clears it, or takes a remainder by `TWO_PI`. -/
theorem Change.keeps_anglesInTurn {s t : State} (h : Change s t) (hs : s.anglesInTurn) :
    t.anglesInTurn := by
  cases h with
  | vf k r hr =>
    intro m
    by_cases hm : m = k
    · subst hm
      rw [State.vfAt_setVf_same]
      rcases hr with hkept | hzero | ⟨x, hx⟩
      · rw [hkept]; exact hs m
      · rw [hzero]; exact inOneTurn_zero
      · rw [hx]; exact inOneTurn_rmod x
    · rw [State.vfAt_setVf_other _ _ _ _ hm]
      exact hs m
  | _ => exact hs

/-- Settles O14: `RESET` clears every angle, every update keeps it in the turn, and neither the
inputs nor the result port are looked at. -/
theorem phaseAnglesStayInOneTurn : Obligations.PhaseAnglesStayInOneTurn :=
  fun _ _ => step_keeps (P := State.anglesInTurn) (fun _ _ _ => inOneTurn_zero)
    (fun _ _ _ hs => hs) (fun _ _ _ hs => hs) (fun _ _ => Change.keeps_anglesInTurn)

/-! ### What holds after an operation, by its parts -/

section
variable {α : Type} {s : State} {P : State → Prop}

/-- A test that refuses in the state it was given keeps what holds of that state and of the rest. -/
theorem guard_state {p : Prop} [Decidable p] {e : Status} {r : Done α} (h0 : P s)
    (h : P r.state) : P (if p then .err e s else r).state := by
  split
  · exact h0
  · exact h

/-- What holds of the state before, and of the state after the operation for any number on the lane,
holds after the command's operation. -/
theorem withArg0_state {op : NUM → State → Done Results} (h0 : P s)
    (h : ∀ a, P (op a s).state) : P (withArg0 op s).state := by
  obtain ⟨-, he⟩ | ⟨a, -, he⟩ := withArg0_cases op s <;> rw [he]
  · exact h0
  · exact h a

theorem withArg01_state {op : NUM → NUM → State → Done Results} (h0 : P s)
    (h : ∀ a b, P (op a b s).state) : P (withArg01 op s).state := by
  obtain ⟨-, he⟩ | ⟨a, b, -, -, he⟩ := withArg01_cases op s <;> rw [he]
  · exact h0
  · exact h a b

theorem withArgs_state {op : NUM → NUM → NUM → State → Done Results} (h0 : P s)
    (h : ∀ a b c, P (op a b c s).state) : P (withArgs op s).state := by
  obtain ⟨-, he⟩ | ⟨a, b, c, -, -, -, he⟩ := withArgs_cases op s <;> rw [he]
  · exact h0
  · exact h a b c

end

/-! ### Operations that leave every controller alone (R36, R264) -/

/-- The operation writes no controller record, however it ends. -/
def VfKept {α : Type} (s : State) (r : Done α) : Prop := sameVf s r.state

section
variable {α β : Type} {s : State}

theorem sameVf_refl (s : State) : sameVf s s := fun _ => rfl

theorem sameVf_trans {t u : State} (h : sameVf s t) (g : sameVf t u) : sameVf s u :=
  fun k => (g k).trans (h k)

theorem vfKept_ok (a : α) (s : State) : VfKept s (.ok a s) := sameVf_refl s

theorem vfKept_err (e : Status) (s : State) : VfKept s (.err e s : Done α) := sameVf_refl s

theorem VfKept.andThen {r : Done α} {k : α → State → Done β} (h : VfKept s r)
    (hk : ∀ a t, VfKept t (k a t)) : VfKept s (r.andThen k) := by
  cases r with
  | err e t => exact h
  | ok a t => exact sameVf_trans h (hk a t)

theorem VfKept.of_sameVf {t : State} {r : Done α} (h : sameVf s t) (g : VfKept t r) : VfKept s r :=
  sameVf_trans h g

theorem VfKept.guard {p : Prop} [Decidable p] {e : Status} {r : Done α} (h : VfKept s r) :
    VfKept s (if p then .err e s else r) := guard_state (sameVf_refl s) h

/-- Starting legs touches no controller (R220). -/
theorem Starts.vfKept {r : Done α} (h : Starts s r) : VfKept s r := by
  obtain ⟨-, -, -, -, hvf, -⟩ := h
  exact hvf

theorem VfKept.noResults {r : Done Unit} (h : VfKept s r) : VfKept s (noResults r) :=
  h.andThen fun _ t => vfKept_ok _ t

theorem VfKept.dutyResult {r : Done NUM} (h : VfKept s r) : VfKept s (dutyResult r) :=
  h.andThen fun _ t => vfKept_ok _ t

theorem VfKept.dutiesResult {r : Done Duties} (h : VfKept s r) : VfKept s (dutiesResult r) :=
  h.andThen fun _ t => vfKept_ok _ t

theorem vfKept_forUnits {f : Nat → State → Done Unit} (hf : ∀ l s, VfKept s (f l s))
    (ls : List Nat) (s : State) : VfKept s (forUnits f ls s) := by
  induction ls generalizing s with
  | nil => exact vfKept_ok () s
  | cons l ls ih => exact (hf l s).andThen fun _ t => ih t

end

theorem vfKept_configChannel (n sl : Nat) (s : State) : VfKept s (configChannel n sl s) :=
  VfKept.guard <| VfKept.guard <| (starts_timerInit _ sl s).vfKept.andThen fun _ t => sameVf_refl t

theorem vfKept_updateChannel (n sl : Nat) (d : NUM) (s : State) :
    VfKept s (updateChannel n sl d s) := by
  obtain ⟨hok, herr⟩ := updateChannel_spec n sl d s
  by_cases h : s.channelAccepts n sl d
  · rw [hok h]; exact sameVf_refl s
  · obtain ⟨e, -, he⟩ := herr h
    rw [he]; exact vfKept_err _ s

theorem vfKept_configIrq (t : Nat) (cb : Byte) (prio : Nibble) (e : Bool) (s : State) :
    VfKept s (configIrq t cb prio e s) := by
  obtain ⟨-, h⟩ | ⟨-, -, -, h⟩ | ⟨-, -, -, -, h⟩ | ⟨-, -, -, -, h⟩ | ⟨-, -, h⟩ :=
    configIrq_spec t cb prio e s <;> rw [h] <;> exact sameVf_refl s

theorem vfKept_enableLeg (l : Nat) (e : Bool) (s : State) : VfKept s (enableLeg l e s) := by
  obtain ⟨hok, herr⟩ := enableLeg_spec l e s
  by_cases h : s.legEnables l
  · rw [hok h]; exact sameVf_refl s
  · obtain ⟨x, -, hx⟩ := herr h
    rw [hx]; exact vfKept_err _ s

theorem vfKept_inverterEnable (u : Nat) (e : Bool) (s : State) :
    VfKept s (inverterEnable u e s) :=
  (vfKept_forUnits (fun l t => vfKept_enableLeg l e t) _ s).andThen fun _ t => sameVf_refl t

theorem vfKept_psfbEnable (j : Nat) (e : Bool) (s : State) : VfKept s (psfbEnable j e s) :=
  (vfKept_forUnits (fun l t => vfKept_enableLeg l e t) _ s).andThen fun _ t => sameVf_refl t

theorem vfKept_inverterActivate (u : Nat) (e : Bool) (s : State) :
    VfKept s (inverterActivate u e s) := (vfKept_inverterEnable u e s).guard.guard

theorem vfKept_psfbActivate (j : Nat) (e : Bool) (s : State) : VfKept s (psfbActivate j e s) :=
  (vfKept_psfbEnable j e s).guard.guard

theorem vfKept_inverterInit (u : Nat) (s : State) : VfKept s (inverterInit u s) := by
  refine VfKept.guard ?_
  simp only
  split
  · exact vfKept_err _ s
  refine (starts_startLegs _ s).1.vfKept.andThen fun _ t => ?_
  refine VfKept.of_sameVf ?_ ((vfKept_inverterEnable u false _).andThen fun _ v => sameVf_refl v)
  intro k
  rw [State.setInv_vfAt, emitDisablePins_eq, State.emits_vfAt]

theorem vfKept_psfbInit (j : Nat) (s : State) : VfKept s (psfbInit j s) := by
  refine VfKept.guard ?_
  simp only
  split
  · exact vfKept_err _ s
  refine VfKept.guard ?_
  exact (starts_startLegs _ s).1.vfKept.andThen fun _ t =>
    (vfKept_psfbEnable j false t).andThen fun _ v => sameVf_refl v

theorem vfKept_capabilityUpdate (l : Nat) (d : NUM) (s : State) :
    VfKept s (capabilityUpdate l d s) := (starts_capabilityUpdate l d s).vfKept

theorem vfKept_duplicateUpdate (u : Nat) (d : NUM) (s : State) :
    VfKept s (duplicateUpdate u d s) := by
  unfold duplicateUpdate
  split
  · exact vfKept_capabilityUpdate _ d s
  · exact vfKept_ok _ s

theorem vfKept_inverterUpdate (u : Nat) (d0 d1 d2 : NUM) (s : State) :
    VfKept s (inverterUpdate u d0 d1 d2 s) :=
  VfKept.guard <| VfKept.guard <|
    (vfKept_capabilityUpdate _ d0 s).andThen fun _ s1 =>
    (vfKept_capabilityUpdate _ d1 s1).andThen fun _ s2 =>
    (vfKept_capabilityUpdate _ d2 s2).andThen fun _ s3 =>
    (vfKept_duplicateUpdate u d2 s3).andThen fun _ s4 => vfKept_ok _ s4

theorem vfKept_inverterSpwm (u : Nat) (dir : Direction) (theta mi : NUM) (s : State) :
    VfKept s (inverterSpwm u dir theta mi s) :=
  VfKept.guard <| VfKept.guard <| VfKept.of_sameVf (t := s.emitSpwm theta mi dir) (sameVf_refl s) <|
    vfKept_inverterUpdate u _ _ _ _

theorem vfKept_psfbUpdate (j : Nat) (d : NUM) (s : State) : VfKept s (psfbUpdate j d s) :=
  VfKept.guard <| VfKept.guard <| sameVf_refl s

theorem vfKept_readField (addr : FieldAddr) (s : State) : VfKept s (readField addr s) := by
  unfold readField
  split
  · exact vfKept_err _ s
  · exact vfKept_ok _ s

theorem vfKept_encodeDeadTime (ns clk fsw : NUM) (s : State) :
    VfKept s (encodeDeadTime ns clk fsw s) := by
  unfold encodeDeadTime
  split
  · exact vfKept_err _ s
  split
  · exact vfKept_err _ s
  · exact vfKept_ok _ s

/-! ### Commits happen at standstill (R264, R265, R272 (b), (c)) -/

/-- Between the two records activation and direction are the same, or the second stands still. -/
def Vf.commitsAtRest (a b : Vf) : Prop :=
  (b.curState = a.curState ∧ b.curDir = a.curDir) ∨ b.curFreq = .rat 0

/-- Each controller keeps its activation and direction, or stands still afterwards. -/
def commitsAtRest (s t : State) : Prop := ∀ k, (s.vfAt k).commitsAtRest (t.vfAt k)

/-- Frequency, activation and direction of every controller are unchanged. -/
def sameMotion (s t : State) : Prop := ∀ k, (t.vfAt k).curFreq = (s.vfAt k).curFreq ∧
  (t.vfAt k).curState = (s.vfAt k).curState ∧ (t.vfAt k).curDir = (s.vfAt k).curDir

section
variable {s t u : State} {k : Nat}

theorem sameVf.sameMotion (h : sameVf s t) : sameMotion s t :=
  fun k => by rw [h k]; exact ⟨rfl, rfl, rfl⟩

theorem sameMotion.commitsAtRest (h : sameMotion s t) : commitsAtRest s t :=
  fun k => .inl (h k).2

theorem commitsAtRest.then_sameMotion (h : commitsAtRest s t) (g : sameMotion t u) :
    commitsAtRest s u := by
  intro k
  obtain ⟨hfreq, hstate, hdir⟩ := g k
  rw [Vf.commitsAtRest, hfreq, hstate, hdir]
  exact h k

theorem sameVf.then_commitsAtRest (h : sameVf s t) (g : commitsAtRest t u) :
    commitsAtRest s u := fun k => h k ▸ g k

/-- One record is written, with its old activation and direction or with frequency 0. -/
theorem commitsAtRest.setVf (h : commitsAtRest s t) {v : Vf}
    (hv : (s.vfAt k).commitsAtRest v) : commitsAtRest s (t.setVf k v) := by
  intro m
  rw [State.vfAt_setVf]
  split
  case isTrue hm => rw [hm]; exact hv
  case isFalse => exact h m

theorem VfKept.commitsAtRest {α : Type} {r : Done α} (h : VfKept s r) :
    commitsAtRest s r.state := (sameVf.sameMotion h).commitsAtRest

theorem commitsAtRest_refl (s : State) : commitsAtRest s s :=
  (sameVf_refl s).sameMotion.commitsAtRest

end

theorem commitsAtRest_guard {α : Type} {s : State} {p : Prop} [Decidable p] {e : Status}
    {r : Done α} (h : commitsAtRest s r.state) :
    commitsAtRest s (if p then .err e s else r).state := guard_state (commitsAtRest_refl s) h

theorem commitsAtRest_rampInit (k : Nat) (s : State) : commitsAtRest s (rampInit k s).state := by
  have hwritten := (commitsAtRest_refl s).setVf (k := k) (v := { s.vfAt k with
    curFreq := .rat 0, theta := .rat 0, curState := .inactive, reqState := .inactive,
    curDir := (s.vfAt k).reqDir, init := true }) (.inr rfl)
  exact commitsAtRest_guard (commitsAtRest_guard (commitsAtRest_guard hwritten))

/-- The commit of an activation writes the state only where the frequency has become 0 (R264). -/
theorem commitsAtRest_rampActivation (k u : Nat) (a : NUM) (s : State) :
    commitsAtRest s (rampActivation k u a s).state := by
  unfold rampActivation
  simp only
  split
  case isFalse => exact (commitsAtRest_refl s).setVf (.inl ⟨rfl, rfl⟩)
  case isTrue hzero =>
    generalize hs1 : s.setVf k _ = s1
    have hrest : commitsAtRest s s1 := by
      subst hs1
      exact (commitsAtRest_refl s).setVf (.inl ⟨rfl, rfl⟩)
    have hfreq : (s1.vfAt k).curFreq = .rat 0 := by
      subst hs1
      rw [State.vfAt_setVf_same]
      exact hzero
    have hkept := vfKept_inverterActivate u (s.vfAt k).reqState.flag s1
    have hswitched := hrest.then_sameMotion hkept.sameMotion
    cases hact : inverterActivate u (s.vfAt k).reqState.flag s1 with
    | err e s2 => rw [hact] at hswitched; exact hswitched
    | ok x s2 =>
      rw [hact] at hswitched hkept
      exact hswitched.setVf (.inr ((congrArg Vf.curFreq (hkept k)).trans hfreq))

/-- The commit of a direction writes it only where the frequency has become 0 (R265). -/
theorem commitsAtRest_rampDirection (k : Nat) (a : NUM) (s : State) :
    commitsAtRest s (rampDirection k a s) := by
  refine (commitsAtRest_refl s).setVf ?_
  by_cases hzero : toward0 (s.vfAt k).curFreq a = .rat 0
  · exact .inr hzero
  · exact .inl ⟨rfl, if_neg hzero⟩

theorem commitsAtRest_rampArbitrate (k u : Nat) (a : NUM) (s : State) :
    commitsAtRest s (rampArbitrate k u a s).state := by
  unfold rampArbitrate
  simp only
  split
  · exact commitsAtRest_rampActivation k u a s
  split
  · exact commitsAtRest_rampDirection k a s
  · exact (commitsAtRest_refl s).setVf (.inl ⟨rfl, rfl⟩)

/-- The emission writes the angle only (R267, R268). -/
theorem sameMotion_rampEmit (k u : Nat) (s : State) : sameMotion s (rampEmit k u s).state := by
  have hkept : sameVf (s.setVf k { s.vfAt k with theta := nextTheta (s.vfAt k) })
      (rampEmit k u s).state :=
    (vfKept_inverterSpwm u _ _ _ _).andThen fun _ t => vfKept_ok _ t
  intro m
  rw [hkept m, State.vfAt_setVf]
  split
  case isTrue hm => rw [hm]; exact ⟨rfl, rfl, rfl⟩
  case isFalse => exact ⟨rfl, rfl, rfl⟩

theorem commitsAtRest_rampStep (k : Nat) (s : State) : commitsAtRest s (rampStep k s).state := by
  have harb := commitsAtRest_rampArbitrate k (s.vfAt k).inv.toNat
    ((s.vfAt k).accel.div (s.vfAt k).pwmFreq) s
  unfold rampStep
  refine commitsAtRest_guard (commitsAtRest_guard (commitsAtRest_guard (commitsAtRest_guard
    (commitsAtRest_guard ?_))))
  revert harb
  cases rampArbitrate k (s.vfAt k).inv.toNat ((s.vfAt k).accel.div (s.vfAt k).pwmFreq) s with
  | err e t => exact id
  | ok x t => exact fun harb => harb.then_sameMotion (sameMotion_rampEmit k _ t)

theorem directionCode_injective : Function.Injective directionCode
  | .forward, .forward, _ => rfl
  | .reverse, .reverse, _ => rfl

/-- Frequency, activation and direction are read-only: no write to them is accepted, so a legal
write leaves them as they were (R36, R291). -/
theorem sameMotion_memWrite (v : NUM) (s : State) (c : Cell) :
    sameMotion s (memWrite v s c).state := by
  by_cases hacc : c.accepts v
  · obtain ⟨t, ht, -, hother, -⟩ := memWrite_ok (s := s) hacc
    rw [ht]
    have hkept : ∀ c', ¬ c'.accepts v → memRead t c' = memRead s c' := fun c' hc' =>
      hother c' fun e => hc' (e ▸ hacc)
    exact fun k => ⟨CellValue.num.inj (hkept (.vf k .curFreq) id),
      Activity.code_injective (CellValue.int.inj (hkept (.vf k .curState) id)),
      directionCode_injective (CellValue.int.inj (hkept (.vf k .curDir) id))⟩
  · obtain ⟨hro, hvalue⟩ := memWrite_err (s := s) (c := c) (v := v)
    cases hw : c.writable with
    | false => rw [hro hw]; exact (sameVf_refl s).sameMotion
    | true => rw [hvalue hw hacc]; exact (sameVf_refl s).sameMotion

theorem sameMotion_writeField (addr : FieldAddr) (v : NUM) (s : State) :
    sameMotion s (writeField addr v s).state := by
  unfold writeField
  split
  · exact (sameVf_refl s).sameMotion
  case h_2 c _ =>
    have hput := sameMotion_memWrite v s c
    revert hput
    cases memWrite v s c with
    | err e t => exact id
    | ok x t => exact id

theorem noResults_state (r : Done Unit) : (noResults r).state = r.state := by cases r <;> rfl

theorem commitsAtRest_withDuty {s : State} {op : NUM → State → Done NUM}
    (h : ∀ d, VfKept s (op d s)) :
    commitsAtRest s (withArg0 (fun d s => dutyResult (op d s)) s).state :=
  withArg0_state (commitsAtRest_refl s) fun d => (h d).dutyResult.commitsAtRest

/-- Only `VFINIT` and `VFSTEP` write activation and direction of a controller, at standstill. -/
theorem commitsAtRest_opOf (i : Instr) (s : State) : commitsAtRest s (opOf i s).state := by
  have h0 := commitsAtRest_refl s
  cases i with
  | wrf addr => exact withArg0_state h0 fun v => (sameMotion_writeField addr v s).commitsAtRest
  | rdf addr => exact (vfKept_readField addr s).commitsAtRest
  | dtenc =>
    exact withArgs_state h0 fun ns clk fsw => (vfKept_encodeDeadTime ns clk fsw s).commitsAtRest
  | tinit u sl => exact (starts_timerInit u sl s).vfKept.noResults.commitsAtRest
  | cfgpair n sl => exact (starts_configPair n sl s).vfKept.noResults.commitsAtRest
  | cfgch n sl => exact (vfKept_configChannel n sl s).noResults.commitsAtRest
  | updpair n sl => exact commitsAtRest_withDuty fun d => (starts_updatePair n sl d s).vfKept
  | updch n sl => exact commitsAtRest_withDuty fun d => vfKept_updateChannel n sl d s
  | cfgirq u cb prio e => exact (vfKept_configIrq u cb prio e s).noResults.commitsAtRest
  | cfgleg l =>
    exact ((starts_configLeg l s).1.vfKept.andThen fun _ u => vfKept_ok _ u).commitsAtRest
  | enleg l e => exact (vfKept_enableLeg l e s).noResults.commitsAtRest
  | capupd l => exact commitsAtRest_withDuty fun d => vfKept_capabilityUpdate l d s
  | invinit u => exact (vfKept_inverterInit u s).noResults.commitsAtRest
  | invupd u =>
    exact withArgs_state (op := fun a b c s => dutiesResult (inverterUpdate u a b c s)) h0
      fun a b c => (vfKept_inverterUpdate u a b c s).dutiesResult.commitsAtRest
  | invspwm u dir =>
    exact withArg01_state (op := fun a b s => dutiesResult (inverterSpwm u dir a b s)) h0
      fun a b => (vfKept_inverterSpwm u dir a b s).dutiesResult.commitsAtRest
  | invact u e => exact (vfKept_inverterActivate u e s).noResults.commitsAtRest
  | psfbinit j => exact (vfKept_psfbInit j s).noResults.commitsAtRest
  | psfbupd j => exact commitsAtRest_withDuty fun d => vfKept_psfbUpdate j d s
  | psfbact j e => exact (vfKept_psfbActivate j e s).noResults.commitsAtRest
  | vfinit k =>
    rw [opOf, noResults_state]
    exact commitsAtRest_rampInit k s
  | vfstep k => exact commitsAtRest_rampStep k s

section
variable {s t : State}

/-- The end of a command writes the result port only, and a halted CORE does nothing else. -/
theorem commitsAtRest_command {op : State → Done Results} (hop : commitsAtRest s (op s).state)
    (h : command op s = .next t) : commitsAtRest s t := by
  cases hh : s.halted with
  | true =>
    rw [command_halted hh] at h
    cases h
    exact commitsAtRest_refl s
  | false =>
    rw [command_running hh] at h
    cases h
    revert hop
    cases op s with
    | ok r u => exact id
    | err e u => exact id

theorem commitsAtRest_runWord {cw : Word} (h : runWord cw s = .next t) : commitsAtRest s t := by
  unfold runWord at h
  split at h
  case h_1 i _ => exact commitsAtRest_command (commitsAtRest_opOf i s) (exec_eq i s ▸ h)
  case h_2 => exact commitsAtRest_command (op := refuseWith .errIllegalOp) (commitsAtRest_refl s) h

/-- A period event commits compare values, and may run a step of a controller (R172). -/
theorem commitsAtRest_perElapsed {u : Nat} (h : perElapsed u s = .next t) : commitsAtRest s t := by
  obtain ⟨-, -, -, -, -, -, -, -, hvf, -⟩ := commit_same s u
  unfold perElapsed at h
  split at h
  · cases h
    exact commitsAtRest_refl s
  refine hvf.then_commitsAtRest ?_
  unfold runCallback at h
  simp only at h
  split at h
  · cases h
    exact commitsAtRest_refl _
  split at h
  · cases h
    exact commitsAtRest_rampStep _ _
  unfold externalCallback at h
  split at h
  · cases h
  · cases h
    exact commitsAtRest_refl _

theorem commitsAtRest_step (h : step s = .next t) : commitsAtRest s t := by
  cases hin : s.inbox with
  | nil =>
    rw [step_of_inbox_nil hin] at h
    cases h
    exact commitsAtRest_refl s
  | cons event rest =>
    rw [step_of_inbox_cons hin] at h
    cases event with
    | command cw lanes =>
      exact commitsAtRest_runWord (s := { s with inbox := rest, lanes := lanes }) h
    | perElapsed u => exact commitsAtRest_perElapsed (s := { s with inbox := rest }) h
    | reset =>
      cases h
      exact fun k => .inr rfl

end

/-- Settles O18: a controller that does not stand still after a step has kept its activation and its
direction. -/
theorem controllerCommitsOnlyAtStandstill : Obligations.ControllerCommitsOnlyAtStandstill := by
  intro s t k h hchanged
  rcases commitsAtRest_step h k with ⟨hstate, hdir⟩ | hzero
  · exact absurd hchanged (by simp [hstate, hdir])
  · exact hzero

/-! ### The ramp (R263, R266, R271) -/

section
variable {f g a : NUM}

/-- A ramp step reaches its target exactly when it is within reach (R266). -/
theorem toward_eq_target_iff (f g : NUM) (ha : 0 ≤ a.real) :
    toward f g a = g ↔ |f.real - g.real| ≤ a.real := by
  rw [← real_inj, toward_real]
  rcases lt_trichotomy f.real g.real with h | h | h
  · rw [if_pos h, min_eq_right_iff, abs_of_neg (sub_neg.2 h)]
    constructor <;> intro <;> linarith
  · rw [if_neg h.not_lt, if_neg h.not_gt, h, sub_self, abs_zero]
    exact iff_of_true rfl ha
  · rw [if_neg h.not_gt, if_pos h, max_eq_right_iff, abs_of_pos (sub_pos.2 h)]
    constructor <;> intro <;> linarith

/-- The ramp towards 0 after n steps (R271). -/
theorem toward0_iterate_real (hf : 0 ≤ f.real) (ha : 0 ≤ a.real) (n : Nat) :
    ((fun x => toward0 x a)^[n] f).real = max (f.real - n * a.real) 0 := by
  induction n with
  | zero => simp [hf]
  | succ n ih =>
    have hpos : 0 ≤ ((fun x => toward0 x a)^[n] f).real := ih ▸ le_max_right _ _
    rw [Function.iterate_succ_apply', toward0_real hpos ha, ih, ← max_sub_sub_right, max_assoc,
      max_eq_right (sub_nonpos.2 ha : 0 - a.real ≤ 0)]
    push_cast
    ring_nf

/-- A ramp towards 0 has arrived from step `ceil(f / a)` on (R271). -/
theorem toward0_iterate_eq_zero_iff (hf : 0 ≤ f.real) (ha : 0 < a.real) (n : Nat) :
    (fun x => toward0 x a)^[n] f = .rat 0 ↔ ⌈f.real / a.real⌉₊ ≤ n := by
  rw [eq_rat_iff, toward0_iterate_real hf ha.le, Rat.cast_zero, max_eq_right_iff, sub_nonpos,
    Nat.ceil_le, div_le_iff₀ ha]

/-- What a usable controller moves by in one step is not negative (R263). -/
theorem stepBound_nonneg {v : Vf} (h : v.configured) : 0 ≤ (v.accel.div v.pwmFreq).real := by
  obtain ⟨-, hpwm, haccel⟩ := (configured_iff v).1 h
  rw [real_div]
  exact div_nonneg haccel hpwm.le

end

/-- Settles O58, from the laws of one ramp step and of its iterates. -/
theorem rampNeverOvershoots : Obligations.RampNeverOvershoots := by
  refine ⟨fun v hv => ?_, fun f g a ha => toward_eq_target_iff f g ha,
    fun f a n hf ha => ⟨toward0_iterate_real hf ha.le n, toward0_iterate_eq_zero_iff hf ha n⟩⟩
  rw [← real_div]
  exact toward_spec v.curFreq v.goal (stepBound_nonneg hv)

/-! ### `VFINIT`, and the checks of `VFSTEP` (R261, R262) -/

section
variable {s : State} {k : Nat} {e : Status}

/-- Each test of `VFINIT` refuses without effect (R261). -/
theorem rampInit_refused (hrun : s.halted = false) (h : s.rampInitRefusal k e) :
    rampInit k s = .err e s := by
  rw [State.rampInitRefusal, if_neg (by simp [hrun])] at h
  unfold rampInit
  split at h
  case isTrue hk => rw [if_pos hk, h]
  case isFalse hk =>
    split at h
    case isTrue hi => simp only [if_neg hk, if_pos hi, h]
    case isFalse hi =>
      obtain ⟨hcfg, rfl⟩ := h
      simp only [if_neg hk, if_neg hi, if_pos (rampConfigOk_iff.not.2 hcfg)]

theorem vfinit_turnsAway (h : s.rampInitRefusal k e) : turnsAway (.vfinit k) s e := by
  refine turnsAway_of_halted_or_err (fun hh => ?_)
    fun hrun => congrArg noResults (rampInit_refused hrun h)
  rwa [State.rampInitRefusal, if_pos hh] at h

/-- Each test of `VFSTEP` refuses without effect (R262). -/
theorem rampStep_refused (hrun : s.halted = false) (h : s.rampStepRefusal k e) :
    rampStep k s = .err e s := by
  rw [State.rampStepRefusal, if_neg (by simp [hrun])] at h
  unfold rampStep
  split at h
  case isTrue hk => rw [if_pos hk, h]
  case isFalse hk =>
  split at h
  case isTrue hn => simp only [if_neg hk, if_pos hn, h]
  case isFalse hn =>
  split at h
  case isTrue hi => simp only [if_neg hk, if_neg hn, if_pos hi, h]
  case isFalse hi =>
  split at h
  case isTrue hin => simp only [if_neg hk, if_neg hn, if_neg hi, if_pos hin, h]
  case isFalse hin =>
  obtain ⟨hcfg, rfl⟩ := h
  simp only [if_neg hk, if_neg hn, if_neg hi, if_neg hin, if_pos (rampConfigOk_iff.not.2 hcfg)]

theorem vfstep_turnsAway (h : s.rampStepRefusal k e) : turnsAway (.vfstep k) s e := by
  refine turnsAway_of_halted_or_err (fun hh => ?_) fun hrun => rampStep_refused hrun h
  rwa [State.rampStepRefusal, if_pos hh] at h

end

/-- Settles O55: the record is written whole, and each test that fails refuses. -/
theorem vfinitStartsController : Obligations.VfinitStartsController := by
  refine ⟨fun s k hrun hk hi hcfg => ?_, fun _ _ _ => vfinit_turnsAway⟩
  exact ⟨_, exec_of_opOf_ok hrun (congrArg noResults (rampInit_ok hk hi hcfg)),
    portHolds_drive _ _ _, by rw [State.drive_vfAt, State.vfAt_setVf_same],
    fun m hm => by rw [State.drive_vfAt, State.vfAt_setVf_other _ _ _ _ hm],
    ⟨rfl, rfl, rfl, rfl⟩, ⟨rfl, rfl⟩, ⟨rfl, rfl⟩,
    fun _ => rfl, fun _ => rfl, fun _ => rfl, fun _ => rfl, fun _ => rfl, fun _ => rfl⟩

/-- Settles O57: each test refuses in its order, and before anything is written. -/
theorem vfstepChecksBeforeEffect : Obligations.VfstepChecksBeforeEffect :=
  fun _ _ _ => vfstep_turnsAway

/-! ### `VFSTEP` (R262 to R268, R314) -/

/-- What duty updates look at is the same: parameters, `HALTED`, timers, channels, slots, and the
capability and pin of every leg. -/
def sameDutyBasis (s t : State) : Prop :=
  t.params = s.params ∧ t.halted = s.halted ∧ sameTim s t ∧ sameCh s t ∧ sameCfg s t ∧
  ∀ l, (t.legAt l).cap = (s.legAt l).cap ∧ (t.legAt l).pin = (s.legAt l).pin

section
variable {s t : State} (h : sameDutyBasis s t)
include h

theorem sameDutyBasis.pair (n sl : Nat) (d : NUM) :
    (t.pairAccepts n sl d ↔ s.pairAccepts n sl d) ∧ t.pairCompare n sl d = s.pairCompare n sl d ∧
    ∀ e, t.pairDutyRefusal n sl d e ↔ s.pairDutyRefusal n sl d e := by
  obtain ⟨hparams, hhalted, htim, hch, hcfg, -⟩ := h
  unfold State.pairAccepts State.pairCompare State.pairDutyRefusal
  rw [hparams, hhalted, htim, hch, hcfg]
  exact ⟨Iff.rfl, rfl, fun _ => Iff.rfl⟩

theorem sameDutyBasis.leg (l : Nat) (d : NUM) :
    (t.legAccepts l d ↔ s.legAccepts l d) ∧ t.legWrites l d = s.legWrites l d ∧
    ∀ w e, t.legDutyRefusal l d w e ↔ s.legDutyRefusal l d w e := by
  have hpair := h.pair
  obtain ⟨hparams, -, -, -, -, hleg⟩ := h
  obtain ⟨hcap, hpin⟩ := hleg l
  unfold State.legAccepts State.legWrites State.legDutyRefusal
  simp only [hparams, hcap, hpin, (hpair _ _ _).1, (hpair _ _ _).2.1, (hpair _ _ _).2.2,
    implies_true, and_self]

theorem sameDutyBasis.dutyWrites (rs : List (Nat × NUM)) : t.dutyWrites rs = s.dutyWrites rs :=
  List.flatMap_congr fun r _ => (h.leg r.1 r.2).2.1

end

section
variable {s t u : State} {k i : Nat}

/-- A commit keeps `HALTED` and every capability and pin, and of the inverter all but its state. -/
theorem rampSwitched.kept (h : rampSwitched s t k i) : t.halted = s.halted ∧
    (∀ l, (t.legAt l).cap = (s.legAt l).cap ∧ (t.legAt l).pin = (s.legAt l).pin) ∧
    (t.invAt i).init = (s.invAt i).init ∧ (t.invAt i).dup = (s.invAt i).dup := by
  obtain ⟨-, hcommit, hnone⟩ := h
  cases hc : (s.vfAt k).commitsState with
  | false =>
    obtain ⟨⟨hhalted, -⟩, hleg, hinv⟩ := hnone hc
    exact ⟨hhalted, fun l => by rw [hleg l]; exact ⟨rfl, rfl⟩, by rw [hinv], by rw [hinv]⟩
  | true =>
    obtain ⟨⟨hhalted, -, -, hin, hout⟩, hinv⟩ := hcommit hc
    refine ⟨hhalted, fun l => ?_, by rw [hinv], by rw [hinv]⟩
    by_cases hl : l ∈ s.inverterLegs i
    · rw [hin l hl]; exact ⟨rfl, rfl⟩
    · rw [hout l hl]; exact ⟨rfl, rfl⟩

/-- A duty update keeps what a commit has switched. -/
theorem rampSwitched.then_duties (h : rampSwitched s t k i) (g : sameButDuties t u) :
    rampSwitched s u k i := by
  obtain ⟨hother, hcommit, hnone⟩ := h
  obtain ⟨-, ⟨hhalted, hoen⟩, -, -, hleg, hinv, -⟩ := g
  refine ⟨fun m hm => (hinv m).trans (hother m hm), fun hc => ?_, fun hc => ?_⟩
  · obtain ⟨⟨hh, hon, hoff, hin, hout⟩, hstate⟩ := hcommit hc
    refine ⟨⟨hhalted.trans hh, fun b hb ho => ?_, fun b hb ho => ?_,
      fun l hl => (hleg l).trans (hin l hl), fun l hl => (hleg l).trans (hout l hl)⟩,
      (hinv i).trans hstate⟩
    · rw [hoen]; exact hon b hb ho
    · rw [hoen]; exact hoff b hb ho
  · obtain ⟨⟨hh, ho⟩, hl, hstate⟩ := hnone hc
    exact ⟨⟨hhalted.trans hh, hoen.trans ho⟩, fun l => (hleg l).trans (hl l),
      (hinv i).trans hstate⟩

/-- The calls of a commit, if the step makes one, as entries of the trace (R264, R320). -/
theorem commitCalls_entries (s : State) (c : Bool) (ls : List Nat) (e : Bool) :
    ((if c then ls.map fun l => s.enableCall l e else []).map fun x => (⟨x, .ok⟩ : ExtEntry)) =
      if c then ls.map fun l => ⟨s.enableCall l e, .ok⟩ else [] := by
  cases c
  · rfl
  · exact List.map_map

theorem commitCalls_length (s : State) (c : Bool) (ls : List Nat) (e : Bool) :
    (if c then ls.map fun l => s.enableCall l e else []).length = if c then ls.length else 0 := by
  cases c
  · rfl
  · exact List.length_map _

/-- `VFSTEP k` passes its checks (R262). -/
def State.rampChecksPass (s : State) (k : Nat) : Prop :=
  k < s.params.nvf ∧ (s.vfAt k).init = true ∧ (s.vfAt k).inv.toNat < s.params.ninv ∧
  (s.invAt (s.vfAt k).inv.toNat).init = true ∧ (s.vfAt k).configured

/-- Past the checks a step arbitrates, then emits (R262). -/
theorem rampStep_eq (h : s.rampChecksPass k) :
    rampStep k s = (rampArbitrate k (s.vfAt k).inv.toNat
      ((s.vfAt k).accel.div (s.vfAt k).pwmFreq) s).andThen fun _ u =>
        rampEmit k (s.vfAt k).inv.toNat u := by
  obtain ⟨hk, hinit, hi, hn, hcfg⟩ := h
  unfold rampStep
  simp only
  rw [if_neg (by omega), if_neg (by simp [hinit]), if_neg (by omega), if_neg (by simp [hn]),
    if_neg (not_not.2 (rampConfigOk_iff.2 hcfg))]

/-- The emission after an arbitration is one sinusoidal update with the stepped record (R267,
R268). -/
theorem rampEmit_of_arbitrated (hu : u.vfAt k = (s.vfAt k).arbitrated) :
    rampEmit k i u = (inverterSpwm i (s.vfAt k).stepped.curDir (s.vfAt k).stepped.theta
      (s.vfAt k).nextMi (u.setVf k (s.vfAt k).stepped)).andThen fun _ t =>
        .ok ⟨0, (s.vfAt k).nextFreq, (s.vfAt k).nextMi, (s.vfAt k).stepped.theta, .rat 0⟩ t := by
  unfold rampEmit
  simp only [hu]
  rfl

/-- A committing step ramps to 0 and switches the inverter in the branch of the activation
(R264). -/
theorem rampArbitrate_of_commitsState (hc : (s.vfAt k).commitsState = true) :
    rampArbitrate k i ((s.vfAt k).accel.div (s.vfAt k).pwmFreq) s =
      (inverterActivate i (s.vfAt k).reqState.flag
        (s.setVf k { s.vfAt k with curFreq := .rat 0 })).andThen fun _ u =>
          .ok () (u.setVf k { u.vfAt k with curState := (s.vfAt k).reqState }) := by
  obtain ⟨hpending, hzero⟩ : (s.vfAt k).reqState ≠ (s.vfAt k).curState ∧
      (s.vfAt k).nextFreq = .rat 0 := by simpa [Vf.commitsState] using hc
  have hfreq : toward0 (s.vfAt k).curFreq ((s.vfAt k).accel.div (s.vfAt k).pwmFreq) = .rat 0 := by
    rw [← hzero, Vf.nextFreq, Vf.goal, if_pos (.inl hpending), toward0]
  unfold rampArbitrate
  simp only
  rw [if_pos hpending]
  unfold rampActivation
  simp only [hfreq, if_true]

/-- A commit whose `INVACT` is refused at a leg ends the step there (R264, R314). -/
theorem rampStep_commit_refused {before after : List Nat} {l : Nat} {x : Status}
    (hrun : s.halted = false) (hpass : s.rampChecksPass k)
    (hc : (s.vfAt k).commitsState = true)
    (hls : s.inverterLegs (s.vfAt k).inv.toNat = before ++ l :: after)
    (hb : ∀ m ∈ before, s.legEnables m) (hx : s.enableRefusal l x) :
    ∃ t, rampStep k s = .err x t ∧
      legsEnabled s t before (s.vfAt k).reqState.flag ∧
      sameButEnables (s.setVf k { s.vfAt k with curFreq := .rat 0 }) t ∧
      calledOk s t (before.map fun m => s.enableCall m (s.vfAt k).reqState.flag) := by
  obtain ⟨t, ht, hlegs, hframe, hcalls⟩ :=
    enableLegs_refused (s := s.setVf k { s.vfAt k with curFreq := .rat 0 })
      (s.vfAt k).reqState.flag hrun (invLegs_nodup _ _) hls hb hx
  refine ⟨t, ?_, hlegs, hframe, hcalls⟩
  have ⟨_, _, hi, hn, _⟩ := hpass
  rw [rampStep_eq hpass, rampArbitrate_of_commitsState hc,
    inverterActivate_ok (s := s.setVf k { s.vfAt k with curFreq := .rat 0 }) _ hi hn,
    inverterEnable_err ht]
  rfl

/-- A sinusoidal update that is refused at a leg ends the step there, with the record updated, the
commit made and the writes of the earlier legs (R268, R314). -/
theorem rampStep_update_refused {a b c d : NUM} {before after : List (Nat × NUM)} {l : Nat}
    {writes : List (Nat × Nat)} {e : Status}
    (hrun : s.halted = false) (hpass : s.rampChecksPass k)
    (hs : s.spwm (s.vfAt k).stepped.theta (s.vfAt k).nextMi (s.vfAt k).stepped.curDir = (a, b, c))
    (hen : (s.vfAt k).commitsState = true →
      ∀ m ∈ s.inverterLegs (s.vfAt k).inv.toNat, s.legEnables m)
    (hls : s.inverterUpdates (s.vfAt k).inv.toNat a b c = before ++ (l, d) :: after)
    (hb : ∀ r ∈ before, s.legAccepts r.1 r.2) (href : s.legDutyRefusal l d writes e) :
    ∃ t, rampStep k s = .err e t ∧
      t.vfAt k = (s.vfAt k).stepped ∧ (∀ m, m ≠ k → t.vfAt m = s.vfAt m) ∧
      rampSwitched s t k (s.vfAt k).inv.toNat ∧
      shadowsWritten s t (s.dutyWrites before ++ writes) ∧
      t.ext = s.ext ++
        (if (s.vfAt k).commitsState then (s.inverterLegs (s.vfAt k).inv.toNat).map fun l =>
          ⟨s.enableCall l (s.vfAt k).reqState.flag, .ok⟩ else []) ++
        [⟨.spwm (s.vfAt k).stepped.theta (s.vfAt k).nextMi (s.vfAt k).stepped.curDir,
          .duties a b c⟩] ∧
      t.callNo = s.callNo + (if (s.vfAt k).commitsState then
        (s.inverterLegs (s.vfAt k).inv.toNat).length else 0) + 1 ∧
      sameInputs s t ∧ sameTim s t ∧ sameCfg s t ∧ samePsfb s t := by
  have ⟨_, _, hi, hn, _⟩ := hpass
  obtain ⟨u, hu, hvf, hvfs, hsw, hin, htim, hch, hcfg, hpsfb, hext, hno⟩ :=
    rampArbitrate_ok hi hn hen
  obtain ⟨hhalted, hleg, hinvInit, hdup⟩ := hsw.kept
  have ⟨hparams, henv, _, _⟩ := hin
  have hspwm : (u.setVf k (s.vfAt k).stepped).spwm (s.vfAt k).stepped.theta (s.vfAt k).nextMi
      (s.vfAt k).stepped.curDir = (a, b, c) := by
    rw [State.spwm_congr (s := s) (t := u.setVf k (s.vfAt k).stepped) henv, hs]
  have hbasis : sameDutyBasis s (u.setVf k (s.vfAt k).stepped) :=
    ⟨hparams, hhalted, htim, hch, hcfg, hleg⟩
  obtain ⟨t, ht, hduties, hext', hno', hw⟩ :=
    inverterSpwm_refused (s := u.setVf k (s.vfAt k).stepped) (i := (s.vfAt k).inv.toNat)
      (after := after) (hhalted.trans hrun) (hparams ▸ hi) (hinvInit.trans hn) hspwm
      (by rw [State.inverterUpdates, State.setVf_invAt, hdup]; exact hls)
      (fun r hr => (hbasis.leg r.1 r.2).1.2 (hb r hr)) (((hbasis.leg l d).2.2 _ _).2 href)
  have hswitched := hsw.then_duties (t := u.setVf k (s.vfAt k).stepped) hduties
  obtain ⟨hin', -, htim', hcfg', -, -, hpsfb', hvf'⟩ := hduties
  refine ⟨t, ?_, ?_, fun m hm => ?_, hswitched, fun n => ?_, ?_, ?_, sameInputs_trans hin hin',
    fun v => (htim' v).trans (htim v), fun sl => (hcfg' sl).trans (hcfg sl),
    fun j => (hpsfb' j).trans (hpsfb j)⟩
  · rw [rampStep_eq hpass, hu, Done.andThen_ok, rampEmit_of_arbitrated hvf, ht, Done.andThen_err]
  · rw [hvf' k, State.vfAt_setVf_same]
  · rw [hvf' m, State.vfAt_setVf_other _ _ _ _ hm, hvfs m hm]
  · rw [hw n, hbasis.dutyWrites, State.setVf_chAt, hch n]
  · rw [hext', State.setVf_ext, hext, commitCalls_entries]
  · rw [hno', State.setVf_callNo, hno, commitCalls_length]

end

/-- Settles O56: a step is the arbitration, which a commit that is refused ends, and then the
emission, which a refused update ends. -/
theorem vfstepRunsOneCycle : Obligations.VfstepRunsOneCycle := by
  refine ⟨?_, ?_, ?_⟩
  · rintro s k _ _ _ a b c hrun hk rfl hinit rfl hi hcfg rfl hs hen hacc
    obtain ⟨t, ht, hvf, hvfs, ⟨hinv, hcommit, hnone⟩, hin, htim, hcfgs, hpsfb, hw, hext, hno⟩ :=
      rampStep_ok (s.vfAt k) _ _ (a, b, c) rfl rfl rfl hs hk hinit hi hcfg hen hacc
    rw [commitCalls_entries] at hext
    exact ⟨_, exec_of_opOf_ok hrun ht, portHolds_drive _ _ _, hvf, hvfs, hinv, hcommit, hnone, hw,
      hext, hno, hin, htim, hcfgs, hpsfb⟩
  · rintro s k _ before after l x hrun hk rfl hinit hi hn hcfg hc hls hb hx
    obtain ⟨t, ht, hlegs, ⟨hin, htim, hch, hcfgs, hinv, hpsfb, hvf⟩, hcalls⟩ :=
      rampStep_commit_refused hrun ⟨hk, hinit, hi, hn, hcfg⟩ hc hls hb hx
    exact ⟨_, exec_of_opOf_err hrun ht, portHolds_drive _ _ _,
      (hvf k).trans (State.vfAt_setVf_same _ _ _),
      fun m hm => (hvf m).trans (State.vfAt_setVf_other _ _ _ _ hm), hlegs, hcalls, hin, htim, hch,
      hcfgs, hinv, hpsfb⟩
  · rintro s k _ _ _ a b c d before after l writes e hrun hk rfl hinit rfl hi hn hcfg rfl hs hen hls
      hb href
    obtain ⟨t, ht, hvf, hvfs, ⟨hinv, hcommit, hnone⟩, hframe⟩ :=
      rampStep_update_refused hrun ⟨hk, hinit, hi, hn, hcfg⟩ hs hen hls hb href
    exact ⟨_, exec_of_opOf_err hrun ht, portHolds_drive _ _ _, hvf, hvfs, hinv, hcommit, hnone,
      hframe⟩

end Sys2Proof.Machine
end

section
/-! SUPPORT. The statements of 45_register_access.md: which addresses name a field, and `WRF` and `RDF`
as commands. The cell-level laws of a write stand in Laws/RegAccess.lean. -/

namespace Sys2Proof.Machine

/-! ### Field numbers (R81)

The constructors of each bank's field type stand in the order of the field numbers, so a field's
number is its constructor index. -/

/-- Reading a field number gives the field that has this number, for the numbers up to `last` and
no other. -/
structure FieldNumbers {F : Type} (field : Nat → Option F) (number : F → Nat) (last : Nat) :
    Prop where
  named : ∀ n, (∃ f, field n = some f) ↔ n ≤ last
  number_eq : ∀ {n f}, field n = some f → number f = n

/-- A numbering is settled number by number. -/
theorem FieldNumbers.of_cases {F : Type} {field : Nat → Option F} {number : F → Nat} {last : Nat}
    (h : ∀ n, (n ≤ last ∧ ∃ f, field n = some f ∧ number f = n) ∨ (last < n ∧ field n = none)) :
    FieldNumbers field number last where
  named n := by
    rcases h n with ⟨hn, f, hf, -⟩ | ⟨hn, hf⟩
    · exact ⟨fun _ => hn, fun _ => ⟨f, hf⟩⟩
    · simp [hf, hn]
  number_eq {n f} hf := by
    rcases h n with ⟨-, g, hg, hnum⟩ | ⟨-, hnone⟩
    · rwa [← Option.some.inj (hg.symm.trans hf)]
    · simp [hnone] at hf

theorem glbField_numbers : FieldNumbers glbField GlbField.ctorIdx 1 :=
  .of_cases fun n => match n with
    | 0 | 1 => .inl ⟨by decide, _, rfl, rfl⟩
    | _ + 2 => .inr ⟨by omega, rfl⟩

theorem timField_numbers : FieldNumbers timField TimField.ctorIdx 9 :=
  .of_cases fun n => match n with
    | 0 | 1 | 2 | 3 | 4 | 5 | 6 | 7 | 8 | 9 => .inl ⟨by decide, _, rfl, rfl⟩
    | _ + 10 => .inr ⟨by omega, rfl⟩

theorem chField_numbers : FieldNumbers chField ChField.ctorIdx 3 :=
  .of_cases fun n => match n with
    | 0 | 1 | 2 | 3 => .inl ⟨by decide, _, rfl, rfl⟩
    | _ + 4 => .inr ⟨by omega, rfl⟩

theorem cfgField_numbers : FieldNumbers cfgField CfgField.ctorIdx 7 :=
  .of_cases fun n => match n with
    | 0 | 1 | 2 | 3 | 4 | 5 | 6 | 7 => .inl ⟨by decide, _, rfl, rfl⟩
    | _ + 8 => .inr ⟨by omega, rfl⟩

theorem legField_numbers : FieldNumbers legField LegField.ctorIdx 5 :=
  .of_cases fun n => match n with
    | 0 | 1 | 2 | 3 | 4 | 5 => .inl ⟨by decide, _, rfl, rfl⟩
    | _ + 6 => .inr ⟨by omega, rfl⟩

theorem invField_numbers : FieldNumbers invField InvField.ctorIdx 5 :=
  .of_cases fun n => match n with
    | 0 | 1 | 2 | 3 | 4 | 5 => .inl ⟨by decide, _, rfl, rfl⟩
    | _ + 6 => .inr ⟨by omega, rfl⟩

theorem psfbField_numbers : FieldNumbers psfbField PsfbField.ctorIdx 1 :=
  .of_cases fun n => match n with
    | 0 | 1 => .inl ⟨by decide, _, rfl, rfl⟩
    | _ + 2 => .inr ⟨by omega, rfl⟩

theorem vfField_numbers : FieldNumbers vfField VfField.ctorIdx 12 :=
  .of_cases fun n => match n with
    | 0 | 1 | 2 | 3 | 4 | 5 | 6 | 7 | 8 | 9 | 10 | 11 | 12 => .inl ⟨by decide, _, rfl, rfl⟩
    | _ + 13 => .inr ⟨by omega, rfl⟩

section
variable {F : Type} {field : Nat → Option F} {number : F → Nat} {last n : Nat} {record : Prop}
  [Decidable record] {mk : F → Cell}

/-- One bank's part of `Resolve`: a cell exactly where the record and the field number exist. -/
theorem FieldNumbers.exists_cell_iff (h : FieldNumbers field number last) :
    (∃ c, (if record then (field n).map mk else none) = some c) ↔ record ∧ n ≤ last := by
  rw [← h.named]
  by_cases hr : record <;> simp [hr]

/-- One bank's part of `Resolve`: the cell it answers is the field of that number. -/
theorem FieldNumbers.exists_field (h : FieldNumbers field number last) {c : Cell}
    (hc : (if record then (field n).map mk else none) = some c) : ∃ f, c = mk f ∧ number f = n := by
  obtain ⟨-, hmap⟩ := Option.ite_none_right_eq_some.mp hc
  obtain ⟨f, hf, rfl⟩ := Option.map_eq_some_iff.mp hmap
  exact ⟨f, rfl, h.number_eq hf⟩
end

/-! ### Addresses (R81, R290) -/

/-- `Resolve` succeeds exactly on the addresses of the table: bank by bank (R290). -/
theorem exists_resolve_iff (p : Params) (addr : FieldAddr) :
    (∃ c, resolve p addr = some c) ↔ legalAddr p addr := by
  unfold resolve legalAddr
  generalize bankNumber addr = bank
  match bank with
  | 0 => exact glbField_numbers.exists_cell_iff.trans (by simp)
  | 1 => exact timField_numbers.exists_cell_iff.trans (by simp)
  | 2 => exact chField_numbers.exists_cell_iff.trans (by simp [and_assoc])
  | 3 => exact cfgField_numbers.exists_cell_iff.trans (by simp)
  | 4 => exact legField_numbers.exists_cell_iff.trans (by simp)
  | 5 => exact invField_numbers.exists_cell_iff.trans (by simp)
  | 6 => exact psfbField_numbers.exists_cell_iff.trans (by simp)
  | 7 => exact vfField_numbers.exists_cell_iff.trans (by simp)
  | _ + 8 => simp

theorem resolve_eq_none_iff {p : Params} {addr : FieldAddr} :
    resolve p addr = none ↔ ¬ legalAddr p addr := by
  rw [← exists_resolve_iff, Option.eq_none_iff_forall_ne_some, not_exists]

/-- The bank, the record index and the field number of a cell (R81). -/
def Cell.place : Cell → Nat × Nat × Nat
  | .glb f => (0, 0, f.ctorIdx)
  | .tim t f => (1, t, f.ctorIdx)
  | .ch n f => (2, n, f.ctorIdx)
  | .cfg sl f => (3, sl, f.ctorIdx)
  | .leg l f => (4, l, f.ctorIdx)
  | .inv i f => (5, i, f.ctorIdx)
  | .psfb j f => (6, j, f.ctorIdx)
  | .vf k f => (7, k, f.ctorIdx)

/-- `Resolve` undone: the cell an address names stands at the place the address spells (R290). -/
theorem place_of_resolve {p : Params} {addr : FieldAddr} {c : Cell}
    (h : resolve p addr = some c) :
    c.place = (bankNumber addr, recordIndex addr, fieldNumber addr) := by
  unfold resolve at h
  generalize bankNumber addr = bank at h ⊢
  match bank with
  | 0 =>
    obtain ⟨f, rfl, hf⟩ := glbField_numbers.exists_field h
    rw [Cell.place, hf, (Option.ite_none_right_eq_some.mp h).1]
  | 1 => obtain ⟨f, rfl, hf⟩ := timField_numbers.exists_field h; rw [Cell.place, hf]
  | 2 => obtain ⟨f, rfl, hf⟩ := chField_numbers.exists_field h; rw [Cell.place, hf]
  | 3 => obtain ⟨f, rfl, hf⟩ := cfgField_numbers.exists_field h; rw [Cell.place, hf]
  | 4 => obtain ⟨f, rfl, hf⟩ := legField_numbers.exists_field h; rw [Cell.place, hf]
  | 5 => obtain ⟨f, rfl, hf⟩ := invField_numbers.exists_field h; rw [Cell.place, hf]
  | 6 => obtain ⟨f, rfl, hf⟩ := psfbField_numbers.exists_field h; rw [Cell.place, hf]
  | 7 => obtain ⟨f, rfl, hf⟩ := vfField_numbers.exists_field h; rw [Cell.place, hf]
  | _ + 8 => cases h

/-- The three parts of an address are all of its 16 bits (R70). -/
theorem fieldAddr_ext {a b : FieldAddr} (hbank : bankNumber a = bankNumber b)
    (hidx : recordIndex a = recordIndex b) (hfield : fieldNumber a = fieldNumber b) : a = b := by
  simp only [bankNumber, recordIndex, fieldNumber, BitVec.extractLsb'_toNat,
    Nat.shiftRight_eq_div_pow] at hbank hidx hfield
  apply BitVec.eq_of_toNat_eq
  omega

/-- Two addresses never name one field (R290). -/
theorem resolve_injective {p : Params} {a b : FieldAddr} {c : Cell} (ha : resolve p a = some c)
    (hb : resolve p b = some c) : a = b := by
  have hplace := (place_of_resolve ha).symm.trans (place_of_resolve hb)
  simp only [Prod.mk.injEq] at hplace
  obtain ⟨hbank, hidx, hfield⟩ := hplace
  exact fieldAddr_ext hbank hidx hfield

/-! ### The commands (R290 to R294) -/

section
variable {s : State} {addr : FieldAddr}

/-- An `RDF` of an address that names nothing ends with `ERR_ADDR` (R290, R293). -/
theorem rdf_turnsAway_of_resolve_none (hrun : s.halted = false)
    (hcell : resolve s.params addr = none) : turnsAway (.rdf addr) s .errAddr :=
  turnsAway_of_opOf_err hrun (by rw [opOf, readField, hcell])

/-- A `WRF` to an address that names nothing ends with `ERR_ADDR` (R290, R292). -/
theorem wrf_turnsAway_of_resolve_none {v : NUM} (hrun : s.halted = false)
    (hlane : s.lanes.arg0.value = some v) (hcell : resolve s.params addr = none) :
    turnsAway (.wrf addr) s .errAddr :=
  turnsAway_of_opOf_err hrun (by rw [opOf, withArg0_some hlane, writeField, hcell])

/-- The first test of R292 that a `WRF` fails decides its status. -/
theorem wrf_turnsAway_of_writeRefusal {v : NUM} {e : Status}
    (hlane : s.lanes.arg0.value = some v) (h : s.writeRefusal addr v e) :
    turnsAway (.wrf addr) s e := by
  unfold State.writeRefusal at h
  by_cases hhalt : s.halted = true
  · rw [if_pos hhalt] at h
    exact h ▸ turnsAway_of_halted _ hhalt
  have hrun : s.halted = false := by simpa using hhalt
  rw [if_neg hhalt] at h
  cases hcell : resolve s.params addr with
  | none =>
    simp only [hcell] at h
    exact h ▸ wrf_turnsAway_of_resolve_none hrun hlane hcell
  | some c =>
    obtain ⟨hro, hvalue⟩ := memWrite_err (s := s) (c := c) (v := v)
    simp only [hcell] at h
    by_cases hw : c.writable = false
    · rw [if_pos hw] at h
      exact h ▸ wrf_turnsAway_of_memWrite_err hrun hlane hcell (hro hw)
    · rw [if_neg hw] at h
      obtain ⟨hacc, rfl⟩ := h
      exact wrf_turnsAway_of_memWrite_err hrun hlane hcell (hvalue (by simpa using hw) hacc)
end

/-- The results of a read are the low byte and the number of the cell (R293). -/
theorem readResults_eq (x : CellValue) :
    readResults x = { Results.lane0 x.number with rescode := x.lowByte } := by cases x <;> rfl

/-- Settles O30: `Resolve` succeeds on the addresses of the table, is undone by the place of the
cell, and what fails it is refused. -/
theorem addressesFollowTheTable : Obligations.AddressesFollowTheTable := by
  refine ⟨exists_resolve_iff, fun _ _ _ _ => resolve_injective, fun s addr hrun haddr => ?_⟩
  have hcell := resolve_eq_none_iff.mpr haddr
  exact ⟨rdf_turnsAway_of_resolve_none hrun hcell,
    fun _ hlane => wrf_turnsAway_of_resolve_none hrun hlane hcell⟩

/-- Settles O31: an accepted value lands in the one cell, and each refusal is a test of R292. -/
theorem wrfWritesOneField : Obligations.WrfWritesOneField := by
  refine ⟨?_, fun _ _ _ _ => wrf_turnsAway_of_writeRefusal⟩
  intro s addr v c hrun hlane hcell _ hacc
  obtain ⟨t, hput, hnum, hother, hinputs, hcalls⟩ := memWrite_ok (s := s) hacc
  exact ⟨t.drive .ok Results.none, exec_wrf_of_memWrite_ok hrun hlane hcell hput,
    (congrArg CellValue.number (memRead_drive _ _ _ _)).trans hnum,
    fun c' hc => (memRead_drive _ _ _ _).trans (hother c' hc), portHolds_drive _ _ _, hinputs, hcalls⟩

/-- Settles O32: a read drives the cell's value on the result port, and nothing else. -/
theorem rdfReturnsTheField : Obligations.RdfReturnsTheField := by
  refine ⟨fun s addr c hrun hcell => ?_, fun _ _ => turnsAway_of_halted _,
    fun _ _ => rdf_turnsAway_of_resolve_none⟩
  have hexec := exec_rdf_of_resolve hrun hcell
  rw [readResults_eq] at hexec
  exact ⟨_, hexec, portHolds_drive _ _ _, drive_frame _ _ _⟩

end Sys2Proof.Machine
end

section
/-! SUPPORT. The statements of 60_exceptions.md: the halted state, when a command halts CORE, errors
without effect, and records that are missing or not configured. -/

namespace Sys2Proof.Machine

/-! ### The halted state (R305) -/

/-- A halted CORE refuses every word, whether it decodes or not (R305, R308). -/
theorem runWord_halted {s : State} (h : s.halted = true) (cw : Word) :
    runWord cw s = .next (s.drive .fatalHwinit Results.none) := by
  cases hdec : decode cw with
  | ok i => rw [runWord_of_decode hdec, exec_eq, command_halted h]
  | error e =>
    simp only [runWord, hdec]
    exact command_halted h

/-- Settles O19: a word drives `FATAL_HWINIT` and nothing else, and an event finds CORE halted. -/
theorem haltedStateRefusesEverything : Obligations.HaltedStateRefusesEverything := by
  refine ⟨fun s cw lanes rest hhalt hin => ?_, fun s u rest hhalt hin => ?_⟩
  · obtain ⟨hport, ⟨hparams, henv, hinbox, hlanes⟩, hcalls, hbanks⟩ :=
      refusedWith_drive { s with inbox := rest, lanes := lanes } .fatalHwinit
    have hrefuse := runWord_halted (s := { s with inbox := rest, lanes := lanes }) hhalt cw
    exact ⟨_, (step_of_inbox_cons hin).trans hrefuse, hport, hbanks, hcalls, hparams, henv, hinbox,
      hlanes⟩
  · exact (step_of_inbox_cons hin).trans (perElapsed_idle (.inl hhalt))

/-! ### When a command halts CORE (R305, R309, R322) -/

/-- Where no call failed, the last call made was not answered `fail`. -/
theorem noFail.last_call_not_failed {s t : State} (h : noFail s t) :
    ¬ ∃ c older, t.ext = older ++ [⟨c, .fail⟩] ∧ s.ext.length ≤ older.length := by
  rintro ⟨c, older, hlast, hlen⟩
  obtain ⟨new, hnew, hok⟩ := h
  rw [hlast] at hnew
  rcases List.eq_nil_or_concat new with rfl | ⟨before, x, rfl⟩
  · rw [List.append_nil] at hnew
    simp [← hnew] at hlen
  · rw [List.concat_eq_append, ← List.append_assoc] at hnew
    obtain ⟨-, hx⟩ := List.append_inj' hnew rfl
    exact hok x (by simp) (by rw [← List.singleton_inj.1 hx])

/-- A command that CORE accepts while running either halts it with `FATAL_HWINIT` by a failed call,
or leaves it running with another status and no failed call (R305). -/
theorem exec_halts_or_runs {i : Instr} {s t : State} (hrun : s.halted = false)
    (hexec : exec i s = .next t) :
    (t.status = .fatalHwinit ∧ justHalted s t) ∨
    (t.status ≠ .fatalHwinit ∧ t.halted = false ∧ noFail s t) := by
  have htame := tame_opOf i s
  cases hop : opOf i s with
  | ok r u =>
    rw [hop] at htame
    rw [exec_of_opOf_ok hrun hop] at hexec
    cases hexec
    obtain ⟨hkept, hcalls⟩ := htame
    exact .inr ⟨(by decide : Status.ok ≠ .fatalHwinit), hkept.trans hrun, hcalls⟩
  | err e u =>
    rw [hop] at htame
    rw [exec_of_opOf_err hrun hop] at hexec
    cases hexec
    obtain ⟨hne, hkept, hcalls⟩ | hfatal := htame
    · exact .inr ⟨hne, hkept.trans hrun, hcalls⟩
    · exact .inl hfatal

/-- Settles O20: in both ways that a command can end, the three facts agree. -/
theorem haltExactlyOnFailedTimerCall : Obligations.HaltExactlyOnFailedTimerCall := by
  intro i s t hrun hexec
  obtain ⟨hfatal, hhalt, hcall⟩ | ⟨hne, hgoes, hcalls⟩ := exec_halts_or_runs hrun hexec
  · exact ⟨iff_of_true hhalt hfatal, iff_of_true hhalt hcall⟩
  · have hhalt : ¬ t.halted = true := by simp [hgoes]
    exact ⟨iff_of_false hhalt hne, iff_of_false hhalt hcalls.last_call_not_failed⟩

/-- Settles O22: an error drives zero results, and `FATAL_HWINIT` comes of a halted CORE or halts
it. -/
theorem errorsClearResults : Obligations.ErrorsClearResults := by
  intro i s
  cases hrun : s.halted with
  | true =>
    exact ⟨_, (exec_eq i s).trans (command_halted hrun), fun _ => ⟨rfl, rfl, rfl, rfl, rfl⟩,
      fun _ => hrun⟩
  | false =>
    cases hop : opOf i s with
    | ok r u =>
      have hexec := exec_of_opOf_ok hrun hop
      exact ⟨_, hexec, fun hne => absurd rfl hne,
        (haltExactlyOnFailedTimerCall i s _ hrun hexec).1.2⟩
    | err e u =>
      have hexec := exec_of_opOf_err hrun hop
      exact ⟨_, hexec, fun _ => ⟨rfl, rfl, rfl, rfl, rfl⟩,
        (haltExactlyOnFailedTimerCall i s _ hrun hexec).1.2⟩

/-! ### Precise errors (R314) -/

/-- A status is raised on the state the operation was given, or `FATAL_HWINIT` on that state with
some calls answered, the next one failed, and CORE halted. -/
def raisedOn (s : State) (e : Status) (t : State) : Prop :=
  (e ≠ .fatalHwinit ∧ t = s) ∨
  (e = .fatalHwinit ∧ ∃ cs c, t = ((s.emits cs).record c .fail).halt)

/-- The operation has no effect but that of `raisedOn` where it raises a status. -/
def Precise {α : Type} (s : State) : Done α → Prop
  | .ok _ _ => True
  | .err e t => raisedOn s e t

section
variable {α : Type} {s : State}

theorem precise_ok (a : α) (t : State) : Precise s (.ok a t) := trivial

theorem precise_err {e : Status} (h : e ≠ .fatalHwinit) : Precise s (.err e s : Done α) :=
  .inl ⟨h, rfl⟩

theorem precise_of_err {r : Done α} (h : ∀ e t, r = .err e t → raisedOn s e t) : Precise s r := by
  cases r with
  | ok a t => exact precise_ok a t
  | err e t => exact h e t rfl

/-- A test before a precise operation, refusing with a status other than `FATAL_HWINIT`. -/
theorem Precise.guard {p : Prop} [Decidable p] {e : Status} {r : Done α} (h : Precise s r)
    (he : e ≠ .fatalHwinit := by decide) : Precise s (if p then .err e s else r) := by
  split
  · exact precise_err he
  · exact h

theorem Precise.noResults {r : Done Unit} (h : Precise s r) : Precise s (noResults r) := by
  cases r with
  | ok a t => exact precise_ok _ t
  | err e t => exact h

theorem Precise.dutyResult {r : Done NUM} (h : Precise s r) : Precise s (dutyResult r) := by
  cases r with
  | ok a t => exact precise_ok _ t
  | err e t => exact h

theorem precise_withArg0 {op : NUM → State → Done Results} (h : ∀ a, Precise s (op a s)) :
    Precise s (withArg0 op s) := by
  obtain ⟨-, he⟩ | ⟨a, -, he⟩ := withArg0_cases op s <;> rw [he]
  · exact precise_err (by decide)
  · exact h a

/-- A command that reads a duty and returns one is precise where its operation is. -/
theorem precise_withDuty {op : NUM → State → Done NUM} (h : ∀ d, Precise s (op d s)) :
    Precise s (withArg0 (fun d s => dutyResult (op d s)) s) :=
  precise_withArg0 fun d => (h d).dutyResult

theorem precise_withArgs {op : NUM → NUM → NUM → State → Done Results}
    (h : ∀ a b c, Precise s (op a b c s)) : Precise s (withArgs op s) := by
  obtain ⟨-, he⟩ | ⟨a, b, c, -, -, -, he⟩ := withArgs_cases op s <;> rw [he]
  · exact precise_err (by decide)
  · exact h a b c

end

theorem precise_writeField (addr : FieldAddr) (v : NUM) (s : State) :
    Precise s (writeField addr v s) := by
  unfold writeField
  split
  · exact precise_err (by decide)
  · next c _ =>
    obtain ⟨hro, hvalue⟩ := memWrite_err (s := s) (c := c) (v := v)
    cases hw : c.writable with
    | false => rw [hro hw]; exact precise_err (by decide)
    | true =>
      by_cases ha : c.accepts v
      · obtain ⟨t, ht, -⟩ := memWrite_ok (s := s) ha
        rw [ht]; exact precise_ok _ t
      · rw [hvalue hw ha]; exact precise_err (by decide)

theorem precise_readField (addr : FieldAddr) (s : State) : Precise s (readField addr s) := by
  unfold readField
  split
  · exact precise_err (by decide)
  · exact precise_ok _ s

theorem precise_encodeDeadTime (ns clk fsw : NUM) (s : State) :
    Precise s (encodeDeadTime ns clk fsw s) := by
  refine Precise.guard ?_
  cases dtEncode ns clk with
  | none => exact precise_err (by decide)
  | some code => exact precise_ok _ s

theorem precise_updatePair (n sl : Nat) (d : NUM) (s : State) :
    Precise s (updatePair n sl d s) := by
  obtain ⟨hok, herr⟩ := updatePair_spec n sl d s
  by_cases h : s.pairAccepts n sl d
  · rw [hok h]; exact precise_ok _ _
  · obtain ⟨e, hne, he⟩ := herr h
    rw [he]; exact precise_err hne

theorem precise_updateChannel (n sl : Nat) (d : NUM) (s : State) :
    Precise s (updateChannel n sl d s) := by
  obtain ⟨hok, herr⟩ := updateChannel_spec n sl d s
  by_cases h : s.channelAccepts n sl d
  · rw [hok h]; exact precise_ok _ _
  · obtain ⟨e, hne, he⟩ := herr h
    rw [he]; exact precise_err hne

theorem precise_configIrq (u : Nat) (cb : Byte) (prio : Nibble) (e : Bool) (s : State) :
    Precise s (configIrq u cb prio e s) := by
  refine Precise.guard ?_
  cases e with
  | true =>
    simp only [if_true]
    split
    · exact precise_ok _ s
    · exact Precise.guard (precise_ok _ _)
  | false => exact precise_ok _ _

theorem precise_enableLeg (l : Nat) (e : Bool) (s : State) : Precise s (enableLeg l e s) := by
  obtain ⟨hok, herr⟩ := enableLeg_spec l e s
  by_cases h : s.legEnables l
  · rw [hok h]; exact precise_ok _ _
  · obtain ⟨x, hne, hx⟩ := herr h
    rw [hx]; exact precise_err hne

theorem precise_psfbUpdate (j : Nat) (d : NUM) (s : State) : Precise s (psfbUpdate j d s) :=
  Precise.guard (Precise.guard (precise_ok _ _))

theorem precise_rampInit (k : Nat) (s : State) : Precise s (rampInit k s) :=
  Precise.guard (Precise.guard (Precise.guard (precise_ok _ _)))

/-- The simple commands and `CFGPAIR` are precise (R314). -/
theorem precise_opOf {i : Instr} (h : i.precise = true) (s : State) : Precise s (opOf i s) := by
  cases i with
  | wrf addr => exact precise_withArg0 fun v => precise_writeField addr v s
  | rdf addr => exact precise_readField addr s
  | dtenc => exact precise_withArgs fun ns clk fsw => precise_encodeDeadTime ns clk fsw s
  | tinit u sl => exact (precise_of_err (timerInit_spec u sl s).2).noResults
  | cfgpair n sl => exact (precise_of_err (configPair_spec n sl s).2).noResults
  | cfgch n sl => exact (precise_of_err (configChannel_spec n sl s).2).noResults
  | updpair n sl => exact precise_withDuty fun d => precise_updatePair n sl d s
  | updch n sl => exact precise_withDuty fun d => precise_updateChannel n sl d s
  | cfgirq u cb prio e => exact (precise_configIrq u cb prio e s).noResults
  | enleg l e => exact (precise_enableLeg l e s).noResults
  | psfbupd j => exact precise_withDuty fun d => precise_psfbUpdate j d s
  | vfinit k => exact (precise_rampInit k s).noResults
  | cfgleg | capupd | invinit | invupd | invspwm | invact | psfbinit | psfbact | vfstep => cases h

/-- Settles O21: the operation raises its status on the state it was given, or halts with its calls
in the trace. -/
theorem simpleCommandErrorsArePrecise : Obligations.SimpleCommandErrorsArePrecise := by
  intro i s t hp hrun hexec hne
  have hprecise := precise_opOf hp s
  cases hop : opOf i s with
  | ok r u =>
    rw [exec_of_opOf_ok hrun hop] at hexec
    cases hexec
    exact absurd rfl hne
  | err e u =>
    rw [exec_of_opOf_err hrun hop] at hexec
    cases hexec
    rw [hop] at hprecise
    obtain ⟨he, rfl⟩ | ⟨rfl, calls, c, rfl⟩ := hprecise
    · exact ⟨fun _ => refusedWith_drive u e, fun hfatal => absurd hfatal he⟩
    · rw [State.emits_eq]
      exact ⟨fun hnot => absurd rfl hnot, fun _ => ⟨portHolds_drive _ _ _, rfl, rfl,
        ⟨_, List.append_assoc _ _ _⟩, ⟨rfl, rfl, rfl, rfl⟩, fun _ => rfl, fun _ => rfl,
        fun _ => rfl, fun _ => rfl, fun _ => rfl, fun _ => rfl, fun _ => rfl⟩⟩

/-! ### Finite lanes reach the operation (R103, R304) -/

section
variable {s : State} {x : Status}

/-- A command that reads a finite duty is refused where its operation is. -/
theorem withDuty_refused {op : NUM → State → Done NUM} (h : .notFinite ∉ [s.lanes.arg0])
    (hop : ∀ d, op d s = .err x s) : withArg0 (fun d s => dutyResult (op d s)) s = .err x s := by
  obtain ⟨hnone, -⟩ | ⟨d, -, he⟩ := withArg0_cases (fun d s => dutyResult (op d s)) s
  · rw [Lane.value_eq_none] at hnone
    exact absurd (by simp [hnone]) h
  · rw [he, hop, dutyResult_err]

/-- A command that reads a finite angle and modulation index is refused where its operation is. -/
theorem withAngle_refused {op : NUM → NUM → State → Done Duties}
    (h : .notFinite ∉ [s.lanes.arg0, s.lanes.arg1]) (hop : ∀ theta mi, op theta mi s = .err x s) :
    withArg01 (fun theta mi s => dutiesResult (op theta mi s)) s = .err x s := by
  obtain ⟨hnone, -⟩ | ⟨theta, mi, -, -, he⟩ :=
    withArg01_cases (fun theta mi s => dutiesResult (op theta mi s)) s
  · simp only [Lane.value_eq_none] at hnone
    exact absurd (by obtain h0 | h1 := hnone <;> simp [*]) h
  · rw [he, hop, dutiesResult, Done.andThen_err]

/-- A command that reads three finite duties is refused where its operation is. -/
theorem withDuties_refused {op : NUM → NUM → NUM → State → Done Duties}
    (h : .notFinite ∉ [s.lanes.arg0, s.lanes.arg1, s.lanes.arg2])
    (hop : ∀ d0 d1 d2, op d0 d1 d2 s = .err x s) :
    withArgs (fun d0 d1 d2 s => dutiesResult (op d0 d1 d2 s)) s = .err x s := by
  obtain ⟨hnone, -⟩ | ⟨d0, d1, d2, -, -, -, he⟩ :=
    withArgs_cases (fun d0 d1 d2 s => dutiesResult (op d0 d1 d2 s)) s
  · simp only [Lane.value_eq_none] at hnone
    exact absurd (by obtain h0 | h1 | h2 := hnone <;> simp [*]) h
  · rw [he, hop, dutiesResult, Done.andThen_err]

end

/-! ### Missing and unconfigured records (R303) -/

section
variable {s : State} {l u j k : Nat}

theorem capabilityUpdate_not_init (hl : l < s.params.nleg) (hc : (s.legAt l).cap = .none)
    (d : NUM) : capabilityUpdate l d s = .err .errNotInit s := by
  rw [capabilityUpdate, if_neg (by omega), hc]

theorem inverterUpdate_not_init (hu : u < s.params.ninv) (hn : (s.invAt u).init = false)
    (d0 d1 d2 : NUM) : inverterUpdate u d0 d1 d2 s = .err .errNotInit s := by
  rw [inverterUpdate, if_neg (by omega), if_pos hn]

theorem inverterSpwm_not_init (hu : u < s.params.ninv) (hn : (s.invAt u).init = false)
    (dir : Direction) (theta mi : NUM) : inverterSpwm u dir theta mi s = .err .errNotInit s := by
  rw [inverterSpwm, if_neg (by omega), if_pos hn]

theorem inverterActivate_not_init (hu : u < s.params.ninv) (hn : (s.invAt u).init = false)
    (e : Bool) : inverterActivate u e s = .err .errNotInit s := by
  rw [inverterActivate, if_neg (by omega), if_pos hn]

theorem psfbActivate_not_init (hj : j < s.params.npsfb) (hn : (s.psfbAt j).init = false)
    (e : Bool) : psfbActivate j e s = .err .errNotInit s := by
  rw [psfbActivate, if_neg (by omega), if_pos hn]

theorem rampInitRefusal_bad_index (hrun : s.halted = false)
    (h : ¬ (Instr.vfinit k).indexesExist s) : s.rampInitRefusal k .errIndex := by
  rw [State.rampInitRefusal, if_neg (by simp [hrun])]
  by_cases hk : s.params.nvf ≤ k
  · rw [if_pos hk]
  · rw [if_neg hk, if_pos (not_lt.1 fun hi => h ⟨not_le.1 hk, hi⟩)]

theorem rampStepRefusal_bad_index (hrun : s.halted = false)
    (h : ¬ (Instr.vfstep k).indexesExist s) : s.rampStepRefusal k .errIndex := by
  rw [State.rampStepRefusal, if_neg (by simp [hrun])]
  by_cases hk : s.params.nvf ≤ k
  · rw [if_pos hk]
  · have hinit : ¬ ((s.vfAt k).init = true → (s.vfAt k).inv.toNat < s.params.ninv) :=
      fun hi => h ⟨not_le.1 hk, hi⟩
    rw [if_neg hk, if_neg (by simp [(Classical.not_imp.1 hinit).1]),
      if_pos (not_lt.1 (Classical.not_imp.1 hinit).2)]

theorem rampStepRefusal_not_init (hrun : s.halted = false) (h : (Instr.vfstep k).indexesExist s)
    (hn : (Instr.vfstep k).unconfigured s) : s.rampStepRefusal k .errNotInit := by
  obtain ⟨hk, hinv⟩ := h
  rw [State.rampStepRefusal, if_neg (by simp [hrun]), if_neg (by omega)]
  by_cases hinit : (s.vfAt k).init = false
  · rw [if_pos hinit]
  · have hlt := hinv (by simpa using hinit)
    rw [if_neg hinit, if_neg (by omega), if_pos (hn.resolve_left hinit)]

end

/-- An index operand that names no record is the first thing an operation refuses, after the lanes
(R303, R308). -/
theorem opOf_missing {i : Instr} {s : State} (hrun : s.halted = false)
    (hlanes : .notFinite ∉ i.lanesRead s.lanes) (h : ¬ i.indexesExist s) :
    opOf i s = .err .errIndex s := by
  cases i with
  | wrf | rdf | dtenc => exact absurd trivial h
  | tinit u sl => exact congrArg noResults (if_pos ((not_and_or.1 h).imp not_le.1 not_lt.1))
  | cfgpair | cfgch | invinit | invact | psfbinit | psfbact | enleg =>
    exact congrArg noResults (if_pos (not_lt.1 h))
  | cfgirq u cb prio e => exact congrArg noResults (configIrq_bad_index (not_le.1 h) prio e)
  | updpair | updch | capupd | psfbupd =>
    exact withDuty_refused hlanes fun d => if_pos (not_lt.1 h)
  | cfgleg l => rw [opOf_cfgleg, configLeg, if_pos (not_lt.1 h), Done.andThen_err]
  | invspwm u dir => exact withAngle_refused hlanes fun theta mi => if_pos (not_lt.1 h)
  | invupd u => exact withDuties_refused hlanes fun d0 d1 d2 => if_pos (not_lt.1 h)
  | vfinit k =>
    exact congrArg noResults (rampInit_refused hrun (rampInitRefusal_bad_index hrun h))
  | vfstep k => exact rampStep_refused hrun (rampStepRefusal_bad_index hrun h)

/-- A record that is not configured is refused after its index, before anything else it is used for
(R303, R308). -/
theorem opOf_unconfigured {i : Instr} {s : State} (hrun : s.halted = false)
    (hlanes : .notFinite ∉ i.lanesRead s.lanes) (hi : i.indexesExist s) (h : i.unconfigured s) :
    opOf i s = .err .errNotInit s := by
  cases i with
  | wrf | rdf | dtenc | tinit | cfgpair | cfgch | cfgirq | cfgleg | invinit | psfbinit | vfinit =>
    exact h.elim
  | updpair n sl =>
    obtain ⟨h1, hn, hodd, hrole⟩ := h
    refine withDuty_refused hlanes fun d => updatePair_refused hrun ?_
    rw [State.pairDutyRefusal, if_neg (by simp [hrun]), if_neg (not_le.2 hi), if_neg (by omega),
      if_neg (by omega), if_pos hrole]
  | updch n sl =>
    obtain ⟨h1, hn, hrole⟩ := h
    refine withDuty_refused hlanes fun d => updateChannel_refused hrun ?_
    rw [State.channelDutyRefusal, if_neg (by simp [hrun]), if_neg (not_le.2 hi), if_neg (by omega),
      if_pos hrole]
  | enleg l e =>
    have hcap : (s.legAt l).cap = .none := h
    refine congrArg noResults (enableLeg_refused hrun ?_)
    rw [State.enableRefusal, if_neg (by simp [hrun]), if_neg (not_le.2 hi), if_pos hcap]
  | capupd l => exact withDuty_refused hlanes fun d => capabilityUpdate_not_init hi h d
  | invupd u =>
    exact withDuties_refused hlanes fun d0 d1 d2 => inverterUpdate_not_init hi h d0 d1 d2
  | invspwm u dir =>
    exact withAngle_refused hlanes fun theta mi => inverterSpwm_not_init hi h dir theta mi
  | invact u e => exact congrArg noResults (inverterActivate_not_init hi h e)
  | psfbupd j => exact withDuty_refused hlanes fun d => psfbUpdate_not_init hi h d
  | psfbact j e => exact congrArg noResults (psfbActivate_not_init hi h e)
  | vfstep k => exact rampStep_refused hrun (rampStepRefusal_not_init hrun hi h)

/-- Settles O24: the operation raises the status of its record on the state it was given. -/
theorem useBeforeConfigurationIsRefused : Obligations.UseBeforeConfigurationIsRefused :=
  fun _ _ hrun hlanes => ⟨fun h => turnsAway_of_opOf_err hrun (opOf_missing hrun hlanes h),
    fun hi h => turnsAway_of_opOf_err hrun (opOf_unconfigured hrun hlanes hi h)⟩

end Sys2Proof.Machine
end

section
/-! SUPPORT. The statements of 70_reset_and_hazards.md: where a step stops the machine, what `RESET`
restores, and the invariants of the reset state. -/

namespace Sys2Proof.Machine

/-! ### Where a step stops (R346, U6) -/

/-- Every word goes on, whether it decodes or not (R300). -/
theorem exists_next_runWord (cw : Word) (s : State) : ∃ t, runWord cw s = .next t := by
  unfold runWord
  split
  · exact exec_next _ s
  · exact ⟨_, rfl⟩

/-- A period event goes on where it is idle, where its callback slot holds null or a controller, and
where its external callback returns (R172). -/
theorem exists_next_perElapsed {s : State} {u : Nat}
    (h : s.halted = true ∨ (s.timAt u).init = false ∨ (s.timAt u).cb.toNat ≤ s.params.nvf ∨
      s.callNo ∉ s.env.callbackHangs) : ∃ t, perElapsed u s = .next t := by
  cases hrun : s.halted with
  | true => exact ⟨_, perElapsed_idle (.inl hrun)⟩
  | false =>
    cases hinit : (s.timAt u).init with
    | false => exact ⟨_, perElapsed_idle (.inr hinit)⟩
    | true =>
      obtain ⟨hnone, hramp, hext, -⟩ := perElapsed_callback hrun hinit
      by_cases hcb : (s.timAt u).cb = 0
      · exact ⟨_, hnone hcb⟩
      by_cases hnvf : (s.timAt u).cb.toNat ≤ s.params.nvf
      · exact ⟨_, hramp hcb hnvf⟩
      · have hreturns : s.callNo ∉ s.env.callbackHangs := by
          simpa [hrun, hinit, hnvf] using h
        exact ⟨_, hext (Nat.lt_of_not_le hnvf) hreturns⟩

/-- The machine goes on unless the next event hangs (R346). -/
theorem exists_next_step {s : State} (h : s.nextEventReturns) : ∃ t, step s = .next t := by
  cases hin : s.inbox with
  | nil => exact ⟨_, step_of_inbox_nil hin⟩
  | cons event rest =>
    rw [step_of_inbox_cons hin]
    cases event with
    | command cw lanes => exact exists_next_runWord cw _
    | perElapsed u => exact exists_next_perElapsed (s := { s with inbox := rest }) (h u rest hin)
    | reset => exact ⟨_, rfl⟩

/-- Only an active period event with an external callback that hangs does not return (U6). -/
theorem exists_hanging_event {s : State} (h : ¬ s.nextEventReturns) :
    ∃ (u : Fin 2) (rest : List Event), s.inbox = .perElapsed u :: rest ∧ s.halted = false ∧
      (s.timAt u.val).init = true ∧ s.params.nvf < (s.timAt u.val).cb.toNat ∧
      s.callNo ∈ s.env.callbackHangs := by
  unfold State.nextEventReturns at h
  push Not at h
  obtain ⟨u, rest, hin, hhalt, hinit, hext, hhangs⟩ := h
  exact ⟨u, rest, hin, eq_false_of_ne_true hhalt, eq_true_of_ne_false hinit, hext, hhangs⟩

/-- Settles O8: words always end with a status, and of the four cases of a period event only the
hung external callback is a fault. -/
theorem stepStopsOnlyOnHungCallback : Obligations.StepStopsOnlyOnHungCallback := by
  refine fun s => ⟨exists_next_step, fun h => ?_⟩
  obtain ⟨u, rest, hin, hrun, hinit, hext, hhangs⟩ := exists_hanging_event h
  obtain ⟨-, -, -, hfault⟩ := perElapsed_callback (s := { s with inbox := rest }) hrun hinit
  exact ⟨u, rest, hin, (step_of_inbox_cons hin).trans (hfault hext hhangs)⟩

/-! ### What `RESET` restores (R40, R340, R341) -/

/-- After `RESET` every cell of the register file reads 0, whatever its form (R40, R340). -/
theorem number_memRead_doReset (s : State) (c : Cell) :
    (memRead (doReset s) c).number = .rat 0 := by
  cases c with
  | glb f | tim _ f | ch _ f | cfg _ f | leg _ f | inv _ f | psfb _ f | vf _ f => cases f <;> rfl

theorem portShows_doReset (s : State) : portShows (doReset s) .ok 0 0 0 0 0 :=
  ⟨rfl, rfl, rfl, rfl, rfl, rfl⟩

/-- `RESET` makes no external call and keeps the trace so far (R341, log 8). -/
theorem sameCalls_doReset (s : State) : sameCalls s (doReset s) := ⟨rfl, rfl⟩

/-- `RESET` finds nothing to restore in the state after power-on (R340). -/
theorem doReset_reset : doReset State.reset = State.reset := rfl

/-! ### The way out of `HALTED` (R305, R340) -/

/-- No update clears `HALTED`; a failed timer-base call sets it (R305). -/
theorem Change.keeps_halted {s t : State} (h : Change s t) (hs : s.halted = true) :
    t.halted = true := by
  cases h with
  | halt => exact State.halt_halted _
  | _ => exact hs

/-- A step that is no `RESET` leaves CORE halted where it was (R305). -/
theorem step_keeps_halted {s t : State} (h : step s = .next t)
    (hin : ∀ rest, s.inbox ≠ .reset :: rest) (hs : s.halted = true) : t.halted = true := by
  rcases step_cases h with ⟨rest, hreset, -⟩ | ⟨-, _, _, hr | ⟨u, e, r, hr, rfl⟩⟩
  · exact absurd hreset (hin rest)
  · exact hr.keeps (fun _ _ => Change.keeps_halted) hs
  · exact hr.keeps (P := fun v => v.halted = true) (fun _ _ => Change.keeps_halted) hs

/-- Settles O9: `RESET` is one case of a step, no other step leaves `HALTED`, and the state after
power-on is its own reset. -/
theorem resetEventRestoresEveryField : Obligations.ResetEventRestoresEveryField := by
  refine ⟨fun s rest hin => ?_, fun s t hhalt hstep hruns => ?_, ?_, ?_⟩
  · exact ⟨_, step_of_inbox_cons hin, number_memRead_doReset _, portShows_doReset _,
      sameCalls_doReset { s with inbox := rest }, rfl, rfl, rfl⟩
  · by_contra hin
    have hkept := step_keeps_halted hstep (not_exists.1 hin) hhalt
    simp [hruns] at hkept
  · exact doReset_reset ▸ number_memRead_doReset State.reset
  · exact doReset_reset ▸ portShows_doReset State.reset

/-! ### The invariants of the reset state (R6, R40) -/

/-- No timer is initialised after `RESET` (R27, R340). -/
theorem doReset_periodsFit (s : State) : (doReset s).periodsFit := fun _ hinit => nomatch hinit

/-- Every angle is 0 after `RESET` (R36, R340). -/
theorem doReset_anglesInTurn (s : State) : (doReset s).anglesInTurn := fun _ => inOneTurn_zero

/-- After `RESET` no leg has a capability and every callback slot is null (R27, R33, R340). -/
theorem doReset_codesLegal (s : State) : (doReset s).codesLegal :=
  ⟨fun l => by rw [doReset_legAt]; decide, fun _ => .inl rfl⟩

/-- No output is enabled after `RESET` (R26, R340). -/
theorem doReset_oenWithinPins (s : State) : (doReset s).oenWithinPins :=
  fun _ _ => BitVec.getLsbD_zero

/-- Settles O10: the parameters are valid by construction, and the rest holds after every `RESET`, of
which the reset state is one. -/
theorem resetStateMeetsInvariants : Obligations.ResetStateMeetsInvariants := by
  obtain ⟨hderived, -⟩ := deadTimeStateStaysDerived
  exact ⟨State.reset_params_valid, State.banksWf_reset, hderived, doReset_periodsFit State.reset,
    doReset_comparesFit State.reset, doReset_anglesInTurn State.reset,
    doReset_codesLegal State.reset, doReset_oenWithinPins State.reset⟩

end Sys2Proof.Machine
end
